-- ==== Sys2Proof/Word.lean ====
section
/-! DEFINITION. The word types of the PN-38 model: backplane words and bytes, and the numbered things of the manual
(nodes, tags, channels, slots, write tags, interrupt sources). -/

namespace Sys2Proof

/-- A byte of a payload. -/
abbrev Byte := BitVec 8

/-- A word is 32 bits (00_scope.md, "Words and bytes"). -/
abbrev Word := BitVec 32

/-- A node number, 0–15 (00_scope.md, "Node numbers"). -/
abbrev Node := Fin 16

/-- A transaction tag, 0–15 (R4). -/
abbrev Tag := Fin 16

/-- A set of nodes, stored as a 16-bit mask in which bit n stands for node n (00_scope.md, "Sets and lists"). -/
abbrev Mask := BitVec 16

/-- A sampling channel, 0–3. -/
abbrev ChanId := Fin 4

/-- A watch slot, 0–7. -/
abbrev SlotId := Fin 8

/-- One of the ring engine's five write tags (R129): 0–3 are record tags, 4 is the writeback tag. -/
abbrev WTag := Fin 5

/-- An interrupt source, 0–7; a lower number is more urgent (R168). -/
abbrev Source := Fin 8

end Sys2Proof
end

