-- ==== Sys2Proof/Syntax.lean ====
section
/-! DEFINITION. The beats of the Keelway backplane (R4, R5) and the commands of the PN-38: one constructor of `Instr` for
each row of spec/opcode_table.json.

Three sorts of row stand in the table. An EVENT row is something that comes from outside (R1): a beat, a tick, a presence
change, a reset line. A WINDOW row is an event too: the request beat that reaches one register, or that carries one
command word. A STEP row is a part of an event's reaction that the table lists as a step of its own (log entry 3). -/

namespace Sys2Proof

/-- Request kinds (R4). -/
inductive ReqKind
  | read | write | swap | posted | broadcast
  deriving DecidableEq, Repr

/-- A request beat (R4). `target` is absent for BROADCAST; `payload` is empty where the kind carries none. -/
structure Request where
  initiator : Node
  target : Option Node
  tag : Tag
  kind : ReqKind
  reissue : Bool
  address : Word
  length : Nat
  payload : List Byte
  deriving DecidableEq, Repr

/-- What a reply beat says (R5): the kind, with the fault code of a FAULT and the payload of a DATA. -/
inductive ReplyBody
  | data (payload : List Byte)
  | done
  | bounce
  | fault (code : BitVec 4)
  deriving DecidableEq, Repr

/-- A reply beat (R5). -/
structure Reply where
  responder : Node
  initiator : Node
  tag : Tag
  body : ReplyBody
  deriving DecidableEq, Repr

/-- A beat that the observer places on the backplane (R3, R14). -/
inductive Beat
  | request (r : Request)
  | reply (r : Reply)
  deriving DecidableEq, Repr

/-- The final reply kinds of R5, with what they carry. -/
inductive FinalKind
  | data (payload : List Byte)
  | done
  | fault (code : BitVec 4)
  deriving DecidableEq, Repr

/-- The two replies the ring engine takes as a completion: DONE, and DATA taken as DONE (R15). -/
inductive Completion
  | done
  | data (payload : List Byte)
  deriving DecidableEq, Repr

/-- Kinds of a target access: every kind but BROADCAST (R11). -/
inductive AccessKind
  | read | write | swap | posted
  deriving DecidableEq, Repr

/-- A target access: a request beat addressed to OWN_ID (R11), with the fields of R4. -/
structure Access where
  initiator : Node
  tag : Tag
  kind : AccessKind
  reissue : Bool
  address : Word
  length : Nat
  payload : List Byte
  deriving DecidableEq, Repr

/-- Who writes a register and how: a 4-byte WRITE, or POSTED, to the register's offset. `page` is the address above bit 9,
which the window ignores (R19); the reissue flag is ignored too (R12). -/
structure Writer where
  initiator : Node
  tag : Tag
  posted : Bool
  reissue : Bool
  page : BitVec 22
  deriving DecidableEq, Repr

/-- Who reads a register: a 4-byte READ of the register's offset. -/
structure Reader where
  initiator : Node
  tag : Tag
  reissue : Bool
  page : BitVec 22
  deriving DecidableEq, Repr

/-- The fourteen commands of the command port (R151). -/
inductive Command
  | start | pause | arm | disarm | release | purge | snapshot | readWatch | setTime | ringStart | ringStop | drain
  | selectOutput | reset
  deriving DecidableEq, Repr

/-- The command codes of R151. -/
def Command.code : Command → BitVec 8
  | .start => 0x01
  | .pause => 0x02
  | .arm => 0x10
  | .disarm => 0x11
  | .release => 0x12
  | .purge => 0x13
  | .snapshot => 0x20
  | .readWatch => 0x21
  | .setTime => 0x30
  | .ringStart => 0x40
  | .ringStop => 0x41
  | .drain => 0x42
  | .selectOutput => 0x43
  | .reset => 0x50

/-- The fourteen commands in the order of R151's table. -/
def Command.all : List Command :=
  [.start, .pause, .arm, .disarm, .release, .purge, .snapshot, .readWatch, .setTime, .ringStart, .ringStop, .drain,
    .selectOutput, .reset]

/-- The command that a code names, if any (R151). -/
def Command.ofCode (code : BitVec 8) : Option Command := Command.all.find? fun c => c.code = code

/-- Whether a command takes a parameter word (R151). -/
def Command.takesParam : Command → Bool
  | .start => false
  | .pause => false
  | .ringStop => false
  | .arm => true
  | .disarm => true
  | .release => true
  | .purge => true
  | .snapshot => true
  | .readWatch => true
  | .setTime => true
  | .ringStart => true
  | .drain => true
  | .selectOutput => true
  | .reset => true

/-- The commands of the PN-38: one constructor per row of spec/opcode_table.json, in the table's order. -/
inductive Instr
  /-- Release of the device reset input, with the levels that the strap pins and presence lines have at it (R18, R180; log entry
  23). -/
  | powerOnReset (straps : Node) (lines : Mask)
  /-- Assertion of the backplane reset line (R181). -/
  | backplaneResetAssert
  /-- Release of the backplane reset line (R182). -/
  | backplaneReset
  /-- The presence line of node n rises (R9). -/
  | arrival (n : Node)
  /-- The presence line of node n falls (R9, R184). -/
  | withdrawal (n : Node)
  /-- A tick (R40). -/
  | tick
  /-- Step: the visit of slot i in step 2 of a tick (R85). -/
  | slotExpiry (i : SlotId)
  /-- Step: the reissue of a tag whose backoff has run out (R134). -/
  | backoffReissue (t : WTag)
  /-- Step: the write-limit test of an ISSUED tag (R135, R40). -/
  | timeout (t : WTag)
  /-- Step: the write-limit test of an ORPHANED tag (R138, R40). -/
  | orphanFree (t : WTag)
  /-- Step: the timeout test of an EXECUTING DRAIN (R164). -/
  | drainTimedOut
  /-- A request beat from another node (R11, R58). -/
  | snoopedRequest (r : Request)
  /-- A DATA, DONE or FAULT reply to another node's request (R79, R80). -/
  | finalReply (responder initiator : Node) (tag : Tag) (kind : FinalKind)
  /-- A BOUNCE reply to another node's request (R81). -/
  | slotBounce (responder initiator : Node) (tag : Tag)
  /-- Any reply beat; counted as a stray where it answers nothing (R16). -/
  | strayReply (r : Reply)
  /-- Step: entry of the close queue's head into staging (R109). -/
  | closeQueueEntry
  /-- Step: the move of staging's head into the result queue (R117). -/
  | resultQueueEntry
  /-- Step: issue, or drop, of staging's head by the ring engine (R130, R131). -/
  | issue
  /-- Step: issue of a GAP record (R130 case 4). -/
  | gapIssue
  /-- DONE, or DATA taken as DONE, for a record tag (R133). -/
  | writeDone (responder : Node) (t : Fin 4) (c : Completion)
  /-- Step: the commit run (R133). -/
  | commit
  /-- Step: issue of an index writeback (R140). -/
  | writeback
  /-- DONE, or DATA taken as DONE, for the writeback tag (R141). -/
  | writebackDone (responder : Node) (c : Completion)
  /-- BOUNCE for a write tag (R134). -/
  | writeBounce (responder : Node) (t : WTag)
  /-- FAULT for a write tag (R135). -/
  | remoteFault (responder : Node) (t : WTag) (code : BitVec 4)
  /-- A reply of any kind for a write tag, freeing an orphan (R138). -/
  | orphanReply (responder : Node) (t : WTag) (body : ReplyBody)
  /-- Step: the end of a ring stop (R145). -/
  | ringStopComplete
  /-- Step: the drain test (R164). -/
  | drainComplete
  /-- Step: the alert check (R176). -/
  | alert
  /-- Write to CLAIM (R27). -/
  | claim (w : Writer) (v : Word)
  /-- Write to RELINQUISH (R28). -/
  | relinquish (w : Writer) (v : Word)
  /-- Write to MARKER (R111–R113). -/
  | marker (w : Writer) (v : Word)
  /-- A target access of any kind, offset and length (R19–R25). -/
  | registerWrite (a : Access)
  /-- Read of QUEUE_DATA (R118). -/
  | queueData (r : Reader)
  /-- Write to QUEUE_PTR (R119). -/
  | queuePtr (w : Writer) (v : Word)
  /-- Write to CONSUMER (R127). -/
  | consumer (w : Writer) (v : Word)
  /-- Read of RESULT_PORT (R154). -/
  | resultPort (r : Reader)
  /-- Write to CMD_CANCEL (R155). -/
  | cmdCancel (w : Writer) (v : Word)
  /-- Opening word of command c; `high` is bits 31:8, which are ignored (R151). -/
  | commandOpen (w : Writer) (c : Command) (high : BitVec 24)
  /-- Opening word v whose code is no command (R151). -/
  | invalidCommand (w : Writer) (v : Word)
  /-- Opening word of START (R45). -/
  | start (w : Writer) (high : BitVec 24)
  /-- Opening word of PAUSE (R46). -/
  | pause (w : Writer) (high : BitVec 24)
  /-- Parameter word of SET_TIME (R39). -/
  | setTime (w : Writer) (v : Word)
  /-- Parameter word of ARM (R62). -/
  | arm (w : Writer) (v : Word)
  /-- Parameter word of DISARM (R63). -/
  | disarm (w : Writer) (v : Word)
  /-- Parameter word of RELEASE (R64). -/
  | release (w : Writer) (v : Word)
  /-- Parameter word of PURGE (R90). -/
  | purge (w : Writer) (v : Word)
  /-- Parameter word of SNAPSHOT (R159). -/
  | snapshot (w : Writer) (v : Word)
  /-- Parameter word of READ_WATCH (R160). -/
  | readWatch (w : Writer) (v : Word)
  /-- Parameter word of RING_START (R143, R144). -/
  | ringStart (w : Writer) (v : Word)
  /-- Opening word of RING_STOP (R145, R162). -/
  | ringStop (w : Writer) (high : BitVec 24)
  /-- Parameter word of DRAIN (R163). -/
  | drain (w : Writer) (v : Word)
  /-- Parameter word of SELECT_OUTPUT (R116). -/
  | selectOutput (w : Writer) (v : Word)
  /-- Parameter word of RESET naming SAMPLING; `others` adds further bits to the mask (R165). -/
  | resetSampling (w : Writer) (others : Word)
  /-- Parameter word of RESET naming OUTPUT. -/
  | resetOutput (w : Writer) (others : Word)
  /-- Parameter word of RESET naming STATISTICS. -/
  | resetStatistics (w : Writer) (others : Word)
  /-- Parameter word of RESET naming INTERRUPTS. -/
  | resetInterrupts (w : Writer) (others : Word)
  /-- INT_CTRL write, action SET_IE on source k; `junk` fills the ignored bits (R171). -/
  | setIe (w : Writer) (k : Source) (junk : Word)
  /-- INT_CTRL write, action CLEAR_IE. -/
  | clearIe (w : Writer) (k : Source) (junk : Word)
  /-- INT_CTRL write, action SET_IP. -/
  | setIp (w : Writer) (k : Source) (junk : Word)
  /-- INT_CTRL write, action CLEAR_IP. -/
  | clearIp (w : Writer) (k : Source) (junk : Word)
  /-- INT_CTRL write, action SET_IUS. -/
  | setIus (w : Writer) (k : Source) (junk : Word)
  /-- INT_CTRL write, action CLEAR_IUS. -/
  | clearIus (w : Writer) (k : Source) (junk : Word)
  /-- INT_CTRL write, action CLEAR_ERR. -/
  | clearErr (w : Writer) (k : Source) (junk : Word)
  /-- INT_CTRL write, action CLEAR_ALL. -/
  | clearAll (w : Writer) (k : Source) (junk : Word)
  /-- Read of ACK (R173). -/
  | ack (r : Reader)
  /-- Write to END (R174). -/
  | endService (w : Writer) (v : Word)
  /-- Assertion of the device reset input (R18). -/
  | deviceResetAssert
  deriving DecidableEq, Repr

end Sys2Proof
end

