-- ==== Sys2Proof/Decode.lean ====
section
/-! DEFINITION. Decoding of the table's words. spec/opcode_table.json gives bits to none of its rows ("fields": [] in all
68, and "n_rows_with_fixed": 0 in spec/98_reader.md), so no word of the table spells a command. What the observer itself
decodes, the window's offsets and command codes, is in Machine/Operands.lean and Syntax.lean. -/

namespace Sys2Proof

/-- The command that a word spells by the table's bits: none, for every width and every word, because no row has bits. -/
def decodeTableWord (_nbits _w : Nat) : Option Instr := none

end Sys2Proof
end

