-- ==== Sys2Proof/Config.lean ====
section
/-! DEFINITION. What one PN-38 fixes: the capacities of 00_scope.md ("Capacities at a glance"), the identity constants of
R31, and the two pin levels that State.reset takes because the spec leaves them to the board (log entry 2). The spec leaves
no instruction's result open, so this file holds no free value. -/

namespace Sys2Proof.Config

/-- Staging FIFO capacity (R108). -/
def stagingCap : Nat := 8

/-- Result queue capacity (R117). -/
def queueCap : Nat := 16

/-- Longest bounce run a write survives: the ninth bounce faults the ring (R134). -/
def bounceLimit : Nat := 9

/-- Part number in IDENT bits 31:16 (R31). -/
def partNumber : BitVec 16 := 0x5338

/-- Revision in IDENT bits 15:8 (R31). -/
def revision : BitVec 8 := 0x01

/-- DESIGN CHOICE (log entry 2): the strap level State.reset is latched from. The spec leaves it to the board.
Node 9 is the number that every worked example of the spec gives the observer. -/
def resetStraps : Node := 9

/-- DESIGN CHOICE (log entry 2): the presence lines of the other nodes at State.reset: none is asserted. -/
def resetLines : Mask := 0

end Sys2Proof.Config
end

