-- ==== Sys2Proof/Machine/State.lean ====
section
/-! DEFINITION. The state of the PN-38, block by block, and its value after power-on reset (R180). State holds every piece
of state the spec gives the machine, the pins R185 lists, and the model's own queue of waiting commands. -/

namespace Sys2Proof.Machine

/-- Why the machine stops: never. The spec gives every event an effect in every state, so no rule stops the observer and no
command of this model faults. The type has no constructor. -/
inductive Fault
  deriving DecidableEq, Repr

/-- Why the model gives no meaning. -/
inductive Refusal
  /-- Raised by `exec` for a row that has no meaning yet (none at present). Safe: the machine stops. -/
  | notModelled (mnemonic : String)
  deriving DecidableEq, Repr

/-! ### Records (R98) -/

/-- A composed record: eight words (R98). Its type, channel and sequence number are read from the words. -/
structure Record where
  w0 : Word
  w1 : Word
  w2 : Word
  w3 : Word
  w4 : Word
  w5 : Word
  w6 : Word
  w7 : Word
  deriving DecidableEq, Repr

/-- The contents of a cleared record field: eight words of 0. -/
def Record.zero : Record := ⟨0, 0, 0, 0, 0, 0, 0, 0⟩

/-! ### Timebase (Chapter 3) -/

/-- The observation state (R44). -/
inductive ObsState
  | paused | observing
  deriving DecidableEq, Repr

/-- The timebase: divider count and active period (R35), PRESCALE (R36), TIME (R37), LFSR (R42), observation state (R44). -/
structure Timebase where
  divider : BitVec 13
  active : BitVec 13
  prescale : BitVec 13
  time : Word
  lfsr : BitVec 16
  obs : ObsState
  deriving DecidableEq, Repr

/-! ### Sampling channels (Chapter 4) -/

/-- Channel run states (R52). -/
inductive RunState
  | disarmed | counting | armed | held
  deriving DecidableEq, Repr

/-- CH_LATFILT.SEL: which latency the latency test uses (R49). -/
inductive LatSel
  | wait | total
  deriving DecidableEq, Repr

/-- CH_CTRL.NOTIFY (R49). -/
inductive Notify
  | stream | each
  deriving DecidableEq, Repr

/-- The nine configuration registers of one channel's bank, field by field (R49). -/
structure Bank where
  kinds : BitVec 5
  init : Mask
  targ : Mask
  wlo : Word
  whi : Word
  period : BitVec 24
  jitter : BitVec 4
  quota : BitVec 4
  sigMask : BitVec 16
  sigMatch : BitVec 16
  thresh : BitVec 16
  sel : LatSel
  inv : Bool
  window : Bool
  notify : Notify
  deriving DecidableEq, Repr

/-- The eight statistics of one channel (R68). -/
structure ChanStats where
  counted : Word
  fires : Word
  selected : Word
  collisions : Word
  heldover : Word
  filtered : Word
  delivered : Word
  discarded : Word
  deriving DecidableEq, Repr

/-- A sampling channel: bank, run state, COUNT, LOSS and statistics (R49, R52, R68). -/
structure Channel where
  bank : Bank
  run : RunState
  count : BitVec 24
  loss : Bool
  stats : ChanStats
  deriving DecidableEq, Repr

/-! ### Watch slots (Chapter 5) -/

/-- Slot states (R73); `opened` is the manual's OPEN. -/
inductive SlotState
  | free | reserved | opened | bounced | closing
  deriving DecidableEq, Repr

/-- The six outcomes of a watched transaction (R77, R87). -/
inductive Ending
  | completed | faulted | expired | superseded | abandoned | unreplied
  deriving DecidableEq, Repr

/-- The fields of a watch slot (R74). -/
structure Slot where
  state : SlotState
  channel : ChanId
  initiator : Node
  target : Option Node
  tag : Tag
  kind : ReqKind
  address : Word
  length : Nat
  issueTime : Word
  age : BitVec 16
  wait : Option (BitVec 16)
  total : Option (BitVec 16)
  bounces : BitVec 4
  reissued : Bool
  anomaly : Bool
  outcome : Option Ending
  faultCode : Option (BitVec 4)
  closeTime : Option Word
  deriving DecidableEq, Repr

/-- A FREE slot: every field cleared (R74). -/
def Slot.cleared : Slot :=
  { state := .free, channel := 0, initiator := 0, target := none, tag := 0, kind := .read, address := 0, length := 0,
    issueTime := 0, age := 0, wait := none, total := none, bounces := 0, reissued := false, anomaly := false,
    outcome := none, faultCode := none, closeTime := none }

/-! ### Output path (Chapters 6 and 7) -/

/-- The output mode (R115). -/
inductive OutMode
  | queue | ring
  deriving DecidableEq, Repr

/-- The output path: staging (R108), result queue (R117), QUEUE_PTR (R119), QUEUE_THRESHOLD (R120), output mode (R115) and
the sequence counter (R105). -/
structure Path where
  staging : List Record
  results : List Record
  ptr : Fin 8
  threshold : BitVec 5
  mode : OutMode
  seq : BitVec 16
  deriving DecidableEq, Repr

/-! ### Ring engine (Chapter 8) -/

/-- Ring states (R128). -/
inductive RingState
  | idle | running | stopping | faulted
  deriving DecidableEq, Repr

/-- Write tag states (R129). -/
inductive TagState
  | free | issued | backoff | done | orphaned
  deriving DecidableEq, Repr

/-- RING_POLICY.FULL_POLICY (R125). -/
inductive FullPolicy
  | stall | drop
  deriving DecidableEq, Repr

/-- Fault causes 1–5 (R135); an absent cause is code 0. -/
inductive RingCause
  | remoteFault | bounceLimit | timeout | targetGone | backplaneReset
  deriving DecidableEq, Repr

/-- RING_FAULT (R139). -/
structure RingFaultReg where
  cause : Option RingCause
  isWriteback : Bool
  remoteCode : BitVec 4
  tag : WTag
  position : BitVec 17
  deriving DecidableEq, Repr

/-- RING_FAULT cleared (R139). -/
def RingFaultReg.cleared : RingFaultReg :=
  { cause := none, isWriteback := false, remoteCode := 0, tag := 0, position := 0 }

/-- One write tag (R129). `record` and `position` serve tags 0–3, `value` serves tag 4. -/
structure WriteTag where
  state : TagState
  record : Record
  position : BitVec 17
  value : BitVec 17
  dest : Node
  bounces : Nat
  backoff : BitVec 8
  age : BitVec 16
  deriving DecidableEq, Repr

/-- A FREE tag: its fields cleared (R129). -/
def WriteTag.cleared : WriteTag :=
  { state := .free, record := Record.zero, position := 0, value := 0, dest := 0, bounces := 0, backoff := 0, age := 0 }

/-- The ring engine: configuration (R125), indexes (R126), state (R128), tags (R129), pending loss (R132) and RING_FAULT
(R139). -/
structure Ring where
  node : Node
  base : Word
  size : BitVec 17
  policy : FullPolicy
  backoff : BitVec 8
  threshold : BitVec 17
  writeLimit : BitVec 16
  wbAddr : Word
  producer : BitVec 17
  consumer : BitVec 17
  state : RingState
  tags : Vector WriteTag 5
  lostPending : Word
  firstLost : BitVec 16
  fault : RingFaultReg
  deriving DecidableEq, Repr

/-! ### Command processor (Chapter 9) -/

/-- Command phases (R149). -/
inductive Phase
  | idle | params | executing | result
  deriving DecidableEq, Repr

/-- The command processor (R149): phase, current code, result buffer, DRAIN tick count with the timeout its parameter gave
(R163), last status and code (R150) and the DISCARDED flag. -/
structure Processor where
  phase : Phase
  code : BitVec 8
  results : List Word
  drainTicks : Word
  drainTimeout : Word
  lastStatus : BitVec 4
  lastCode : BitVec 8
  discarded : Bool
  deriving DecidableEq, Repr

/-! ### Interrupts and alerts (Chapter 10) -/

/-- The interrupt controller and alert sender: the five flags of each source, bit n for source n (R169, R170), MIE (R170),
ALERT_NODE, ALERT_ADDR and the alert count (R175). -/
structure Ints where
  ie : BitVec 8
  ip : BitVec 8
  ius : BitVec 8
  err : BitVec 8
  alerted : BitVec 8
  mie : Bool
  alertNode : Node
  alertEnable : Bool
  alertAddr : Word
  alertCount : BitVec 8
  deriving DecidableEq, Repr

/-! ### Device statistics and pins -/

/-- The eight device statistics (R33). -/
structure DevStats where
  markersAccepted : Word
  markersRefused : Word
  strayReplies : Word
  windowRefusals : Word
  recordsLost : Word
  anomalies : Word
  slotsExpired : Word
  purged : Word
  deriving DecidableEq, Repr

/-- The pins of R185: the strap and presence line levels, and whether each reset line is asserted. -/
structure Pins where
  straps : Node
  lines : Mask
  backplaneReset : Bool
  deviceReset : Bool
  deriving DecidableEq, Repr

/-- The whole observer. `outbox` is the beats emitted and not yet placed, oldest first (R3, R17). `pending` is the MODEL's
own queue of commands waiting to be taken, first in first out. -/
structure State where
  pins : Pins
  ownId : Node
  present : Mask
  outbox : List Beat
  owner : Option Node
  bank : ChanId
  dev : DevStats
  tb : Timebase
  chans : Vector Channel 4
  slots : Vector Slot 8
  closeQueue : List SlotId
  watchLimit : BitVec 16
  path : Path
  ring : Ring
  cmd : Processor
  ints : Ints
  pending : List Instr
  deriving DecidableEq, Repr

/-! ### Power-on values (R180) -/

/-- The power-on bank (R49). -/
def Bank.powerOn : Bank :=
  { kinds := 0x1F, init := 0xFFFF, targ := 0xFFFF, wlo := 0, whi := 0, period := 65536, jitter := 0, quota := 1,
    sigMask := 0, sigMatch := 0, thresh := 0, sel := .wait, inv := false, window := false, notify := .stream }

/-- Channel statistics all 0 (R68). -/
def ChanStats.zero : ChanStats := ⟨0, 0, 0, 0, 0, 0, 0, 0⟩

/-- Device statistics all 0 (R33). -/
def DevStats.zero : DevStats := ⟨0, 0, 0, 0, 0, 0, 0, 0⟩

/-- The power-on channel (R72). -/
def Channel.powerOn : Channel :=
  { bank := Bank.powerOn, run := .disarmed, count := 0, loss := false, stats := ChanStats.zero }

/-- The power-on timebase (R48). -/
def Timebase.powerOn : Timebase :=
  { divider := 0, active := 64, prescale := 64, time := 0, lfsr := 0x0001, obs := .paused }

/-- The power-on output path (R107, R124). -/
def Path.powerOn : Path :=
  { staging := [], results := [], ptr := 0, threshold := 1, mode := .queue, seq := 0 }

/-- The power-on ring engine (R125, R148). -/
def Ring.powerOn : Ring :=
  { node := 0, base := 0, size := 16, policy := .stall, backoff := 16, threshold := 1, writeLimit := 1024, wbAddr := 0,
    producer := 0, consumer := 0, state := .idle, tags := Vector.replicate 5 WriteTag.cleared, lostPending := 0,
    firstLost := 0, fault := RingFaultReg.cleared }

/-- The power-on command processor (R167). The rules give no power-on value for the held DRAIN timeout: 0 is a DESIGN CHOICE
(log entry 19). -/
def Processor.powerOn : Processor :=
  { phase := .idle, code := 0, results := [], drainTicks := 0, drainTimeout := 0, lastStatus := 15, lastCode := 0,
    discarded := false }

/-- The power-on interrupt controller (R179). -/
def Ints.powerOn : Ints :=
  { ie := 0, ip := 0, ius := 0, err := 0, alerted := 0, mie := false, alertNode := 0, alertEnable := false,
    alertAddr := 0, alertCount := 0 }

/-- The presence line of node n as a mask. -/
def lineOf (n : Node) : Mask := 1#16 <<< n.val

/-- The state at the release of power-on reset (R18, R180): OWN_ID latched from the straps, PRESENT loaded from the lines
with OWN_ID added, every other piece at its power-on value. `line` is the level of the backplane reset line, which the
release does not change (R18), and `queue` the model's waiting commands. -/
def State.powerOn (straps : Node) (lines : Mask) (line : Bool) (queue : List Instr) : State :=
  { pins := { straps := straps, lines := lines ||| lineOf straps, backplaneReset := line, deviceReset := false },
    ownId := straps, present := lines ||| lineOf straps, outbox := [], owner := none, bank := 0, dev := DevStats.zero,
    tb := Timebase.powerOn, chans := Vector.replicate 4 Channel.powerOn, slots := Vector.replicate 8 Slot.cleared,
    closeQueue := [], watchLimit := 4096, path := Path.powerOn, ring := Ring.powerOn, cmd := Processor.powerOn,
    ints := Ints.powerOn, pending := queue }

/-- The machine right after reset: the release of power-on reset at the pin levels of Config and with the backplane reset line
released, where R18 admits either level of that line, and with no command waiting. DESIGN CHOICE (log entry 2). -/
def State.reset : State := State.powerOn Config.resetStraps Config.resetLines false []

end Sys2Proof.Machine
end

