-- ==== Sys2Proof/Machine/Ops.lean ====
section
/-! DEFINITION. Bit-field helpers, the named reads and updates of State's parts, and the two operations every block uses:
emitting a beat (R3) and counting. -/

namespace Sys2Proof.Machine

/-! ### Bit fields and words -/

/-- The bit b at position i of an n-bit word, every other bit 0. -/
def bitAt {n : Nat} (i : Nat) (b : Bool) : BitVec n := (BitVec.ofBool b).setWidth n <<< i

/-- The field v with its lowest bit at position `lo` of an n-bit word, every other bit 0. -/
def fieldAt {n w : Nat} (lo : Nat) (v : BitVec w) : BitVec n := v.setWidth n <<< lo

/-- Bit i of m: membership of a set held as a mask. -/
def has {n : Nat} (m : BitVec n) (i : Nat) : Bool := m.getLsbD i

/-- m with bit i set. -/
def withBit {n : Nat} (m : BitVec n) (i : Nat) : BitVec n := m ||| (1#n <<< i)

/-- m with bit i clear. -/
def withoutBit {n : Nat} (m : BitVec n) (i : Nat) : BitVec n := m &&& ~~~(1#n <<< i)

/-- Increment that saturates at the top of the range. -/
def satInc {n : Nat} (a : BitVec n) : BitVec n := if a = BitVec.allOnes n then a else a + 1

/-- Addition to a 32-bit number that saturates at 0xFFFFFFFF (R132). -/
def satAdd (a : Word) (k : Nat) : Word := if a.toNat + k < 2 ^ 32 then BitVec.ofNat 32 (a.toNat + k) else BitVec.allOnes 32

/-- A word's four bytes, little-endian (00_scope.md, "Words and bytes"). -/
def wordBytes (w : Word) : List Byte :=
  [w.extractLsb' 0 8, w.extractLsb' 8 8, w.extractLsb' 16 8, w.extractLsb' 24 8]

/-- The first four payload bytes, taken as one little-endian word (R19). -/
def wordOfBytes : List Byte → Word
  | b0 :: b1 :: b2 :: b3 :: _ => b3 ++ b2 ++ b1 ++ b0
  | _ => 0

/-- a − b modulo m, for any a and b (R126: arithmetic taken modulo 2N). -/
def subMod (a b m : Nat) : Nat := (a % m + (m - b % m)) % m

/-- A node number as a bit field. -/
def nodeBits (n : Node) : BitVec 4 := BitVec.ofNat 4 n.val

/-- A node number as a register shows it, with 0xFF for NONE (00_scope.md, "Node numbers"). -/
def ownerWord : Option Node → Word
  | some n => fieldAt 0 (nodeBits n)
  | none => 0xFF

/-! ### Reads and updates of State's parts -/

/-- The slots in ascending number. -/
def slotIds : List SlotId := [0, 1, 2, 3, 4, 5, 6, 7]

/-- The channels in ascending number. -/
def chanIds : List ChanId := [0, 1, 2, 3]

/-- The record tags 0–3 in ascending number (R129). -/
def recTags : List WTag := [0, 1, 2, 3]

/-- The writeback tag (R129). -/
def wbTag : WTag := 4

/-- All write tags in ascending number. -/
def allTags : List WTag := [0, 1, 2, 3, 4]

/-- Slot i. -/
def State.slot (s : State) (i : SlotId) : Slot := s.slots[i.val]

/-- Replaces slot i. -/
def State.setSlot (s : State) (i : SlotId) (x : Slot) : State := { s with slots := s.slots.set i.val x i.isLt }

/-- Channel c. -/
def State.chan (s : State) (c : ChanId) : Channel := s.chans[c.val]

/-- Replaces channel c. -/
def State.setChan (s : State) (c : ChanId) (x : Channel) : State := { s with chans := s.chans.set c.val x c.isLt }

/-- Write tag t of a ring. -/
def Ring.tag (g : Ring) (t : WTag) : WriteTag := g.tags[t.val]

/-- Replaces write tag t of a ring. -/
def Ring.setTag (g : Ring) (t : WTag) (x : WriteTag) : Ring := { g with tags := g.tags.set t.val x t.isLt }

/-- Write tag t. -/
def State.tag (s : State) (t : WTag) : WriteTag := s.ring.tag t

/-- Replaces write tag t. -/
def State.setTag (s : State) (t : WTag) (x : WriteTag) : State := { s with ring := s.ring.setTag t x }

/-- Replaces the close queue. -/
def State.setCloseQueue (s : State) (q : List SlotId) : State := { s with closeQueue := q }

/-- Replaces the output path. -/
def State.setPath (s : State) (p : Path) : State := { s with path := p }

/-- Replaces the ring engine. -/
def State.setRing (s : State) (g : Ring) : State := { s with ring := g }

/-- Replaces the command processor. -/
def State.setCmd (s : State) (c : Processor) : State := { s with cmd := c }

/-- Replaces the interrupt controller. -/
def State.setInts (s : State) (x : Ints) : State := { s with ints := x }

/-- Replaces the timebase. -/
def State.setTb (s : State) (t : Timebase) : State := { s with tb := t }

/-- Replaces the device statistics. -/
def State.setDev (s : State) (d : DevStats) : State := { s with dev := d }

/-- Replaces the owner. -/
def State.setOwner (s : State) (o : Option Node) : State := { s with owner := o }

/-- Replaces the PRESENT set. -/
def State.setPresent (s : State) (m : Mask) : State := { s with present := m }

/-- Replaces the pin levels. -/
def State.setPins (s : State) (p : Pins) : State := { s with pins := p }

/-- Replaces the beats not yet placed. -/
def State.setOutbox (s : State) (l : List Beat) : State := { s with outbox := l }

/-- Emits a beat: it joins the beats the backplane interface holds, in the order emitted (R3). -/
def State.emit (s : State) (b : Beat) : State := s.setOutbox (s.outbox ++ [b])

/-- Changes the statistics of channel c. -/
def State.modStats (s : State) (c : ChanId) (f : ChanStats → ChanStats) : State :=
  s.setChan c { s.chan c with stats := f (s.chan c).stats }

/-- Changes the run state of channel c. -/
def State.setRun (s : State) (c : ChanId) (r : RunState) : State := s.setChan c { s.chan c with run := r }

/-- The observer processes events: neither reset line is asserted (R17, R18). -/
def State.live (s : State) : Bool := !s.pins.backplaneReset && !s.pins.deviceReset

/-! ### Derived views of the slot pool -/

/-- A slot that still follows a live transaction: OPEN or BOUNCED. -/
def Slot.isLive (x : Slot) : Bool := decide (x.state = .opened) || decide (x.state = .bounced)

/-- A slot counted in S of R70 and in the drain condition: OPEN, BOUNCED or CLOSING. -/
def Slot.isWatching (x : Slot) : Bool := x.isLive || decide (x.state = .closing)

/-- A slot that its owning channel owns: in any state but FREE (R52). -/
def Slot.isOwned (x : Slot) : Bool := decide (x.state ≠ .free)

/-- The lowest-numbered FREE slot (R73). -/
def State.freeSlot (s : State) : Option SlotId := slotIds.find? fun i => decide ((s.slot i).state = .free)

/-- The slot RESERVED for channel c (R53). -/
def State.reservedSlot (s : State) (c : ChanId) : Option SlotId :=
  slotIds.find? fun i => decide ((s.slot i).state = .reserved) && decide ((s.slot i).channel = c)

/-- OWNED of channel c (R52). -/
def State.owned (s : State) (c : ChanId) : Nat :=
  slotIds.countP fun i => (s.slot i).isOwned && decide ((s.slot i).channel = c)

/-- S of R70: channel c's slots in OPEN, BOUNCED or CLOSING. -/
def State.watching (s : State) (c : ChanId) : Nat :=
  slotIds.countP fun i => (s.slot i).isWatching && decide ((s.slot i).channel = c)

/-- Whether channel c's bank is locked (R51). -/
def State.bankLocked (s : State) (c : ChanId) : Bool :=
  decide ((s.chan c).run ≠ .disarmed) || decide (s.owned c ≠ 0)

end Sys2Proof.Machine
end

