-- ==== Sys2Proof/Machine/Flags.lean ====
section
/-! DEFINITION. The interrupt flags and the alert sender (Chapter 10): events, deliverability, acknowledge, end of service,
the INT_CTRL actions and the end-of-event alert check. -/

namespace Sys2Proof.Machine

/-- The sources from the most urgent to the least (R168). -/
def sources : List Source := [0, 1, 2, 3, 4, 5, 6, 7]

/-- Source numbers of R168. -/
def srcRingFault : Source := 0
def srcCommand : Source := 1
def srcLevel : Source := 6
def srcMarker : Source := 7

/-- The source of channel c: CH0 to CH3 are sources 2 to 5 (R168). -/
def srcChan (c : ChanId) : Source := ⟨c.val + 2, by omega⟩

/-- An event on source k (R169): ERR is set if IP was already set, then IP is set. -/
def Ints.event (x : Ints) (k : Source) : Ints :=
  { x with err := if has x.ip k then withBit x.err k else x.err, ip := withBit x.ip k }

/-- Raises an event on source k (R168). -/
def State.raise (s : State) (k : Source) : State := s.setInts (s.ints.event k)

/-- Source k is deliverable (R172): MIE, IE and IP set, and no source at or above it in service. -/
def Ints.deliverable (x : Ints) (k : Source) : Bool :=
  x.mie && has x.ie k && has x.ip k && sources.all fun t => !(decide (t ≤ k) && has x.ius t)

/-- The highest deliverable source (R172). -/
def Ints.highest (x : Ints) : Option Source := sources.find? fun k => x.deliverable k

/-- The value that a read of ACK returns (R173). -/
def Ints.ackValue (x : Ints) : Word :=
  match x.highest with
  | some h => BitVec.ofNat 32 h.val
  | none => 0xFF

/-- The effect of an accepted read of ACK (R173). -/
def Ints.acknowledge (x : Ints) : Ints :=
  match x.highest with
  | some h => { x with ip := withoutBit x.ip h, alerted := withoutBit x.alerted h, ius := withBit x.ius h }
  | none => x

/-- The lowest-numbered source in service (R174). -/
def Ints.inService (x : Ints) : Option Source := sources.find? fun k => has x.ius k

/-- The effect of an accepted write to END (R174). -/
def Ints.endService (x : Ints) : Ints :=
  match x.inService with
  | some k => { x with ius := withoutBit x.ius k }
  | none => x

/-- The INT_CTRL actions (R171). -/
inductive IntAction
  | setIe | clearIe | setIp | clearIp | setIus | clearIus | clearErr | clearAll
  deriving DecidableEq, Repr

/-- The action codes of R171; codes 8–15 name no action. -/
def IntAction.code : IntAction → BitVec 4
  | .setIe => 0
  | .clearIe => 1
  | .setIp => 2
  | .clearIp => 3
  | .setIus => 4
  | .clearIus => 5
  | .clearErr => 6
  | .clearAll => 7

/-- The action an action field names, if any (R171). -/
def IntAction.ofCode (code : BitVec 4) : Option IntAction :=
  [IntAction.setIe, .clearIe, .setIp, .clearIp, .setIus, .clearIus, .clearErr, .clearAll].find? fun a => a.code = code

/-- The effect of an INT_CTRL action on source k (R171). -/
def Ints.act (x : Ints) (k : Source) : IntAction → Ints
  | .setIe => { x with ie := withBit x.ie k }
  | .clearIe => { x with ie := withoutBit x.ie k }
  | .setIp => x.event k
  | .clearIp => { x with ip := withoutBit x.ip k, alerted := withoutBit x.alerted k }
  | .setIus => { x with ius := withBit x.ius k }
  | .clearIus => { x with ius := withoutBit x.ius k }
  | .clearErr => { x with err := withoutBit x.err k }
  | .clearAll =>
    { x with ip := withoutBit x.ip k, ius := withoutBit x.ius k, err := withoutBit x.err k,
             alerted := withoutBit x.alerted k }

/-- The INTERRUPTS scope of RESET: IE, IP, IUS, ERR and ALERTED of all sources cleared (R166). -/
def Ints.clearFlags (x : Ints) : Ints := { x with ie := 0, ip := 0, ius := 0, err := 0, alerted := 0 }

/-- Backplane reset's share: IUS and ALERTED cleared for every source (R182 step 5). -/
def Ints.clearService (x : Ints) : Ints := { x with ius := 0, alerted := 0 }

/-- The alert payload word for source h and alert count n (R177). -/
def alertWord (own : Node) (h : Source) (n : BitVec 8) : Word :=
  fieldAt 0 (BitVec.ofNat 8 h.val) ||| fieldAt 8 (nodeBits own) ||| fieldAt 16 n

/-- The alert beat (R177): POSTED on tag 5, length 4, to the alert node at the alert address. -/
def alertBeat (own : Node) (x : Ints) (h : Source) : Beat :=
  .request
    { initiator := own, target := some x.alertNode, tag := 5, kind := .posted, reissue := false, address := x.alertAddr,
      length := 4, payload := wordBytes (alertWord own h (x.alertCount + 1)) }

/-- The source that the alert check would announce, if it would send (R176): ENABLE set, the alert node present, and the
highest deliverable source not yet ALERTED. -/
def State.alertDue (s : State) : Option Source :=
  if s.ints.alertEnable && has s.present s.ints.alertNode then
    s.ints.highest.filter fun h => !has s.ints.alerted h
  else none

/-- The alert check of R176, with the sending of R177: count, beat, ALERTED. -/
def alertCheck (s : State) : State :=
  match s.alertDue with
  | none => s
  | some h =>
    (s.emit (alertBeat s.ownId s.ints h)).setInts
      { s.ints with alertCount := s.ints.alertCount + 1, alerted := withBit s.ints.alerted h }

end Sys2Proof.Machine
end

