-- ==== Sys2Proof/WellFormed.lean ====
section
/-! DEFINITION. Which commands are well formed: the field ranges of R4 and R5 that the types of Syntax.lean do not already
carry. "The backplane interface accepts no request beat whose fields fall outside them, and such a beat is not an event"
(R4): exec leaves the state of an ill-formed beat unchanged. -/

namespace Sys2Proof

/-- Whether a request kind carries a payload (R4). -/
def ReqKind.hasPayload : ReqKind → Bool
  | .read => false
  | .write => true
  | .swap => true
  | .posted => true
  | .broadcast => true

/-- The length range of R4: 4–256, a multiple of 4. -/
def lengthOk (n : Nat) : Bool := decide (4 ≤ n) && decide (n ≤ 256) && decide (n % 4 = 0)

/-- R4: the target is absent for BROADCAST and present for every other kind. -/
def Request.targetOk (r : Request) : Bool := decide (r.kind = .broadcast) == r.target.isNone

/-- R4: the payload is `length` bytes for the kinds that carry one and absent for READ. -/
def Request.payloadOk (r : Request) : Bool :=
  decide (r.payload.length = if r.kind.hasPayload then r.length else 0)

/-- R4: every field of a request beat in its stated range. -/
def Request.wf (r : Request) : Bool := r.targetOk && lengthOk r.length && r.payloadOk

/-- R5: a fault code is 1–15. -/
def ReplyBody.wf : ReplyBody → Bool
  | .data _ => true
  | .done => true
  | .bounce => true
  | .fault code => decide (code ≠ 0)

/-- R5: every field of a reply beat in its stated range. -/
def Reply.wf (r : Reply) : Bool := r.body.wf

/-- The request kind of a target access. -/
def AccessKind.reqKind : AccessKind → ReqKind
  | .read => .read
  | .write => .write
  | .swap => .swap
  | .posted => .posted

/-- The request beat of a target access, addressed to `own` (R11). -/
def Access.toRequest (a : Access) (own : Node) : Request :=
  { initiator := a.initiator, target := some own, tag := a.tag, kind := a.kind.reqKind, reissue := a.reissue,
    address := a.address, length := a.length, payload := a.payload }

/-- The reply body of a final reply. -/
def FinalKind.body : FinalKind → ReplyBody
  | .data p => .data p
  | .done => .done
  | .fault c => .fault c

/-- The reply body of a completion. -/
def Completion.body : Completion → ReplyBody
  | .done => .done
  | .data p => .data p

/-- Well-formedness of a command. Beside the ranges of R4 and R5, a `commandOpen` names a command that takes a parameter
and an `invalidCommand` a code that is no command, as the rows say. -/
def Instr.wf : Instr → Bool
  | .snoopedRequest r => r.wf
  | .finalReply _ _ _ k => k.body.wf
  | .strayReply r => r.wf
  | .remoteFault _ _ code => decide (code ≠ 0)
  | .orphanReply _ _ b => b.wf
  | .registerWrite a => (a.toRequest 0).wf
  | .commandOpen _ c _ => c.takesParam
  | .invalidCommand _ v => (Command.ofCode (v.extractLsb' 0 8)).isNone
  | .powerOnReset _ _ => true
  | .backplaneResetAssert => true
  | .backplaneReset => true
  | .arrival _ => true
  | .withdrawal _ => true
  | .tick => true
  | .slotExpiry _ => true
  | .backoffReissue _ => true
  | .timeout _ => true
  | .orphanFree _ => true
  | .drainTimedOut => true
  | .slotBounce _ _ _ => true
  | .closeQueueEntry => true
  | .resultQueueEntry => true
  | .issue => true
  | .gapIssue => true
  | .writeDone _ _ _ => true
  | .commit => true
  | .writeback => true
  | .writebackDone _ _ => true
  | .writeBounce _ _ => true
  | .ringStopComplete => true
  | .drainComplete => true
  | .alert => true
  | .claim _ _ => true
  | .relinquish _ _ => true
  | .marker _ _ => true
  | .queueData _ => true
  | .queuePtr _ _ => true
  | .consumer _ _ => true
  | .resultPort _ => true
  | .cmdCancel _ _ => true
  | .start _ _ => true
  | .pause _ _ => true
  | .setTime _ _ => true
  | .arm _ _ => true
  | .disarm _ _ => true
  | .release _ _ => true
  | .purge _ _ => true
  | .snapshot _ _ => true
  | .readWatch _ _ => true
  | .ringStart _ _ => true
  | .ringStop _ _ => true
  | .drain _ _ => true
  | .selectOutput _ _ => true
  | .resetSampling _ _ => true
  | .resetOutput _ _ => true
  | .resetStatistics _ _ => true
  | .resetInterrupts _ _ => true
  | .setIe _ _ _ => true
  | .clearIe _ _ _ => true
  | .setIp _ _ _ => true
  | .clearIp _ _ _ => true
  | .setIus _ _ _ => true
  | .clearIus _ _ _ => true
  | .clearErr _ _ _ => true
  | .clearAll _ _ _ => true
  | .ack _ => true
  | .endService _ _ => true
  | .deviceResetAssert => true

end Sys2Proof
end

