-- ==== Sys2Proof/Machine/Operands.lean ====
section
/-! DEFINITION. The window's operand forms: the register map of section 2.5 (offsets, directions), the codes that registers
and records show, and the request beats that the window rows of the table send. -/

namespace Sys2Proof.Machine

/-- The registers of the window (section 2.5). -/
inductive Reg
  | ident | owner | claim | relinquish | gstatus | present | time | prescale | watchLimit | lfsr | cmdPort | resultPort
  | cmdStatus | cmdCancel | bank | chKinds | chInit | chTarg | chWlo | chWhi | chPeriod | chSig | chLatfilt | chCtrl
  | chState | ringNode | ringBase | ringSize | ringPolicy | ringThreshold | writeLimit | wbAddr | producer | consumer
  | ringFault | lostPending | queueData | queuePtr | queueCount | queueThreshold | intCtrl | intState | ack | endSvc | mie
  | alertNode | alertAddr | marker
  | devStat (i : Fin 8)
  | chStat (c : ChanId) (i : Fin 8)
  deriving DecidableEq, Repr

/-- The registers with a fixed offset of their own up to CH_STATE (section 2.5). -/
def regMapLow : List (Nat × Reg) :=
  [(0x000, .ident), (0x004, .owner), (0x008, .claim), (0x00C, .relinquish), (0x010, .gstatus), (0x014, .present),
   (0x018, .time), (0x01C, .prescale), (0x020, .watchLimit), (0x024, .lfsr), (0x030, .cmdPort), (0x034, .resultPort),
   (0x038, .cmdStatus), (0x03C, .cmdCancel), (0x040, .bank), (0x044, .chKinds), (0x048, .chInit), (0x04C, .chTarg),
   (0x050, .chWlo), (0x054, .chWhi), (0x058, .chPeriod), (0x05C, .chSig), (0x060, .chLatfilt), (0x064, .chCtrl),
   (0x068, .chState)]

/-- The registers with a fixed offset of their own from RING_NODE on (section 2.5). -/
def regMapHigh : List (Nat × Reg) :=
  [(0x080, .ringNode), (0x084, .ringBase), (0x088, .ringSize), (0x08C, .ringPolicy), (0x090, .ringThreshold),
   (0x094, .writeLimit), (0x098, .wbAddr), (0x09C, .producer), (0x0A0, .consumer), (0x0A4, .ringFault),
   (0x0A8, .lostPending), (0x0C0, .queueData), (0x0C4, .queuePtr), (0x0C8, .queueCount), (0x0CC, .queueThreshold),
   (0x100, .intCtrl), (0x104, .intState), (0x108, .ack), (0x10C, .endSvc), (0x110, .mie), (0x114, .alertNode),
   (0x118, .alertAddr), (0x140, .marker)]

/-- The registers with a fixed offset of their own (section 2.5). -/
def regMap : List (Nat × Reg) := regMapLow ++ regMapHigh

/-- The register that an offset names, if any (R19, R33, R34). -/
def Reg.ofOffset (off : Nat) : Option Reg :=
  if off % 4 ≠ 0 then none
  else if 0x180 ≤ off ∧ off < 0x1A0 then some (.devStat (Fin.ofNat 8 ((off - 0x180) / 4)))
  else if 0x200 ≤ off ∧ off < 0x280 then
    some (.chStat (Fin.ofNat 4 ((off - 0x200) / 0x20)) (Fin.ofNat 8 ((off - 0x200) % 0x20 / 4)))
  else (regMap.find? fun p => p.1 == off).map Prod.snd

/-- The offset an address reaches: the address modulo 0x400 (R19). -/
def offsetOf (a : Word) : Nat := a.toNat % 0x400

/-- Access directions (R23). -/
inductive Direction
  | readOnly | writeOnly | readWrite
  deriving DecidableEq, Repr

/-- The direction of each register (R23). -/
def Reg.direction : Reg → Direction
  | .ident => .readOnly
  | .owner => .readOnly
  | .gstatus => .readOnly
  | .present => .readOnly
  | .time => .readOnly
  | .resultPort => .readOnly
  | .cmdStatus => .readOnly
  | .chState => .readOnly
  | .producer => .readOnly
  | .ringFault => .readOnly
  | .lostPending => .readOnly
  | .queueData => .readOnly
  | .queueCount => .readOnly
  | .intState => .readOnly
  | .ack => .readOnly
  | .devStat _ => .readOnly
  | .chStat _ _ => .readOnly
  | .claim => .writeOnly
  | .relinquish => .writeOnly
  | .cmdPort => .writeOnly
  | .cmdCancel => .writeOnly
  | .intCtrl => .writeOnly
  | .endSvc => .writeOnly
  | .marker => .writeOnly
  | .prescale => .readWrite
  | .watchLimit => .readWrite
  | .lfsr => .readWrite
  | .bank => .readWrite
  | .chKinds => .readWrite
  | .chInit => .readWrite
  | .chTarg => .readWrite
  | .chWlo => .readWrite
  | .chWhi => .readWrite
  | .chPeriod => .readWrite
  | .chSig => .readWrite
  | .chLatfilt => .readWrite
  | .chCtrl => .readWrite
  | .ringNode => .readWrite
  | .ringBase => .readWrite
  | .ringSize => .readWrite
  | .ringPolicy => .readWrite
  | .ringThreshold => .readWrite
  | .writeLimit => .readWrite
  | .wbAddr => .readWrite
  | .consumer => .readWrite
  | .queuePtr => .readWrite
  | .queueThreshold => .readWrite
  | .mie => .readWrite
  | .alertNode => .readWrite
  | .alertAddr => .readWrite

/-- The nine banked configuration registers (R49). -/
def Reg.isBank : Reg → Bool
  | .chKinds | .chInit | .chTarg | .chWlo | .chWhi | .chPeriod | .chSig | .chLatfilt | .chCtrl => true
  | _ => false

/-- The seven ring configuration registers (R125). -/
def Reg.isRingConfig : Reg → Bool
  | .ringNode | .ringBase | .ringSize | .ringPolicy | .ringThreshold | .writeLimit | .wbAddr => true
  | _ => false

/-! ### Codes -/

/-- Kind codes, in the order of the signature bits (R99). -/
def kindCode : ReqKind → BitVec 3
  | .read => 0
  | .write => 1
  | .swap => 2
  | .posted => 3
  | .broadcast => 4

/-- Outcome codes, in the order of the signature bits (R99). -/
def Ending.code : Ending → BitVec 3
  | .completed => 0
  | .faulted => 1
  | .expired => 2
  | .superseded => 3
  | .abandoned => 4
  | .unreplied => 5

/-- CH_STATE.STATE codes (R52). -/
def RunState.code : RunState → BitVec 2
  | .disarmed => 0
  | .counting => 1
  | .armed => 2
  | .held => 3

/-- READ_WATCH state codes (R160). -/
def SlotState.code : SlotState → BitVec 3
  | .free => 0
  | .reserved => 1
  | .opened => 2
  | .bounced => 3
  | .closing => 4

/-- GSTATUS.RING_STATE codes (R32). -/
def RingState.code : RingState → BitVec 2
  | .idle => 0
  | .running => 1
  | .stopping => 2
  | .faulted => 3

/-- GSTATUS.PHASE codes (R32, R150). -/
def Phase.code : Phase → BitVec 2
  | .idle => 0
  | .params => 1
  | .executing => 2
  | .result => 3

/-- RING_FAULT.CAUSE codes (R135, R139). -/
def RingCause.code : RingCause → BitVec 3
  | .remoteFault => 1
  | .bounceLimit => 2
  | .timeout => 3
  | .targetGone => 4
  | .backplaneReset => 5

/-- The fault codes of the window (R20). -/
inductive WindowFault
  | noSuchRegister | notOwner | accessDirection | phase | badKind | badLength | markerClosed | locked | badValue
  deriving DecidableEq, Repr

/-- Numbering of the window's fault codes (R20). -/
def WindowFault.code : WindowFault → BitVec 4
  | .noSuchRegister => 1
  | .notOwner => 2
  | .accessDirection => 3
  | .phase => 4
  | .badKind => 5
  | .badLength => 6
  | .markerClosed => 7
  | .locked => 8
  | .badValue => 9

/-! ### The beats of the window rows -/

/-- The offset of each register that a window row reaches. -/
def Reg.offset : Reg → BitVec 10
  | .claim => 0x008
  | .relinquish => 0x00C
  | .cmdPort => 0x030
  | .resultPort => 0x034
  | .cmdCancel => 0x03C
  | .consumer => 0x0A0
  | .queueData => 0x0C0
  | .queuePtr => 0x0C4
  | .intCtrl => 0x100
  | .ack => 0x108
  | .endSvc => 0x10C
  | .marker => 0x140
  | _ => 0

/-- The request beat by which w writes v to register g of the observer `own`: a 4-byte WRITE or POSTED whose address has
the register's offset in bits 9:0 and anything above it (R19). -/
def writerBeat (w : Writer) (g : Reg) (v : Word) (own : Node) : Request :=
  { initiator := w.initiator, target := some own, tag := w.tag, kind := if w.posted then .posted else .write,
    reissue := w.reissue, address := w.page ++ g.offset, length := 4, payload := wordBytes v }

/-- The request beat by which r reads register g of the observer `own`. -/
def readerBeat (r : Reader) (g : Reg) (own : Node) : Request :=
  { initiator := r.initiator, target := some own, tag := r.tag, kind := .read, reissue := r.reissue,
    address := r.page ++ g.offset, length := 4, payload := [] }

/-- An opening word: the command code in bits 7:0 (R151). -/
def openingWord (code : BitVec 8) (high : BitVec 24) : Word := high ++ code

/-- An INT_CTRL word: the source in bits 2:0, the action in bits 11:8, every other bit from `junk` (R171). -/
def intCtrlWord (action : BitVec 4) (k : Source) (junk : Word) : Word :=
  (junk &&& 0xFFFFF0F8) ||| fieldAt 0 (BitVec.ofNat 3 k.val) ||| fieldAt 8 action

/-- A RESET scope mask that names scope bit i, with further bits from `others` (R165). -/
def scopeWord (i : Nat) (others : Word) : Word := withBit others i

end Sys2Proof.Machine
end

