-- ==== Sys2Proof/Machine/Records.lean ====
section
/-! DEFINITION. Chapter 6: the signature, the qualification tests, and the composition of SAMPLE, MARKER and GAP records. -/

namespace Sys2Proof.Machine

/-! ### Reading a record -/

/-- The record's type, W0 bits 3:0 (R98). -/
def Record.type (r : Record) : BitVec 4 := r.w0.extractLsb' 0 4

/-- A SAMPLE record, type 1. -/
def Record.isSample (r : Record) : Bool := decide (r.type = 1)

/-- A GAP record, type 3. -/
def Record.isGap (r : Record) : Bool := decide (r.type = 3)

/-- The owning channel of a SAMPLE record, W0 bits 5:4 (R99). -/
def Record.channel (r : Record) : ChanId := Fin.ofNat 4 (r.w0.extractLsb' 4 2).toNat

/-- W1 bits 15:0: the sequence number, or the first lost sequence number of a GAP (R99). -/
def Record.seq (r : Record) : BitVec 16 := r.w1.extractLsb' 0 16

/-- Word number i of a record. -/
def Record.word (r : Record) (i : Fin 8) : Word :=
  match i with
  | 0 => r.w0
  | 1 => r.w1
  | 2 => r.w2
  | 3 => r.w3
  | 4 => r.w4
  | 5 => r.w5
  | 6 => r.w6
  | 7 => r.w7

/-- A record in memory: W0 at the lowest address, each word little-endian (R98). -/
def Record.bytes (r : Record) : List Byte :=
  wordBytes r.w0 ++ wordBytes r.w1 ++ wordBytes r.w2 ++ wordBytes r.w3 ++ wordBytes r.w4 ++ wordBytes r.w5 ++
    wordBytes r.w6 ++ wordBytes r.w7

/-- Seven words with their check word, the exclusive-OR of W0–W6 (R104). -/
def sealWords (w0 w1 w2 w3 w4 w5 w6 : Word) : Record :=
  ⟨w0, w1, w2, w3, w4, w5, w6, w0 ^^^ w1 ^^^ w2 ^^^ w3 ^^^ w4 ^^^ w5 ^^^ w6⟩

/-! ### Signature and qualification -/

/-- The length is more than 64 bytes (R93, LONG). -/
def Slot.isLong (x : Slot) : Bool := decide (64 < x.length)

/-- A present latency at its saturated value (R93, SATURATED). -/
def Slot.isSaturated (x : Slot) : Bool := decide (x.wait = some 0xFFFF) || decide (x.total = some 0xFFFF)

/-- The signature of a closed slot (R93). -/
def Slot.signature (x : Slot) : BitVec 16 :=
  bitAt 0 (decide (x.outcome = some .completed)) ||| bitAt 1 (decide (x.outcome = some .faulted)) |||
  bitAt 2 (decide (x.outcome = some .expired)) ||| bitAt 3 (decide (x.outcome = some .superseded)) |||
  bitAt 4 (decide (x.outcome = some .abandoned)) ||| bitAt 5 (decide (x.outcome = some .unreplied)) |||
  bitAt 6 (decide (x.bounces ≠ 0)) ||| bitAt 7 x.anomaly |||
  bitAt 8 (decide (x.kind = .read)) ||| bitAt 9 (decide (x.kind = .write)) ||| bitAt 10 (decide (x.kind = .swap)) |||
  bitAt 11 (decide (x.kind = .posted)) ||| bitAt 12 (decide (x.kind = .broadcast)) |||
  bitAt 13 x.isSaturated ||| bitAt 14 x.isLong ||| bitAt 15 x.reissued

/-- The event test (R95). -/
def eventTest (b : Bank) (sig : BitVec 16) : Bool := decide (sig &&& b.sigMask = b.sigMatch &&& b.sigMask)

/-- The selected latency (R96). -/
def selectedLatency (b : Bank) (x : Slot) : Option (BitVec 16) :=
  match b.sel with
  | .wait => x.wait
  | .total => x.total

/-- The latency test, row by row (R96). -/
def latencyTest (b : Bank) (x : Slot) : Bool :=
  if b.thresh = 0 then true
  else
    match selectedLatency b x with
    | none => false
    | some l => if b.inv then decide (l.toNat < b.thresh.toNat) else decide (b.thresh.toNat ≤ l.toNat)

/-- Qualification of a closed slot under its owning channel's bank (R97). -/
def qualifiesRecord (b : Bank) (x : Slot) : Bool := eventTest b x.signature && latencyTest b x

/-! ### Composition -/

/-- The length code: length / 4 − 1 (R99). -/
def lengthCode (n : Nat) : BitVec 6 := BitVec.ofNat 6 (n / 4 - 1)

/-- W0 of a SAMPLE record (R99, R100). -/
def sampleW0 (x : Slot) : Word :=
  fieldAt 0 1#4 ||| fieldAt 4 (BitVec.ofNat 2 x.channel.val) |||
  fieldAt 6 ((x.outcome.map Ending.code).getD 0) ||| fieldAt 9 (kindCode x.kind) |||
  fieldAt 12 (nodeBits x.initiator) ||| fieldAt 16 ((x.target.map nodeBits).getD 0) ||| fieldAt 20 (nodeBits x.tag) |||
  fieldAt 24 x.bounces ||| bitAt 28 x.wait.isSome ||| bitAt 29 x.total.isSome ||| bitAt 30 x.anomaly |||
  bitAt 31 x.reissued

/-- The SAMPLE record of slot i with sequence number `seq` (R100). -/
def composeSample (x : Slot) (i : SlotId) (seq : BitVec 16) : Record :=
  sealWords (sampleW0 x)
    (fieldAt 0 seq ||| fieldAt 16 (x.faultCode.getD 0) ||| fieldAt 20 (lengthCode x.length))
    x.address x.issueTime
    (fieldAt 0 (x.wait.getD 0) ||| fieldAt 16 (x.total.getD 0))
    (x.closeTime.getD 0)
    (fieldAt 0 x.signature ||| fieldAt 16 (BitVec.ofNat 3 i.val))

/-- The MARKER record of source node n, value v, arriving at `time` (R101). -/
def composeMarker (n : Node) (v time : Word) (seq : BitVec 16) : Record :=
  sealWords (fieldAt 0 2#4 ||| fieldAt 12 (nodeBits n)) (fieldAt 0 seq) v time 0 0 0

/-- The GAP record for a pending loss, generated at `time` (R102). -/
def composeGap (firstLost : BitVec 16) (lost time : Word) : Record :=
  sealWords 3 (fieldAt 0 firstLost) lost time 0 0 0

/-! ### READ_WATCH -/

/-- The six result words of READ_WATCH (R160). A FREE slot gives six words of 0, a RESERVED one only its state and owning
channel. -/
def watchWords (x : Slot) : List Word :=
  match x.state with
  | .free => [0, 0, 0, 0, 0, 0]
  | .reserved => [fieldAt 0 x.state.code ||| fieldAt 4 (BitVec.ofNat 2 x.channel.val), 0, 0, 0, 0, 0]
  | _ =>
    [ fieldAt 0 x.state.code ||| fieldAt 4 (BitVec.ofNat 2 x.channel.val) |||
        fieldAt 8 ((x.outcome.map Ending.code).getD 0) ||| bitAt 11 x.outcome.isSome |||
        fieldAt 12 (x.faultCode.getD 0),
      fieldAt 0 (nodeBits x.initiator) ||| fieldAt 4 ((x.target.map nodeBits).getD 0) ||| fieldAt 8 (nodeBits x.tag) |||
        fieldAt 12 (kindCode x.kind) ||| fieldAt 16 (lengthCode x.length) ||| bitAt 24 x.reissued ||| bitAt 25 x.anomaly,
      x.address,
      x.issueTime,
      fieldAt 0 x.age ||| fieldAt 16 x.bounces ||| bitAt 20 x.wait.isSome ||| bitAt 21 x.total.isSome,
      fieldAt 0 (x.wait.getD 0) ||| fieldAt 16 (x.total.getD 0) ]

end Sys2Proof.Machine
end

