-- ==== Sys2Proof/Machine/Channels.lean ====
section
/-! DEFINITION. Chapter 4: qualification and counting, firing, taking, reserving, cancelling an arming, HELD entry, and the
channel half of ARM, DISARM and RELEASE. -/

namespace Sys2Proof.Machine

/-! ### Jitter and reload -/

/-- One step of LFSR (R42): the feedback bit is the exclusive-OR of bits 0, 2, 3 and 5, and enters bit 15. -/
def lfsrStep (v : BitVec 16) : BitVec 16 :=
  (v >>> 1) ||| bitAt 15 (has v 0 ^^ has v 2 ^^ has v 3 ^^ has v 5)

/-- The jitter amount: the low JITTER bits of LFSR (R43). -/
def jitterAmount (b : Bank) (lfsr : BitVec 16) : Nat := lfsr.toNat % 2 ^ b.jitter.toNat

/-- The reload value (R56): PERIOD, or PERIOD less the jitter amount with a floor of 1. -/
def reloadValue (b : Bank) (lfsr : BitVec 16) : BitVec 24 :=
  if b.jitter = 0 then b.period
  else if b.period.toNat ≤ jitterAmount b lfsr then 1
  else BitVec.ofNat 24 (b.period.toNat - jitterAmount b lfsr)

/-- A reload of channel c's COUNT; LFSR steps once when the reload is jittered (R43, R56). -/
def reload (c : ChanId) (s : State) : State :=
  let ch := s.chan c
  let s1 := s.setChan c { ch with count := reloadValue ch.bank s.tb.lfsr }
  if ch.bank.jitter = 0 then s1 else s1.setTb { s.tb with lfsr := lfsrStep s.tb.lfsr }

/-! ### Qualification, counting, firing -/

/-- The address window test (R54 condition 8). -/
def windowTest (b : Bank) (a : Word) : Bool :=
  !b.window || (decide (b.wlo.toNat ≤ a.toNat) && decide (a.toNat ≤ b.whi.toNat))

/-- The target test (R54 condition 7). -/
def targetTest (b : Bank) (r : Request) : Bool :=
  decide (r.kind = .broadcast) || (match r.target with | some t => has b.targ t | none => false)

/-- A snooped request qualifies for channel c (R54, conditions 1–8 in order). -/
def qualifies (s : State) (c : ChanId) (r : Request) : Bool :=
  decide (s.tb.obs = .observing) && decide ((s.chan c).run ≠ .disarmed) &&
    (decide (r.initiator ≠ s.ownId) && decide (r.target ≠ some s.ownId)) && !r.reissue &&
    has (s.chan c).bank.kinds (kindCode r.kind).toNat && has (s.chan c).bank.init r.initiator &&
    targetTest (s.chan c).bank r && windowTest (s.chan c).bank r.address

/-- The channel fires on the request being counted: COUNT goes from 1 to 0 (R55). -/
def firesNow (s : State) (c : ChanId) : Bool := decide ((s.chan c).count = 1)

/-- Counting of a qualifying request (R55): COUNTED and COUNT, and at a firing FIRES and the reload. -/
def countRequest (c : ChanId) (s : State) : State :=
  let ch := s.chan c
  let s1 := s.setChan c { ch with count := ch.count - 1, stats := { ch.stats with counted := ch.stats.counted + 1 } }
  if firesNow s c then reload c (s1.modStats c fun x => { x with fires := x.fires + 1 }) else s1

/-- The OPEN slot of a take: the request fields, issue time TIME, age 0 and everything else initial (R57, R74). -/
def openedSlot (c : ChanId) (r : Request) (time : Word) : Slot :=
  { Slot.cleared with
    state := .opened, channel := c, initiator := r.initiator, target := r.target, tag := r.tag, kind := r.kind,
    address := r.address, length := r.length, issueTime := time }

/-- Channel c takes request r into slot i (R57); a take by an ARMED channel ends the arming. -/
def takeInto (c : ChanId) (i : SlotId) (r : Request) (s : State) : State :=
  let s1 := (s.setSlot i (openedSlot c r s.tb.time)).modStats c fun x => { x with selected := x.selected + 1 }
  if (s.chan c).run = .armed then s1.setRun c .counting else s1

/-- The firing counts as a collision (R59 rows 2 and 3). -/
def collide (c : ChanId) (s : State) : State := s.modStats c fun x => { x with collisions := x.collisions + 1 }

/-- Reservation of slot i for channel c, which becomes ARMED (R59 row 5). -/
def reserve (c : ChanId) (i : SlotId) (s : State) : State :=
  (s.setSlot i { Slot.cleared with state := .reserved, channel := c }).setRun c .armed

/-- Handling of a firing of channel c by the first row of R59 that holds; `taken` is the slot that holds the request, if it
has been taken. -/
def handleFiring (c : ChanId) (r : Request) (p : State × Option SlotId) : State × Option SlotId :=
  let s := p.1
  if (s.chan c).run = .held then (s.modStats c fun x => { x with heldover := x.heldover + 1 }, p.2)
  else if (s.chan c).run = .armed then (collide c s, p.2)
  else if (s.chan c).bank.quota.toNat ≤ s.owned c then (collide c s, p.2)
  else
    match s.freeSlot, p.2 with
    | none, taken => (collide c s, taken)
    | some i, none => (takeInto c i r s, some i)
    | some i, some j => (reserve c i s, some j)

/-- Step 2(b) of R58: an ARMED channel takes an untaken qualifying request into its RESERVED slot. -/
def useReservation (c : ChanId) (r : Request) (p : State × Option SlotId) : State × Option SlotId :=
  if (p.1.chan c).run = .armed then
    match p.1.reservedSlot c, p.2 with
    | some i, none => (takeInto c i r p.1, some i)
    | _, taken => (p.1, taken)
  else p

/-- The visit of channel c in step 2 of R58. -/
def visitChannel (r : Request) (p : State × Option SlotId) (c : ChanId) : State × Option SlotId :=
  if qualifies p.1 c r then
    let q := useReservation c r (countRequest c p.1, p.2)
    if firesNow p.1 c then handleFiring c r q else q
  else p

/-- Step 2 of R58: the channels in ascending number. The second part is the slot that took the request, if any. -/
def visitChannels (r : Request) (s : State) : State × Option SlotId := chanIds.foldl (visitChannel r) (s, none)

/-! ### Ending an arming -/

/-- Cancellation of the arming of channel c whose RESERVED slot is i (R61): one collision, the slot FREE, and the run state
that the cause names. -/
def cancelAt (c : ChanId) (i : SlotId) (next : RunState) (s : State) : State :=
  ((collide c s).setSlot i Slot.cleared).setRun c next

/-- Cancellation of the arming of an ARMED channel c (R61). -/
def cancelArming (c : ChanId) (next : RunState) (s : State) : State :=
  match s.reservedSlot c with
  | some i => cancelAt c i next s
  | none => (collide c s).setRun c next

/-- Cancels the arming of c if c is ARMED. -/
def cancelIfArmed (next : RunState) (s : State) (c : ChanId) : State :=
  if (s.chan c).run = .armed then cancelArming c next s else s

/-- Cancels every arming, channels in ascending number (R46). -/
def cancelArmings (next : RunState) (s : State) : State := chanIds.foldl (cancelIfArmed next) s

/-- HELD entry of channel c when its record enters staging (R65). -/
def heldEntry (c : ChanId) (s : State) : State :=
  if (s.chan c).bank.notify = .each then
    match (s.chan c).run with
    | .counting => s.setRun c .held
    | .armed => cancelArming c .held s
    | .held => s
    | .disarmed => s
  else s

/-! ### ARM, DISARM, RELEASE -/

/-- The bank is inconsistent: the window test is on with its bounds crossed (R62). -/
def windowCrossed (b : Bank) : Bool := b.window && decide (b.whi.toNat < b.wlo.toNat)

/-- ARM's effect on a DISARMED channel with a consistent bank (R62). -/
def armChannel (c : ChanId) (s : State) : State :=
  let s1 := reload c s
  s1.setChan c { s1.chan c with run := .counting, loss := false }

/-- DISARM's effect (R63); also the SAMPLING scope's on one channel, apart from LOSS (R61). -/
def disarmChannel (s : State) (c : ChanId) : State :=
  let s1 := cancelIfArmed .disarmed s c
  s1.setChan c { s1.chan c with run := .disarmed, count := 0 }

/-- RELEASE's effect on a HELD channel (R64). -/
def releaseChannel (c : ChanId) (s : State) : State := s.setChan c { s.chan c with run := .counting, loss := false }

/-- The change to PAUSED, by PAUSE and by a backplane reset that finds OBSERVING: then every arming is cancelled (R46). -/
def pauseObserving (s : State) : State := cancelArmings .counting (s.setTb { s.tb with obs := .paused })

/-! ### Settling -/

/-- A SAMPLE record settles (R122): LOSS if it settled lost, then the channel's interrupt event when its NOTIFY is EACH.
MARKER and GAP records settle nothing. -/
def settle (lost : Bool) (r : Record) (s : State) : State :=
  if r.isSample then
    let c := r.channel
    let s1 := if lost then s.setChan c { s.chan c with loss := true } else s
    if (s.chan c).bank.notify = .each then s1.raise (srcChan c) else s1
  else s

end Sys2Proof.Machine
end

