-- ==== Sys2Proof/Machine/Processor.lean ====
section
/-! DEFINITION. How a command ends (R153), the abort at a loss of ownership (R156), and the two tests that end a
long-running command: the end of a ring stop (R145) and the drain test (R164). -/

namespace Sys2Proof.Machine

/-- Command statuses (R153). -/
inductive Status
  | ok | invalidCommand | badParam | badConfig | wrongState | cancelled | timedOut | ringFaulted | aborted
  deriving DecidableEq, Repr

/-- Status codes (R153). -/
def Status.code : Status → BitVec 4
  | .ok => 0
  | .invalidCommand => 1
  | .badParam => 2
  | .badConfig => 3
  | .wrongState => 4
  | .cancelled => 5
  | .timedOut => 6
  | .ringFaulted => 7
  | .aborted => 8

/-- The status word: status in bits 3:0, code in bits 15:8, detail in bits 31:16 (R153). -/
def statusWord (st : Status) (code : BitVec 8) (detail : BitVec 16) : Word :=
  fieldAt 0 st.code ||| fieldAt 8 code ||| fieldAt 16 detail

/-- The processor after its command ends with a status (R153 steps 1–3): result words follow the status word only under
OK. -/
def Processor.finish (c : Processor) (st : Status) (detail : BitVec 16) (words : List Word) : Processor :=
  { c with results := statusWord st c.code detail :: (if st = .ok then words else []), lastStatus := st.code,
           lastCode := c.code, phase := .result }

/-- A command ends with a status (R153): the processor's share, then the COMMAND event. -/
def endWith (st : Status) (detail : BitVec 16) (words : List Word) (s : State) : State :=
  (s.setCmd (s.cmd.finish st detail words)).raise srcCommand

/-- A command ends with a status word alone, or with OK and no result words. -/
def endCommand (st : Status) (s : State) : State := endWith st 0 [] s

/-- The processor at a loss of ownership (R156). -/
def Processor.abort (c : Processor) : Processor :=
  match c.phase with
  | .idle => c
  | .params => { c with phase := .idle, code := 0 }
  | .executing =>
    { c with phase := .idle, code := 0, results := [], lastStatus := Status.aborted.code, lastCode := c.code,
             discarded := true }
  | .result => { c with phase := .idle, code := 0, results := [], discarded := c.discarded || !c.results.isEmpty }

/-- A loss of ownership (R29): OWNER becomes NONE and the processor abandons its command. -/
def loseOwner (s : State) : State := (s.setOwner none).setCmd s.cmd.abort

/-- The processor is EXECUTING command c. -/
def Processor.isExecuting (p : Processor) (c : Command) : Bool :=
  decide (p.phase = .executing) && decide (p.code = c.code)

/-- Every write tag 0–4 is FREE. -/
def Ring.tagsFree (g : Ring) : Bool := allTags.all fun t => decide ((g.tag t).state = .free)

/-- The drain condition (R163). -/
def State.drained (s : State) : Bool :=
  (slotIds.all fun i => !(s.slot i).isWatching) && s.path.staging.isEmpty &&
    (decide (s.path.mode = .queue) || s.ring.tagsFree)

/-- The drain test (R164): an EXECUTING DRAIN ends with OK when the drain condition holds. -/
def drainTest (s : State) : State :=
  if s.cmd.isExecuting .drain && s.drained then endCommand .ok s else s

/-- The stop test (R145): a STOPPING ring with every tag FREE becomes IDLE, and an EXECUTING RING_STOP then ends with OK
and PRODUCER as latched there (R162). -/
def stopTest (s : State) : State :=
  if decide (s.ring.state = .stopping) && s.ring.tagsFree then
    let s1 := s.setRing { s.ring with state := .idle }
    if s1.cmd.isExecuting .ringStop then endWith .ok 0 [s1.ring.producer.setWidth 32] s1 else s1
  else s

/-- Step 6 of a ring fault (R136): an EXECUTING RING_STOP or DRAIN ends with RING_FAULTED. -/
def endOnFault (s : State) : State :=
  if s.cmd.isExecuting .ringStop || s.cmd.isExecuting .drain then endCommand .ringFaulted s else s

/-- The timeout test of step 4 of a tick (R164): an EXECUTING DRAIN whose timeout is not 0 and whose count has reached it
ends with TIMED_OUT. -/
def drainTimeoutTest (s : State) : State :=
  if s.cmd.isExecuting .drain && decide (s.cmd.drainTimeout ≠ 0) &&
      decide (s.cmd.drainTimeout.toNat ≤ s.cmd.drainTicks.toNat) then
    endCommand .timedOut s
  else s

/-- Step 4 of a tick (R40): an EXECUTING DRAIN's count increases by 1 and is tested. -/
def tickDrain (s : State) : State :=
  if s.cmd.isExecuting .drain then
    drainTimeoutTest (s.setCmd { s.cmd with drainTicks := s.cmd.drainTicks + 1 })
  else s

end Sys2Proof.Machine
end

