-- ==== Sys2Proof/Machine/RingIssue.lean ====
section
/-! DEFINITION. The ring engine's way out: index arithmetic (R126), the pending loss (R132), the issue step with the DROP
policy and GAP records (R130–R132), and the index writeback (R140). -/

namespace Sys2Proof.Machine

/-! ### Indexes, fill and tags -/

/-- N, the current RING_SIZE (R126). -/
def Ring.n (g : Ring) : Nat := g.size.toNat

/-- The fill: (PRODUCER − CONSUMER) mod 2N (R126). -/
def Ring.fill (g : Ring) : Nat := subMod g.producer.toNat g.consumer.toNat (2 * g.n)

/-- A record write in flight: ISSUED, BACKOFF or DONE (R126). -/
def WriteTag.inFlight (x : WriteTag) : Bool :=
  decide (x.state = .issued) || decide (x.state = .backoff) || decide (x.state = .done)

/-- The in-flight count k over the record tags (R126). -/
def Ring.inFlight (g : Ring) : Nat := recTags.countP fun t => (g.tag t).inFlight

/-- The ring has space: fill + k < N (R126). -/
def Ring.hasSpace (g : Ring) : Bool := decide (g.fill + g.inFlight < g.n)

/-- The lowest-numbered FREE record tag (R130). -/
def Ring.freeRecTag (g : Ring) : Option WTag := recTags.find? fun t => decide ((g.tag t).state = .free)

/-- The position that the next issue takes: (PRODUCER + k) mod 2N (R130). -/
def Ring.nextPosition (g : Ring) : BitVec 17 := BitVec.ofNat 17 ((g.producer.toNat + g.inFlight) % (2 * g.n))

/-- The byte address of position p: RING_BASE + 32 × (p mod N) (R126). -/
def Ring.address (g : Ring) (p : BitVec 17) : Word := g.base + BitVec.ofNat 32 (32 * (p.toNat % g.n))

/-- Some write tag is ORPHANED (R138). -/
def Ring.hasOrphan (g : Ring) : Bool := allTags.any fun t => decide ((g.tag t).state = .orphaned)

/-- The ring is RUNNING or STOPPING. -/
def Ring.active (g : Ring) : Bool := decide (g.state = .running) || decide (g.state = .stopping)

/-! ### The beats of the write tags -/

/-- The write beat of record tag t holding x (R130), with the given reissue flag (R134). -/
def recordBeat (own : Node) (g : Ring) (t : WTag) (x : WriteTag) (reissue : Bool) : Beat :=
  .request
    { initiator := own, target := some x.dest, tag := Fin.ofNat 16 t.val, kind := .write, reissue := reissue,
      address := g.address x.position, length := 32, payload := x.record.bytes }

/-- The writeback beat of tag 4 holding x (R140), with the given reissue flag. -/
def writebackBeat (own : Node) (g : Ring) (x : WriteTag) (reissue : Bool) : Beat :=
  .request
    { initiator := own, target := some x.dest, tag := 4, kind := .write, reissue := reissue, address := g.wbAddr,
      length := 4, payload := wordBytes (x.value.setWidth 32) }

/-- The beat of write tag t holding x. -/
def tagBeat (own : Node) (g : Ring) (t : WTag) (x : WriteTag) (reissue : Bool) : Beat :=
  if t = wbTag then writebackBeat own g x reissue else recordBeat own g t x reissue

/-! ### Issue, GAP, drop -/

/-- The tag contents of a record newly issued (R130). -/
def issuedTag (g : Ring) (r : Record) : WriteTag :=
  { WriteTag.cleared with state := .issued, record := r, position := g.nextPosition, dest := g.node }

/-- Issues record r on record tag t (R130). -/
def issueRecord (t : WTag) (r : Record) (s : State) : State :=
  let x := issuedTag s.ring r
  (s.setTag t x).emit (recordBeat s.ownId s.ring t x false)

/-- Issue of the head r of staging on tag t (R130 case 5). -/
def issueHead (t : WTag) (r : Record) (rest : List Record) (s : State) : State :=
  issueRecord t r (s.setPath { s.path with staging := rest })

/-- Issue of a GAP record on tag t (R130 case 4): the pending loss goes into the record and LOST_PENDING becomes 0. -/
def issueGap (t : WTag) (s : State) : State :=
  let s1 := issueRecord t (composeGap s.ring.firstLost s.ring.lostPending s.tb.time) s
  s1.setRing { s1.ring with lostPending := 0 }

/-- The pending loss after the drop of record r (R132). -/
def Ring.countDrop (g : Ring) (r : Record) : Ring :=
  { g with lostPending := satAdd g.lostPending 1, firstLost := if g.lostPending = 0 then r.seq else g.firstLost }

/-- The drop of the head r of staging (R131): counted as lost, RECORDS_LOST, settled lost; the removal is a point of the
drain test (R164). -/
def dropHead (r : Record) (rest : List Record) (s : State) : State :=
  let s1 := (s.setPath { s.path with staging := rest }).setRing (s.ring.countDrop r)
  drainTest (settle true r (s1.setDev { s1.dev with recordsLost := s1.dev.recordsLost + 1 }))

/-- One repetition of the issue step (R130): the first case that applies, or none where a case ends the step. -/
def issueOnce (s : State) : Option State :=
  match s.path.staging with
  | [] => none
  | r :: rest =>
    if s.ring.hasSpace then
      match s.ring.freeRecTag with
      | none => none
      | some t => if s.ring.lostPending ≠ 0 then some (issueGap t s) else some (issueHead t r rest s)
    else
      match s.ring.policy with
      | .stall => none
      | .drop => some (dropHead r rest s)

/-- The issue step of R130: repeated until a case ends it. -/
def issueLoop : Nat → State → State
  | 0, s => s
  | k + 1, s =>
    match issueOnce s with
    | none => s
    | some s' => issueLoop k s'

/-- The ring engine's share of the destination step (R130): the issue step of a RUNNING ring. Each repetition but at most
one GAP takes a record from staging, so staging's length and 2 bound the repetitions. -/
def issueStep (s : State) : State :=
  if s.ring.state = .running then issueLoop (s.path.staging.length + 2) s else s

/-! ### Index writeback -/

/-- Issues a writeback of PRODUCER on tag 4 (R140). -/
def issueWriteback (s : State) : State :=
  let x : WriteTag := { WriteTag.cleared with state := .issued, value := s.ring.producer, dest := s.ring.node }
  (s.setTag wbTag x).emit (writebackBeat s.ownId s.ring x false)

/-- The writeback decision (R140): with WB_ADDR not 0, tag 4 FREE and the ring RUNNING or STOPPING, a writeback is
issued. -/
def writebackIfDue (s : State) : State :=
  if decide (s.ring.wbAddr ≠ 0) && decide ((s.tag wbTag).state = .free) && s.ring.active then issueWriteback s else s

end Sys2Proof.Machine
end

