-- ==== Sys2Proof/Machine/Path.lean ====
section
/-! DEFINITION. Chapter 7: the move into the result queue (R117), the entry into staging (R109), the output advance (R110),
markers (R112, R113), and the read of the result queue (R118). -/

namespace Sys2Proof.Machine

/-- The LEVEL crossing (R120, R142): below the threshold before, at or above it after. -/
def crosses (before after threshold : Nat) : Bool := decide (before < threshold) && decide (threshold ≤ after)

/-- Raises LEVEL at an upward crossing (R120, R142). -/
def raiseIfCrossed (before after threshold : Nat) (s : State) : State :=
  if crosses before after threshold then s.raise srcLevel else s

/-- The head r of staging joins the result queue (R117): it settles visible, the LEVEL crossing is tested (R120), and the
removal from staging is a point of the drain test (R164). -/
def moveToQueue (r : Record) (rest : List Record) (s : State) : State :=
  let s1 := s.setPath { s.path with staging := rest, results := s.path.results ++ [r] }
  drainTest
    (raiseIfCrossed s.path.results.length s1.path.results.length s.path.threshold.toNat (settle false r s1))

/-- One move into the result queue, if queue mode, a record and room allow it (R110). -/
def queueOnce (s : State) : Option State :=
  match s.path.staging with
  | [] => none
  | r :: rest =>
    if s.path.mode = .queue ∧ s.path.results.length < Config.queueCap then some (moveToQueue r rest s) else none

/-- Moves into the result queue while they last. -/
def queueLoop : Nat → State → State
  | 0, s => s
  | k + 1, s =>
    match queueOnce s with
    | none => s
    | some s' => queueLoop k s'

/-- The destination step of R110, by output mode (R115). -/
def destinationStep (s : State) : State :=
  match s.path.mode with
  | .queue => queueLoop s.path.staging.length s
  | .ring => issueStep s

/-- Entry of the record of slot i, the close queue's head, into staging (R109 steps 1–5). -/
def enterStaging (i : SlotId) (rest : List SlotId) (s : State) : State :=
  let x := s.slot i
  let s1 := s.setCloseQueue rest
  let s2 := s1.setPath
    { s1.path with staging := s1.path.staging ++ [composeSample x i s1.path.seq], seq := s1.path.seq + 1 }
  let s3 := (s2.setSlot i Slot.cleared).modStats x.channel fun st => { st with delivered := st.delivered + 1 }
  heldEntry x.channel s3

/-- One entry into staging, if the close queue holds a slot and staging has room (R109). -/
def entryOnce (s : State) : Option State :=
  match s.closeQueue with
  | [] => none
  | i :: rest => if s.path.staging.length < Config.stagingCap then some (enterStaging i rest s) else none

/-- Entries into staging while they last. -/
def entryLoop : Nat → State → State
  | 0, s => s
  | k + 1, s =>
    match entryOnce s with
    | none => s
    | some s' => entryLoop k s'

/-- The entry step of R110. -/
def entryStep (s : State) : State := entryLoop s.closeQueue.length s

/-- One pass of the advance: the destination step, then the entry step (R110). -/
def advancePass (s : State) : State := entryStep (destinationStep s)

/-- Passes of the advance. -/
def advanceLoop : Nat → State → State
  | 0, s => s
  | k + 1, s => advanceLoop k (advancePass s)

/-- The output advance (R110). Every pass but the last that changes something enters a slot of the close queue into
staging, so the close queue's length and 1 passes reach the point at which a complete pass changes nothing. -/
def advance (s : State) : State := advanceLoop (s.closeQueue.length + 1) s

/-! ### Markers -/

/-- A marker is refused for room: the close queue is not empty, or staging is full (R112). -/
def State.markerBlocked (s : State) : Bool :=
  !s.closeQueue.isEmpty || decide (Config.stagingCap ≤ s.path.staging.length)

/-- Acceptance of a marker v from node n (R113). The advance at its end raises LEVEL where the queue crosses its threshold
(R120), though R113 says that an accepted marker raises no event. DEDUCED (log entry 25). -/
def acceptMarker (n : Node) (v : Word) (s : State) : State :=
  let s1 := s.setPath
    { s.path with staging := s.path.staging ++ [composeMarker n v s.tb.time s.path.seq], seq := s.path.seq + 1 }
  advance (s1.setDev { s1.dev with markersAccepted := s1.dev.markersAccepted + 1 })

/-- Refusal of a marker for room (R112): MARKERS_REFUSED and the MARKER event. -/
def refuseMarker (s : State) : State :=
  (s.setDev { s.dev with markersRefused := s.dev.markersRefused + 1 }).raise srcMarker

/-! ### The queue read port -/

/-- The value a read of QUEUE_DATA returns (R118): word QUEUE_PTR of the head record, or EMPTY (R103). -/
def Path.dataWord (p : Path) : Word :=
  match p.results with
  | [] => 0
  | r :: _ => r.word p.ptr

/-- The effect of an accepted read of QUEUE_DATA (R118). -/
def readQueue (s : State) : State :=
  match s.path.results with
  | [] => s
  | _ :: rest =>
    if s.path.ptr = 7 then advance (s.setPath { s.path with results := rest, ptr := 0 })
    else s.setPath { s.path with ptr := s.path.ptr + 1 }

end Sys2Proof.Machine
end

