-- ==== Sys2Proof/Machine/Slots.lean ====
section
/-! DEFINITION. Chapter 5: closing (R87), watch matching of requests (R82, R83), replies to watched transactions (R78–R81),
expiry (R85), abandonment (R86) and freeing without a record (R89). -/

namespace Sys2Proof.Machine

/-! ### Closing -/

/-- Closing of slot i with outcome e (R87): outcome and close time fixed, the record qualified; a failing slot becomes FREE
and counts in FILTERED, a passing one becomes CLOSING, joins the close queue, and the queue is served. -/
def closeSlot (i : SlotId) (e : Ending) (s : State) : State :=
  let x := { s.slot i with outcome := some e, closeTime := some s.tb.time }
  if qualifiesRecord (s.chan x.channel).bank x then
    advance ((s.setSlot i { x with state := .closing }).setCloseQueue (s.closeQueue ++ [i]))
  else
    drainTest ((s.setSlot i Slot.cleared).modStats x.channel fun st => { st with filtered := st.filtered + 1 })

/-! ### Matching -/

/-- The slot in OPEN or BOUNCED that holds the pair (R78, R82, R83). -/
def State.matchPair (s : State) (initiator : Node) (tag : Tag) : Option SlotId :=
  slotIds.find? fun i =>
    (s.slot i).isLive && decide ((s.slot i).initiator = initiator) && decide ((s.slot i).tag = tag)

/-- ANOMALIES increases by 1 (R33). -/
def countAnomaly (s : State) : State := s.setDev { s.dev with anomalies := s.dev.anomalies + 1 }

/-- STRAY_REPLIES increases by 1 (R16). -/
def countStray (s : State) : State := s.setDev { s.dev with strayReplies := s.dev.strayReplies + 1 }

/-- A reissue reopens a BOUNCED slot (R82). -/
def reopen (i : SlotId) (s : State) : State := s.setSlot i { s.slot i with state := .opened, reissued := true }

/-- Supersession of the live slot i (R83): an anomaly when the slot was OPEN. -/
def supersede (i : SlotId) (s : State) : State :=
  if (s.slot i).state = .opened then
    closeSlot i .superseded (countAnomaly (s.setSlot i { s.slot i with anomaly := true }))
  else closeSlot i .superseded s

/-- Step 1 of R58: watch matching of a snooped request. -/
def watchMatch (r : Request) (s : State) : State :=
  match s.matchPair r.initiator r.tag with
  | none => s
  | some i =>
    if r.reissue then (if (s.slot i).state = .bounced then reopen i s else s) else supersede i s

/-- Step 3 of R58: a taken POSTED or BROADCAST request closes as UNREPLIED (R84). -/
def closeUnreplied (r : Request) (p : State × Option SlotId) : State :=
  match p.2 with
  | none => p.1
  | some i => if r.kind = .posted ∨ r.kind = .broadcast then closeSlot i .unreplied p.1 else p.1

/-- A snooped request passes through the sampling path (R58). -/
def snoopRequest (r : Request) (s : State) : State := closeUnreplied r (visitChannels r (watchMatch r s))

/-! ### Replies to watched transactions -/

/-- Slot x with WAIT set to its age if absent (R77). -/
def Slot.withWait (x : Slot) : Slot := { x with wait := some (x.wait.getD x.age) }

/-- Slot x with both latencies of a final reply set (R77, R79). -/
def Slot.withFinal (x : Slot) : Slot := { x.withWait with total := some x.age }

/-- Whether a reply body fits a request kind as a final reply (R5). -/
def fits (k : ReqKind) : ReplyBody → Bool
  | .data _ => decide (k = .read) || decide (k = .swap)
  | .done => decide (k = .write)
  | .fault _ => decide (k = .read) || decide (k = .swap) || decide (k = .write)
  | .bounce => false

/-- A DATA or DONE reply closes the OPEN slot i as COMPLETED (R79), with the anomaly of R80 where it does not fit. -/
def completeSlot (i : SlotId) (body : ReplyBody) (s : State) : State :=
  let x := (s.slot i).withFinal
  if fits x.kind body then closeSlot i .completed (s.setSlot i x)
  else closeSlot i .completed (countAnomaly (s.setSlot i { x with anomaly := true }))

/-- A FAULT reply closes the OPEN slot i as FAULTED (R79). -/
def faultSlot (i : SlotId) (code : BitVec 4) (s : State) : State :=
  closeSlot i .faulted (s.setSlot i { (s.slot i).withFinal with faultCode := some code })

/-- A BOUNCE reply moves the OPEN slot i to BOUNCED (R81). -/
def bounceSlot (i : SlotId) (s : State) : State :=
  let x := (s.slot i).withWait
  s.setSlot i { x with state := .bounced, bounces := satInc x.bounces }

/-- A reply for the live slot i (R78): a stray when the slot is BOUNCED. -/
def replyToSlot (i : SlotId) (body : ReplyBody) (s : State) : State :=
  if (s.slot i).state = .bounced then countStray s
  else
    match body with
    | .bounce => bounceSlot i s
    | .fault code => faultSlot i code s
    | .data _ => completeSlot i body s
    | .done => completeSlot i body s

/-- A snooped reply (R78). -/
def snoopReply (r : Reply) (s : State) : State :=
  match s.matchPair r.initiator r.tag with
  | none => countStray s
  | some i => replyToSlot i r.body s

/-! ### Ticks and presence -/

/-- The age of slot x after a tick: OPEN and BOUNCED slots age, saturating at 65535 (R76). -/
def Slot.aged (x : Slot) : Slot := if x.isLive then { x with age := satInc x.age } else x

/-- Ages slot i (R76). -/
def ageSlot (s : State) (i : SlotId) : State := s.setSlot i (s.slot i).aged

/-- The expiry condition of slot i (R85). -/
def State.expiryDue (s : State) (i : SlotId) : Bool :=
  (s.slot i).isLive && decide (s.watchLimit ≠ 0) && decide (s.watchLimit.toNat ≤ (s.slot i).age.toNat)

/-- The visit of slot i in step 2 of a tick: it expires when it meets the condition (R85). -/
def expireSlot (s : State) (i : SlotId) : State :=
  if s.expiryDue i then
    closeSlot i .expired (s.setDev { s.dev with slotsExpired := s.dev.slotsExpired + 1 })
  else s

/-- Step 2 of a tick (R40): every live slot ages, then slots 0–7 are visited for expiry. -/
def tickSlots (s : State) : State := slotIds.foldl expireSlot (slotIds.foldl ageSlot s)

/-- Slot x follows a live transaction that involves node n (R86). -/
def Slot.involves (x : Slot) (n : Node) : Bool :=
  x.isLive && (decide (x.initiator = n) || decide (x.target = some n))

/-- The visit of slot i at the withdrawal of node n (R86). -/
def abandonSlot (n : Node) (s : State) (i : SlotId) : State :=
  if (s.slot i).involves n then closeSlot i .abandoned s else s

/-- Abandonment of the watched transactions that involve node n, in slot order (R86). -/
def abandonNode (n : Node) (s : State) : State := slotIds.foldl (abandonSlot n) s

/-! ### Freeing without a record -/

/-- Freeing of one OPEN, BOUNCED or CLOSING slot without a record (R89). -/
def discardSlot (i : SlotId) (s : State) : State :=
  let s1 := (s.setSlot i Slot.cleared).modStats (s.slot i).channel fun st => { st with discarded := st.discarded + 1 }
  (s1.setDev { s1.dev with purged := s1.dev.purged + 1 }).setCloseQueue (s.closeQueue.filter fun j => decide (j ≠ i))

/-- The visit of slot i when the slots of the channels in `scope` are freed without a record (R89): a RESERVED slot's arming
is cancelled with its channel left in `next` (R61). -/
def freeVisit (scope : ChanId → Bool) (next : RunState) (s : State) (i : SlotId) : State :=
  let x := s.slot i
  if scope x.channel then
    match x.state with
    | .free => s
    | .reserved => cancelAt x.channel i next s
    | .opened => discardSlot i s
    | .bounced => discardSlot i s
    | .closing => discardSlot i s
  else s

/-- Frees without a record every slot owned by a channel in `scope`, in slot order (R89). -/
def freeSlots (scope : ChanId → Bool) (next : RunState) (s : State) : State :=
  slotIds.foldl (freeVisit scope next) s

/-- How many slots that freeing counts in DISCARDED (R90). -/
def State.discardCount (s : State) (scope : ChanId → Bool) : Nat :=
  slotIds.countP fun i => scope (s.slot i).channel && (s.slot i).isWatching

end Sys2Proof.Machine
end

