-- ==== Sys2Proof/Machine/Ring.lean ====
section
/-! DEFINITION. Chapter 8 from the replies on: completion and commit (R133), bounces (R134), faults (R135–R137), orphans
(R138), the writeback's completion (R141), the ring's part of a tick (R40 steps 3a and 3b), RING_START and RING_STOP, and
the ring's part of a withdrawal and of backplane reset (R146, R147). -/

namespace Sys2Proof.Machine

/-! ### Commit -/

/-- The record tag that holds position PRODUCER in flight (R133). -/
def Ring.producerTag (g : Ring) : Option WTag :=
  recTags.find? fun t => (g.tag t).inFlight && decide ((g.tag t).position = g.producer)

/-- PRODUCER advanced by one position, modulo 2N (R133). -/
def Ring.advanceProducer (g : Ring) : Ring :=
  { g with producer := BitVec.ofNat 17 ((g.producer.toNat + 1) % (2 * g.n)) }

/-- Commit of tag t's record (R133 steps 1–4). -/
def commitTag (t : WTag) (s : State) : State :=
  let x := s.tag t
  let s1 := s.setRing (s.ring.setTag t WriteTag.cleared).advanceProducer
  raiseIfCrossed s.ring.fill s1.ring.fill s.ring.threshold.toNat (settle false x.record s1)

/-- One commit, if the tag at position PRODUCER is DONE (R133). -/
def commitOnce (s : State) : Option State :=
  match s.ring.producerTag with
  | none => none
  | some t => if (s.tag t).state = .done then some (commitTag t s) else none

/-- Commits while they last. -/
def commitLoop : Nat → State → State
  | 0, s => s
  | k + 1, s =>
    match commitOnce s with
    | none => s
    | some s' => commitLoop k s'

/-- What follows a commit run that advanced PRODUCER (R133): the writeback decision, the stop and drain tests that R145 and
R164 place after it, and the output advance. -/
def afterCommit (s : State) : State := advance (drainTest (stopTest (writebackIfDue s)))

/-- The commit run with what follows it (R133). Four record tags bound the run. -/
def commitRun (s : State) : State :=
  match commitOnce s with
  | none => s
  | some s' => afterCommit (commitLoop 3 s')

/-! ### Faults -/

/-- Causes under which every tag becomes FREE at once (R136 step 3). -/
def RingCause.freesAll : RingCause → Bool
  | .targetGone => true
  | .backplaneReset => true
  | .remoteFault => false
  | .bounceLimit => false
  | .timeout => false

/-- A tag after steps 2 and 3 of a fault (R136). `isCause` marks the cause tag. -/
def disposeTag (cause : RingCause) (isCause : Bool) (x : WriteTag) : WriteTag :=
  if cause.freesAll then WriteTag.cleared
  else if isCause then
    (match cause with
     | .timeout => { x with state := .orphaned, age := 0 }
     | _ => WriteTag.cleared)
  else
    match x.state with
    | .issued => { x with state := .orphaned }
    | .done => WriteTag.cleared
    | .backoff => WriteTag.cleared
    | .free => x
    | .orphaned => x

/-- RING_FAULT as a fault records it (R136 step 1, R139). -/
def faultReg (g : Ring) (cause : RingCause) (code : BitVec 4) (tag : Option WTag) : RingFaultReg :=
  match tag with
  | none => { RingFaultReg.cleared with cause := some cause, remoteCode := code }
  | some t =>
    { cause := some cause, isWriteback := decide (t = wbTag), remoteCode := code, tag := t,
      position := if t = wbTag then 0 else (g.tag t).position }

/-- The offset of a position from PRODUCER (R137). -/
def Ring.offsetFromProducer (g : Ring) (p : BitVec 17) : Nat := subMod p.toNat g.producer.toNat (2 * g.n)

/-- The records that a fault voids, in position order (R137). -/
def Ring.voided (g : Ring) : List Record :=
  ((recTags.filter fun t => (g.tag t).inFlight).insertionSort fun a b =>
    g.offsetFromProducer (g.tag a).position ≤ g.offsetFromProducer (g.tag b).position).map fun t => (g.tag t).record

/-- What a voided record adds to LOST_PENDING: a GAP its lost count, any other record 1 (R137). -/
def Record.lossWeight (r : Record) : Nat := if r.isGap then r.w2.toNat else 1

/-- The pending loss after voiding (R137): the voided records stand before any pending loss. -/
def Ring.countVoided (g : Ring) (l : List Record) : Ring :=
  match l with
  | [] => g
  | r :: _ => { g with firstLost := r.seq, lostPending := satAdd g.lostPending ((l.map Record.lossWeight).sum) }

/-- Step 4 of a fault (R137): the voided records join the pending loss, are counted in RECORDS_LOST, and settle lost in
position order. -/
def voidRecords (l : List Record) (s : State) : State :=
  let s1 := s.setRing (s.ring.countVoided l)
  let s2 := s1.setDev
    { s1.dev with recordsLost := s1.dev.recordsLost + BitVec.ofNat 32 (l.countP fun r => !r.isGap) }
  l.foldl (fun st r => settle true r st) s2

/-- The ring after steps 1 to 3 of a fault (R136). -/
def Ring.toFaulted (g : Ring) (cause : RingCause) (code : BitVec 4) (tag : Option WTag) : Ring :=
  allTags.foldl (fun h t => h.setTag t (disposeTag cause (decide (tag = some t)) (g.tag t)))
    { g with state := .faulted, fault := faultReg g cause code tag }

/-- A ring fault (R136 steps 1–6). -/
def ringFault (cause : RingCause) (code : BitVec 4) (tag : Option WTag) (s : State) : State :=
  endOnFault
    ((voidRecords s.ring.voided (s.setRing (s.ring.toFaulted cause code tag))).raise srcRingFault)

/-! ### Own replies -/

/-- What follows a tag 4 that has become FREE by a reply: the stop and drain tests (R145, R164). -/
def afterTagFree (s : State) : State := drainTest (stopTest s)

/-- Completion of the writeback (R141): tag 4 becomes FREE, and a writeback of the current PRODUCER is issued at once where
the completed value differs. -/
def completeWriteback (s : State) : State :=
  let x := s.tag wbTag
  let s1 := s.setTag wbTag WriteTag.cleared
  afterTagFree (if x.value = s.ring.producer then s1 else writebackIfDue s1)

/-- Completion of a write on tag t (R133, R141). -/
def completeTag (t : WTag) (s : State) : State :=
  if t = wbTag then completeWriteback s else commitRun (s.setTag t { s.tag t with state := .done })

/-- A BOUNCE for the ISSUED tag t (R134): BACKOFF, or the fault BOUNCE_LIMIT at the ninth bounce. -/
def bounceTag (t : WTag) (s : State) : State :=
  let x := s.tag t
  let n := x.bounces + 1
  if Config.bounceLimit ≤ n then ringFault .bounceLimit 0 (some t) (s.setTag t { x with bounces := n })
  else s.setTag t { x with bounces := n, state := .backoff, backoff := s.ring.backoff }

/-- An ORPHANED tag becomes FREE (R138). -/
def freeOrphan (t : WTag) (s : State) : State := afterTagFree (s.setTag t WriteTag.cleared)

/-- A reply for the ISSUED tag t (R133–R135, R141); DATA is taken as DONE and counted in ANOMALIES (R15). -/
def replyToIssued (t : WTag) (body : ReplyBody) (s : State) : State :=
  match body with
  | .done => completeTag t s
  | .data _ => completeTag t (s.setDev { s.dev with anomalies := s.dev.anomalies + 1 })
  | .bounce => bounceTag t s
  | .fault code => ringFault .remoteFault code (some t) s

/-- A reply for write tag t, by the tag's state (R15). -/
def replyToTag (t : WTag) (body : ReplyBody) (s : State) : State :=
  match (s.tag t).state with
  | .issued => replyToIssued t body s
  | .orphaned => freeOrphan t s
  | .free => s.setDev { s.dev with strayReplies := s.dev.strayReplies + 1 }
  | .backoff => s.setDev { s.dev with strayReplies := s.dev.strayReplies + 1 }
  | .done => s.setDev { s.dev with strayReplies := s.dev.strayReplies + 1 }

/-- An own reply, dispatched by its tag (R15): tags 0–4 to the ring engine, every other tag a stray (R16). -/
def ownReply (r : Reply) (s : State) : State :=
  if h : r.tag.val < 5 then replyToTag ⟨r.tag.val, h⟩ r.body s
  else s.setDev { s.dev with strayReplies := s.dev.strayReplies + 1 }

/-! ### The ring's part of a tick -/

/-- Reissue of a tag whose backoff has run out (R134): ISSUED with age 0, the same write with reissue 1. -/
def reissueTag (s : State) (t : WTag) : State :=
  if (s.tag t).state = .backoff ∧ (s.tag t).backoff = 0 then
    let x := { s.tag t with state := TagState.issued, age := 0 }
    (s.setTag t x).emit (tagBeat s.ownId s.ring t x true)
  else s

/-- Step 3a of a tick for tag t (R40): a tag in BACKOFF counts down, and reissues at 0. -/
def tickBackoff (s : State) (t : WTag) : State :=
  if (s.tag t).state = .backoff then
    reissueTag (s.setTag t { s.tag t with backoff := BitVec.ofNat 8 ((s.tag t).backoff.toNat - 1) }) t
  else s

/-- A tag that a reply may still answer: ISSUED or ORPHANED (R15). -/
def WriteTag.outstanding (x : WriteTag) : Bool := decide (x.state = .issued) || decide (x.state = .orphaned)

/-- The write limit is reached by tag x (R135, R138). -/
def Ring.limitReached (g : Ring) (x : WriteTag) : Bool := decide (g.writeLimit.toNat ≤ x.age.toNat)

/-- The write-limit test of an ISSUED tag: the fault TIMEOUT (R135). -/
def timeoutTag (t : WTag) (s : State) : State :=
  if (s.tag t).state = .issued ∧ s.ring.limitReached (s.tag t) then ringFault .timeout 0 (some t) s else s

/-- The write-limit test of an ORPHANED tag: it becomes FREE (R138). -/
def expireOrphan (t : WTag) (s : State) : State :=
  if (s.tag t).state = .orphaned ∧ s.ring.limitReached (s.tag t) then freeOrphan t s else s

/-- The write-limit test of tag t against its state at that moment (R40 step 3b). -/
def limitTest (t : WTag) (s : State) : State :=
  match (s.tag t).state with
  | .issued => timeoutTag t s
  | .orphaned => expireOrphan t s
  | .free => s
  | .backoff => s
  | .done => s

/-- Step 3b of a tick for tag t: a tag that was ISSUED or ORPHANED when the tick began (`g0` is the ring as it stood then)
ages by 1 and meets the write-limit test (R40, R41). -/
def tickAge (g0 : Ring) (s : State) (t : WTag) : State :=
  if (g0.tag t).outstanding ∧ (s.tag t).outstanding then
    limitTest t (s.setTag t { s.tag t with age := satInc (s.tag t).age })
  else s

/-- Steps 3a and 3b of a tick (R40). -/
def tickRing (g0 : Ring) (s : State) : State := allTags.foldl (tickAge g0) (allTags.foldl tickBackoff s)

/-! ### RING_START and RING_STOP -/

/-- Condition 1 of R143: RING mode, the ring IDLE or FAULTED, no tag ORPHANED. -/
def State.startAllowed (s : State) : Bool :=
  decide (s.path.mode = .ring) && (decide (s.ring.state = .idle) || decide (s.ring.state = .faulted)) &&
    !s.ring.hasOrphan

/-- The last byte address of the ring, as a number (R143). -/
def Ring.lastByte (g : Ring) : Nat := g.base.toNat + 32 * g.n - 1

/-- WB_ADDR is 0 or lies outside the ring's bytes (R143). -/
def Ring.writebackOk (g : Ring) : Bool :=
  decide (g.wbAddr = 0) || decide (g.wbAddr.toNat < g.base.toNat) || decide (g.lastByte < g.wbAddr.toNat)

/-- The indexes fit RING_SIZE, as RESUME requires (R143). -/
def Ring.indexesFit (g : Ring) : Bool :=
  decide (g.producer.toNat < 2 * g.n) && decide (g.consumer.toNat < 2 * g.n) && decide (g.fill ≤ g.n)

/-- Condition 2 of R143: the configuration is consistent. -/
def State.ringConsistent (s : State) (resume : Bool) : Bool :=
  decide (s.ring.node ≠ s.ownId) && has s.present s.ring.node &&
    decide (s.ring.threshold.toNat ≤ s.ring.n) && decide (s.ring.lastByte ≤ 0xFFFFFFFF) && s.ring.writebackOk &&
    (!resume || s.ring.indexesFit)

/-- The steps of an admitted RING_START (R144). The advance at its end drops, counts and settles as it does anywhere, though
R144 says that RING_START raises no event and changes no statistic. DEDUCED (log entry 25). -/
def startRing (resume : Bool) (s : State) : State :=
  let g := s.ring
  let g1 := if resume then g else { g with producer := 0, consumer := 0 }
  advance (writebackIfDue (s.setRing { g1 with fault := RingFaultReg.cleared, state := .running }))

/-- RING_STOP of a RUNNING ring: STOPPING, then the stop test at once (R145). -/
def stopRing (s : State) : State := stopTest (s.setRing { s.ring with state := .stopping })

/-! ### Withdrawal and backplane reset -/

/-- An ORPHANED tag whose destination n has left becomes FREE (R138, R146). -/
def freeOrphanOf (n : Node) (s : State) (t : WTag) : State :=
  if (s.tag t).state = .orphaned ∧ (s.tag t).dest = n then freeOrphan t s else s

/-- The ring's part of the withdrawal of node n (R146). RING_NODE's faults a RUNNING or STOPPING ring also where no tag is in
use, as R135 and R184 say, where R146 has a node that is no tag's destination leave the ring alone. DEDUCED (log entry 24). -/
def ringWithdraw (n : Node) (s : State) : State :=
  match s.ring.state with
  | .idle => s
  | .running => if n = s.ring.node then ringFault .targetGone 0 none s else s
  | .stopping => if n = s.ring.node then ringFault .targetGone 0 none s else s
  | .faulted => allTags.foldl (freeOrphanOf n) s

/-- The ring's part of backplane reset (R147). The SAMPLE records it voids settle lost and set LOSS, as R182 step 6 says,
where R72's table has LOSS unchanged. DEDUCED (log entry 18). -/
def ringBackplaneReset (s : State) : State :=
  if s.ring.state = .idle then s else ringFault .backplaneReset 0 none s

/-! ### CONSUMER -/

/-- The advance that a CONSUMER value v would make: (v − CONSUMER) mod 2N (R127). -/
def Ring.consumeBy (g : Ring) (v : BitVec 17) : Nat := subMod v.toNat g.consumer.toNat (2 * g.n)

/-- CONSUMER value v is admitted (R127): below 2N, with an advance of at most the fill. Where CONSUMER itself stands at 2N or
above (R126), this refuses its current value, which R127 also calls admitted. DEDUCED (log entry 22). -/
def Ring.consumerOk (g : Ring) (v : BitVec 17) : Bool :=
  decide (v.toNat < 2 * g.n) && decide (g.consumeBy v ≤ g.fill)

/-- An admitted write of v to CONSUMER (R127): the output advance runs where the fill was lowered while RUNNING. -/
def writeConsumer (v : BitVec 17) (s : State) : State :=
  let s1 := s.setRing { s.ring with consumer := v }
  if s.ring.state = .running ∧ s.ring.consumeBy v ≠ 0 then advance s1 else s1

end Sys2Proof.Machine
end

