-- ==== Sys2Proof/Machine/Commands.lean ====
section
/-! DEFINITION. Chapter 9: the command port's opening and parameter words, the fourteen commands, the result port and
CMD_CANCEL. -/

namespace Sys2Proof.Machine

/-! ### Parameters -/

/-- A channel parameter: the whole word is 0–3 (R152, R158). -/
def chanParam (p : Word) : Option ChanId := if h : p.toNat < 4 then some ⟨p.toNat, h⟩ else none

/-- A slot parameter: the whole word is 0–7 (R160). -/
def slotParam (p : Word) : Option SlotId := if h : p.toNat < 8 then some ⟨p.toNat, h⟩ else none

/-- The scope that PURGE's parameter names: one channel, or all four for 0xF (R158). -/
def purgeScope (p : Word) : Option (ChanId → Bool) :=
  if p = 0xF then some fun _ => true else (chanParam p).map fun c d => decide (d = c)

/-- A two-valued parameter: 0 gives false, 1 gives true (R161). -/
def flagParam (p : Word) : Option Bool := if p = 0 then some false else if p = 1 then some true else none

/-! ### START, PAUSE, SET_TIME -/

/-- START (R45, R157). -/
def cmdStart (s : State) : State :=
  if s.tb.obs = .paused then endCommand .ok (s.setTb { s.tb with obs := .observing }) else endCommand .wrongState s

/-- PAUSE (R46, R157). -/
def cmdPause (s : State) : State :=
  if s.tb.obs = .observing then endCommand .ok (pauseObserving s) else endCommand .wrongState s

/-- SET_TIME (R39, R157). -/
def cmdSetTime (p : Word) (s : State) : State := endCommand .ok (s.setTb { s.tb with time := p })

/-! ### Channel commands -/

/-- ARM (R62, R158). -/
def cmdArm (p : Word) (s : State) : State :=
  match chanParam p with
  | none => endCommand .badParam s
  | some c =>
    if (s.chan c).run ≠ .disarmed then endCommand .wrongState s
    else if windowCrossed (s.chan c).bank then endCommand .badConfig s
    else endCommand .ok (armChannel c s)

/-- DISARM (R63, R158). -/
def cmdDisarm (p : Word) (s : State) : State :=
  match chanParam p with
  | none => endCommand .badParam s
  | some c => endCommand .ok (disarmChannel s c)

/-- RELEASE (R64, R158). -/
def cmdRelease (p : Word) (s : State) : State :=
  match chanParam p with
  | none => endCommand .badParam s
  | some c => if (s.chan c).run = .held then endCommand .ok (releaseChannel c s) else endCommand .wrongState s

/-- PURGE (R90, R158): its result word is the number of slots counted in DISCARDED. -/
def cmdPurge (p : Word) (s : State) : State :=
  match purgeScope p with
  | none => endCommand .badParam s
  | some scope => endWith .ok 0 [BitVec.ofNat 32 (s.discardCount scope)] (freeSlots scope .counting s)

/-- A channel's eight statistics in the order of R34. -/
def ChanStats.words (x : ChanStats) : List Word :=
  [x.counted, x.fires, x.selected, x.collisions, x.heldover, x.filtered, x.delivered, x.discarded]

/-- The detail field of SNAPSHOT's status word: the ARMED flag in word bit 16, the count S in word bits 23:20 (R159). -/
def snapshotDetail (s : State) (c : ChanId) : BitVec 16 :=
  bitAt 0 (decide ((s.chan c).run = .armed)) ||| fieldAt 4 (BitVec.ofNat 4 (s.watching c))

/-- SNAPSHOT (R159). -/
def cmdSnapshot (p : Word) (s : State) : State :=
  match chanParam p with
  | none => endCommand .badParam s
  | some c => endWith .ok (snapshotDetail s c) (s.chan c).stats.words s

/-- READ_WATCH (R160). -/
def cmdReadWatch (p : Word) (s : State) : State :=
  match slotParam p with
  | none => endCommand .badParam s
  | some i => endWith .ok 0 (watchWords (s.slot i)) s

/-! ### Output commands -/

/-- RING_START: 0 FRESH, 1 RESUME (R143, R144, R161). -/
def cmdRingStart (p : Word) (s : State) : State :=
  match flagParam p with
  | none => endCommand .badParam s
  | some resume =>
    if !s.startAllowed then endCommand .wrongState s
    else if !s.ringConsistent resume then endCommand .badConfig s
    else endCommand .ok (startRing resume s)

/-- RING_STOP (R145, R162): it ends at once where every tag is FREE, else stays EXECUTING. -/
def cmdRingStop (s : State) : State := if s.ring.state = .running then stopRing s else endCommand .wrongState s

/-- SELECT_OUTPUT: 0 QUEUE, 1 RING (R116, R161). -/
def cmdSelectOutput (p : Word) (s : State) : State :=
  match flagParam p with
  | none => endCommand .badParam s
  | some toRing =>
    if s.path.staging.isEmpty && s.path.results.isEmpty && decide (s.ring.state = .idle) then
      endCommand .ok (s.setPath { s.path with mode := if toRing then .ring else .queue })
    else endCommand .wrongState s

/-- DRAIN (R163): it ends at once where the drain condition holds, or where a ring-mode ring is not RUNNING; else its tick
count is 0 and it stays EXECUTING. -/
def cmdDrain (p : Word) (s : State) : State :=
  if s.drained then endCommand .ok s
  else if s.path.mode = .queue ∨ s.ring.state = .running then
    s.setCmd { s.cmd with drainTicks := 0, drainTimeout := p }
  else if s.ring.state = .faulted then endCommand .ringFaulted s
  else endCommand .wrongState s

/-! ### RESET -/

/-- DISARM's move for the SAMPLING scope on channel c, with LOSS cleared (R72). -/
def resetChannel (s : State) (c : ChanId) : State :=
  let s1 := disarmChannel s c
  s1.setChan c { s1.chan c with loss := false }

/-- The SAMPLING scope (R166): armings cancelled, every channel DISARMED with COUNT 0 and LOSS 0, every slot freed without a
record (R91). -/
def scopeSampling (s : State) : State := freeSlots (fun _ => true) .disarmed (chanIds.foldl resetChannel s)

/-- The ring's part of the OUTPUT scope (R123 step 3, R148): indexes and pending loss 0, IDLE, RING_FAULT cleared; the tags
are left as they are. -/
def Ring.resetOutput (g : Ring) : Ring :=
  { g with producer := 0, consumer := 0, lostPending := 0, firstLost := 0, state := .idle, fault := RingFaultReg.cleared }

/-- Removal of one record from staging by the OUTPUT scope: a SAMPLE settles lost, and RECORDS_LOST does not change, as R123
step 2, R33 and R148 say, where R68 has such a loss show in RECORDS_LOST. DEDUCED (log entry 21). -/
def discardStaged (s : State) (r : Record) : State := settle true r (s.setPath { s.path with staging := s.path.staging.tail })

/-- The OUTPUT scope (R123): the result queue and staging emptied, QUEUE_PTR and the sequence counter 0, the ring reset, and
the output advance run. Slots that wait in the close queue then enter staging, as R123 says, where the tables of R92 and R124
have slots and close queue unchanged and R166 names no such effect. DEDUCED (log entry 20). -/
def scopeOutput (s : State) : State :=
  let s1 := s.setPath { s.path with results := [] }
  let s2 := s.path.staging.foldl discardStaged s1
  let s3 := s2.setPath { s2.path with ptr := 0, seq := 0 }
  advance (s3.setRing s3.ring.resetOutput)

/-- Zeroes the statistics of channel c (R71). -/
def zeroStats (s : State) (c : ChanId) : State := s.modStats c fun _ => ChanStats.zero

/-- The STATISTICS scope (R71, R166). -/
def scopeStatistics (s : State) : State := chanIds.foldl zeroStats (s.setDev DevStats.zero)

/-- The INTERRUPTS scope (R166). -/
def scopeInterrupts (s : State) : State := s.setInts s.ints.clearFlags

/-- RESET's mask is admitted: no bit of 31:4 set, some bit of 3:0 set (R165). -/
def maskOk (p : Word) : Bool := decide (p.toNat < 16) && decide (p ≠ 0)

/-- The OUTPUT scope is allowed: the ring IDLE, or FAULTED with no tag ORPHANED (R123, R165). -/
def Ring.outputAllowed (g : Ring) : Bool :=
  decide (g.state = .idle) || (decide (g.state = .faulted) && !g.hasOrphan)

/-- A scope applied when its mask bit is set. -/
def whenScope (p : Word) (i : Nat) (f : State → State) (s : State) : State := if has p i then f s else s

/-- The selected scopes in the fixed order SAMPLING, OUTPUT, STATISTICS, INTERRUPTS (R165). -/
def applyScopes (p : Word) (s : State) : State :=
  whenScope p 3 scopeInterrupts (whenScope p 2 scopeStatistics (whenScope p 1 scopeOutput (whenScope p 0 scopeSampling s)))

/-- RESET (R165). -/
def cmdReset (p : Word) (s : State) : State :=
  if !maskOk p then endCommand .badParam s
  else if has p 1 && !s.ring.outputAllowed then endCommand .wrongState s
  else endCommand .ok (applyScopes p s)

/-! ### The ports -/

/-- Runs command c with parameter p, the processor already EXECUTING (R153). -/
def runCommand (c : Command) (p : Word) (s : State) : State :=
  match c with
  | .start => cmdStart s
  | .pause => cmdPause s
  | .arm => cmdArm p s
  | .disarm => cmdDisarm p s
  | .release => cmdRelease p s
  | .purge => cmdPurge p s
  | .snapshot => cmdSnapshot p s
  | .readWatch => cmdReadWatch p s
  | .setTime => cmdSetTime p s
  | .ringStart => cmdRingStart p s
  | .ringStop => cmdRingStop s
  | .drain => cmdDrain p s
  | .selectOutput => cmdSelectOutput p s
  | .reset => cmdReset p s

/-- An opening word with an unknown code (R151): INVALID_COMMAND in RESULT, and the COMMAND event. -/
def openInvalid (code : BitVec 8) (s : State) : State :=
  endCommand .invalidCommand (s.setCmd { s.cmd with code := code, discarded := false })

/-- The processor at the opening word of command c (R151). -/
def Processor.opened (p : Processor) (c : Command) : Processor :=
  { p with code := c.code, discarded := false, phase := if c.takesParam then .params else .executing }

/-- An opening word (R151): PARAMS, or execution within the same access. -/
def openCommand (v : Word) (s : State) : State :=
  match Command.ofCode (v.extractLsb' 0 8) with
  | none => openInvalid (v.extractLsb' 0 8) s
  | some c =>
    let s1 := s.setCmd (s.cmd.opened c)
    if c.takesParam then s1 else runCommand c 0 s1

/-- A parameter word (R152): the command of the current code begins executing. -/
def paramWord (v : Word) (s : State) : State :=
  match Command.ofCode s.cmd.code with
  | none => s
  | some c => runCommand c v (s.setCmd { s.cmd with phase := .executing })

/-- An accepted write to CMD_PORT (R151, R152). -/
def writeCmdPort (v : Word) (s : State) : State :=
  match s.cmd.phase with
  | .idle => openCommand v s
  | .params => paramWord v s
  | .executing => s
  | .result => s

/-- An accepted write to CMD_CANCEL (R155). -/
def cancelCommand (s : State) : State :=
  match s.cmd.phase with
  | .idle => s
  | .params => s.setCmd { s.cmd with phase := .idle, code := 0 }
  | .executing => endCommand .cancelled s
  | .result =>
    s.setCmd
      { s.cmd with phase := .idle, code := 0, results := [], discarded := s.cmd.discarded || !s.cmd.results.isEmpty }

/-- The word a read of RESULT_PORT returns: the head of the result buffer (R154). -/
def Processor.headWord (p : Processor) : Word := p.results.headD 0

/-- The processor after an accepted read of RESULT_PORT (R154). -/
def Processor.takeWord (p : Processor) : Processor :=
  if p.results.length ≤ 1 then { p with results := [], phase := .idle, code := 0 }
  else { p with results := p.results.tail }

end Sys2Proof.Machine
end

