-- ==== Sys2Proof/Machine/Window.lean ====
section
/-! DEFINITION. Chapter 2: the checks of a target access (R20), the value a read returns, the effect a write has, and the
answer (R22, R25). The fields of the registers follow their owning chapters. -/

namespace Sys2Proof.Machine

/-! ### What a read returns -/

/-- CH_KINDS (R49). -/
def Bank.kindsWord (b : Bank) : Word := fieldAt 0 b.kinds

/-- CH_PERIOD (R49). -/
def Bank.periodWord (b : Bank) : Word := fieldAt 0 b.period ||| fieldAt 24 b.jitter ||| fieldAt 28 b.quota

/-- CH_SIG (R49). -/
def Bank.sigWord (b : Bank) : Word := fieldAt 0 b.sigMask ||| fieldAt 16 b.sigMatch

/-- CH_LATFILT (R49). -/
def Bank.latfiltWord (b : Bank) : Word :=
  fieldAt 0 b.thresh ||| bitAt 16 (decide (b.sel = .total)) ||| bitAt 17 b.inv

/-- CH_CTRL (R49). -/
def Bank.ctrlWord (b : Bank) : Word := bitAt 0 b.window ||| bitAt 1 (decide (b.notify = .each))

/-- CH_STATE of channel c (R52). -/
def chStateWord (s : State) (c : ChanId) : Word :=
  fieldAt 0 (s.chan c).run.code ||| bitAt 2 (s.chan c).loss ||| bitAt 3 (s.bankLocked c) |||
    fieldAt 4 (BitVec.ofNat 4 (s.owned c)) ||| fieldAt 8 (s.chan c).count

/-- GSTATUS (R32). -/
def gstatusWord (s : State) : Word :=
  bitAt 0 (decide (s.tb.obs = .observing)) ||| bitAt 1 (decide (s.path.mode = .ring)) |||
    fieldAt 2 s.ring.state.code ||| fieldAt 4 s.cmd.phase.code |||
    fieldAt 8 (BitVec.ofNat 4 s.path.staging.length) ||| fieldAt 12 (BitVec.ofNat 4 s.closeQueue.length) |||
    fieldAt 16 (BitVec.ofNat 4 (slotIds.countP fun i => decide ((s.slot i).state = .free)))

/-- IDENT (R31). -/
def identWord (own : Node) : Word :=
  fieldAt 0 (nodeBits own) ||| fieldAt 8 Config.revision ||| fieldAt 16 Config.partNumber

/-- CMD_STATUS (R150). -/
def Processor.statusWord (p : Processor) : Word :=
  fieldAt 0 p.phase.code ||| bitAt 2 (decide (p.phase = .params)) ||| bitAt 3 p.discarded |||
    fieldAt 4 (if p.phase = .result then BitVec.ofNat 4 p.results.length else 0) ||| fieldAt 8 p.code |||
    fieldAt 16 p.lastStatus ||| fieldAt 20 p.lastCode

/-- RING_POLICY (R125). -/
def Ring.policyWord (g : Ring) : Word := bitAt 0 (decide (g.policy = .drop)) ||| fieldAt 8 g.backoff

/-- RING_FAULT (R139). -/
def RingFaultReg.word (f : RingFaultReg) : Word :=
  fieldAt 0 ((f.cause.map RingCause.code).getD 0) ||| bitAt 3 f.isWriteback ||| fieldAt 4 f.remoteCode |||
    fieldAt 8 (BitVec.ofNat 3 f.tag.val) ||| fieldAt 12 f.position

/-- INT_STATE (R170). -/
def Ints.stateWord (x : Ints) : Word :=
  fieldAt 0 x.ip ||| fieldAt 8 x.ius ||| fieldAt 16 x.err ||| fieldAt 24 x.alerted

/-- MIE with its copy of the IE flags (R170). -/
def Ints.mieWord (x : Ints) : Word := bitAt 0 x.mie ||| fieldAt 8 x.ie

/-- ALERT_NODE with the alert count (R175). -/
def Ints.alertNodeWord (x : Ints) : Word :=
  fieldAt 0 (nodeBits x.alertNode) ||| bitAt 4 x.alertEnable ||| fieldAt 8 x.alertCount

/-- Device statistic i, in the order of R33. -/
def DevStats.word (d : DevStats) (i : Fin 8) : Word :=
  match i with
  | 0 => d.markersAccepted
  | 1 => d.markersRefused
  | 2 => d.strayReplies
  | 3 => d.windowRefusals
  | 4 => d.recordsLost
  | 5 => d.anomalies
  | 6 => d.slotsExpired
  | 7 => d.purged

/-- Channel statistic i, in the order of R34. -/
def ChanStats.word (x : ChanStats) (i : Fin 8) : Word :=
  match i with
  | 0 => x.counted
  | 1 => x.fires
  | 2 => x.selected
  | 3 => x.collisions
  | 4 => x.heldover
  | 5 => x.filtered
  | 6 => x.delivered
  | 7 => x.discarded

/-- The value of register g as a read returns it (R22). The write-only registers return nothing: R20 refuses their reads
before any value is taken. -/
def readReg (s : State) : Reg → Word
  | .ident => identWord s.ownId
  | .owner => ownerWord s.owner
  | .gstatus => gstatusWord s
  | .present => fieldAt 0 s.present
  | .time => s.tb.time
  | .prescale => fieldAt 0 s.tb.prescale
  | .watchLimit => fieldAt 0 s.watchLimit
  | .lfsr => fieldAt 0 s.tb.lfsr
  | .resultPort => s.cmd.headWord
  | .cmdStatus => s.cmd.statusWord
  | .bank => BitVec.ofNat 32 s.bank.val
  | .chKinds => (s.chan s.bank).bank.kindsWord
  | .chInit => fieldAt 0 (s.chan s.bank).bank.init
  | .chTarg => fieldAt 0 (s.chan s.bank).bank.targ
  | .chWlo => (s.chan s.bank).bank.wlo
  | .chWhi => (s.chan s.bank).bank.whi
  | .chPeriod => (s.chan s.bank).bank.periodWord
  | .chSig => (s.chan s.bank).bank.sigWord
  | .chLatfilt => (s.chan s.bank).bank.latfiltWord
  | .chCtrl => (s.chan s.bank).bank.ctrlWord
  | .chState => chStateWord s s.bank
  | .ringNode => fieldAt 0 (nodeBits s.ring.node)
  | .ringBase => s.ring.base
  | .ringSize => fieldAt 0 s.ring.size
  | .ringPolicy => s.ring.policyWord
  | .ringThreshold => fieldAt 0 s.ring.threshold
  | .writeLimit => fieldAt 0 s.ring.writeLimit
  | .wbAddr => s.ring.wbAddr
  | .producer => fieldAt 0 s.ring.producer
  | .consumer => fieldAt 0 s.ring.consumer
  | .ringFault => s.ring.fault.word
  | .lostPending => s.ring.lostPending
  | .queueData => s.path.dataWord
  | .queuePtr => BitVec.ofNat 32 s.path.ptr.val
  | .queueCount => BitVec.ofNat 32 s.path.results.length
  | .queueThreshold => fieldAt 0 s.path.threshold
  | .intState => s.ints.stateWord
  | .ack => s.ints.ackValue
  | .mie => s.ints.mieWord
  | .alertNode => s.ints.alertNodeWord
  | .alertAddr => s.ints.alertAddr
  | .devStat i => s.dev.word i
  | .chStat c i => (s.chan c).stats.word i
  | .claim => 0
  | .relinquish => 0
  | .cmdPort => 0
  | .cmdCancel => 0
  | .intCtrl => 0
  | .endSvc => 0
  | .marker => 0

/-- The side effect of an accepted read (R22): RESULT_PORT, QUEUE_DATA and ACK have one. -/
def readEffect (g : Reg) (s : State) : State :=
  match g with
  | .resultPort => s.setCmd s.cmd.takeWord
  | .queueData => readQueue s
  | .ack => s.setInts s.ints.acknowledge
  | _ => s

/-! ### What a write does -/

/-- RING_SIZE admits a power of two, 16–65536 (R125). -/
def ringSizeOk (n : Nat) : Bool := [16, 32, 64, 128, 256, 512, 1024, 2048, 4096, 8192, 16384, 32768, 65536].contains n

/-- The value v is admitted by register g (R20 condition 9, R22). Registers not named admit every word. -/
def valueOk (s : State) (g : Reg) (v : Word) : Bool :=
  match g with
  | .prescale => decide (1 ≤ (v.extractLsb' 0 13).toNat) && decide ((v.extractLsb' 0 13).toNat ≤ 4096)
  | .lfsr => decide (v.extractLsb' 0 16 ≠ 0)
  | .bank => decide (v.toNat < 4)
  | .chPeriod =>
    decide (v.extractLsb' 0 24 ≠ 0) && decide ((v.extractLsb' 24 4).toNat ≤ 8) &&
      decide (1 ≤ (v.extractLsb' 28 4).toNat) && decide ((v.extractLsb' 28 4).toNat ≤ 8)
  | .ringNode => decide (v.extractLsb' 0 4 ≠ nodeBits s.ownId)
  | .ringBase => decide (v.extractLsb' 0 5 = 0)
  | .ringSize => ringSizeOk (v.extractLsb' 0 17).toNat
  | .ringPolicy => decide (v.extractLsb' 8 8 ≠ 0)
  | .ringThreshold =>
    decide (1 ≤ (v.extractLsb' 0 17).toNat) && decide ((v.extractLsb' 0 17).toNat ≤ 65536)
  | .writeLimit => decide (v.extractLsb' 0 16 ≠ 0)
  | .wbAddr => decide (v.extractLsb' 0 2 = 0)
  | .consumer => s.ring.consumerOk (v.extractLsb' 0 17)
  | .queueThreshold => decide (1 ≤ (v.extractLsb' 0 5).toNat) && decide ((v.extractLsb' 0 5).toNat ≤ 16)
  | .intCtrl => (IntAction.ofCode (v.extractLsb' 8 4)).isSome
  | .alertNode => decide (v.extractLsb' 0 4 ≠ nodeBits s.ownId)
  | .alertAddr => decide (v.extractLsb' 0 2 = 0)
  | _ => true

/-- A written word's node field, bits 3:0. -/
def nodeField (v : Word) : Node := Fin.ofNat 16 (v.extractLsb' 0 4).toNat

/-- The bank after a write of v to one of its nine registers (R49). -/
def Bank.write (b : Bank) (g : Reg) (v : Word) : Bank :=
  match g with
  | .chKinds => { b with kinds := v.extractLsb' 0 5 }
  | .chInit => { b with init := v.extractLsb' 0 16 }
  | .chTarg => { b with targ := v.extractLsb' 0 16 }
  | .chWlo => { b with wlo := v }
  | .chWhi => { b with whi := v }
  | .chPeriod =>
    { b with period := v.extractLsb' 0 24, jitter := v.extractLsb' 24 4, quota := v.extractLsb' 28 4 }
  | .chSig => { b with sigMask := v.extractLsb' 0 16, sigMatch := v.extractLsb' 16 16 }
  | .chLatfilt =>
    { b with thresh := v.extractLsb' 0 16, sel := if has v 16 then .total else .wait, inv := has v 17 }
  | .chCtrl => { b with window := has v 0, notify := if has v 1 then .each else .stream }
  | _ => b

/-- The ring after a write of v to one of its seven configuration registers (R125). -/
def Ring.writeConfig (x : Ring) (g : Reg) (v : Word) : Ring :=
  match g with
  | .ringNode => { x with node := nodeField v }
  | .ringBase => { x with base := v }
  | .ringSize => { x with size := v.extractLsb' 0 17 }
  | .ringPolicy => { x with policy := if has v 0 then .drop else .stall, backoff := v.extractLsb' 8 8 }
  | .ringThreshold => { x with threshold := v.extractLsb' 0 17 }
  | .writeLimit => { x with writeLimit := v.extractLsb' 0 16 }
  | .wbAddr => { x with wbAddr := v }
  | _ => x

/-- An INT_CTRL write (R171): source in bits 2:0, action in bits 11:8. -/
def writeIntCtrl (v : Word) (s : State) : State :=
  match IntAction.ofCode (v.extractLsb' 8 4) with
  | none => s
  | some a => s.setInts (s.ints.act (Fin.ofNat 8 (v.extractLsb' 0 3).toNat) a)

/-- Writes v to a banked register of channel BANK (R30, R49). -/
def writeBank (g : Reg) (v : Word) (s : State) : State :=
  s.setChan s.bank { s.chan s.bank with bank := (s.chan s.bank).bank.write g v }

/-- The effect of an accepted write of v by node n to register g (R22), MARKER apart. Writes to read-only registers are
refused by R20 before this. -/
def writeReg (n : Node) (g : Reg) (v : Word) (s : State) : State :=
  match g with
  | .claim => s.setOwner (some n)
  | .relinquish => loseOwner s
  | .prescale => s.setTb { s.tb with prescale := v.extractLsb' 0 13 }
  | .watchLimit => { s with watchLimit := v.extractLsb' 0 16 }
  | .lfsr => s.setTb { s.tb with lfsr := v.extractLsb' 0 16 }
  | .cmdPort => writeCmdPort v s
  | .cmdCancel => cancelCommand s
  | .bank => { s with bank := Fin.ofNat 4 v.toNat }
  | .chKinds => writeBank .chKinds v s
  | .chInit => writeBank .chInit v s
  | .chTarg => writeBank .chTarg v s
  | .chWlo => writeBank .chWlo v s
  | .chWhi => writeBank .chWhi v s
  | .chPeriod => writeBank .chPeriod v s
  | .chSig => writeBank .chSig v s
  | .chLatfilt => writeBank .chLatfilt v s
  | .chCtrl => writeBank .chCtrl v s
  | .ringNode => s.setRing (s.ring.writeConfig .ringNode v)
  | .ringBase => s.setRing (s.ring.writeConfig .ringBase v)
  | .ringSize => s.setRing (s.ring.writeConfig .ringSize v)
  | .ringPolicy => s.setRing (s.ring.writeConfig .ringPolicy v)
  | .ringThreshold => s.setRing (s.ring.writeConfig .ringThreshold v)
  | .writeLimit => s.setRing (s.ring.writeConfig .writeLimit v)
  | .wbAddr => s.setRing (s.ring.writeConfig .wbAddr v)
  | .consumer => writeConsumer (v.extractLsb' 0 17) s
  | .queuePtr => s.setPath { s.path with ptr := 0 }
  | .queueThreshold => s.setPath { s.path with threshold := v.extractLsb' 0 5 }
  | .intCtrl => writeIntCtrl v s
  | .endSvc => s.setInts s.ints.endService
  | .mie => s.setInts { s.ints with mie := has v 0 }
  | .alertNode => s.setInts { s.ints with alertNode := nodeField v, alertEnable := has v 4 }
  | .alertAddr => s.setInts { s.ints with alertAddr := v }
  | _ => s

/-! ### The checks of R20 -/

/-- The request reads (as opposed to WRITE and POSTED). -/
def readsOnly (r : Request) : Bool := decide (r.kind = .read)

/-- Condition 4: the access direction (R23). -/
def wrongDirection (r : Request) (g : Reg) : Bool :=
  match g.direction with
  | .readOnly => !(readsOnly r)
  | .writeOnly => readsOnly r
  | .readWrite => false

/-- Condition 5: the access needs the owner and its initiator is not the owner (R24); CLAIM is refused to all but the
owner while there is one (R27), RELINQUISH to all but the owner (R28). -/
def ownerRefused (s : State) (r : Request) (g : Reg) : Bool :=
  match g with
  | .claim => decide (s.owner ≠ none) && decide (s.owner ≠ some r.initiator)
  | .marker => false
  | .resultPort => decide (s.owner ≠ some r.initiator)
  | .queueData => decide (s.owner ≠ some r.initiator)
  | .ack => decide (s.owner ≠ some r.initiator)
  | _ => !(readsOnly r) && decide (s.owner ≠ some r.initiator)

/-- Condition 6: the port does not admit the use in this phase (R152, R154). -/
def phaseRefused (s : State) (g : Reg) : Bool :=
  match g with
  | .cmdPort => decide (s.cmd.phase = .executing) || decide (s.cmd.phase = .result)
  | .resultPort => decide (s.cmd.phase ≠ .result)
  | _ => false

/-- Condition 7: a write to a configuration register while it is locked (R36, R51, R125). -/
def lockRefused (s : State) (r : Request) (g : Reg) : Bool :=
  !(readsOnly r) &&
    ((decide (g = Reg.prescale) && decide (s.tb.obs = .observing)) || (g.isBank && s.bankLocked s.bank) ||
      (g.isRingConfig && s.ring.active))

/-- Condition 8: a MARKER write while PAUSED (R111). -/
def markerClosed (s : State) (g : Reg) : Bool := decide (g = Reg.marker) && decide (s.tb.obs = .paused)

/-- The word a request writes. -/
def writtenWord (r : Request) : Word := wordOfBytes r.payload

/-- Conditions 4 to 9 of R20 for a 4-byte access, not a SWAP, to register g: the first that holds decides. -/
def checkReg (s : State) (r : Request) (g : Reg) : Option WindowFault :=
  if wrongDirection r g then some .accessDirection
  else if ownerRefused s r g then some .notOwner
  else if phaseRefused s g then some .phase
  else if lockRefused s r g then some .locked
  else if markerClosed s g then some .markerClosed
  else if !(readsOnly r) && !valueOk s g (writtenWord r) then some .badValue
  else none

/-- What the window makes of an access (R20): refused with a fault code, or accepted for a register. -/
inductive Verdict
  | refused (f : WindowFault)
  | accepted (g : Reg)
  deriving DecidableEq, Repr

/-- The checks of R20 in their order. -/
def checkAccess (s : State) (r : Request) : Verdict :=
  if r.kind = .swap then .refused .badKind
  else if r.length ≠ 4 then .refused .badLength
  else
    match Reg.ofOffset (offsetOf r.address) with
    | none => .refused .noSuchRegister
    | some g =>
      match checkReg s r g with
      | some f => .refused f
      | none => .accepted g

/-! ### The answer -/

/-- A reply of the observer to the request r (R12). -/
def replyTo (s : State) (r : Request) (body : ReplyBody) : Beat :=
  .reply { responder := s.ownId, initiator := r.initiator, tag := r.tag, body := body }

/-- Answers r with a reply, unless it is POSTED, which is owed none (R12, R25). -/
def answer (r : Request) (body : ReplyBody) (s : State) : State :=
  if r.kind = .posted then s else s.emit (replyTo s r body)

/-- A refused access (R20, R25): a FAULT reply, or one more of WINDOW_REFUSALS for a POSTED; nothing else. -/
def refuseAccess (r : Request) (f : WindowFault) (s : State) : State :=
  if r.kind = .posted then s.setDev { s.dev with windowRefusals := s.dev.windowRefusals + 1 }
  else s.emit (replyTo s r (.fault f.code))

/-- A MARKER write that passed the checks (R112, R113). -/
def writeMarker (r : Request) (s : State) : State :=
  if s.markerBlocked then refuseMarker (answer r .bounce s)
  else acceptMarker r.initiator (writtenWord r) (answer r .done s)

/-- An accepted access (R22): a READ is answered with the value, then its side effect follows; a WRITE is answered DONE,
then its effect follows. -/
def performAccess (r : Request) (g : Reg) (s : State) : State :=
  if readsOnly r then readEffect g (answer r (.data (wordBytes (readReg s g))) s)
  else if g = Reg.marker then writeMarker r s
  else writeReg r.initiator g (writtenWord r) (answer r .done s)

/-- A target access (R12, R20, R22). -/
def targetAccess (r : Request) (s : State) : State :=
  match checkAccess s r with
  | .refused f => refuseAccess r f s
  | .accepted g => performAccess r g s

end Sys2Proof.Machine
end

