-- ==== Sys2Proof/Machine/Events.lean ====
section
/-! DEFINITION. The reactions to the six kinds of event (R1): request and reply beats (R10, R11), ticks (R40), presence
changes (R9, R184), backplane reset (R182) and power-on reset (R180); and the two ways exec runs a reaction. -/

namespace Sys2Proof.Machine

/-- The outcome type of a step. -/
abbrev Result := Host.Outcome State Fault Refusal

/-! ### Running a reaction -/

/-- An event: while neither reset line is asserted, its reaction and then the end-of-event alert check (R176); while one
is, nothing (R17, R18). -/
def event (f : State → State) (s : State) : Result := .next (if s.live then alertCheck (f s) else s)

/-- A step of an event's reaction, taken by itself (log entry 3): no end-of-event check. -/
def innerStep (f : State → State) (s : State) : Result := .next (if s.live then f s else s)

/-! ### Beats -/

/-- Implicit arrival of a request's initiator (R10). -/
def implicitArrival (n : Node) (s : State) : State := s.setPresent (withBit s.present n)

/-- R11: a request of any kind but BROADCAST whose target is OWN_ID is a target access. -/
def isTargetAccess (s : State) (r : Request) : Bool := decide (r.kind ≠ .broadcast) && decide (r.target = some s.ownId)

/-- The reaction to a request beat: implicit arrival (R10), then the classified beat (R11–R13). -/
def requestBeat (r : Request) (s : State) : State :=
  let s1 := implicitArrival r.initiator s
  if isTargetAccess s1 r then targetAccess r s1 else snoopRequest r s1

/-- The reaction to a reply beat: an own reply goes to the ring engine, any other to the slots (R11). -/
def replyBeat (r : Reply) (s : State) : State := if r.initiator = s.ownId then ownReply r s else snoopReply r s

/-- A request beat as an event; a beat outside the ranges of R4 is not one. -/
def requestEvent (r : Request) (s : State) : Result := if r.wf then event (requestBeat r) s else .next s

/-- A reply beat as an event; a beat outside the ranges of R5 is not one. -/
def replyEvent (r : Reply) (s : State) : Result := if r.wf then event (replyBeat r) s else .next s

/-- The write of v to register g by w, as an event. -/
def writeEvent (w : Writer) (g : Reg) (v : Word) (s : State) : Result := requestEvent (writerBeat w g v s.ownId) s

/-- The read of register g by r, as an event. -/
def readEvent (r : Reader) (g : Reg) (s : State) : Result := requestEvent (readerBeat r g s.ownId) s

/-- A reply for one of the observer's own tags, as an event. -/
def ownReplyEvent (responder : Node) (tag : Tag) (body : ReplyBody) (s : State) : Result :=
  replyEvent { responder := responder, initiator := s.ownId, tag := tag, body := body } s

/-! ### Ticks -/

/-- The prescaler at a tick: the divider count returns to 0 and the active period is reloaded from PRESCALE (R35). -/
def Timebase.restart (t : Timebase) : Timebase := { t with divider := 0, active := t.prescale }

/-- Step 1 of a tick (R40), with the prescaler's restart (R35). -/
def tickTime (s : State) : State := s.setTb { s.tb.restart with time := s.tb.time + 1 }

/-- The reaction to a tick: steps 1 to 4 of R40. -/
def tickBeat (s : State) : State := tickDrain (tickRing s.ring (tickSlots (tickTime s)))

/-- One backplane clock with nothing commanded: the backplane interface places the oldest beat it holds (R3), and the
divider counts; where it reaches the active period the tick follows (R35). Log entry 4. -/
def clock (s : State) : State :=
  if s.live then
    let s1 := s.setOutbox s.outbox.tail
    let s2 := s1.setTb { s1.tb with divider := s1.tb.divider + 1 }
    if s1.tb.active.toNat ≤ s1.tb.divider.toNat + 1 then alertCheck (tickBeat s2) else s2
  else s

/-! ### Presence -/

/-- The presence line of node n at a level; the observer drives its own line and ignores changes for it (R9, R185). The release
of backplane reset reads the levels, the release of power-on reset takes its own (log entries 12 and 23). -/
def setLine (n : Node) (level : Bool) (s : State) : State :=
  if n = s.ownId then s
  else s.setPins { s.pins with lines := if level then withBit s.pins.lines n else withoutBit s.pins.lines n }

/-- Steps 1 to 4 of the withdrawal of node n (R184); step 5 changes nothing. -/
def withdraw (n : Node) (s : State) : State :=
  let s1 := abandonNode n (s.setPresent (withoutBit s.present n))
  ringWithdraw n (if s1.owner = some n then loseOwner s1 else s1)

/-- A presence change present for n, with the line's level (R9): an arrival where n is not in PRESENT. -/
def arrivalEvent (n : Node) (s : State) : Result :=
  if n = s.ownId ∨ has s.present n then .next (setLine n true s)
  else event (fun st => implicitArrival n st) (setLine n true s)

/-- A presence change absent for n, with the line's level (R9): a withdrawal where n is in PRESENT and is not OWN_ID. -/
def withdrawalEvent (n : Node) (s : State) : Result :=
  if n = s.ownId ∨ !has s.present n then .next (setLine n false s)
  else event (withdraw n) (setLine n false s)

/-! ### Resets -/

/-- Assertion of the backplane reset line (R17, R181): the beats not yet placed are discarded. While the device reset input
is asserted only the line's level changes (R18). -/
def assertBackplaneReset (s : State) : State :=
  let s1 := s.setPins { s.pins with backplaneReset := true }
  if s.pins.deviceReset then s1 else s1.setOutbox []

/-- Step 3 of a backplane reset (R182): PAUSED with every arming cancelled, where it finds OBSERVING. -/
def resetObserving (s : State) : State := if s.tb.obs = .observing then pauseObserving s else s

/-- The backplane reset event at the release of the line (R182 steps 1–7). -/
def backplaneResetBeat (s : State) : State :=
  let s1 := loseOwner (s.setPresent (s.pins.lines ||| lineOf s.ownId))
  let s2 := freeSlots (fun _ => true) .counting (resetObserving s1)
  let s3 := ringBackplaneReset (s2.setInts s2.ints.clearService)
  s3.setTb s3.tb.restart

/-- Release of the backplane reset line (R17, R182). While the device reset input is asserted only the line's level changes
(R18). A release implies an assertion, so no unplaced beat outlives it (log entry 6). -/
def releaseBackplaneReset (s : State) : Result :=
  let s1 := s.setPins { s.pins with backplaneReset := false }
  if s.pins.deviceReset then .next s1 else .next (alertCheck (backplaneResetBeat (s1.setOutbox [])))

/-- Release of the device reset input (R18, R180). The strap and line levels it reads are the row's operands, and the levels
that the pins held before, those moved under the reset among them, are replaced. DESIGN CHOICE (log entry 23). A command that was
EXECUTING leaves no ABORTED, and the beats not yet placed are gone, as R180 says, where R29, R156 and R17 read otherwise. DEDUCED
(log entry 26). -/
def releaseDeviceReset (straps : Node) (lines : Mask) (s : State) : State :=
  State.powerOn straps lines s.pins.backplaneReset s.pending

end Sys2Proof.Machine
end

