-- ==== Sys2Proof/Machine/CommandRows.lean ====
section
/-! DEFINITION. The meanings of the command rows: each is the CMD_PORT write that carries the command's last word, the
opening word of a command without a parameter and the parameter word of one with (R151, R152; log entry 5). The port's
checks and phase decide what the word does; in the phase that the row means, the command runs (Commands.lean). -/

namespace Sys2Proof.Machine

/-- COMMAND_OPEN (R151): the opening word of command c. -/
def execCommandOpen (w : Writer) (c : Command) (high : BitVec 24) (s : State) : Result :=
  writeEvent w .cmdPort (openingWord c.code high) s

/-- INVALID_COMMAND (R151): an opening word whose code is no command. -/
def execInvalidCommand (w : Writer) (v : Word) (s : State) : Result := writeEvent w .cmdPort v s

/-- START (R45, R157): the opening word. -/
def execStart (w : Writer) (high : BitVec 24) (s : State) : Result :=
  writeEvent w .cmdPort (openingWord Command.start.code high) s

/-- PAUSE (R46, R157): the opening word. -/
def execPause (w : Writer) (high : BitVec 24) (s : State) : Result :=
  writeEvent w .cmdPort (openingWord Command.pause.code high) s

/-- RING_STOP (R145, R162): the opening word. -/
def execRingStop (w : Writer) (high : BitVec 24) (s : State) : Result :=
  writeEvent w .cmdPort (openingWord Command.ringStop.code high) s

/-- SET_TIME (R39): the parameter word. -/
def execSetTime (w : Writer) (v : Word) (s : State) : Result := writeEvent w .cmdPort v s

/-- ARM (R62): the parameter word. -/
def execArm (w : Writer) (v : Word) (s : State) : Result := writeEvent w .cmdPort v s

/-- DISARM (R63): the parameter word. -/
def execDisarm (w : Writer) (v : Word) (s : State) : Result := writeEvent w .cmdPort v s

/-- RELEASE (R64): the parameter word. -/
def execRelease (w : Writer) (v : Word) (s : State) : Result := writeEvent w .cmdPort v s

/-- PURGE (R90): the parameter word. -/
def execPurge (w : Writer) (v : Word) (s : State) : Result := writeEvent w .cmdPort v s

/-- SNAPSHOT (R159): the parameter word. -/
def execSnapshot (w : Writer) (v : Word) (s : State) : Result := writeEvent w .cmdPort v s

/-- READ_WATCH (R160): the parameter word. -/
def execReadWatch (w : Writer) (v : Word) (s : State) : Result := writeEvent w .cmdPort v s

/-- RING_START (R143, R144): the parameter word. -/
def execRingStart (w : Writer) (v : Word) (s : State) : Result := writeEvent w .cmdPort v s

/-- DRAIN (R163): the parameter word. -/
def execDrain (w : Writer) (v : Word) (s : State) : Result := writeEvent w .cmdPort v s

/-- SELECT_OUTPUT (R116): the parameter word. -/
def execSelectOutput (w : Writer) (v : Word) (s : State) : Result := writeEvent w .cmdPort v s

/-- RESET_SAMPLING (R165, R166): the parameter word of RESET, a scope mask that names SAMPLING. -/
def execResetSampling (w : Writer) (others : Word) (s : State) : Result := writeEvent w .cmdPort (scopeWord 0 others) s

/-- RESET_OUTPUT (R165, R166): the parameter word of RESET, a scope mask that names OUTPUT. -/
def execResetOutput (w : Writer) (others : Word) (s : State) : Result := writeEvent w .cmdPort (scopeWord 1 others) s

/-- RESET_STATISTICS (R165, R166): the parameter word of RESET, a scope mask that names STATISTICS. -/
def execResetStatistics (w : Writer) (others : Word) (s : State) : Result := writeEvent w .cmdPort (scopeWord 2 others) s

/-- RESET_INTERRUPTS (R165, R166): the parameter word of RESET, a scope mask that names INTERRUPTS. -/
def execResetInterrupts (w : Writer) (others : Word) (s : State) : Result := writeEvent w .cmdPort (scopeWord 3 others) s

end Sys2Proof.Machine
end

