-- ==== Sys2Proof/Machine/EventRows.lean ====
section
/-! DEFINITION. The meanings of the event rows: presence changes, the tick, snooped beats and own replies. A beat row carries
the beat; what the beat turns out to be is decided by the state, as R11, R15 and R78 say. -/

namespace Sys2Proof.Machine

/-- ARRIVAL (R9). -/
def execArrival (n : Node) (s : State) : Result := arrivalEvent n s

/-- WITHDRAWAL (R184). -/
def execWithdrawal (n : Node) (s : State) : Result := withdrawalEvent n s

/-- TICK (R40). -/
def execTick (s : State) : Result := event tickBeat s

/-- SNOOPED_REQUEST (R58): a request beat; by R11 one addressed to OWN_ID is a target access. -/
def execSnoopedRequest (r : Request) (s : State) : Result := requestEvent r s

/-- FINAL_REPLY (R79, R80). -/
def execFinalReply (responder initiator : Node) (tag : Tag) (kind : FinalKind) (s : State) : Result :=
  replyEvent { responder := responder, initiator := initiator, tag := tag, body := kind.body } s

/-- SLOT_BOUNCE (R81). -/
def execSlotBounce (responder initiator : Node) (tag : Tag) (s : State) : Result :=
  replyEvent { responder := responder, initiator := initiator, tag := tag, body := .bounce } s

/-- STRAY_REPLY (R16): a reply beat, counted as a stray where it answers nothing the observer holds. -/
def execStrayReply (r : Reply) (s : State) : Result := replyEvent r s

/-- WRITE_DONE (R133): DONE, or DATA taken as DONE, for record tag t. -/
def execWriteDone (responder : Node) (t : Fin 4) (c : Completion) (s : State) : Result :=
  ownReplyEvent responder (t.castLE (by decide)) c.body s

/-- WRITEBACK_DONE (R141): DONE, or DATA taken as DONE, for the writeback tag. -/
def execWritebackDone (responder : Node) (c : Completion) (s : State) : Result := ownReplyEvent responder 4 c.body s

/-- WRITE_BOUNCE (R134): BOUNCE for write tag t. -/
def execWriteBounce (responder : Node) (t : WTag) (s : State) : Result :=
  ownReplyEvent responder (t.castLE (by decide)) .bounce s

/-- REMOTE_FAULT (R135): FAULT for write tag t. -/
def execRemoteFault (responder : Node) (t : WTag) (code : BitVec 4) (s : State) : Result :=
  ownReplyEvent responder (t.castLE (by decide)) (.fault code) s

/-- ORPHAN_REPLY (R138): a reply of any kind for write tag t. -/
def execOrphanReply (responder : Node) (t : WTag) (body : ReplyBody) (s : State) : Result :=
  ownReplyEvent responder (t.castLE (by decide)) body s

end Sys2Proof.Machine
end

