-- ==== Sys2Proof/Machine/InterruptRows.lean ====
section
/-! DEFINITION. The meanings of the INT_CTRL rows: each is the write to INT_CTRL that names a source and one action (R171). -/

namespace Sys2Proof.Machine

/-- SET_IE (R171). -/
def execSetIe (w : Writer) (k : Source) (junk : Word) (s : State) : Result :=
  writeEvent w .intCtrl (intCtrlWord IntAction.setIe.code k junk) s

/-- CLEAR_IE (R171). -/
def execClearIe (w : Writer) (k : Source) (junk : Word) (s : State) : Result :=
  writeEvent w .intCtrl (intCtrlWord IntAction.clearIe.code k junk) s

/-- SET_IP (R171). -/
def execSetIp (w : Writer) (k : Source) (junk : Word) (s : State) : Result :=
  writeEvent w .intCtrl (intCtrlWord IntAction.setIp.code k junk) s

/-- CLEAR_IP (R171). -/
def execClearIp (w : Writer) (k : Source) (junk : Word) (s : State) : Result :=
  writeEvent w .intCtrl (intCtrlWord IntAction.clearIp.code k junk) s

/-- SET_IUS (R171). -/
def execSetIus (w : Writer) (k : Source) (junk : Word) (s : State) : Result :=
  writeEvent w .intCtrl (intCtrlWord IntAction.setIus.code k junk) s

/-- CLEAR_IUS (R171). -/
def execClearIus (w : Writer) (k : Source) (junk : Word) (s : State) : Result :=
  writeEvent w .intCtrl (intCtrlWord IntAction.clearIus.code k junk) s

/-- CLEAR_ERR (R171). -/
def execClearErr (w : Writer) (k : Source) (junk : Word) (s : State) : Result :=
  writeEvent w .intCtrl (intCtrlWord IntAction.clearErr.code k junk) s

/-- CLEAR_ALL (R171). -/
def execClearAll (w : Writer) (k : Source) (junk : Word) (s : State) : Result :=
  writeEvent w .intCtrl (intCtrlWord IntAction.clearAll.code k junk) s

end Sys2Proof.Machine
end

