-- ==== Sys2Proof/Machine/ResetRows.lean ====
section
/-! DEFINITION. The meanings of the reset rows: the two reset lines, asserted and released. -/

namespace Sys2Proof.Machine

/-- POWER_ON_RESET (R180): release of the device reset input. -/
def execPowerOnReset (straps : Node) (lines : Mask) (s : State) : Result := .next (releaseDeviceReset straps lines s)

/-- BACKPLANE_RESET_ASSERT (R181). -/
def execBackplaneResetAssert (s : State) : Result := .next (assertBackplaneReset s)

/-- BACKPLANE_RESET (R182): release of the backplane reset line. -/
def execBackplaneReset (s : State) : Result := releaseBackplaneReset s

/-- DEVICE_RESET_ASSERT (R18): from here to the release the observer processes no event and emits no beat. -/
def execDeviceResetAssert (s : State) : Result := .next (s.setPins { s.pins with deviceReset := true })

end Sys2Proof.Machine
end

