-- ==== Sys2Proof/Machine/StepRows.lean ====
section
/-! DEFINITION. The meanings of the step rows: the parts of a reaction that the table lists as steps of their own. Each runs
exactly the step that the event reactions run, under the step's own condition, and changes nothing where the condition does
not hold (log entry 3). -/

namespace Sys2Proof.Machine

/-- SLOT_EXPIRY (R85): the visit of slot i. -/
def execSlotExpiry (i : SlotId) (s : State) : Result := innerStep (fun st => expireSlot st i) s

/-- BACKOFF_REISSUE (R134): tag t in BACKOFF with count 0 reissues its write. -/
def execBackoffReissue (t : WTag) (s : State) : Result := innerStep (fun st => reissueTag st t) s

/-- TIMEOUT (R135): an ISSUED tag t whose age has reached WRITE_LIMIT faults the ring. -/
def execTimeout (t : WTag) (s : State) : Result := innerStep (timeoutTag t) s

/-- ORPHAN_FREE (R138): an ORPHANED tag t whose age has reached WRITE_LIMIT becomes FREE. -/
def execOrphanFree (t : WTag) (s : State) : Result := innerStep (expireOrphan t) s

/-- DRAIN_TIMED_OUT (R164). -/
def execDrainTimedOut (s : State) : Result := innerStep drainTimeoutTest s

/-- CLOSE_QUEUE_ENTRY (R109): one entry into staging. -/
def execCloseQueueEntry (s : State) : Result := innerStep (fun st => (entryOnce st).getD st) s

/-- RESULT_QUEUE_ENTRY (R117): one move into the result queue. -/
def execResultQueueEntry (s : State) : Result := innerStep (fun st => (queueOnce st).getD st) s

/-- The ring engine takes records from staging: ring mode, RUNNING (R115, R128). -/
def State.engineRuns (s : State) : Bool := decide (s.path.mode = .ring) && decide (s.ring.state = .running)

/-- The next issue is a GAP: space, and LOST_PENDING above 0 (R130 case 4). -/
def State.gapNext (s : State) : Bool := s.ring.hasSpace && decide (s.ring.lostPending ≠ 0)

/-- One issue, or drop, of staging's head (R130 case 5, R131). -/
def issueOne (s : State) : State := if s.engineRuns && !s.gapNext then (issueOnce s).getD s else s

/-- One issue of a GAP (R130 case 4). -/
def gapOne (s : State) : State := if s.engineRuns && s.gapNext then (issueOnce s).getD s else s

/-- ISSUE (R130, R131). -/
def execIssue (s : State) : Result := innerStep issueOne s

/-- GAP_ISSUE (R130). -/
def execGapIssue (s : State) : Result := innerStep gapOne s

/-- COMMIT (R133): the commit run with what the rule has follow it. -/
def execCommit (s : State) : Result := innerStep commitRun s

/-- WRITEBACK (R140). -/
def execWriteback (s : State) : Result := innerStep writebackIfDue s

/-- RING_STOP_COMPLETE (R145). -/
def execRingStopComplete (s : State) : Result := innerStep stopTest s

/-- DRAIN_COMPLETE (R164). -/
def execDrainComplete (s : State) : Result := innerStep drainTest s

/-- ALERT (R176, R177): the alert check. -/
def execAlert (s : State) : Result := innerStep alertCheck s

end Sys2Proof.Machine
end

