-- ==== Sys2Proof/Machine/WindowRows.lean ====
section
/-! DEFINITION. The meanings of the window rows: each is the request beat that reaches its register, checked by R20 and
performed by R22. -/

namespace Sys2Proof.Machine

/-- CLAIM (R27). -/
def execClaim (w : Writer) (v : Word) (s : State) : Result := writeEvent w .claim v s

/-- RELINQUISH (R28, R29). -/
def execRelinquish (w : Writer) (v : Word) (s : State) : Result := writeEvent w .relinquish v s

/-- MARKER (R111–R113). -/
def execMarker (w : Writer) (v : Word) (s : State) : Result := writeEvent w .marker v s

/-- REGISTER_WRITE (R22): a target access of any kind, offset and length; a READ of an open register is one of them. -/
def execRegisterWrite (a : Access) (s : State) : Result := requestEvent (a.toRequest s.ownId) s

/-- QUEUE_DATA (R118). -/
def execQueueData (r : Reader) (s : State) : Result := readEvent r .queueData s

/-- QUEUE_PTR (R119). -/
def execQueuePtr (w : Writer) (v : Word) (s : State) : Result := writeEvent w .queuePtr v s

/-- CONSUMER (R127). -/
def execConsumer (w : Writer) (v : Word) (s : State) : Result := writeEvent w .consumer v s

/-- RESULT_PORT (R154). -/
def execResultPort (r : Reader) (s : State) : Result := readEvent r .resultPort s

/-- CMD_CANCEL (R155). -/
def execCmdCancel (w : Writer) (v : Word) (s : State) : Result := writeEvent w .cmdCancel v s

/-- ACK (R173). -/
def execAck (r : Reader) (s : State) : Result := readEvent r .ack s

/-- END (R174). -/
def execEndService (w : Writer) (v : Word) (s : State) : Result := writeEvent w .endSvc v s

end Sys2Proof.Machine
end

