-- ==== Sys2Proof/Machine/Dispatch.lean ====
section
/-! DEFINITION. One arm per command: each is one direct call of the command's meaning. -/

namespace Sys2Proof.Machine

def exec (i : Instr) (s : State) : Host.Outcome State Fault Refusal :=
  match i with
  | .powerOnReset straps lines => Sys2Proof.Machine.execPowerOnReset straps lines s
  | .backplaneResetAssert => Sys2Proof.Machine.execBackplaneResetAssert s
  | .backplaneReset => Sys2Proof.Machine.execBackplaneReset s
  | .arrival n => Sys2Proof.Machine.execArrival n s
  | .withdrawal n => Sys2Proof.Machine.execWithdrawal n s
  | .tick => Sys2Proof.Machine.execTick s
  | .slotExpiry k => Sys2Proof.Machine.execSlotExpiry k s
  | .backoffReissue t => Sys2Proof.Machine.execBackoffReissue t s
  | .timeout t => Sys2Proof.Machine.execTimeout t s
  | .orphanFree t => Sys2Proof.Machine.execOrphanFree t s
  | .drainTimedOut => Sys2Proof.Machine.execDrainTimedOut s
  | .snoopedRequest r => Sys2Proof.Machine.execSnoopedRequest r s
  | .finalReply responder initiator tag kind => Sys2Proof.Machine.execFinalReply responder initiator tag kind s
  | .slotBounce responder initiator tag => Sys2Proof.Machine.execSlotBounce responder initiator tag s
  | .strayReply r => Sys2Proof.Machine.execStrayReply r s
  | .closeQueueEntry => Sys2Proof.Machine.execCloseQueueEntry s
  | .resultQueueEntry => Sys2Proof.Machine.execResultQueueEntry s
  | .issue => Sys2Proof.Machine.execIssue s
  | .gapIssue => Sys2Proof.Machine.execGapIssue s
  | .writeDone responder t c => Sys2Proof.Machine.execWriteDone responder t c s
  | .commit => Sys2Proof.Machine.execCommit s
  | .writeback => Sys2Proof.Machine.execWriteback s
  | .writebackDone responder c => Sys2Proof.Machine.execWritebackDone responder c s
  | .writeBounce responder t => Sys2Proof.Machine.execWriteBounce responder t s
  | .remoteFault responder t code => Sys2Proof.Machine.execRemoteFault responder t code s
  | .orphanReply responder t body => Sys2Proof.Machine.execOrphanReply responder t body s
  | .ringStopComplete => Sys2Proof.Machine.execRingStopComplete s
  | .drainComplete => Sys2Proof.Machine.execDrainComplete s
  | .alert => Sys2Proof.Machine.execAlert s
  | .claim w v => Sys2Proof.Machine.execClaim w v s
  | .relinquish w v => Sys2Proof.Machine.execRelinquish w v s
  | .marker w v => Sys2Proof.Machine.execMarker w v s
  | .registerWrite a => Sys2Proof.Machine.execRegisterWrite a s
  | .queueData r => Sys2Proof.Machine.execQueueData r s
  | .queuePtr w v => Sys2Proof.Machine.execQueuePtr w v s
  | .consumer w v => Sys2Proof.Machine.execConsumer w v s
  | .resultPort r => Sys2Proof.Machine.execResultPort r s
  | .cmdCancel w v => Sys2Proof.Machine.execCmdCancel w v s
  | .commandOpen w c high => Sys2Proof.Machine.execCommandOpen w c high s
  | .invalidCommand w v => Sys2Proof.Machine.execInvalidCommand w v s
  | .start w high => Sys2Proof.Machine.execStart w high s
  | .pause w high => Sys2Proof.Machine.execPause w high s
  | .setTime w v => Sys2Proof.Machine.execSetTime w v s
  | .arm w v => Sys2Proof.Machine.execArm w v s
  | .disarm w v => Sys2Proof.Machine.execDisarm w v s
  | .release w v => Sys2Proof.Machine.execRelease w v s
  | .purge w v => Sys2Proof.Machine.execPurge w v s
  | .snapshot w v => Sys2Proof.Machine.execSnapshot w v s
  | .readWatch w v => Sys2Proof.Machine.execReadWatch w v s
  | .ringStart w v => Sys2Proof.Machine.execRingStart w v s
  | .ringStop w high => Sys2Proof.Machine.execRingStop w high s
  | .drain w v => Sys2Proof.Machine.execDrain w v s
  | .selectOutput w v => Sys2Proof.Machine.execSelectOutput w v s
  | .resetSampling w others => Sys2Proof.Machine.execResetSampling w others s
  | .resetOutput w others => Sys2Proof.Machine.execResetOutput w others s
  | .resetStatistics w others => Sys2Proof.Machine.execResetStatistics w others s
  | .resetInterrupts w others => Sys2Proof.Machine.execResetInterrupts w others s
  | .setIe w k junk => Sys2Proof.Machine.execSetIe w k junk s
  | .clearIe w k junk => Sys2Proof.Machine.execClearIe w k junk s
  | .setIp w k junk => Sys2Proof.Machine.execSetIp w k junk s
  | .clearIp w k junk => Sys2Proof.Machine.execClearIp w k junk s
  | .setIus w k junk => Sys2Proof.Machine.execSetIus w k junk s
  | .clearIus w k junk => Sys2Proof.Machine.execClearIus w k junk s
  | .clearErr w k junk => Sys2Proof.Machine.execClearErr w k junk s
  | .clearAll w k junk => Sys2Proof.Machine.execClearAll w k junk s
  | .ack r => Sys2Proof.Machine.execAck r s
  | .endService w v => Sys2Proof.Machine.execEndService w v s
  | .deviceResetAssert => Sys2Proof.Machine.execDeviceResetAssert s

end Sys2Proof.Machine
end

