-- ==== Sys2Proof/Machine/Step.lean ====
section
/-! DEFINITION. One step of the machine: the command at the front of the queue runs; with nothing waiting, one backplane
clock passes (log entry 4). -/

namespace Sys2Proof.Machine

/-- One step. Commands wait in `pending`, first in first out; `exec` runs the front one on the state with the rest. -/
def step (s : State) : Host.Outcome State Fault Refusal :=
  match s.pending with
  | [] => .next (clock s)
  | c :: rest => exec c { s with pending := rest }

/-- s with the command that the word spells put at the front of its queue; s unchanged where the word spells none. No row
of spec/opcode_table.json has bits, so no word spells a command (Decode.lean). -/
def State.withFetchWord (s : State) (nbits w : Nat) : State :=
  match decodeTableWord nbits w with
  | none => s
  | some c => { s with pending := c :: s.pending }

end Sys2Proof.Machine
end

