-- ==== Sys2Proof/Safety.lean ====
section
/-! DEFINITION. The vocabulary of the statements: the conditions a command meets at the window and the state after the
window's answer, the conservation sums of the channels (R69, R70), and the invariants that every step keeps. -/

namespace Sys2Proof

open Machine

/-! ### The window and command port rows -/

/-- The write of v by w to offset `off`, as an access of any register. -/
def Writer.access (w : Writer) (off : BitVec 10) (v : Word) : Access :=
  { initiator := w.initiator, tag := w.tag, kind := if w.posted then .posted else .write, reissue := w.reissue,
    address := w.page ++ off, length := 4, payload := wordBytes v }

/-- The read by r of offset `off`, as an access of any register. -/
def Reader.access (r : Reader) (off : BitVec 10) : Access :=
  { initiator := r.initiator, tag := r.tag, kind := .read, reissue := r.reissue, address := r.page ++ off, length := 4,
    payload := [] }

/-- The word that a command row writes to CMD_PORT, with its writer (R151, R152). -/
def Instr.portWord : Instr → Option (Writer × Word)
  | .commandOpen w c high => some (w, openingWord c.code high)
  | .invalidCommand w v => some (w, v)
  | .start w high => some (w, openingWord Command.start.code high)
  | .pause w high => some (w, openingWord Command.pause.code high)
  | .ringStop w high => some (w, openingWord Command.ringStop.code high)
  | .setTime w v => some (w, v)
  | .arm w v => some (w, v)
  | .disarm w v => some (w, v)
  | .release w v => some (w, v)
  | .purge w v => some (w, v)
  | .snapshot w v => some (w, v)
  | .readWatch w v => some (w, v)
  | .ringStart w v => some (w, v)
  | .drain w v => some (w, v)
  | .selectOutput w v => some (w, v)
  | .resetSampling w v => some (w, withBit v 0)
  | .resetOutput w v => some (w, withBit v 1)
  | .resetStatistics w v => some (w, withBit v 2)
  | .resetInterrupts w v => some (w, withBit v 3)
  | _ => none

/-- The command changes a reset line, or a presence line: the commands that act on the pins while a reset line is asserted
(R185). -/
def Instr.isPin : Instr → Bool
  | .powerOnReset _ _ => true
  | .deviceResetAssert => true
  | .backplaneResetAssert => true
  | .backplaneReset => true
  | .arrival _ => true
  | .withdrawal _ => true
  | _ => false

end Sys2Proof

namespace Sys2Proof.Machine

/-- The command answers a next state, and P holds of it. -/
def leadsTo (x : Result) (P : State → Prop) : Prop := ∃ t, x = .next t ∧ P t

/-! ### What the window has done when an access's own effect begins -/

/-- s with node n present (R10). -/
def State.arrived (s : State) (n : Node) : State := { s with present := withBit s.present n }

/-- A reply beat of the observer (R12). -/
def State.replyBeat (s : State) (n : Node) (tag : Tag) (body : ReplyBody) : Beat :=
  .reply { responder := s.ownId, initiator := n, tag := tag, body := body }

/-- s after the answer to an accepted write of w: w's node is present, and a WRITE, but not a POSTED, is answered DONE
(R10, R12, R22, R25). -/
def State.written (s : State) (w : Writer) : State :=
  { s with
    present := withBit s.present w.initiator
    outbox := if w.posted then s.outbox else s.outbox ++ [s.replyBeat w.initiator w.tag .done] }

/-- s after an accepted read by r that returned v (R10, R22). -/
def State.readAs (s : State) (r : Reader) (v : Word) : State :=
  { s with
    present := withBit s.present r.initiator
    outbox := s.outbox ++ [s.replyBeat r.initiator r.tag (.data (wordBytes v))] }

/-- s after the refusal, with a fault code, of an access by node n: a POSTED counts in WINDOW_REFUSALS, every other access is
answered FAULT (R20, R25). -/
def State.refusedAccess (s : State) (n : Node) (tag : Tag) (posted : Bool) (code : BitVec 4) : State :=
  if posted then
    { s with
      present := withBit s.present n
      dev := { s.dev with windowRefusals := s.dev.windowRefusals + 1 } }
  else
    { s with
      present := withBit s.present n
      outbox := s.outbox ++ [s.replyBeat n tag (.fault code)] }

/-- s after the refusal of a write of w. -/
def State.refusedWrite (s : State) (w : Writer) (code : BitVec 4) : State :=
  s.refusedAccess w.initiator w.tag w.posted code

/-- s after the refusal of a read of r. -/
def State.refusedRead (s : State) (r : Reader) (code : BitVec 4) : State :=
  s.refusedAccess r.initiator r.tag false code

/-- The end of an event: the state its reaction leaves, after the alert check (R176). -/
def afterEvent (s : State) : Result := .next (alertCheck s)

/-! ### When an access is admitted -/

/-- The observer processes events, and node n is the owner (R17, R18, R24). -/
abbrev State.ownedBy (s : State) (n : Node) : Prop := s.live = true ∧ s.owner = some n

/-- The owner may write an opening word (R151). -/
abbrev State.atOpening (s : State) (w : Writer) : Prop := s.ownedBy w.initiator ∧ s.cmd.phase = .idle

/-- The owner may write the parameter word of command c (R152). -/
abbrev State.atParam (s : State) (w : Writer) (c : Command) : Prop :=
  s.ownedBy w.initiator ∧ s.cmd.phase = .params ∧ s.cmd.code = c.code

/-- s after the answer to the opening word of the parameterless command c, which is now EXECUTING (R151, R153). -/
def State.opening (s : State) (w : Writer) (c : Command) : State :=
  { s.written w with cmd := { s.cmd with code := c.code, discarded := false, phase := .executing } }

/-- s after the answer to a parameter word, whose command is now EXECUTING (R152, R153). -/
def State.executing (s : State) (w : Writer) : State :=
  { s.written w with cmd := { s.cmd with phase := .executing } }

/-! ### Sampling -/

/-- Request r is snooped traffic: a BROADCAST, or addressed to another node (R11). -/
abbrev State.snoops (s : State) (r : Request) : Prop := r.kind = .broadcast ∨ r.target ≠ some s.ownId

/-- R54, conditions 1 to 8: the snooped request r qualifies for channel c. -/
abbrev State.counts (s : State) (c : ChanId) (r : Request) : Prop :=
  s.tb.obs = .observing ∧ (s.chan c).run ≠ .disarmed ∧ (r.initiator ≠ s.ownId ∧ r.target ≠ some s.ownId) ∧
    r.reissue = false ∧ (s.chan c).bank.kinds.getLsbD (kindCode r.kind).toNat = true ∧
    (s.chan c).bank.init.getLsbD r.initiator.val = true ∧
    (r.kind = .broadcast ∨ ∃ n : Node, r.target = some n ∧ (s.chan c).bank.targ.getLsbD n.val = true) ∧
    ((s.chan c).bank.window = false ∨
      ((s.chan c).bank.wlo.toNat ≤ r.address.toNat ∧ r.address.toNat ≤ (s.chan c).bank.whi.toNat))

/-- Slot i is the one that follows the pair (n, tag): in OPEN or BOUNCED, and no lower slot does (R75, R78). -/
abbrev State.follows (s : State) (i : SlotId) (n : Node) (tag : Tag) : Prop :=
  ((s.slot i).isLive = true ∧ (s.slot i).initiator = n ∧ (s.slot i).tag = tag) ∧
    ∀ j : SlotId, j < i → ¬((s.slot j).isLive = true ∧ (s.slot j).initiator = n ∧ (s.slot j).tag = tag)

/-- No slot follows the pair (n, tag). -/
abbrev State.unwatched (s : State) (n : Node) (tag : Tag) : Prop :=
  ∀ j : SlotId, ¬((s.slot j).isLive = true ∧ (s.slot j).initiator = n ∧ (s.slot j).tag = tag)

/-- Slot i is the lowest-numbered FREE slot (R73). -/
abbrev State.lowestFree (s : State) (i : SlotId) : Prop :=
  (s.slot i).state = .free ∧ ∀ j : SlotId, j < i → (s.slot j).state ≠ .free

/-- Slot i is the one RESERVED for channel c, and no lower slot is (R53). -/
abbrev State.reservation (s : State) (c : ChanId) (i : SlotId) : Prop :=
  ((s.slot i).state = .reserved ∧ (s.slot i).channel = c) ∧
    ∀ j : SlotId, j < i → ¬((s.slot j).state = .reserved ∧ (s.slot j).channel = c)

/-- A channel c for which a request qualifies takes it into slot i, where no lower channel has taken it: COUNTING and firing
below quota, into the lowest FREE slot; or ARMED, into its reservation (R58, R59). -/
abbrev State.takesInto (s : State) (c : ChanId) (i : SlotId) : Prop :=
  ((s.chan c).run = .counting ∧ (s.chan c).count = 1 ∧ s.owned c < (s.chan c).bank.quota.toNat ∧ s.lowestFree i) ∨
    ((s.chan c).run = .armed ∧ s.reservation c i)

/-- Source k is deliverable, the four conditions of R172. -/
abbrev Ints.canDeliver (x : Ints) (k : Source) : Prop :=
  x.mie = true ∧ x.ie.getLsbD k.val = true ∧ x.ip.getLsbD k.val = true ∧ ∀ t : Source, t ≤ k → x.ius.getLsbD t.val = false

/-- Source h is the highest deliverable source (R172). -/
abbrev Ints.isHighest (x : Ints) (h : Source) : Prop := x.canDeliver h ∧ ∀ k : Source, k < h → ¬x.canDeliver k

/-- The fill of a ring, (PRODUCER − CONSUMER) mod 2N, as an integer (R126). -/
abbrev Ring.fillInt (g : Ring) : Int := ((g.producer.toNat : Int) - g.consumer.toNat) % (2 * g.size.toNat : Int)

/-- The reload value for a PERIOD and JITTER and the LFSR value it is drawn from (R56). -/
def reloadFrom (b : Bank) (l : BitVec 16) : BitVec 24 :=
  if b.jitter = 0 then b.period else BitVec.ofNat 24 (max 1 (b.period.toNat - l.toNat % 2 ^ b.jitter.toNat))

/-- The channels below c that reload with jitter on the snooped request r (R43). -/
abbrev State.drawsBefore (s : State) (c : ChanId) (r : Request) : Nat :=
  chanIds.countP fun d => decide (d < c ∧ s.counts d r ∧ (s.chan d).count = 1 ∧ (s.chan d).bank.jitter ≠ 0)

/-- The age of slot or tag after one more tick: it stays at 65535 (R40, R76). -/
def agedBy1 (a : BitVec 16) : BitVec 16 := if a = 65535 then 65535 else a + 1

/-- A tag that is ISSUED or ORPHANED when a tick begins reaches WRITE_LIMIT at that tick (R40 step 3b). -/
abbrev State.limitAtTick (s : State) (u : WTag) : Prop := s.ring.writeLimit.toNat ≤ (agedBy1 (s.tag u).age).toNat

/-- An ISSUED tag that faults the ring with TIMEOUT at the next tick, unless a lower one does (R40 step 3b, R135). -/
abbrev State.timesOut (s : State) (u : WTag) : Prop := (s.tag u).state = .issued ∧ s.limitAtTick u

/-- The SAMPLE records of channel c that a ring fault voids: those in flight (R137). -/
abbrev State.samplesInFlight (s : State) (c : ChanId) : Nat :=
  recTags.countP fun u => (s.tag u).inFlight && decide ((s.tag u).record.w0.extractLsb' 0 4 = 1) &&
    decide ((s.tag u).record.channel = c)

/-- The channel events that the voided records raise on source k as they settle lost (R122, R137). -/
abbrev State.lostEvents (s : State) (k : Source) : Nat :=
  (chanIds.map fun c => if srcChan c = k ∧ (s.chan c).bank.notify = .each then s.samplesInFlight c else 0).sum

/-- y is x after `n k` events on each source k: an event sets IP, and ERR where IP was set already (R169). -/
abbrev Ints.afterEvents (x y : Ints) (n : Source → Nat) : Prop :=
  y = { x with ip := y.ip, err := y.err } ∧ ∀ k : Source,
    has y.ip k = (has x.ip k || decide (n k ≠ 0)) ∧
      has y.err k = (has x.err k || decide (2 ≤ n k + (if has x.ip k then 1 else 0)))

/-! ### Conservation sums -/

/-- A of R69: 1 while the channel is ARMED. -/
def Channel.armedTerm (x : Channel) : Word := if x.run = .armed then 1 else 0

/-- FIRES less the right-hand side of R69: minus the baseline A0, at every moment after an event. -/
def State.firingBalance (s : State) (c : ChanId) : Word :=
  (s.chan c).stats.fires -
    ((s.chan c).stats.selected + (s.chan c).stats.collisions + (s.chan c).stats.heldover + (s.chan c).armedTerm)

/-- SELECTED less the right-hand side of R70. -/
def State.selectionBalance (s : State) (c : ChanId) : Word :=
  (s.chan c).stats.selected -
    ((s.chan c).stats.filtered + (s.chan c).stats.delivered + (s.chan c).stats.discarded +
      BitVec.ofNat 32 (s.watching c))

/-! ### Invariants -/

/-- LFSR holds a nonzero value (R42). -/
abbrev State.lfsrOk (s : State) : Prop := s.tb.lfsr ≠ 0

/-- OWN_ID is in PRESENT (R9); enabled alerts do not go to the observer itself (R14, R175); an announced source is pending
(R178). -/
abbrev State.alertsOk (s : State) : Prop :=
  has s.present s.ownId = true ∧ (s.ints.alertEnable = true → s.ints.alertNode ≠ s.ownId) ∧
    s.ints.alerted &&& ~~~s.ints.ip = 0

/-- The command processor's phases (R26, R149, R151, R162): IDLE while there is no owner, with code 0 and no results; a
parameter is awaited only by a command that takes one; only RING_STOP, with the ring STOPPING, and DRAIN are found EXECUTING;
RESULT holds one to nine words. -/
abbrev State.processorOk (s : State) : Prop :=
  (s.owner = none → s.cmd.phase = .idle) ∧
    (s.cmd.phase = .idle → s.cmd.code = 0) ∧
    (s.cmd.phase = .params → ∃ c ∈ Command.all, c.takesParam = true ∧ s.cmd.code = c.code) ∧
    (s.cmd.phase = .executing →
      (s.cmd.code = Command.ringStop.code ∧ s.ring.state = .stopping) ∨ s.cmd.code = Command.drain.code) ∧
    (if s.cmd.phase = .result then 1 ≤ s.cmd.results.length ∧ s.cmd.results.length ≤ 9 else s.cmd.results = [])

/-- The slot pool (R47, R53, R75, R88): the close queue holds exactly the CLOSING slots, each once; a channel is ARMED exactly
when one slot is RESERVED for it; while PAUSED no channel is ARMED. -/
abbrev State.poolOk (s : State) : Prop :=
  s.closeQueue.Nodup ∧
    (∀ i : SlotId, i ∈ s.closeQueue ↔ (s.slot i).state = .closing) ∧
    (∀ c : ChanId, (s.chan c).run = .armed ↔ ∃ i : SlotId, (s.slot i).state = .reserved ∧ (s.slot i).channel = c) ∧
    (∀ i j : SlotId, (s.slot i).state = .reserved → (s.slot j).state = .reserved →
      (s.slot i).channel = (s.slot j).channel → i = j) ∧
    (s.tb.obs = .paused → ∀ c : ChanId, (s.chan c).run ≠ .armed)

/-- The watched pairs (R75): no two slots in OPEN or BOUNCED hold one pair; none of them is POSTED or BROADCAST, and none
involves OWN_ID. -/
abbrev State.pairsOk (s : State) : Prop :=
  (∀ i j : SlotId, (s.slot i).isLive = true → (s.slot j).isLive = true →
      (s.slot i).initiator = (s.slot j).initiator → (s.slot i).tag = (s.slot j).tag → i = j) ∧
    (∀ i : SlotId, (s.slot i).isLive = true →
      (s.slot i).kind ≠ .posted ∧ (s.slot i).kind ≠ .broadcast ∧ (s.slot i).initiator ≠ s.ownId ∧
        (s.slot i).target ≠ some s.ownId)

/-- The channels (R49, R53): admitted PERIOD, JITTER and QUOTA; COUNT is 0 exactly while DISARMED, and never above PERIOD;
OWNED never exceeds QUOTA; a HELD channel has NOTIFY EACH. -/
abbrev State.channelsOk (s : State) : Prop :=
  ∀ c : ChanId,
    ((s.chan c).bank.period ≠ 0 ∧ (s.chan c).bank.jitter.toNat ≤ 8 ∧ 1 ≤ (s.chan c).bank.quota.toNat ∧
        (s.chan c).bank.quota.toNat ≤ 8) ∧
      ((s.chan c).count = 0 ↔ (s.chan c).run = .disarmed) ∧
      (s.chan c).count.toNat ≤ (s.chan c).bank.period.toNat ∧
      s.owned c ≤ (s.chan c).bank.quota.toNat ∧
      ((s.chan c).run = .held → (s.chan c).bank.notify = .each)

/-- The issue step finds nothing to do (R130, R131): staging is empty; or there is space and no record tag is FREE; or there
is no space and FULL_POLICY is STALL. -/
abbrev State.issueWaits (s : State) : Prop :=
  s.path.staging = [] ∨ (s.ring.hasSpace = true ∧ ∀ t ∈ recTags, (s.tag t).state ≠ .free) ∨
    (s.ring.hasSpace = false ∧ s.ring.policy = .stall)

/-- The output path between events (R108, R110, R117, R119, R130, R131, R164): capacities; the close queue waits only for a
full staging FIFO; in queue mode staging waits only for a full result queue and the ring is IDLE; in ring mode the result
queue is empty, and staging waits on a RUNNING ring only as the issue step lets it; QUEUE_PTR is 0 while the queue is
empty. -/
abbrev State.pathOk (s : State) : Prop :=
  s.path.staging.length ≤ 8 ∧ s.path.results.length ≤ 16 ∧
    (s.closeQueue ≠ [] → s.path.staging.length = 8) ∧
    (s.path.mode = .queue → s.ring.state = .idle ∧ (s.path.staging ≠ [] → s.path.results.length = 16)) ∧
    (s.path.mode = .ring → s.path.results = [] ∧ (s.ring.state = .running → s.issueWaits)) ∧
    (s.path.results = [] → s.path.ptr = 0)

/-- The in-flight record tags of an active ring (R126): fill and in-flight records fit the ring, and their positions are the
run that begins at PRODUCER, one each. -/
abbrev Ring.runOk (g : Ring) : Prop :=
  g.producer.toNat < 2 * g.n ∧ g.consumer.toNat < 2 * g.n ∧ g.fill + g.inFlight ≤ g.n ∧
    (∀ t ∈ recTags, (g.tag t).inFlight = true →
      (g.tag t).position.toNat < 2 * g.n ∧ subMod (g.tag t).position.toNat g.producer.toNat (2 * g.n) < g.inFlight) ∧
    (∀ t ∈ recTags, ∀ u ∈ recTags, (g.tag t).inFlight = true → (g.tag u).inFlight = true →
      (g.tag t).position = (g.tag u).position → t = u)

/-- The write tags by ring state (R128, R129, R136, R138, R145): every tag FREE in IDLE; only FREE and ORPHANED tags in
FAULTED, and no ORPHANED tag elsewhere; a busy tag in STOPPING; the writeback tag never DONE. -/
abbrev State.tagsOk (s : State) : Prop :=
  (s.ring.state = .idle → ∀ t : WTag, (s.tag t).state = .free) ∧
    (s.ring.state = .faulted → ∀ t : WTag, (s.tag t).state = .free ∨ (s.tag t).state = .orphaned) ∧
    (s.ring.state ≠ .faulted → ∀ t : WTag, (s.tag t).state ≠ .orphaned) ∧
    (s.ring.state = .stopping → ∃ t : WTag, (s.tag t).state ≠ .free) ∧
    (s.tag wbTag).state ≠ .done

/-- The ring engine (R125, R126, R139): an admitted size; CAUSE is nonzero exactly in FAULTED; and, while RUNNING or
STOPPING, the run of positions. -/
abbrev State.ringOk (s : State) : Prop :=
  ringSizeOk s.ring.n = true ∧ (s.ring.state = .faulted ↔ s.ring.fault.cause ≠ none) ∧
    (s.ring.active = true → s.ring.runOk)

/-- An EXECUTING DRAIN still waits (R164): its condition does not hold, and in ring mode the ring is RUNNING. -/
abbrev State.drainOk (s : State) : Prop :=
  s.cmd.isExecuting .drain = true → s.drained = false ∧ (s.path.mode = .ring → s.ring.state = .running)

/-- Every invariant together. -/
abbrev State.good (s : State) : Prop :=
  s.lfsrOk ∧ s.alertsOk ∧ s.processorOk ∧ s.poolOk ∧ s.pairsOk ∧ s.channelsOk ∧ s.pathOk ∧ s.tagsOk ∧
    s.ringOk ∧ s.drainOk

end Sys2Proof.Machine
end

