-- ==== Sys2Proof/Certificates/Slice0/Obligations.lean ====
section
/-! DEFINITION. The statements for the provers. Each docstring names the rules it rests on and the rows it is about. A
statement about one command gives the whole next state, as an update of s, wherever that is short: then it is the command's
result and its frame at once. `s.written w` and `s.readAs r v` are s after the window's answer (Safety.lean). `afterEvent u` is
the next state `.next (alertCheck u)`: u after the end-of-event alert check, which AlertCheckSendsOneAlert describes; and
`leadsTo x P` says that x is a next state of which P holds. So every such statement says where its commands complete. -/

open Sys2Proof Sys2Proof.Machine

/-! ### The machine as a whole -/

/-- A step takes the command at the front of the queue and runs exec on the state with the rest (the model's queue, log
entry 1). -/
def Obligations.StepRunsTheFrontCommand : Prop :=
  ∀ (c : Instr) (rest : List Instr) (s : State), s.pending = c :: rest → step s = exec c { s with pending := rest }

/-- R3, R35 (log entry 4 for what an empty queue means). With no command waiting, a step is one backplane clock: nothing while
a reset line is asserted; else the oldest unplaced beat is placed and the divider counts, and when the count reaches the
active period the step is a TICK. -/
def Obligations.IdleStepIsOneClock : Prop :=
  ∀ s : State, s.pending = [] →
    (s.live = false → step s = .next s) ∧
      (s.live = true → s.tb.divider.toNat + 1 < s.tb.active.toNat →
        step s = .next { s with outbox := s.outbox.tail, tb := { s.tb with divider := s.tb.divider + 1 } }) ∧
      (s.live = true → s.tb.active.toNat ≤ s.tb.divider.toNat + 1 →
        step s = exec .tick { s with outbox := s.outbox.tail })

/-- R1, R18, R20: every command answers a next state, and but at the release of power-on reset keeps OWN_ID. All 68 rows. Two
clauses are the model's choice: that this holds in every state, those that no run reaches among them (log entry 14), and that
the waiting commands, which are the model's own queue, stay as they are (log entry 1). -/
def Obligations.EveryCommandAnswersNext : Prop :=
  ∀ (i : Instr) (s : State), leadsTo (exec i s) fun t =>
    t.pending = s.pending ∧ ((∀ straps lines, i ≠ .powerOnReset straps lines) → t.ownId = s.ownId)

/-- R37, R44: under any command but a tick and power-on reset, unless SET_TIME awaits its parameter word, TIME keeps its value;
and apart from the two resets the observation state changes only by a START or PAUSE that ends with OK in this event. -/
def Obligations.TimeAndObservationChangeOnlyByTheirCommands : Prop :=
  (∀ (i : Instr) (s t : State), exec i s = .next t → i ≠ .tick → (∀ straps lines, i ≠ .powerOnReset straps lines) →
       ¬(s.cmd.phase = .params ∧ s.cmd.code = Command.setTime.code) → t.tb.time = s.tb.time) ∧
    ∀ (i : Instr) (s t : State), exec i s = .next t → i ≠ .backplaneReset → (∀ straps lines, i ≠ .powerOnReset straps lines) →
      t.tb.obs ≠ s.tb.obs →
        t.cmd.phase = .result ∧ t.cmd.lastStatus = 0 ∧
          t.cmd.lastCode = (if t.tb.obs = .observing then Command.start.code else Command.pause.code)

/-- R30, R50, R51: under every command but power-on reset, the bank of a channel that BANK does not name, or that is locked,
keeps its value. -/
def Obligations.BanksKeepTheirValues : Prop :=
  ∀ (i : Instr) (s t : State) (c : ChanId), exec i s = .next t → (∀ straps lines, i ≠ .powerOnReset straps lines) →
    (c ≠ s.bank ∨ (s.chan c).run ≠ .disarmed ∨ s.owned c ≠ 0) → (t.chan c).bank = (s.chan c).bank

/-- R69, R70, R71: every step keeps each channel's firing balance, FIRES − (SELECTED + COLLISIONS + HELDOVER + A), and its
selection balance, SELECTED − (FILTERED + DELIVERED + DISCARDED + S), apart from power-on reset and a RESET command, which may
zero the counters. -/
def Obligations.StatisticsBalance : Prop :=
  ∀ (i : Instr) (s t : State) (c : ChanId), s.poolOk → exec i s = .next t →
    (∀ straps lines, i ≠ .powerOnReset straps lines) → ¬(s.cmd.phase = .params ∧ s.cmd.code = Command.reset.code) →
    t.firingBalance c = s.firingBalance c ∧ t.selectionBalance c = s.selectionBalance c

/-! ### Invariants -/

/-- The state after reset satisfies every invariant of Safety.lean. The pin levels of that state are the model's choice (log entry
2). -/
def Obligations.ResetSatisfiesTheInvariants : Prop := State.reset.good

/-- R42: LFSR never becomes 0. -/
def Obligations.LfsrStaysNonzero : Prop := ∀ s t : State, s.lfsrOk → step s = .next t → t.lfsrOk

/-- R9, R175, R178: OWN_ID stays in PRESENT, enabled alerts never go to the observer itself, and an announced source is
pending. -/
def Obligations.AlertsStayConsistent : Prop := ∀ s t : State, s.alertsOk → step s = .next t → t.alertsOk

/-- R26, R149, R162: every step keeps the command processor's phase conditions. -/
def Obligations.ProcessorPhasesStayLegal : Prop := ∀ s t : State, s.good → step s = .next t → t.processorOk

/-- R47, R53, R75, R88: every step keeps the conditions of the slot pool, and the watched pairs distinct, replied to, and not
the observer's own. -/
def Obligations.SlotPoolStaysConsistent : Prop :=
  ∀ s t : State, s.good → step s = .next t → t.poolOk ∧ t.pairsOk

/-- R49, R53: every step keeps the conditions of the channels. -/
def Obligations.ChannelConditionsHold : Prop := ∀ s t : State, s.good → step s = .next t → t.channelsOk

/-- R110, R114, R117, R119, R130, R131: every step keeps the output path's capacities and leaves it with nothing it could move:
in queue mode staging waits only for a full result queue, and in ring mode, on a RUNNING ring, only while no record tag is FREE
or, under STALL, while the ring has no space. -/
def Obligations.OutputPathStaysQuiescent : Prop := ∀ s t : State, s.good → step s = .next t → t.pathOk

/-- R126, R128, R129, R136, R139, R145: every step keeps the write tags as the ring state allows them, and the in-flight writes
at the run of positions that begins at PRODUCER, within the ring. -/
def Obligations.RingWritesStayConsistent : Prop :=
  ∀ s t : State, s.good → step s = .next t → t.tagsOk ∧ t.ringOk

/-- R164: no step leaves a DRAIN executing with its condition met: every point that can meet it is tested. -/
def Obligations.DrainConditionIsNeverMissed : Prop := ∀ s t : State, s.good → step s = .next t → t.drainOk

/-! ### Resets and presence -/

/-- R180: the release of power-on reset, row POWER_ON_RESET. The values of the table, and the backplane reset line and the
model's queue as they stand. And the state right after reset is such a release. The model's choices: the strap and line levels
are the row's operands (log entry 23); LAST_STATUS is 15 and no beat is left whatever was EXECUTING or not yet placed (log entry
26); and the levels in the state right after reset, the backplane reset line's among them (log entry 2). -/
def Obligations.PowerOnResetLoadsEveryValue : Prop :=
  (∀ (straps : Node) (lines : Mask) (s : State), leadsTo (exec (.powerOnReset straps lines) s) fun t =>
       (t.ownId = straps ∧ t.present = lines ||| (1#16 <<< straps.val) ∧ t.outbox = []) ∧
         (t.owner = none ∧ t.bank = 0) ∧
         t.tb = { divider := 0, active := 64, prescale := 64, time := 0, lfsr := 0x0001, obs := .paused } ∧
         (∀ c : ChanId, t.chan c =
           { bank := { kinds := 0x1F, init := 0xFFFF, targ := 0xFFFF, wlo := 0, whi := 0, period := 65536, jitter := 0,
                       quota := 1, sigMask := 0, sigMatch := 0, thresh := 0, sel := .wait, inv := false, window := false,
                       notify := .stream },
             run := .disarmed, count := 0, loss := false, stats := ⟨0, 0, 0, 0, 0, 0, 0, 0⟩ }) ∧
         (∀ i : SlotId, (t.slot i).state = .free ∧ t.slot i = Slot.cleared) ∧ t.closeQueue = [] ∧ t.watchLimit = 4096 ∧
         t.path = { staging := [], results := [], ptr := 0, threshold := 1, mode := .queue, seq := 0 } ∧
         (t.ring.state = .idle ∧ t.ring.node = 0 ∧ t.ring.base = 0 ∧ t.ring.size = 16 ∧ t.ring.policy = .stall ∧
           t.ring.backoff = 16 ∧ t.ring.threshold = 1 ∧ t.ring.writeLimit = 1024 ∧ t.ring.wbAddr = 0 ∧
           t.ring.producer = 0 ∧ t.ring.consumer = 0 ∧ t.ring.lostPending = 0 ∧ t.ring.firstLost = 0 ∧
           t.ring.fault = { cause := none, isWriteback := false, remoteCode := 0, tag := 0, position := 0 } ∧
           ∀ u : WTag, (t.tag u).state = .free) ∧
         (t.cmd.phase = .idle ∧ t.cmd.code = 0 ∧ t.cmd.results = [] ∧ t.cmd.drainTicks = 0 ∧ t.cmd.lastStatus = 15 ∧
           t.cmd.lastCode = 0 ∧ t.cmd.discarded = false) ∧
         t.ints = { ie := 0, ip := 0, ius := 0, err := 0, alerted := 0, mie := false, alertNode := 0, alertEnable := false,
                    alertAddr := 0, alertCount := 0 } ∧
         t.dev = ⟨0, 0, 0, 0, 0, 0, 0, 0⟩ ∧
         (t.pins.deviceReset = false ∧ t.pins.backplaneReset = s.pins.backplaneReset ∧ t.pending = s.pending)) ∧
    ∀ s : State, s.pins.backplaneReset = false → s.pending = [] →
    exec (.powerOnReset Config.resetStraps Config.resetLines) s = .next State.reset

/-- R17, R18, R181: rows BACKPLANE_RESET_ASSERT and DEVICE_RESET_ASSERT, and every row while a reset line is asserted. The
assertion of the backplane reset line discards the beats not yet placed and changes nothing else but the line; the assertion
of the device reset input changes only its own level. While a line is asserted nothing is processed: every command but those
of the pins leaves the state as it is, a presence line only changes its level, and a backplane reset released under the device
reset has no effect (log entry 6). -/
def Obligations.ResetLinesStopTheBlock : Prop :=
  (∀ s : State,
       exec .backplaneResetAssert s = .next
         { s with
           pins := { s.pins with backplaneReset := true }
           outbox := if s.pins.deviceReset then s.outbox else [] } ∧
         exec .deviceResetAssert s = .next { s with pins := { s.pins with deviceReset := true } }) ∧
    ∀ (i : Instr) (s : State), s.live = false →
      (i.isPin = false → exec i s = .next s) ∧
        (∀ n, i = .arrival n ∨ i = .withdrawal n →
          leadsTo (exec i s) fun t => { t with pins := { t.pins with lines := s.pins.lines } } = s) ∧
        (i = .backplaneReset → s.pins.deviceReset = true →
          exec i s = .next { s with pins := { s.pins with backplaneReset := false } })

/-- R182, R183: row BACKPLANE_RESET, the release of the backplane reset line. Presence, ownership, PAUSED, the freed slots with
their counts, the ring fault with the losses and events of its voided records, and the interrupt flags, before the one alert
check that ends the event. Three clauses are the model's choice: a release needs no assertion before it, and the beats not yet
placed are gone when it runs (log entry 6); and LOSS, PURGED and RECORDS_LOST show the voided records and the freed slots, as R182 has
it against R72's table and R33 (log entry 18). -/
def Obligations.BackplaneResetRelease : Prop :=
  ∀ s : State, s.pins.deviceReset = false → s.good → leadsTo (exec .backplaneReset s) fun t =>
    (t.pins = { s.pins with backplaneReset := false } ∧ t.present = s.pins.lines ||| (1#16 <<< s.ownId.val)) ∧
      (t.owner = none ∧ t.cmd.phase = .idle ∧ t.cmd.code = 0 ∧ t.cmd.results = [] ∧
        (if s.cmd.phase = .executing then t.cmd.lastStatus = 8 ∧ t.cmd.lastCode = s.cmd.code ∧ t.cmd.discarded = true
         else t.cmd.lastStatus = s.cmd.lastStatus ∧ t.cmd.lastCode = s.cmd.lastCode)) ∧
      t.tb = { s.tb with divider := 0, active := s.tb.prescale, obs := .paused } ∧
      (∀ i : SlotId, (t.slot i).state = .free) ∧ t.closeQueue = [] ∧
      (∀ c : ChanId, (t.chan c).bank = (s.chan c).bank ∧ (t.chan c).count = (s.chan c).count ∧
        (t.chan c).run = (if (s.chan c).run = .armed then .counting else (s.chan c).run) ∧
        (t.chan c).stats =
          { (s.chan c).stats with
            collisions := (s.chan c).stats.collisions + (s.chan c).armedTerm
            discarded := (s.chan c).stats.discarded + BitVec.ofNat 32 (s.watching c) }) ∧
      (t.path = s.path ∧ t.bank = s.bank ∧ t.watchLimit = s.watchLimit) ∧
      (t.ints.ius = 0 ∧ t.ints.ie = s.ints.ie ∧ t.ints.mie = s.ints.mie) ∧
      (if s.ring.state = .idle then t.ring = s.ring
       else t.ring.state = .faulted ∧ (∀ u : WTag, (t.tag u).state = .free) ∧
         t.ring.fault = { RingFaultReg.cleared with cause := some .backplaneReset } ∧
         t.ring.producer = s.ring.producer ∧ t.ring.consumer = s.ring.consumer ∧ has t.ints.ip 0 = true) ∧
      t.outbox.length ≤ 1 ∧
      (if s.cmd.phase = .executing then True
       else t.cmd.discarded = (s.cmd.discarded || (decide (s.cmd.phase = .result) && decide (s.cmd.results ≠ [])))) ∧
      t.dev =
        { s.dev with
          purged := s.dev.purged + BitVec.ofNat 32 (slotIds.countP fun i => (s.slot i).isWatching)
          recordsLost := s.dev.recordsLost + BitVec.ofNat 32 (recTags.countP fun u =>
            decide (s.ring.state ≠ .idle) && (s.tag u).inFlight && decide ((s.tag u).record.w0.extractLsb' 0 4 ≠ 3)) } ∧
      (∀ c : ChanId, (t.chan c).loss =
        ((s.chan c).loss || (decide (s.ring.state ≠ .idle) && decide (s.samplesInFlight c ≠ 0)))) ∧
      ∃ u : State, exec .backplaneReset s = afterEvent u ∧ u.outbox = [] ∧
        Ints.afterEvents { s.ints with ius := 0, alerted := 0 } u.ints fun k =>
          if s.ring.state = .idle then 0 else (if k = 0 then 1 else 0) + s.lostEvents k

/-- R9, R10: rows ARRIVAL and WITHDRAWAL, where nothing is withdrawn. An arrival adds the node to PRESENT and does nothing else;
a change that agrees with PRESENT only follows the line; a change for OWN_ID is ignored. -/
def Obligations.ArrivalAddsTheNode : Prop :=
  (∀ (n : Node) (s : State), s.live = true →
       (n ≠ s.ownId → has s.present n = false →
         exec (.arrival n) s = afterEvent
           { s with
             present := withBit s.present n
             pins := { s.pins with lines := withBit s.pins.lines n } }) ∧
         (n ≠ s.ownId → has s.present n = true →
           exec (.arrival n) s = .next { s with pins := { s.pins with lines := withBit s.pins.lines n } }) ∧
         (n = s.ownId → exec (.arrival n) s = .next s)) ∧
    ∀ (n : Node) (s : State),
      (n ≠ s.ownId → has s.present n = false →
        exec (.withdrawal n) s = .next { s with pins := { s.pins with lines := withoutBit s.pins.lines n } }) ∧
        (n = s.ownId → exec (.withdrawal n) s = .next s)

/-- R9, R86, R138, R146, R184: row WITHDRAWAL. The node leaves PRESENT; each watched transaction that involves it closes as
ABANDONED with the close time TIME, in slot order and before anything else, so that its slot is CLOSING, or FREE once filtered or
delivered, and FILTERED counts those that fail the tests; the other watched transactions are as they were; an owner that leaves loses ownership; a memory node that leaves an active ring
faults it with every tag FREE, and orphans owed by a node that leaves a FAULTED ring become FREE. That the memory node's departure
faults the ring also where no tag is in use is the model's choice (log entry 24). -/
def Obligations.WithdrawalRemovesTheNode : Prop :=
  ∀ (n : Node) (s : State), s.live = true → n ≠ s.ownId → has s.present n = true → s.poolOk →
    leadsTo (exec (.withdrawal n) s) fun t =>
      (t.present = withoutBit s.present n ∧ t.pins = { s.pins with lines := withoutBit s.pins.lines n }) ∧
        t.owner = (if s.owner = some n then none else s.owner) ∧
        (s.owner = some n → t.cmd.phase = .idle) ∧
        (∀ i : SlotId, (t.slot i).involves n = false) ∧
        (∀ i : SlotId, (s.slot i).isLive = true → (s.slot i).involves n = false → t.slot i = s.slot i) ∧
        (s.ring.active = true → s.ring.node = n →
          t.ring.state = .faulted ∧ t.ring.fault = { RingFaultReg.cleared with cause := some .targetGone } ∧
            ∀ u : WTag, (t.tag u).state = .free) ∧
        (s.ring.state = .faulted → t.ring.fault = s.ring.fault ∧ t.ring.state = .faulted ∧
          ∀ u : WTag, (s.tag u).state = .orphaned → (s.tag u).dest = n → (t.tag u).state = .free) ∧
        t.tb = s.tb ∧ t.bank = s.bank ∧ t.watchLimit = s.watchLimit ∧ t.ints.mie = s.ints.mie ∧
        (let ended (i : SlotId) : Slot := { s.slot i with outcome := some .abandoned, closeTime := some s.tb.time }
         (∀ i : SlotId, (s.slot i).involves n = true →
            t.slot i = { ended i with state := .closing } ∨ t.slot i = Slot.cleared) ∧
          ∀ c : ChanId, (t.chan c).stats.filtered = (s.chan c).stats.filtered + BitVec.ofNat 32
            (slotIds.countP fun i => (s.slot i).involves n && decide ((s.slot i).channel = c) &&
              !qualifiesRecord (s.chan c).bank (ended i))) ∧
        (let closed := (slotIds.filter fun i => (s.slot i).involves n).foldl (fun u i => closeSlot i .abandoned u)
           { s with
             present := withoutBit s.present n
             pins := { s.pins with lines := withoutBit s.pins.lines n } }
         t = alertCheck (ringWithdraw n (if s.owner = some n then loseOwner closed else closed)))

/-! ### Ticks and expiry -/

/-- R35, R37, R40, R76, R85: row TICK. TIME increases by 1, the prescaler restarts on PRESCALE, and nothing that belongs to the
channels' counting, to configuration or to ownership changes. Every watched transaction ages by 1, saturating; one whose age
reaches a WATCH_LIMIT other than 0 is watched no more, and SLOTS_EXPIRED counts each; a CLOSING slot is not aged. Where no ISSUED
tag reaches WRITE_LIMIT, a tag in BACKOFF counts down by 1 and at 0 becomes ISSUED with age 0 and repeats its write with reissue 1;
an ISSUED or ORPHANED tag ages by 1, and an ORPHANED one that reaches WRITE_LIMIT becomes FREE; a DONE tag stays. Else the lowest
ISSUED tag that reaches it faults the ring with TIMEOUT and is ORPHANED with age 0, and the other ISSUED tags are ORPHANED at their
new age, or FREE where that reaches the limit. An EXECUTING DRAIN that nothing has ended counts the tick, and ends with
TIMED_OUT where the count reaches its timeout. -/
def Obligations.TickAdvancesTimeAndAgesSlots : Prop :=
  (∀ s : State, s.live = true → leadsTo (exec .tick s) fun t =>
       t.tb = { s.tb with divider := 0, active := s.tb.prescale, time := s.tb.time + 1 } ∧
         (t.pins = s.pins ∧ t.ownId = s.ownId ∧ t.present = s.present ∧ t.owner = s.owner ∧ t.bank = s.bank ∧
           t.watchLimit = s.watchLimit) ∧
         ∀ c : ChanId, (t.chan c).bank = (s.chan c).bank ∧ (t.chan c).count = (s.chan c).count ∧
           (t.chan c).stats.counted = (s.chan c).stats.counted ∧ (t.chan c).stats.fires = (s.chan c).stats.fires) ∧
    (∀ s : State, s.live = true → s.poolOk → leadsTo (exec .tick s) fun t =>
      (∀ i : SlotId, (s.slot i).isLive = true →
          let aged : BitVec 16 := if (s.slot i).age = 65535 then 65535 else (s.slot i).age + 1
          if s.watchLimit ≠ 0 ∧ s.watchLimit.toNat ≤ aged.toNat then (t.slot i).isLive = false
          else t.slot i = { s.slot i with age := aged }) ∧
        (∀ i : SlotId, (s.slot i).state = .closing → t.slot i = s.slot i ∨ t.slot i = Slot.cleared) ∧
        t.dev.slotsExpired = s.dev.slotsExpired + BitVec.ofNat 32
          (slotIds.countP fun i => (s.slot i).isLive &&
            decide (s.watchLimit ≠ 0 ∧ s.watchLimit.toNat ≤ (s.slot i).age.toNat + 1))) ∧
    (∀ s : State, s.live = true → leadsTo (exec .tick s) fun t =>
      ((∀ u : WTag, ¬s.timesOut u) → ∀ u : WTag,
          let x := s.tag u
          (x.state = .backoff → x.backoff.toNat ≤ 1 →
              t.tag u = { x with state := .issued, backoff := 0, age := 0 } ∧
                Beat.request
                  { initiator := s.ownId, target := some x.dest, tag := Fin.ofNat 16 u.val, kind := .write, reissue := true
                    address := if u = 4 then s.ring.wbAddr
                      else s.ring.base + BitVec.ofNat 32 (32 * (x.position.toNat % s.ring.size.toNat))
                    length := if u = 4 then 4 else 32
                    payload := if u = 4 then wordBytes (x.value.setWidth 32) else x.record.bytes } ∈ t.outbox) ∧
            (x.state = .backoff → 2 ≤ x.backoff.toNat → t.tag u = { x with backoff := x.backoff - 1 }) ∧
            (x.state = .issued → t.tag u = { x with age := agedBy1 x.age }) ∧
            (x.state = .orphaned →
              t.tag u = if s.limitAtTick u then WriteTag.cleared else { x with age := agedBy1 x.age }) ∧
            (x.state = .done → t.tag u = x)) ∧
        ∀ v : WTag, s.timesOut v → (∀ u : WTag, u < v → ¬s.timesOut u) →
          t.ring.state = .faulted ∧
            t.ring.fault =
              { cause := some .timeout, isWriteback := decide (v = 4), remoteCode := 0, tag := v
                position := if v = 4 then 0 else (s.tag v).position } ∧
            t.tag v = { s.tag v with state := .orphaned, age := 0 } ∧
            ∀ u : WTag, u ≠ v → (s.tag u).state = .issued →
              t.tag u = if s.limitAtTick u then WriteTag.cleared
                else { s.tag u with state := .orphaned, age := agedBy1 (s.tag u).age }) ∧
    ∀ s : State, s.live = true → leadsTo (exec .tick s) fun t =>
      let drain := s.cmd.phase = .executing ∧ s.cmd.code = Command.drain.code
      let counted : Processor := { s.cmd with drainTicks := s.cmd.drainTicks + 1 }
      let due := s.cmd.drainTimeout ≠ 0 ∧ s.cmd.drainTimeout.toNat ≤ (s.cmd.drainTicks + 1).toNat
      ((∀ i : SlotId, ¬((s.slot i).isLive = true ∧ s.watchLimit ≠ 0 ∧
            s.watchLimit.toNat ≤ (agedBy1 (s.slot i).age).toNat)) →
          (∀ u : WTag, (s.tag u).state = .issued ∨ (s.tag u).state = .orphaned → ¬s.limitAtTick u) →
          t.cmd =
            if drain then
              (if due then
                { counted with
                  results := [statusWord .timedOut s.cmd.code 0], lastStatus := 6, lastCode := s.cmd.code, phase := .result }
               else counted)
            else s.cmd) ∧
        (drain → t.cmd.phase = .executing → t.cmd = counted ∧ ¬due)

/-- R85, R134, R135, R138, R164: rows SLOT_EXPIRY, BACKOFF_REISSUE, TIMEOUT, ORPHAN_FREE and DRAIN_TIMED_OUT, the tests of a
tick taken one at a time (log entry 3). A slot in OPEN or BOUNCED at a WATCH_LIMIT other than 0 closes as EXPIRED, any other is
left; a tag in BACKOFF with count 0 becomes ISSUED with age 0 and repeats its write with reissue 1; an ISSUED tag at the write
limit faults the ring with TIMEOUT; an ORPHANED one becomes FREE; an EXECUTING DRAIN at its timeout ends with TIMED_OUT. Where its
own condition does not hold, each of the five changes nothing. -/
def Obligations.TickTestsActOneAtATime : Prop :=
  (∀ (i : SlotId) (s : State), s.live = true →
       ((s.slot i).isLive = true → s.watchLimit ≠ 0 → s.watchLimit.toNat ≤ (s.slot i).age.toNat →
           exec (.slotExpiry i) s = .next
             (closeSlot i .expired { s with dev := { s.dev with slotsExpired := s.dev.slotsExpired + 1 } })) ∧
         (¬((s.slot i).isLive = true ∧ s.watchLimit ≠ 0 ∧ s.watchLimit.toNat ≤ (s.slot i).age.toNat) →
           exec (.slotExpiry i) s = .next s)) ∧
    ∀ (u : WTag) (s : State), s.live = true →
      ((s.tag u).state = .backoff → (s.tag u).backoff = 0 →
          exec (.backoffReissue u) s = .next
            ((s.setTag u { s.tag u with state := .issued, age := 0 }).emit
              (.request
                { initiator := s.ownId, target := some (s.tag u).dest, tag := Fin.ofNat 16 u.val, kind := .write,
                  reissue := true,
                  address := if u = 4 then s.ring.wbAddr
                    else s.ring.base + BitVec.ofNat 32 (32 * ((s.tag u).position.toNat % s.ring.size.toNat)),
                  length := if u = 4 then 4 else 32,
                  payload := if u = 4 then wordBytes ((s.tag u).value.setWidth 32) else (s.tag u).record.bytes }))) ∧
        ((s.tag u).state = .issued → s.ring.writeLimit.toNat ≤ (s.tag u).age.toNat →
          exec (.timeout u) s = .next (ringFault .timeout 0 (some u) s)) ∧
        ((s.tag u).state = .orphaned → s.ring.writeLimit.toNat ≤ (s.tag u).age.toNat →
          exec (.orphanFree u) s = .next (drainTest (stopTest (s.setTag u WriteTag.cleared)))) ∧
        (s.cmd.phase = .executing → s.cmd.code = Command.drain.code → s.cmd.drainTimeout ≠ 0 →
          s.cmd.drainTimeout.toNat ≤ s.cmd.drainTicks.toNat →
          exec .drainTimedOut s = .next (endWith .timedOut 0 [] s)) ∧
        (¬((s.tag u).state = .backoff ∧ (s.tag u).backoff = 0) → exec (.backoffReissue u) s = .next s) ∧
        (¬((s.tag u).state = .issued ∧ s.ring.writeLimit.toNat ≤ (s.tag u).age.toNat) → exec (.timeout u) s = .next s) ∧
        (¬((s.tag u).state = .orphaned ∧ s.ring.writeLimit.toNat ≤ (s.tag u).age.toNat) →
          exec (.orphanFree u) s = .next s) ∧
        (¬(s.cmd.phase = .executing ∧ s.cmd.code = Command.drain.code ∧ s.cmd.drainTimeout ≠ 0 ∧
            s.cmd.drainTimeout.toNat ≤ s.cmd.drainTicks.toNat) → exec .drainTimedOut s = .next s)

/-! ### The control window -/

/-- R20, R25: the checks of a target access in their order, and the refusal: a FAULT with the code of the first condition that
holds, or for a POSTED one more of WINDOW_REFUSALS, and nothing else. Row REGISTER_WRITE with any access. -/
def Obligations.WindowRefusesInOrder : Prop :=
  ∀ (a : Access) (s : State), s.live = true → (a.toRequest s.ownId).wf = true →
    let v := wordOfBytes a.payload
    let code : Option (BitVec 4) :=
      if a.kind = .swap then some 5
      else if a.length ≠ 4 then some 6
      else
        match Reg.ofOffset (a.address.toNat % 0x400) with
        | none => some 1
        | some g =>
          if g.direction = (if a.kind = .read then .writeOnly else .readOnly) then some 3
          else if s.owner ≠ some a.initiator ∧
              (if a.kind = .read then g = .resultPort ∨ g = .queueData ∨ g = .ack
               else g ≠ .marker ∧ (g = .claim → s.owner ≠ none)) then some 2
          else if (g = .cmdPort ∧ (s.cmd.phase = .executing ∨ s.cmd.phase = .result)) ∨
              (g = .resultPort ∧ s.cmd.phase ≠ .result) then some 4
          else if a.kind ≠ .read ∧
              ((g = .prescale ∧ s.tb.obs = .observing) ∨
                (g.isBank = true ∧ ((s.chan s.bank).run ≠ .disarmed ∨ s.owned s.bank ≠ 0)) ∨
                (g.isRingConfig = true ∧ (s.ring.state = .running ∨ s.ring.state = .stopping))) then some 8
          else if g = .marker ∧ s.tb.obs = .paused then some 7
          else if a.kind ≠ .read ∧ valueOk s g v = false then some 9
          else none
    (∀ k : BitVec 4, code = some k →
        exec (.registerWrite a) s = afterEvent
          (s.refusedAccess a.initiator a.tag (decide (a.kind = .posted)) k)) ∧
      (code = none → leadsTo (exec (.registerWrite a) s) fun t =>
        t.dev.windowRefusals = s.dev.windowRefusals ∨ Reg.ofOffset (a.address.toNat % 0x400) = some .cmdPort)

/-- R22, R24, R32, R33, R34, R49, R52, R125, R139, R150, R170, R175: row REGISTER_WRITE, a READ of a register whose read is open: any
node is answered with the register's value as it stands, and nothing else changes; what the plain registers hold; the fields of the
status registers GSTATUS, CH_STATE, CMD_STATUS, INT_STATE and RING_FAULT; and those of MIE, ALERT_NODE, the bank registers, the ring
configuration registers and the statistics. -/
def Obligations.OpenReadsReturnTheRegister : Prop :=
  ((∀ (r : Reader) (off : BitVec 10) (g : Reg) (s : State), s.live = true → Reg.ofOffset off.toNat = some g →
         g.direction ≠ .writeOnly → g ≠ .resultPort → g ≠ .queueData → g ≠ .ack →
         exec (.registerWrite (r.access off)) s = afterEvent (s.readAs r (readReg (s.arrived r.initiator) g))) ∧
       ∀ s : State,
         readReg s .time = s.tb.time ∧ readReg s .present = s.present.setWidth 32 ∧
           readReg s .prescale = s.tb.prescale.setWidth 32 ∧ readReg s .lfsr = s.tb.lfsr.setWidth 32 ∧
           readReg s .owner = (match s.owner with | none => 0xFF | some n => BitVec.ofNat 32 n.val) ∧
           readReg s .producer = s.ring.producer.setWidth 32 ∧ readReg s .consumer = s.ring.consumer.setWidth 32 ∧
           readReg s .queueCount = BitVec.ofNat 32 s.path.results.length ∧ readReg s .lostPending = s.ring.lostPending ∧
           readReg s .ident = 0x53380100 + BitVec.ofNat 32 s.ownId.val) ∧
    (∀ s : State,
      let gs := readReg s .gstatus
      let ch := readReg s .chState
      let cs := readReg s .cmdStatus
      let it := readReg s .intState
      (gs.getLsbD 0 = decide (s.tb.obs = .observing) ∧ gs.getLsbD 1 = decide (s.path.mode = .ring) ∧
          gs.extractLsb' 2 2 = s.ring.state.code ∧ gs.extractLsb' 4 2 = s.cmd.phase.code ∧
          gs.extractLsb' 8 4 = BitVec.ofNat 4 s.path.staging.length ∧
          gs.extractLsb' 12 4 = BitVec.ofNat 4 s.closeQueue.length ∧
          gs.extractLsb' 16 4 = BitVec.ofNat 4 (slotIds.countP fun i => decide ((s.slot i).state = .free)) ∧
          gs.extractLsb' 20 12 = 0) ∧
        (ch.extractLsb' 0 2 = (s.chan s.bank).run.code ∧ ch.getLsbD 2 = (s.chan s.bank).loss ∧
          ch.getLsbD 3 = decide ((s.chan s.bank).run ≠ .disarmed ∨ s.owned s.bank ≠ 0) ∧
          ch.extractLsb' 4 4 = BitVec.ofNat 4 (s.owned s.bank) ∧ ch.extractLsb' 8 24 = (s.chan s.bank).count) ∧
        (cs.extractLsb' 0 2 = s.cmd.phase.code ∧ cs.getLsbD 2 = decide (s.cmd.phase = .params) ∧
          cs.getLsbD 3 = s.cmd.discarded ∧
          cs.extractLsb' 4 4 = (if s.cmd.phase = .result then BitVec.ofNat 4 s.cmd.results.length else 0) ∧
          cs.extractLsb' 8 8 = s.cmd.code ∧ cs.extractLsb' 16 4 = s.cmd.lastStatus ∧
          cs.extractLsb' 20 8 = s.cmd.lastCode ∧ cs.extractLsb' 28 4 = 0) ∧
        (it.extractLsb' 0 8 = s.ints.ip ∧ it.extractLsb' 8 8 = s.ints.ius ∧ it.extractLsb' 16 8 = s.ints.err ∧
          it.extractLsb' 24 8 = s.ints.alerted)) ∧
    ∀ s : State,
      let b := (s.chan s.bank).bank
      let g := s.ring
      let lf := readReg s .chLatfilt
      let ct := readReg s .chCtrl
      let po := readReg s .ringPolicy
      let rf := readReg s .ringFault
      let me := readReg s .mie
      let al := readReg s .alertNode
      (readReg s .chKinds = b.kinds.setWidth 32 ∧ readReg s .chInit = b.init.setWidth 32 ∧
          readReg s .chTarg = b.targ.setWidth 32 ∧ readReg s .chWlo = b.wlo ∧ readReg s .chWhi = b.whi ∧
          readReg s .chPeriod = b.quota ++ b.jitter ++ b.period ∧ readReg s .chSig = b.sigMatch ++ b.sigMask ∧
          (lf.extractLsb' 0 16 = b.thresh ∧ lf.getLsbD 16 = decide (b.sel = .total) ∧ lf.getLsbD 17 = b.inv ∧
            lf.extractLsb' 18 14 = 0) ∧
          (ct.getLsbD 0 = b.window ∧ ct.getLsbD 1 = decide (b.notify = .each) ∧ ct.extractLsb' 2 30 = 0)) ∧
        (readReg s .ringNode = BitVec.ofNat 32 g.node.val ∧ readReg s .ringBase = g.base ∧
          readReg s .ringSize = g.size.setWidth 32 ∧
          (po.getLsbD 0 = decide (g.policy = .drop) ∧ po.extractLsb' 1 7 = 0 ∧ po.extractLsb' 8 8 = g.backoff ∧
            po.extractLsb' 16 16 = 0) ∧
          readReg s .ringThreshold = g.threshold.setWidth 32 ∧ readReg s .writeLimit = g.writeLimit.setWidth 32 ∧
          readReg s .wbAddr = g.wbAddr) ∧
        (rf.extractLsb' 0 3 = (match g.fault.cause with
            | none => 0
            | some .remoteFault => 1
            | some .bounceLimit => 2
            | some .timeout => 3
            | some .targetGone => 4
            | some .backplaneReset => 5) ∧
          rf.getLsbD 3 = g.fault.isWriteback ∧ rf.extractLsb' 4 4 = g.fault.remoteCode ∧
          rf.extractLsb' 8 3 = BitVec.ofNat 3 g.fault.tag.val ∧ rf.getLsbD 11 = false ∧
          rf.extractLsb' 12 17 = g.fault.position ∧ rf.extractLsb' 29 3 = 0) ∧
        (me.getLsbD 0 = s.ints.mie ∧ me.extractLsb' 1 7 = 0 ∧ me.extractLsb' 8 8 = s.ints.ie ∧ me.extractLsb' 16 16 = 0) ∧
        (al.extractLsb' 0 4 = nodeBits s.ints.alertNode ∧ al.getLsbD 4 = s.ints.alertEnable ∧ al.extractLsb' 5 3 = 0 ∧
          al.extractLsb' 8 8 = s.ints.alertCount ∧ al.extractLsb' 16 16 = 0) ∧
        (readReg s .watchLimit = s.watchLimit.setWidth 32 ∧ readReg s .bank = BitVec.ofNat 32 s.bank.val ∧
          readReg s .alertAddr = s.ints.alertAddr ∧ readReg s .queuePtr = BitVec.ofNat 32 s.path.ptr.val ∧
          readReg s .queueThreshold = s.path.threshold.setWidth 32) ∧
        (List.finRange 8).map (fun k => readReg s (.devStat k)) =
          [s.dev.markersAccepted, s.dev.markersRefused, s.dev.strayReplies, s.dev.windowRefusals, s.dev.recordsLost,
            s.dev.anomalies, s.dev.slotsExpired, s.dev.purged] ∧
        ∀ c : ChanId,
          let x := (s.chan c).stats
          (List.finRange 8).map (fun k => readReg s (.chStat c k)) =
            [x.counted, x.fires, x.selected, x.collisions, x.heldover, x.filtered, x.delivered, x.discarded]

/-- R30, R36, R42, R85, R120, R125, R170, R175: row REGISTER_WRITE, the owner's writes to the registers of the timebase, the slots,
the window, the result queue and the interrupts, and, while the ring is IDLE or FAULTED, to the seven ring configuration registers.
Each is the whole next state. And the values that a register does not admit: each is refused with BAD_VALUE and changes nothing; for
BANK that is any word above 3, whatever its low bits (log entry 8). -/
def Obligations.RegisterWritesReplaceTheField : Prop :=
  (∀ (w : Writer) (v : Word) (s : State), s.ownedBy w.initiator →
       (s.tb.obs = .paused → 1 ≤ (v.extractLsb' 0 13).toNat → (v.extractLsb' 0 13).toNat ≤ 4096 →
           exec (.registerWrite (w.access 0x01C v)) s = afterEvent
             { s.written w with tb := { s.tb with prescale := v.extractLsb' 0 13 } }) ∧
         exec (.registerWrite (w.access 0x020 v)) s = afterEvent { s.written w with watchLimit := v.extractLsb' 0 16 } ∧
         (v.extractLsb' 0 16 ≠ 0 →
           exec (.registerWrite (w.access 0x024 v)) s = afterEvent
             { s.written w with tb := { s.tb with lfsr := v.extractLsb' 0 16 } }) ∧
         (∀ c : ChanId, v.toNat = c.val →
           exec (.registerWrite (w.access 0x040 v)) s = afterEvent { s.written w with bank := c }) ∧
         (1 ≤ (v.extractLsb' 0 5).toNat → (v.extractLsb' 0 5).toNat ≤ 16 →
           exec (.registerWrite (w.access 0x0CC v)) s = afterEvent
             { s.written w with path := { s.path with threshold := v.extractLsb' 0 5 } }) ∧
         exec (.registerWrite (w.access 0x110 v)) s = afterEvent
           { s.written w with ints := { s.ints with mie := v.getLsbD 0 } } ∧
         (∀ n : Node, (v.extractLsb' 0 4).toNat = n.val → n ≠ s.ownId →
           exec (.registerWrite (w.access 0x114 v)) s = afterEvent
             { s.written w with ints := { s.ints with alertNode := n, alertEnable := v.getLsbD 4 } }) ∧
         (v.extractLsb' 0 2 = 0 →
           exec (.registerWrite (w.access 0x118 v)) s = afterEvent
             { s.written w with ints := { s.ints with alertAddr := v } })) ∧
    (∀ (w : Writer) (v : Word) (s : State), s.ownedBy w.initiator → s.ring.state = .idle ∨ s.ring.state = .faulted →
      let set (g : Ring) : Result := afterEvent { s.written w with ring := g }
      (∀ n : Node, (v.extractLsb' 0 4).toNat = n.val → n ≠ s.ownId →
          exec (.registerWrite (w.access 0x080 v)) s = set { s.ring with node := n }) ∧
        (v.toNat % 32 = 0 → exec (.registerWrite (w.access 0x084 v)) s = set { s.ring with base := v }) ∧
        (∀ k : Nat, 4 ≤ k → k ≤ 16 → (v.extractLsb' 0 17).toNat = 2 ^ k →
          exec (.registerWrite (w.access 0x088 v)) s = set { s.ring with size := v.extractLsb' 0 17 }) ∧
        (v.extractLsb' 8 8 ≠ 0 →
          exec (.registerWrite (w.access 0x08C v)) s =
            set { s.ring with policy := if v.getLsbD 0 then .drop else .stall, backoff := v.extractLsb' 8 8 }) ∧
        (1 ≤ (v.extractLsb' 0 17).toNat → (v.extractLsb' 0 17).toNat ≤ 65536 →
          exec (.registerWrite (w.access 0x090 v)) s = set { s.ring with threshold := v.extractLsb' 0 17 }) ∧
        (v.extractLsb' 0 16 ≠ 0 →
          exec (.registerWrite (w.access 0x094 v)) s = set { s.ring with writeLimit := v.extractLsb' 0 16 }) ∧
        (v.toNat % 4 = 0 → exec (.registerWrite (w.access 0x098 v)) s = set { s.ring with wbAddr := v })) ∧
    ∀ (w : Writer) (v : Word) (s : State), s.ownedBy w.initiator →
      let bad (off : BitVec 10) : Prop := exec (.registerWrite (w.access off v)) s = afterEvent (s.refusedWrite w 9)
      (s.tb.obs = .paused → (v.extractLsb' 0 13).toNat = 0 ∨ 4096 < (v.extractLsb' 0 13).toNat → bad 0x01C) ∧
        (v.extractLsb' 0 16 = 0 → bad 0x024) ∧ (4 ≤ v.toNat → bad 0x040) ∧
        ((v.extractLsb' 0 5).toNat = 0 ∨ 16 < (v.extractLsb' 0 5).toNat → bad 0x0CC) ∧
        ((v.extractLsb' 0 4).toNat = s.ownId.val → bad 0x114) ∧ (v.extractLsb' 0 2 ≠ 0 → bad 0x118) ∧
        (s.ring.state = .idle ∨ s.ring.state = .faulted →
          ((v.extractLsb' 0 4).toNat = s.ownId.val → bad 0x080) ∧ (v.toNat % 32 ≠ 0 → bad 0x084) ∧
            ((∀ k < 17, 4 ≤ k → (v.extractLsb' 0 17).toNat ≠ 2 ^ k) → bad 0x088) ∧
            (v.extractLsb' 8 8 = 0 → bad 0x08C) ∧
            ((v.extractLsb' 0 17).toNat = 0 ∨ 65536 < (v.extractLsb' 0 17).toNat → bad 0x090) ∧
            (v.extractLsb' 0 16 = 0 → bad 0x094) ∧ (v.toNat % 4 ≠ 0 → bad 0x098))

/-- R30, R49, R51: row REGISTER_WRITE, the owner's writes to the nine registers of the bank of channel BANK while that bank is
unlocked. Each is the whole next state: no other channel changes. A CH_PERIOD word with PERIOD 0, JITTER above 8, or QUOTA 0 or above
8 is refused whole with BAD_VALUE. -/
def Obligations.BankRegisterWritesReachTheNamedChannel : Prop :=
  ∀ (w : Writer) (v : Word) (s : State), s.ownedBy w.initiator →
    (s.chan s.bank).run = .disarmed → s.owned s.bank = 0 →
    let b := (s.chan s.bank).bank
    let set (x : Bank) : Result := afterEvent ((s.written w).setChan s.bank { s.chan s.bank with bank := x })
    exec (.registerWrite (w.access 0x044 v)) s = set { b with kinds := v.extractLsb' 0 5 } ∧
      exec (.registerWrite (w.access 0x048 v)) s = set { b with init := v.extractLsb' 0 16 } ∧
      exec (.registerWrite (w.access 0x04C v)) s = set { b with targ := v.extractLsb' 0 16 } ∧
      exec (.registerWrite (w.access 0x050 v)) s = set { b with wlo := v } ∧
      exec (.registerWrite (w.access 0x054 v)) s = set { b with whi := v } ∧
      (v.extractLsb' 0 24 ≠ 0 → (v.extractLsb' 24 4).toNat ≤ 8 → 1 ≤ (v.extractLsb' 28 4).toNat →
        (v.extractLsb' 28 4).toNat ≤ 8 →
        exec (.registerWrite (w.access 0x058 v)) s =
          set { b with period := v.extractLsb' 0 24, jitter := v.extractLsb' 24 4, quota := v.extractLsb' 28 4 }) ∧
      (v.extractLsb' 0 24 = 0 ∨ 8 < (v.extractLsb' 24 4).toNat ∨ (v.extractLsb' 28 4).toNat = 0 ∨
          8 < (v.extractLsb' 28 4).toNat →
        exec (.registerWrite (w.access 0x058 v)) s = afterEvent (s.refusedWrite w 9)) ∧
      exec (.registerWrite (w.access 0x05C v)) s =
        set { b with sigMask := v.extractLsb' 0 16, sigMatch := v.extractLsb' 16 16 } ∧
      exec (.registerWrite (w.access 0x060 v)) s =
        set { b with thresh := v.extractLsb' 0 16, sel := if v.getLsbD 16 then .total else .wait, inv := v.getLsbD 17 } ∧
      exec (.registerWrite (w.access 0x064 v)) s =
        set { b with window := v.getLsbD 0, notify := if v.getLsbD 1 then .each else .stream }

/-- R27, R28 (and R29, R156 for the command processor): rows CLAIM and RELINQUISH, by any node, with any payload. CLAIM takes a
free OWNER and is accepted from the owner, and refused with NOT_OWNER from any other node. RELINQUISH by the owner gives up
ownership, and the command processor abandons its command by its phase; any other node is refused. -/
def Obligations.ClaimAndRelinquishMoveOwnership : Prop :=
  (∀ (w : Writer) (v : Word) (s : State), s.live = true →
       (s.owner = none ∨ s.owner = some w.initiator →
           exec (.claim w v) s = afterEvent { s.written w with owner := some w.initiator }) ∧
         ∀ n : Node, s.owner = some n → n ≠ w.initiator → exec (.claim w v) s = afterEvent (s.refusedWrite w 2)) ∧
    ∀ (w : Writer) (v : Word) (s : State), s.live = true →
      (s.owner = some w.initiator →
          exec (.relinquish w v) s = afterEvent
            { s.written w with
              owner := none
              cmd :=
                match s.cmd.phase with
                | .idle => s.cmd
                | .params => { s.cmd with phase := .idle, code := 0 }
                | .executing =>
                  { s.cmd with
                    phase := .idle, code := 0, results := [], lastStatus := 8, lastCode := s.cmd.code, discarded := true }
                | .result =>
                  { s.cmd with
                    phase := .idle, code := 0, results := [], discarded := s.cmd.discarded || decide (s.cmd.results ≠ []) } }) ∧
        (s.owner ≠ some w.initiator → exec (.relinquish w v) s = afterEvent (s.refusedWrite w 2))

/-- R101, R111, R112, R113: row MARKER, by any node. While OBSERVING with room, a MARKER record with the next sequence number
joins staging and the output advances; without room a WRITE is bounced and a POSTED dropped, and the MARKER source receives
an event; while PAUSED it is refused with MARKER_CLOSED. That the advance may raise LEVEL is the model's choice (log entry 25). -/
def Obligations.MarkerIsStagedBouncedOrClosed : Prop :=
  ∀ (w : Writer) (v : Word) (s : State), s.live = true →
    (s.tb.obs = .observing → s.closeQueue = [] → s.path.staging.length < 8 →
        exec (.marker w v) s = afterEvent (advance
          { s.written w with
            path :=
              { s.path with
                staging := s.path.staging ++ [sealWords (2 + 4096 * BitVec.ofNat 32 w.initiator.val)
                  (s.path.seq.setWidth 32) v s.tb.time 0 0 0]
                seq := s.path.seq + 1 }
            dev := { s.dev with markersAccepted := s.dev.markersAccepted + 1 } })) ∧
      (s.tb.obs = .observing → s.closeQueue ≠ [] ∨ 8 ≤ s.path.staging.length →
        exec (.marker w v) s = afterEvent
          { s with
            present := withBit s.present w.initiator
            outbox := if w.posted then s.outbox else s.outbox ++ [s.replyBeat w.initiator w.tag .bounce]
            dev := { s.dev with markersRefused := s.dev.markersRefused + 1 }
            ints := s.ints.event 7 }) ∧
      (s.tb.obs = .paused → exec (.marker w v) s = afterEvent (s.refusedWrite w 7))

/-- R118, R119: rows QUEUE_DATA and QUEUE_PTR. The owner reads word QUEUE_PTR of the head record; the read of word 7 removes
the record and advances the output; an empty queue reads EMPTY; a write of QUEUE_PTR sets it to 0. Another node is refused. -/
def Obligations.QueueReadsWordByWord : Prop :=
  ∀ (r : Reader) (w : Writer) (v : Word) (s : State), s.live = true →
    (s.owner = some r.initiator →
        (s.path.results = [] → exec (.queueData r) s = afterEvent (s.readAs r 0)) ∧
          ∀ x rest, s.path.results = x :: rest →
            (s.path.ptr ≠ 7 →
                exec (.queueData r) s = afterEvent
                  { s.readAs r ([x.w0, x.w1, x.w2, x.w3, x.w4, x.w5, x.w6, x.w7].getD s.path.ptr.val 0) with
                    path := { s.path with ptr := s.path.ptr + 1 } }) ∧
              (s.path.ptr = 7 →
                exec (.queueData r) s = afterEvent (advance
                  { s.readAs r x.w7 with path := { s.path with results := rest, ptr := 0 } }))) ∧
      (s.owner ≠ some r.initiator → exec (.queueData r) s = afterEvent (s.refusedRead r 2)) ∧
      (s.owner = some w.initiator →
        exec (.queuePtr w v) s = afterEvent { s.written w with path := { s.path with ptr := 0 } }) ∧
      (s.owner ≠ some w.initiator → exec (.queuePtr w v) s = afterEvent (s.refusedWrite w 2))

/-- R126, R127: row CONSUMER. The owner's value, bits 16:0, is admitted exactly when it is below 2N and its advance, taken
modulo 2N, is at most the fill; a RUNNING ring whose fill was lowered advances the output. Any other value is refused with
BAD_VALUE, in every ring state; another node is refused with NOT_OWNER. That this holds of the current value too, where CONSUMER
stands at 2N or above, is the model's choice (log entry 22). -/
def Obligations.ConsumerNeverPassesTheProducer : Prop :=
  ∀ (w : Writer) (v : Word) (s : State), s.live = true →
    let x := v.extractLsb' 0 17
    let m : Int := 2 * s.ring.size.toNat
    let moved : Int := ((x.toNat : Int) - s.ring.consumer.toNat) % m
    let fill : Int := ((s.ring.producer.toNat : Int) - s.ring.consumer.toNat) % m
    let after : State := { s.written w with ring := { s.ring with consumer := x } }
    (s.owner = some w.initiator →
        ((x.toNat : Int) < m → moved ≤ fill →
            exec (.consumer w v) s =
              afterEvent (if s.ring.state = .running ∧ moved ≠ 0 then advance after else after)) ∧
          (¬((x.toNat : Int) < m ∧ moved ≤ fill) → exec (.consumer w v) s = afterEvent (s.refusedWrite w 9))) ∧
      (s.owner ≠ some w.initiator → exec (.consumer w v) s = afterEvent (s.refusedWrite w 2))

/-! ### The command processor -/

/-- R153: how a command ends. The result buffer holds the status word and, under OK, the result words; the last status and
code are set; the phase is RESULT; the COMMAND source receives an event. The status word's bits are as laid out there. -/
def Obligations.CommandEndLoadsTheResults : Prop :=
  (∀ (st : Status) (detail : BitVec 16) (words : List Word) (s : State),
      endWith st detail words s =
        { s with
          cmd :=
            { s.cmd with
              results := statusWord st s.cmd.code detail :: (if st = .ok then words else [])
              lastStatus := st.code, lastCode := s.cmd.code, phase := .result }
          ints :=
            { s.ints with
              ip := s.ints.ip ||| 2
              err := if s.ints.ip.getLsbD 1 then s.ints.err ||| 2 else s.ints.err } }) ∧
    ∀ (st : Status) (code : BitVec 8) (detail : BitVec 16),
      (statusWord st code detail).extractLsb' 0 4 = st.code ∧ (statusWord st code detail).extractLsb' 4 4 = 0 ∧
        (statusWord st code detail).extractLsb' 8 8 = code ∧ (statusWord st code detail).extractLsb' 16 16 = detail

/-- R24, R151, R152: rows COMMAND_OPEN and INVALID_COMMAND, the owner's opening word in IDLE: a command that takes a parameter
moves the phase to PARAMS, and a code that is no command ends at once with INVALID_COMMAND. And every command row writes
CMD_PORT: by a node that is not the owner it is refused with NOT_OWNER; by the owner in EXECUTING or RESULT it is refused with
PHASE; neither changes anything else. -/
def Obligations.CommandPortTakesWordsByPhase : Prop :=
  (∀ (w : Writer) (c : Command) (high : BitVec 24) (v : Word) (s : State), s.atOpening w →
       (c.takesParam = true →
           exec (.commandOpen w c high) s = afterEvent
             { s.written w with cmd := { s.cmd with code := c.code, discarded := false, phase := .params } }) ∧
         ((∀ d : Command, d.code ≠ v.extractLsb' 0 8) →
           exec (.invalidCommand w v) s = afterEvent (endWith .invalidCommand 0 []
             { s.written w with cmd := { s.cmd with code := v.extractLsb' 0 8, discarded := false } }))) ∧
    ∀ (i : Instr) (w : Writer) (v : Word) (s : State), i.portWord = some (w, v) → s.live = true →
      (s.owner ≠ some w.initiator → exec i s = afterEvent (s.refusedWrite w 2)) ∧
        (s.owner = some w.initiator → s.cmd.phase = .executing ∨ s.cmd.phase = .result →
          exec i s = afterEvent (s.refusedWrite w 4))

/-- R152, R158–R161, R165: rows ARM, DISARM, RELEASE, PURGE, SNAPSHOT, READ_WATCH, RING_START, SELECT_OUTPUT and the four RESET
rows. A parameter word that the command does not admit ends it with BAD_PARAM and no other effect; the whole word is
compared. -/
def Obligations.BadParametersEndTheCommand : Prop :=
  ∀ (w : Writer) (v : Word) (s : State),
    let bad : Result := afterEvent (endWith .badParam 0 [] (s.executing w))
    (s.atParam w .arm → 4 ≤ v.toNat → exec (.arm w v) s = bad) ∧
      (s.atParam w .disarm → 4 ≤ v.toNat → exec (.disarm w v) s = bad) ∧
      (s.atParam w .release → 4 ≤ v.toNat → exec (.release w v) s = bad) ∧
      (s.atParam w .purge → 4 ≤ v.toNat → v.toNat ≠ 15 → exec (.purge w v) s = bad) ∧
      (s.atParam w .snapshot → 4 ≤ v.toNat → exec (.snapshot w v) s = bad) ∧
      (s.atParam w .readWatch → 8 ≤ v.toNat → exec (.readWatch w v) s = bad) ∧
      (s.atParam w .ringStart → 2 ≤ v.toNat → exec (.ringStart w v) s = bad) ∧
      (s.atParam w .selectOutput → 2 ≤ v.toNat → exec (.selectOutput w v) s = bad) ∧
      (s.atParam w .reset → 16 ≤ v.toNat →
        exec (.resetSampling w v) s = bad ∧ exec (.resetOutput w v) s = bad ∧ exec (.resetStatistics w v) s = bad ∧
          exec (.resetInterrupts w v) s = bad)

/-- R154, R155: rows RESULT_PORT and CMD_CANCEL. In RESULT the owner's read takes the head of the result buffer, and with the last
word the phase returns to IDLE; in any other phase it is refused with PHASE. CMD_CANCEL abandons the command by its phase. Any
other node is refused with NOT_OWNER, and a READ of CMD_CANCEL with ACCESS_DIRECTION. -/
def Obligations.ResultPortAndCancelActByPhase : Prop :=
  (∀ (r : Reader) (s : State), s.live = true →
       (s.owner = some r.initiator → s.cmd.phase = .result → ∀ x rest, s.cmd.results = x :: rest →
           exec (.resultPort r) s = afterEvent
             { s.readAs r x with
               cmd := if rest = [] then { s.cmd with results := [], phase := .idle, code := 0 }
                 else { s.cmd with results := rest } }) ∧
         (s.owner = some r.initiator → s.cmd.phase ≠ .result → exec (.resultPort r) s = afterEvent (s.refusedRead r 4)) ∧
         (s.owner ≠ some r.initiator → exec (.resultPort r) s = afterEvent (s.refusedRead r 2))) ∧
    ∀ (w : Writer) (r : Reader) (v : Word) (s : State), s.live = true →
      (s.owner = some w.initiator →
          exec (.cmdCancel w v) s = afterEvent
            (match s.cmd.phase with
             | .idle => s.written w
             | .params => { s.written w with cmd := { s.cmd with phase := .idle, code := 0 } }
             | .executing => endWith .cancelled 0 [] (s.written w)
             | .result =>
               { s.written w with
                 cmd :=
                   { s.cmd with
                     phase := .idle, code := 0, results := []
                     discarded := s.cmd.discarded || decide (s.cmd.results ≠ []) } })) ∧
        (s.owner ≠ some w.initiator → exec (.cmdCancel w v) s = afterEvent (s.refusedWrite w 2)) ∧
        exec (.registerWrite (r.access 0x03C)) s = afterEvent (s.refusedRead r 3)

/-- R39, R45, R46, R61, R157: rows START, SET_TIME and PAUSE. START moves PAUSED to OBSERVING and in OBSERVING ends with
WRONG_STATE; SET_TIME loads TIME. PAUSE in OBSERVING moves to PAUSED and cancels every arming with one collision, its slot FREE;
every other channel, slot and block is as it was; in PAUSED it ends with WRONG_STATE. -/
def Obligations.StartPauseAndSetTime : Prop :=
  (∀ (w : Writer) (high : BitVec 24) (v : Word) (s : State),
       (s.atOpening w →
           exec (.start w high) s = afterEvent
             (if s.tb.obs = .paused then
               endWith .ok 0 [] { s.opening w .start with tb := { s.tb with obs := .observing } }
              else endWith .wrongState 0 [] (s.opening w .start))) ∧
         (s.atParam w .setTime →
           exec (.setTime w v) s = afterEvent
             (endWith .ok 0 [] { s.executing w with tb := { s.tb with time := v } }))) ∧
    ∀ (w : Writer) (high : BitVec 24) (s : State), s.atOpening w →
      (s.tb.obs = .observing → s.poolOk → leadsTo (exec (.pause w high) s) fun t =>
          t.tb = { s.tb with obs := .paused } ∧
            (∀ c : ChanId, t.chan c =
              (if (s.chan c).run = .armed then
                { s.chan c with
                  run := .counting
                  stats := { (s.chan c).stats with collisions := (s.chan c).stats.collisions + 1 } }
               else s.chan c)) ∧
            (∀ i : SlotId, t.slot i = if (s.slot i).state = .reserved then Slot.cleared else s.slot i) ∧
            t.closeQueue = s.closeQueue ∧ t.path = s.path ∧ t.ring = s.ring ∧ t.dev = s.dev ∧ t.owner = s.owner ∧
            t.bank = s.bank ∧ t.watchLimit = s.watchLimit ∧ t.cmd.phase = .result ∧ t.cmd.results = [0x00000200]) ∧
        (s.tb.obs = .paused → exec (.pause w high) s = afterEvent (endWith .wrongState 0 [] (s.opening w .pause)))

/-- R43, R56, R62, R158: row ARM. The channel must be DISARMED and its window not crossed; then it is COUNTING with its
reload value, LOSS clear, and LFSR has stepped if JITTER is above 0. Each is the whole next state. -/
def Obligations.ArmLoadsTheCountdown : Prop :=
  ∀ (w : Writer) (v : Word) (c : ChanId) (s : State), s.atParam w .arm → v.toNat = c.val →
    let x := s.chan c
    let l := s.tb.lfsr
    let crossed := x.bank.window = true ∧ x.bank.whi.toNat < x.bank.wlo.toNat
    (x.run ≠ .disarmed → exec (.arm w v) s = afterEvent (endWith .wrongState 0 [] (s.executing w))) ∧
      (x.run = .disarmed → crossed → exec (.arm w v) s = afterEvent (endWith .badConfig 0 [] (s.executing w))) ∧
      (x.run = .disarmed → ¬crossed →
        exec (.arm w v) s = afterEvent (endWith .ok 0 []
          (((s.executing w).setChan c
              { x with
                run := .counting
                loss := false
                count := if x.bank.jitter = 0 then x.bank.period
                  else BitVec.ofNat 24 (max 1 (x.bank.period.toNat - l.toNat % 2 ^ x.bank.jitter.toNat)) }).setTb
            { s.tb with
              lfsr := if x.bank.jitter = 0 then l
                else BitVec.ofBool (l.getLsbD 0 ^^ l.getLsbD 2 ^^ l.getLsbD 3 ^^ l.getLsbD 5) ++ l.extractLsb' 1 15 })))

/-- R61, R63, R64, R158: rows DISARM and RELEASE. DISARM, from any run state: the channel is DISARMED with COUNT 0; an arming is
cancelled with one collision and its slot FREE; the bank, LOSS, the other slots and the other channels are as they were. RELEASE:
a HELD channel becomes COUNTING with LOSS clear and COUNT kept, and in any other run state it ends with WRONG_STATE. -/
def Obligations.DisarmAndReleaseChangeTheRunState : Prop :=
  (∀ (w : Writer) (v : Word) (c : ChanId) (s : State), s.atParam w .disarm → v.toNat = c.val → s.poolOk →
       leadsTo (exec (.disarm w v) s) fun t =>
         t.chan c =
             { s.chan c with
               run := .disarmed
               count := 0
               stats :=
                 { (s.chan c).stats with
                   collisions := (s.chan c).stats.collisions + (if (s.chan c).run = .armed then 1 else 0) } } ∧
           (∀ d : ChanId, d ≠ c → t.chan d = s.chan d) ∧
           (∀ i : SlotId, t.slot i =
             if (s.slot i).state = .reserved ∧ (s.slot i).channel = c then Slot.cleared else s.slot i) ∧
           t.closeQueue = s.closeQueue ∧ t.tb = s.tb ∧ t.path = s.path ∧ t.ring = s.ring ∧ t.dev = s.dev ∧ t.owner = s.owner ∧
           t.bank = s.bank ∧ t.watchLimit = s.watchLimit ∧
           t.cmd.phase = .result ∧ t.cmd.results = [0x00001100]) ∧
    ∀ (w : Writer) (v : Word) (c : ChanId) (s : State), s.atParam w .release → v.toNat = c.val →
    exec (.release w v) s = afterEvent
      (if (s.chan c).run = .held then
        endWith .ok 0 [] ((s.executing w).setChan c { s.chan c with run := .counting, loss := false })
       else endWith .wrongState 0 [] (s.executing w))

/-- R89, R90, R158: row PURGE of one channel or of all four. Every slot in the scope is FREE with its fields cleared; armings
count one collision each and end COUNTING; every other freed slot counts in DISCARDED and PURGED; the close queue keeps the
others' order; the result word is the number discarded. -/
def Obligations.PurgeFreesWithoutRecords : Prop :=
  ∀ (w : Writer) (v : Word) (scope : ChanId → Bool) (s : State), s.atParam w .purge → s.poolOk →
    ((v.toNat = 15 ∧ ∀ c, scope c = true) ∨ ∀ c, scope c = decide (v.toNat = c.val)) → (∃ c, scope c = true) →
    let n := slotIds.countP fun i => scope (s.slot i).channel && (s.slot i).isWatching
    leadsTo (exec (.purge w v) s) fun t =>
      (∀ i : SlotId, t.slot i =
          if scope (s.slot i).channel = true ∧ (s.slot i).state ≠ .free then Slot.cleared else s.slot i) ∧
        t.closeQueue = s.closeQueue.filter (fun i => !scope (s.slot i).channel) ∧
        (∀ c : ChanId, t.chan c =
          if scope c then
            { s.chan c with
              run := if (s.chan c).run = .armed then .counting else (s.chan c).run
              stats :=
                { (s.chan c).stats with
                  collisions := (s.chan c).stats.collisions + (s.chan c).armedTerm
                  discarded := (s.chan c).stats.discarded + BitVec.ofNat 32 (s.watching c) } }
          else s.chan c) ∧
        t.dev = { s.dev with purged := s.dev.purged + BitVec.ofNat 32 n } ∧ t.tb = s.tb ∧ t.path = s.path ∧
        t.ring = s.ring ∧ t.owner = s.owner ∧ t.bank = s.bank ∧ t.watchLimit = s.watchLimit ∧ t.cmd.phase = .result ∧ t.cmd.results = [0x00001300, BitVec.ofNat 32 n]

/-- R159, R160: rows SNAPSHOT and READ_WATCH. SNAPSHOT returns the eight statistics, with the terms A and S in the detail field;
READ_WATCH returns the six words of a slot; neither changes anything else. And the fields of the words, by slot state. -/
def Obligations.SnapshotAndReadWatchOnlyReport : Prop :=
  (∀ (w : Writer) (v : Word) (c : ChanId) (s : State), s.atParam w .snapshot → v.toNat = c.val →
     let x := s.chan c
     exec (.snapshot w v) s = afterEvent
       (endWith .ok (BitVec.ofNat 16 ((if x.run = .armed then 1 else 0) + 16 * s.watching c))
         [x.stats.counted, x.stats.fires, x.stats.selected, x.stats.collisions, x.stats.heldover, x.stats.filtered,
           x.stats.delivered, x.stats.discarded] (s.executing w))) ∧
    (∀ (w : Writer) (v : Word) (i : SlotId) (s : State), s.atParam w .readWatch → v.toNat = i.val →
        exec (.readWatch w v) s = afterEvent (endWith .ok 0 (watchWords (s.slot i)) (s.executing w))) ∧
      (∀ x : Slot, x.state = .free → watchWords x = [0, 0, 0, 0, 0, 0]) ∧
      (∀ x : Slot, x.state = .reserved → watchWords x = [1 + 16 * BitVec.ofNat 32 x.channel.val, 0, 0, 0, 0, 0]) ∧
      ∀ x : Slot, x.state ≠ .free → x.state ≠ .reserved → ∃ w1 w2 w5 : Word,
        watchWords x = [w1, w2, x.address, x.issueTime, w5, x.total.getD 0 ++ x.wait.getD 0] ∧
          (w1.extractLsb' 0 3 = x.state.code ∧ w1.extractLsb' 4 2 = BitVec.ofNat 2 x.channel.val ∧
            w1.extractLsb' 8 3 = (x.outcome.map Ending.code).getD 0 ∧ w1.getLsbD 11 = x.outcome.isSome ∧
            w1.extractLsb' 12 4 = x.faultCode.getD 0 ∧ w1.getLsbD 3 = false ∧ w1.extractLsb' 6 2 = 0 ∧
            w1.extractLsb' 16 16 = 0) ∧
          (w2.extractLsb' 0 4 = nodeBits x.initiator ∧ w2.extractLsb' 4 4 = (x.target.map nodeBits).getD 0 ∧
            w2.extractLsb' 8 4 = nodeBits x.tag ∧ w2.extractLsb' 12 3 = kindCode x.kind ∧
            w2.extractLsb' 16 6 = BitVec.ofNat 6 (x.length / 4 - 1) ∧ w2.getLsbD 24 = x.reissued ∧
            w2.getLsbD 25 = x.anomaly ∧ w2.getLsbD 15 = false ∧ w2.extractLsb' 22 2 = 0 ∧ w2.extractLsb' 26 6 = 0) ∧
          (w5.extractLsb' 0 16 = x.age ∧ w5.extractLsb' 16 4 = x.bounces ∧ w5.getLsbD 20 = x.wait.isSome ∧
            w5.getLsbD 21 = x.total.isSome ∧ w5.extractLsb' 22 10 = 0)

/-- R143, R144, R161: row RING_START, FRESH (0) and RESUME (1). The two conditions are tested in order; then the indexes are
zeroed under FRESH, RING_FAULT is cleared, the ring is RUNNING, a writeback is issued if configured, and the output
advances. Each is the whole next state. That this advance, and the command's end, raise and count what they do elsewhere is the
model's choice (log entry 25). -/
def Obligations.RingStartChecksAndRuns : Prop :=
  ∀ (w : Writer) (v : Word) (resume : Bool) (s : State), s.atParam w .ringStart → v = (if resume then 1 else 0) →
    let g := s.ring
    let n := g.size.toNat
    let last := g.base.toNat + 32 * n - 1
    let fill : Int := ((g.producer.toNat : Int) - g.consumer.toNat) % (2 * n : Int)
    let admitted := s.path.mode = .ring ∧ (g.state = .idle ∨ g.state = .faulted) ∧
      ∀ u : WTag, (s.tag u).state ≠ .orphaned
    let consistent := g.node ≠ s.ownId ∧ has (withBit s.present w.initiator) g.node = true ∧ g.threshold.toNat ≤ n ∧
      last ≤ 0xFFFFFFFF ∧ (g.wbAddr = 0 ∨ g.wbAddr.toNat < g.base.toNat ∨ last < g.wbAddr.toNat) ∧
      (resume = true → g.producer.toNat < 2 * n ∧ g.consumer.toNat < 2 * n ∧ fill ≤ n)
    (¬admitted → exec (.ringStart w v) s = afterEvent (endWith .wrongState 0 [] (s.executing w))) ∧
      (admitted → ¬consistent → exec (.ringStart w v) s = afterEvent (endWith .badConfig 0 [] (s.executing w))) ∧
      (admitted → consistent →
        exec (.ringStart w v) s = afterEvent (endWith .ok 0 [] (advance (writebackIfDue
          { s.executing w with
            ring :=
              { g with
                producer := if resume then g.producer else 0
                consumer := if resume then g.consumer else 0
                fault := RingFaultReg.cleared
                state := .running } }))))

/-- R116, R145, R161, R162, R163: rows RING_STOP, SELECT_OUTPUT and DRAIN. A RUNNING ring with every tag FREE is IDLE at once and
the command ends with PRODUCER; with a busy tag it is STOPPING and the command stays EXECUTING; else WRONG_STATE. The output mode
changes only with staging and result queue empty and the ring IDLE. Where the drain condition holds DRAIN ends with OK; in queue
mode, or with the ring RUNNING, it stays EXECUTING with its count at 0; else it ends with RING_FAULTED or WRONG_STATE. Each is the
whole next state. -/
def Obligations.StopSelectAndDrainStart : Prop :=
  (∀ (w : Writer) (high : BitVec 24) (v : Word) (s : State),
       (s.atOpening w →
           exec (.ringStop w high) s = afterEvent
             (if s.ring.state ≠ .running then endWith .wrongState 0 [] (s.opening w .ringStop)
              else if ∀ u : WTag, (s.tag u).state = .free then
                endWith .ok 0 [s.ring.producer.setWidth 32]
                  { s.opening w .ringStop with ring := { s.ring with state := .idle } }
              else { s.opening w .ringStop with ring := { s.ring with state := .stopping } })) ∧
         (s.atParam w .selectOutput → v.toNat ≤ 1 →
           exec (.selectOutput w v) s = afterEvent
             (if s.path.staging = [] ∧ s.path.results = [] ∧ s.ring.state = .idle then
               endWith .ok 0 []
                 { s.executing w with path := { s.path with mode := if v = 1 then .ring else .queue } }
              else endWith .wrongState 0 [] (s.executing w)))) ∧
    ∀ (w : Writer) (v : Word) (s : State), s.atParam w .drain →
      let met := (∀ i : SlotId, (s.slot i).state = .free ∨ (s.slot i).state = .reserved) ∧ s.path.staging = [] ∧
        (s.path.mode = .ring → ∀ u : WTag, (s.tag u).state = .free)
      exec (.drain w v) s = afterEvent
        (if met then endWith .ok 0 [] (s.executing w)
         else if s.path.mode = .queue ∨ s.ring.state = .running then
           { s.executing w with cmd := { s.cmd with phase := .executing, drainTicks := 0, drainTimeout := v } }
         else if s.ring.state = .faulted then endWith .ringFaulted 0 [] (s.executing w)
         else endWith .wrongState 0 [] (s.executing w))

/-- R71, R72, R91, R122, R123, R148, R165, R166: rows RESET_SAMPLING, RESET_OUTPUT, RESET_STATISTICS and RESET_INTERRUPTS. An admitted mask
that names OUTPUT on a ring that is neither IDLE nor FAULTED without orphans ends with WRONG_STATE; any other admitted mask applies
its scopes in the fixed order and ends with OK. And what each scope does, each as the whole state it leaves: SAMPLING changes the
channels, the slots and the close queue, and PURGED counts the slots freed without a record; OUTPUT empties the path and resets the
ring, each SAMPLE record in staging sets its channel's LOSS and, under NOTIFY EACH, raises its channel's source, and then the output
advance runs, which with the close queue empty does nothing; STATISTICS zeroes the counters; INTERRUPTS clears the flags. That the
advance of OUTPUT lets waiting slots enter staging, against the tables of R92 and R124, is the model's choice (log entry 20), and
so is that RECORDS_LOST does not count the records that OUTPUT discards (log entry 21). -/
def Obligations.ResetAppliesItsScopes : Prop :=
  (∀ (w : Writer) (others : Word) (s : State), s.atParam w .reset → others.toNat < 16 →
       ∀ p ∈ [(withBit others 0, exec (.resetSampling w others) s), (withBit others 1, exec (.resetOutput w others) s),
           (withBit others 2, exec (.resetStatistics w others) s), (withBit others 3, exec (.resetInterrupts w others) s)],
         let m : Word := p.1
         let allowed := s.ring.state = .idle ∨ (s.ring.state = .faulted ∧ ∀ u : WTag, (s.tag u).state ≠ .orphaned)
         let s0 := s.executing w
         let s1 := if m.getLsbD 0 then scopeSampling s0 else s0
         let s2 := if m.getLsbD 1 then scopeOutput s1 else s1
         let s3 := if m.getLsbD 2 then scopeStatistics s2 else s2
         let s4 := if m.getLsbD 3 then scopeInterrupts s3 else s3
         (m.getLsbD 1 = true → ¬allowed → p.2 = afterEvent (endWith .wrongState 0 [] s0)) ∧
           (m.getLsbD 1 = false ∨ allowed → p.2 = afterEvent (endWith .ok 0 [] s4))) ∧
    ∀ s : State,
      (s.poolOk →
          let t := scopeSampling s
          (∀ i : SlotId, (t.slot i).state = .free) ∧ t.closeQueue = [] ∧
            (∀ c : ChanId, t.chan c =
              { s.chan c with
                run := .disarmed
                count := 0
                loss := false
                stats :=
                  { (s.chan c).stats with
                    collisions := (s.chan c).stats.collisions + (s.chan c).armedTerm
                    discarded := (s.chan c).stats.discarded + BitVec.ofNat 32 (s.watching c) } }) ∧
            t = { s with slots := t.slots, closeQueue := [], chans := t.chans, dev := t.dev } ∧
            t.dev =
              { s.dev with purged := s.dev.purged + BitVec.ofNat 32 (slotIds.countP fun i => (s.slot i).isWatching) }) ∧
        (∃ u : State, scopeOutput s = advance u ∧ (s.closeQueue = [] → scopeOutput s = u) ∧
          u =
            { s with
              path := { s.path with staging := [], results := [], ptr := 0, seq := 0 }
              ring :=
                { s.ring with
                  producer := 0, consumer := 0, lostPending := 0, firstLost := 0, state := .idle
                  fault := RingFaultReg.cleared }
              chans := u.chans
              ints := u.ints } ∧
          (∀ c : ChanId, u.chan c =
            { s.chan c with
              loss := (s.chan c).loss || s.path.staging.any fun r => r.isSample && decide (r.channel = c) }) ∧
          Ints.afterEvents s.ints u.ints fun k => s.path.staging.countP fun r =>
            r.isSample && decide ((s.chan r.channel).bank.notify = .each) && decide (srcChan r.channel = k)) ∧
        scopeStatistics s =
          { s with dev := ⟨0, 0, 0, 0, 0, 0, 0, 0⟩, chans := (scopeStatistics s).chans } ∧
        (∀ c : ChanId, (scopeStatistics s).chan c = { s.chan c with stats := ⟨0, 0, 0, 0, 0, 0, 0, 0⟩ }) ∧
        scopeInterrupts s = { s with ints := { s.ints with ie := 0, ip := 0, ius := 0, err := 0, alerted := 0 } }

/-! ### Interrupts and alerts -/

/-- R169, R171: rows SET_IE, CLEAR_IE, SET_IP, CLEAR_IP, SET_IUS, CLEAR_IUS, CLEAR_ERR and CLEAR_ALL, the owner's writes to
INT_CTRL, with any ignored bits. Each is the whole next state. A word whose action field is 8 to 15 is refused with
BAD_VALUE, another node's write with NOT_OWNER, and a READ with ACCESS_DIRECTION. -/
def Obligations.InterruptActionsChangeOneSource : Prop :=
  ∀ (w : Writer) (r : Reader) (k : Source) (junk v : Word) (s : State), s.live = true →
    let x := s.ints
    let bit : BitVec 8 := 1#8 <<< k.val
    let set (y : Ints) : Result := afterEvent { s.written w with ints := y }
    (s.owner = some w.initiator →
        exec (.setIe w k junk) s = set { x with ie := x.ie ||| bit } ∧
          exec (.clearIe w k junk) s = set { x with ie := x.ie &&& ~~~bit } ∧
          exec (.setIp w k junk) s =
            set { x with ip := x.ip ||| bit, err := if x.ip.getLsbD k.val then x.err ||| bit else x.err } ∧
          exec (.clearIp w k junk) s = set { x with ip := x.ip &&& ~~~bit, alerted := x.alerted &&& ~~~bit } ∧
          exec (.setIus w k junk) s = set { x with ius := x.ius ||| bit } ∧
          exec (.clearIus w k junk) s = set { x with ius := x.ius &&& ~~~bit } ∧
          exec (.clearErr w k junk) s = set { x with err := x.err &&& ~~~bit } ∧
          exec (.clearAll w k junk) s =
            set { x with
                  ip := x.ip &&& ~~~bit, ius := x.ius &&& ~~~bit, err := x.err &&& ~~~bit
                  alerted := x.alerted &&& ~~~bit } ∧
          (8 ≤ (v.extractLsb' 8 4).toNat →
            exec (.registerWrite (w.access 0x100 v)) s = afterEvent (s.refusedWrite w 9))) ∧
      (s.owner ≠ some w.initiator →
        ∀ i ∈ [Instr.setIe w k junk, .clearIe w k junk, .setIp w k junk, .clearIp w k junk, .setIus w k junk,
          .clearIus w k junk, .clearErr w k junk, .clearAll w k junk], exec i s = afterEvent (s.refusedWrite w 2)) ∧
      exec (.registerWrite (r.access 0x100)) s = afterEvent (s.refusedRead r 3)

/-- R172, R173: row ACK. The owner's read returns the highest deliverable source, clears its IP and ALERTED and sets its IUS,
so that no source at or below it is deliverable; with none deliverable it returns 0xFF and changes nothing. Another node is
refused with NOT_OWNER, and a write with ACCESS_DIRECTION. -/
def Obligations.AcknowledgeTakesTheHighestSource : Prop :=
  ∀ (r : Reader) (w : Writer) (v : Word) (s : State), s.live = true →
    let x := s.ints
    (s.owner = some r.initiator →
        (∀ h : Source, x.isHighest h →
          let y : Ints :=
            { x with
              ip := x.ip &&& ~~~(1#8 <<< h.val), alerted := x.alerted &&& ~~~(1#8 <<< h.val)
              ius := x.ius ||| (1#8 <<< h.val) }
          exec (.ack r) s = afterEvent { s.readAs r (BitVec.ofNat 32 h.val) with ints := y } ∧
            ∀ k : Source, h ≤ k → ¬y.canDeliver k) ∧
          ((∀ k : Source, ¬x.canDeliver k) → exec (.ack r) s = afterEvent (s.readAs r 0xFF))) ∧
      (s.owner ≠ some r.initiator → exec (.ack r) s = afterEvent (s.refusedRead r 2)) ∧
      exec (.registerWrite (w.access 0x108 v)) s = afterEvent (s.refusedWrite w 3)

/-- R174: row END. The owner's write, whatever its payload, clears IUS of the lowest-numbered source in service, and nothing
where none is. Another node is refused with NOT_OWNER, and a READ with ACCESS_DIRECTION. -/
def Obligations.EndClosesTheMostUrgentService : Prop :=
  ∀ (w : Writer) (r : Reader) (v : Word) (s : State), s.live = true →
    (s.owner = some w.initiator →
        (∀ k : Source, s.ints.ius.getLsbD k.val = true → (∀ t : Source, t < k → s.ints.ius.getLsbD t.val = false) →
          exec (.endService w v) s = afterEvent
            { s.written w with ints := { s.ints with ius := s.ints.ius &&& ~~~(1#8 <<< k.val) } }) ∧
          (s.ints.ius = 0 → exec (.endService w v) s = afterEvent (s.written w))) ∧
      (s.owner ≠ some w.initiator → exec (.endService w v) s = afterEvent (s.refusedWrite w 2)) ∧
      exec (.registerWrite (r.access 0x10C)) s = afterEvent (s.refusedRead r 3)

/-- R176, R177: row ALERT, the alert check, which also ends every event. With ENABLE set, the alert node present and a highest
deliverable source not yet announced, one POSTED beat goes out on tag 5 with the source, OWN_ID and the increased count; in
every other case nothing changes. That the row, commanded alone and with no event before it, makes exactly this check is the
model's choice (log entry 3). -/
def Obligations.AlertCheckSendsOneAlert : Prop :=
  ∀ s : State, s.live = true →
    let x := s.ints
    (∀ h : Source, x.alertEnable = true → has s.present x.alertNode = true → x.isHighest h →
        x.alerted.getLsbD h.val = false →
        exec .alert s = .next
          { s with
            outbox := s.outbox ++
              [.request
                { initiator := s.ownId, target := some x.alertNode, tag := 5, kind := .posted, reissue := false,
                  address := x.alertAddr, length := 4,
                  payload := [BitVec.ofNat 8 h.val, BitVec.ofNat 8 s.ownId.val, x.alertCount + 1, 0] }]
            ints := { x with alertCount := x.alertCount + 1, alerted := x.alerted ||| (1#8 <<< h.val) } }) ∧
      (x.alertEnable = false ∨ has s.present x.alertNode = false ∨ (∀ k : Source, ¬x.canDeliver k) ∨
          (∃ h : Source, x.isHighest h ∧ x.alerted.getLsbD h.val = true) →
        exec .alert s = .next s) ∧
      afterEvent s = exec .alert s

/-! ### Sampling and watching -/

/-- R43, R54, R55, R56: row SNOOPED_REQUEST, for every snooped request. Each channel for which it qualifies counts it once, and
fires and reloads exactly when COUNT was 1; every other channel's COUNT and counts stay; LFSR steps once for each firing
channel with jitter, and each such channel draws its reload value from LFSR as the lower firing channels have left it. -/
def Obligations.RequestsAreCountedPerChannel : Prop :=
  ∀ (r : Request) (s : State), s.live = true → r.wf = true → s.snoops r →
    leadsTo (exec (.snoopedRequest r) s) fun t =>
      (∀ c : ChanId,
          let x := s.chan c
          let y := t.chan c
          if s.counts c r then
            y.stats.counted = x.stats.counted + 1 ∧
              (if x.count = 1 then
                y.stats.fires = x.stats.fires + 1 ∧ y.count = reloadFrom x.bank (Nat.iterate lfsrStep (s.drawsBefore c r) s.tb.lfsr)
               else y.stats.fires = x.stats.fires ∧ y.count = x.count - 1)
          else y.stats.counted = x.stats.counted ∧ y.stats.fires = x.stats.fires ∧ y.count = x.count) ∧
        (t.present = withBit s.present r.initiator ∧ t.pins = s.pins ∧ t.owner = s.owner ∧ t.bank = s.bank ∧
          t.watchLimit = s.watchLimit) ∧
        t.tb =
          { s.tb with
            lfsr := Nat.iterate lfsrStep
              (chanIds.countP fun c => decide (s.counts c r ∧ (s.chan c).count = 1 ∧ (s.chan c).bank.jitter ≠ 0))
              s.tb.lfsr }

/-- R57, R58, R59, R84: row SNOOPED_REQUEST, what a channel does with a request for which it qualifies and that no lower channel
counts, no slot being on the request's pair: a COUNTING channel that fires takes it into the lowest FREE slot; an ARMED channel takes
it into its RESERVED slot, and where it fires too it reserves the next FREE slot and is ARMED again, or at quota or with no slot FREE
counts a collision; at quota, or with no slot FREE, the firing of a COUNTING channel is a collision; a HELD channel holds it over.
A second channel that fires on a taken request reserves the next FREE slot and is ARMED; one that is ARMED already keeps its
reservation, and its firing is a collision. A POSTED or BROADCAST request is taken in the same way, and its slot closes as UNREPLIED
at the end. -/
def Obligations.FiringsTakeReserveOrCollide : Prop :=
  ∀ (r : Request) (c : ChanId) (s : State), s.live = true → r.wf = true → s.snoops r → s.counts c r →
    s.unwatched r.initiator r.tag → (∀ d : ChanId, d < c → ¬s.counts d r) →
    let x := s.chan c
    let taken : Slot :=
      { Slot.cleared with
        state := .opened, channel := c, initiator := r.initiator, target := r.target, tag := r.tag, kind := r.kind
        address := r.address, length := r.length, issueTime := s.tb.time }
    let reserved (d : ChanId) : Slot := { Slot.cleared with state := .reserved, channel := d }
    let full := x.bank.quota.toNat ≤ s.owned c ∨ ∀ i : SlotId, (s.slot i).state ≠ .free
    (r.kind ≠ .posted → r.kind ≠ .broadcast → leadsTo (exec (.snoopedRequest r) s) fun t =>
        let y := t.chan c
        (∀ i : SlotId, x.run = .counting → x.count = 1 → s.owned c < x.bank.quota.toNat → s.lowestFree i →
            (t.slot i = taken ∧ y.run = .counting ∧ y.stats.selected = x.stats.selected + 1 ∧
              y.stats.collisions = x.stats.collisions) ∧
            ∀ (d : ChanId) (j : SlotId), c < d → s.counts d r → (s.chan d).count = 1 → (s.chan d).run = .counting →
              s.owned d < (s.chan d).bank.quota.toNat → (∀ e : ChanId, c < e → e < d → ¬s.counts e r) →
              i < j → (s.slot j).state = .free → (∀ k : SlotId, k < j → k ≠ i → (s.slot k).state ≠ .free) →
              t.slot j = reserved d ∧ (t.chan d).run = .armed ∧
                (t.chan d).stats.selected = (s.chan d).stats.selected) ∧
          (∀ i : SlotId, x.run = .armed → s.reservation c i →
            (t.slot i = taken ∧ y.stats.selected = x.stats.selected + 1) ∧
              (x.count ≠ 1 → y.run = .counting ∧ y.stats.collisions = x.stats.collisions) ∧
              (x.count = 1 → full → y.run = .counting ∧ y.stats.collisions = x.stats.collisions + 1) ∧
              (x.count = 1 → s.owned c < x.bank.quota.toNat → ∀ j : SlotId, s.lowestFree j →
                t.slot j = reserved c ∧ y.run = .armed ∧ y.stats.collisions = x.stats.collisions)) ∧
          (∀ i : SlotId, s.takesInto c i → ∀ d : ChanId, c < d → s.counts d r → (s.chan d).run = .armed →
            (t.chan d).run = .armed ∧ (t.chan d).stats.selected = (s.chan d).stats.selected ∧
              (t.chan d).stats.collisions =
                (s.chan d).stats.collisions + (if (s.chan d).count = 1 then 1 else 0) ∧
              ∀ j : SlotId, (s.slot j).state = .reserved → (s.slot j).channel = d → t.slot j = s.slot j) ∧
          (x.run = .counting → x.count = 1 → full →
            y.stats.collisions = x.stats.collisions + 1 ∧ y.stats.selected = x.stats.selected ∧ y.run = .counting) ∧
          (x.run = .held → x.count = 1 →
            y.stats.heldover = x.stats.heldover + 1 ∧ y.stats.selected = x.stats.selected ∧
              y.stats.collisions = x.stats.collisions ∧ y.run = .held)) ∧
      (r.kind = .posted ∨ r.kind = .broadcast → ∀ i : SlotId, s.takesInto c i → ∃ u : State,
        exec (.snoopedRequest r) s = afterEvent (closeSlot i .unreplied u) ∧ u.slot i = taken ∧
          (u.chan c).stats.selected = x.stats.selected + 1 ∧ (u.chan c).bank = x.bank ∧ u.tb.time = s.tb.time ∧
          u.closeQueue = s.closeQueue ∧ u.path = s.path ∧ u.ring = s.ring ∧ u.dev = s.dev ∧
          ∀ j : SlotId, (s.slot j).isWatching = true → u.slot j = s.slot j)

/-- R58, R82, R83: row SNOOPED_REQUEST, a request that qualifies for no channel (as every reissue, and every request while
PAUSED). A reissue reopens a BOUNCED slot on its pair and leaves an OPEN one; a new request supersedes either, with an anomaly
if it was OPEN; without a slot on its pair it does nothing. Each is the whole next state. -/
def Obligations.UncountedRequestsOnlyMeetTheirPair : Prop :=
  ∀ (r : Request) (s : State), s.live = true → r.wf = true → s.snoops r → (∀ c : ChanId, ¬s.counts c r) →
    let a := s.arrived r.initiator
    (s.unwatched r.initiator r.tag → exec (.snoopedRequest r) s = afterEvent a) ∧
      ∀ i : SlotId, s.follows i r.initiator r.tag →
        (r.reissue = true → (s.slot i).state = .bounced →
            exec (.snoopedRequest r) s = afterEvent
              (a.setSlot i { s.slot i with state := .opened, reissued := true })) ∧
          (r.reissue = true → (s.slot i).state = .opened → exec (.snoopedRequest r) s = afterEvent a) ∧
          (r.reissue = false → (s.slot i).state = .bounced →
            exec (.snoopedRequest r) s = afterEvent (closeSlot i .superseded a)) ∧
          (r.reissue = false → (s.slot i).state = .opened →
            exec (.snoopedRequest r) s = afterEvent (closeSlot i .superseded
              ({ a with dev := { s.dev with anomalies := s.dev.anomalies + 1 } }.setSlot i
                { s.slot i with anomaly := true })))

/-- R5, R77, R79, R80, R81: rows FINAL_REPLY and SLOT_BOUNCE, for the OPEN slot on the pair. A final reply sets WAIT if absent and
TOTAL, and the slot closes: COMPLETED for DATA and DONE, with the anomaly of a reply that does not fit the kind, FAULTED for FAULT
with its code. A BOUNCE moves the slot to BOUNCED: WAIT is set if absent, the bounce count increases and stays at 15, and nothing
else changes. Each is the whole next state. -/
def Obligations.RepliesMoveTheOpenSlot : Prop :=
  (∀ (responder n : Node) (tag : Tag) (p : List Byte) (code : BitVec 4) (i : SlotId) (s : State), s.live = true →
       n ≠ s.ownId → s.follows i n tag → (s.slot i).state = .opened →
       let x : Slot := { s.slot i with wait := some ((s.slot i).wait.getD (s.slot i).age), total := some (s.slot i).age }
       let closed : Result := afterEvent (closeSlot i .completed (s.setSlot i x))
       let anomalous : Result := afterEvent (closeSlot i .completed
         ({ s with dev := { s.dev with anomalies := s.dev.anomalies + 1 } }.setSlot i { x with anomaly := true }))
       exec (.finalReply responder n tag (.data p)) s =
           (if x.kind = .read ∨ x.kind = .swap then closed else anomalous) ∧
         exec (.finalReply responder n tag .done) s = (if x.kind = .write then closed else anomalous) ∧
         (code ≠ 0 → exec (.finalReply responder n tag (.fault code)) s = afterEvent
           (closeSlot i .faulted (s.setSlot i { x with faultCode := some code })))) ∧
    ∀ (responder n : Node) (tag : Tag) (i : SlotId) (s : State), s.live = true → n ≠ s.ownId → s.follows i n tag →
      (s.slot i).state = .opened →
      exec (.slotBounce responder n tag) s = afterEvent (s.setSlot i
        { s.slot i with
          state := .bounced
          wait := some ((s.slot i).wait.getD (s.slot i).age)
          bounces := if (s.slot i).bounces = 15 then 15 else (s.slot i).bounces + 1 })

/-- R15, R16, R78: row STRAY_REPLY. A reply to another node that no slot awaits, or that meets a BOUNCED slot, and an own
reply for a tag 5 to 15 or for a write tag that is not outstanding, add 1 to STRAY_REPLIES and change nothing else. -/
def Obligations.StrayRepliesAreOnlyCounted : Prop :=
  ∀ (r : Reply) (s : State), s.live = true → r.wf = true →
    ((r.initiator ≠ s.ownId ∧ (s.unwatched r.initiator r.tag ∨
          ∃ i, s.follows i r.initiator r.tag ∧ (s.slot i).state = .bounced)) ∨
        (r.initiator = s.ownId ∧ (5 ≤ r.tag.val ∨ ∃ u : WTag, u.val = r.tag.val ∧
          (s.tag u).state ≠ .issued ∧ (s.tag u).state ≠ .orphaned))) →
    exec (.strayReply r) s = afterEvent { s with dev := { s.dev with strayReplies := s.dev.strayReplies + 1 } }

/-- R87, R95, R96, R97: closing. The outcome and close time are fixed; a record whose signature matches SIG_MATCH under
SIG_MASK and whose selected latency passes the threshold test becomes CLOSING, joins the close queue, and the output advances;
any other slot is FREE at once and counts in FILTERED. -/
def Obligations.ClosingQualifiesTheRecord : Prop :=
  ∀ (i : SlotId) (e : Ending) (s : State),
    let x : Slot := { s.slot i with outcome := some e, closeTime := some s.tb.time }
    let b := (s.chan x.channel).bank
    let latency := if b.sel = .wait then x.wait else x.total
    let passes := x.signature &&& b.sigMask = b.sigMatch &&& b.sigMask ∧
      (b.thresh = 0 ∨ ∃ l, latency = some l ∧
        (if b.inv then l.toNat < b.thresh.toNat else b.thresh.toNat ≤ l.toNat))
    (passes →
        closeSlot i e s = advance
          { s.setSlot i { x with state := .closing } with closeQueue := s.closeQueue ++ [i] }) ∧
      (¬passes →
        closeSlot i e s = drainTest ((s.setSlot i Slot.cleared).setChan x.channel
          { s.chan x.channel with
            stats :=
              { (s.chan x.channel).stats with filtered := (s.chan x.channel).stats.filtered + 1 } }))

/-! ### Records and the output path -/

/-- R93, R99, R100, R101, R102, R104: the signature, and the words of SAMPLE, MARKER and GAP records, whose exclusive-OR is
0. -/
def Obligations.RecordsAreLaidOutAndSealed : Prop :=
  (∀ x : Slot,
      (∀ e : Ending, x.signature.getLsbD e.code.toNat = decide (x.outcome = some e)) ∧
        (∀ k : ReqKind, x.signature.getLsbD (8 + (kindCode k).toNat) = decide (x.kind = k)) ∧
        x.signature.getLsbD 6 = decide (x.bounces ≠ 0) ∧ x.signature.getLsbD 7 = x.anomaly ∧
        x.signature.getLsbD 13 = decide (x.wait = some 65535 ∨ x.total = some 65535) ∧
        x.signature.getLsbD 14 = decide (64 < x.length) ∧ x.signature.getLsbD 15 = x.reissued) ∧
    (∀ (x : Slot) (i : SlotId) (seq : BitVec 16),
      let r := composeSample x i seq
      (r.w0.extractLsb' 0 4 = 1 ∧ r.w0.extractLsb' 4 2 = BitVec.ofNat 2 x.channel.val ∧
          r.w0.extractLsb' 6 3 = (x.outcome.map Ending.code).getD 0 ∧ r.w0.extractLsb' 9 3 = kindCode x.kind ∧
          r.w0.extractLsb' 12 4 = nodeBits x.initiator ∧ r.w0.extractLsb' 16 4 = (x.target.map nodeBits).getD 0 ∧
          r.w0.extractLsb' 20 4 = nodeBits x.tag ∧ r.w0.extractLsb' 24 4 = x.bounces ∧
          r.w0.getLsbD 28 = x.wait.isSome ∧ r.w0.getLsbD 29 = x.total.isSome ∧ r.w0.getLsbD 30 = x.anomaly ∧
          r.w0.getLsbD 31 = x.reissued) ∧
        (r.w1.extractLsb' 0 16 = seq ∧ r.w1.extractLsb' 16 4 = x.faultCode.getD 0 ∧
          r.w1.extractLsb' 20 6 = BitVec.ofNat 6 (x.length / 4 - 1) ∧ r.w1.extractLsb' 26 6 = 0) ∧
        r.w2 = x.address ∧ r.w3 = x.issueTime ∧ r.w4 = x.total.getD 0 ++ x.wait.getD 0 ∧ r.w5 = x.closeTime.getD 0 ∧
        (r.w6.extractLsb' 0 16 = x.signature ∧ r.w6.extractLsb' 16 3 = BitVec.ofNat 3 i.val ∧
          r.w6.extractLsb' 19 13 = 0) ∧
        r.w0 ^^^ r.w1 ^^^ r.w2 ^^^ r.w3 ^^^ r.w4 ^^^ r.w5 ^^^ r.w6 ^^^ r.w7 = 0) ∧
    (∀ (n : Node) (v time : Word) (seq : BitVec 16),
      let w0 : Word := 2 + 4096 * BitVec.ofNat 32 n.val
      composeMarker n v time seq =
        ⟨w0, seq.setWidth 32, v, time, 0, 0, 0, w0 ^^^ seq.setWidth 32 ^^^ v ^^^ time⟩) ∧
    ∀ (first : BitVec 16) (lost time : Word),
      composeGap first lost time =
        ⟨3, first.setWidth 32, lost, time, 0, 0, 0, 3 ^^^ first.setWidth 32 ^^^ lost ^^^ time⟩

/-- R65, R109, R117, R120, R122: rows CLOSE_QUEUE_ENTRY and RESULT_QUEUE_ENTRY, HELD entry and settling. With room in staging the close
queue's head joins it as a SAMPLE record with the next sequence number, its slot is FREE and DELIVERED counts it; then, under NOTIFY
EACH, a COUNTING channel is HELD, and an ARMED one loses its arming with one collision and is HELD. In queue mode with room, the head
of staging joins the result queue, settles visible, raises LEVEL at an upward crossing, and the drain test is made. Without room or
without a head nothing changes. A SAMPLE that settles lost sets its channel's LOSS, and either settling raises the channel's source
under NOTIFY EACH; other records settle nothing. That the two rows, commanded alone, run exactly these steps, with no alert check after
them, is the model's choice (log entry 3). -/
def Obligations.RecordsMoveDownTheOutputPath : Prop :=
  ((∀ s : State, s.live = true →
         (∀ (i : SlotId) (rest : List SlotId), s.closeQueue = i :: rest → s.path.staging.length < 8 →
           let c := (s.slot i).channel
           exec .closeQueueEntry s = .next (heldEntry c
             ((({ s with closeQueue := rest }.setPath
                 { s.path with
                   staging := s.path.staging ++ [composeSample (s.slot i) i s.path.seq]
                   seq := s.path.seq + 1 }).setSlot i Slot.cleared).setChan c
               { s.chan c with stats := { (s.chan c).stats with delivered := (s.chan c).stats.delivered + 1 } }))) ∧
           (s.closeQueue = [] ∨ 8 ≤ s.path.staging.length → exec .closeQueueEntry s = .next s)) ∧
       ∀ (c : ChanId) (s : State),
         ((s.chan c).bank.notify = .stream ∨ (s.chan c).run = .held ∨ (s.chan c).run = .disarmed → heldEntry c s = s) ∧
           ((s.chan c).bank.notify = .each → (s.chan c).run = .counting →
             heldEntry c s = s.setChan c { s.chan c with run := .held }) ∧
           ((s.chan c).bank.notify = .each → (s.chan c).run = .armed → ∀ i : SlotId, (s.slot i).state = .reserved →
             (s.slot i).channel = c → (∀ j : SlotId, j < i → ¬((s.slot j).state = .reserved ∧ (s.slot j).channel = c)) →
             heldEntry c s = (s.setSlot i Slot.cleared).setChan c
               { s.chan c with
                 run := .held
                 stats := { (s.chan c).stats with collisions := (s.chan c).stats.collisions + 1 } })) ∧
    (∀ s : State, s.live = true →
        (∀ (x : Record) (rest : List Record), s.path.staging = x :: rest → s.path.mode = .queue →
          s.path.results.length < 16 →
          let n := s.path.results.length
          let s1 := settle false x (s.setPath { s.path with staging := rest, results := s.path.results ++ [x] })
          exec .resultQueueEntry s = .next (drainTest
            (if n < s.path.threshold.toNat ∧ s.path.threshold.toNat ≤ n + 1 then s1.raise 6 else s1))) ∧
          (s.path.staging = [] ∨ s.path.mode = .ring ∨ 16 ≤ s.path.results.length →
            exec .resultQueueEntry s = .next s)) ∧
      ∀ (lost : Bool) (x : Record) (s : State),
        let c := x.channel
        let ch : Channel := { s.chan c with loss := (s.chan c).loss || lost }
        (x.w0.extractLsb' 0 4 ≠ 1 → settle lost x s = s) ∧
          (x.w0.extractLsb' 0 4 = 1 → (s.chan c).bank.notify = .stream → settle lost x s = s.setChan c ch) ∧
          (x.w0.extractLsb' 0 4 = 1 → (s.chan c).bank.notify = .each →
            settle lost x s = (s.setChan c ch).raise (srcChan c))

/-- R106, R110, R114: the output advance. At its end a close queue waits only for a full staging FIFO, and in queue mode
staging only for a full result queue; and in queue mode no record is lost, reordered or renumbered: the records already on the
path keep their order, one new record follows for each slot that left the close queue, from its head, and the sequence counter
counts them. -/
def Obligations.AdvanceMovesEverythingInOrder : Prop :=
  ∀ s : State,
    let t := advance s
    (t.closeQueue ≠ [] → 8 ≤ t.path.staging.length) ∧
      (s.path.mode = .queue → t.path.staging ≠ [] → 16 ≤ t.path.results.length) ∧
      (s.path.mode = .queue → ∃ (left : List SlotId) (new : List Record), s.closeQueue = left ++ t.closeQueue ∧
        new.length = left.length ∧
        t.path.results ++ t.path.staging = s.path.results ++ s.path.staging ++ new ∧
        t.path.seq = s.path.seq + BitVec.ofNat 16 left.length ∧
        ∀ k < new.length, (new.getD k Record.zero).seq = s.path.seq + BitVec.ofNat 16 k)

/-! ### The ring engine -/

/-- R130, R131, R132: rows ISSUE and GAP_ISSUE, on a RUNNING ring in ring mode with a record in staging. With space and a FREE
record tag the record goes out on the lowest one, to the position after the in-flight run; a pending loss goes out as a GAP
first; without space DROP counts the head as lost and STALL waits. ISSUE leaves a pending loss to GAP_ISSUE, and GAP_ISSUE does
nothing else; with staging empty, outside ring mode or with the ring not RUNNING neither does anything. Each is the whole next
state. RING_SIZE is one that R125 admits. That the rows, commanded alone, run exactly these steps, with no alert check after them, is
the model's choice (log entry 3). -/
def Obligations.IssueWritesGapsAndDrops : Prop :=
  (∀ s : State, s.live = true → s.path.staging = [] ∨ s.path.mode = .queue ∨ s.ring.state ≠ .running →
      exec .issue s = .next s ∧ exec .gapIssue s = .next s) ∧
  ∀ (x : Record) (rest : List Record) (s : State), s.live = true → s.path.mode = .ring → s.ring.state = .running →
    s.path.staging = x :: rest → ringSizeOk s.ring.n = true →
    let g := s.ring
    let k := recTags.countP fun u => (s.tag u).inFlight
    let space := g.fillInt + k < (g.size.toNat : Int)
    let position : BitVec 17 := BitVec.ofNat 17 ((g.producer.toNat + k) % (2 * g.size.toNat))
    let beat (u : WTag) (y : Record) : Beat := .request
      { initiator := s.ownId, target := some g.node, tag := Fin.ofNat 16 u.val, kind := .write, reissue := false
        address := g.base + BitVec.ofNat 32 (32 * (position.toNat % g.size.toNat)), length := 32, payload := y.bytes }
    let issued (y : Record) : WriteTag :=
      { WriteTag.cleared with state := .issued, record := y, position := position, dest := g.node }
    let gap := composeGap g.firstLost g.lostPending s.tb.time
    (∀ u : WTag, u < 4 → (s.tag u).state = .free → (∀ t : WTag, t < u → (s.tag t).state ≠ .free) → space →
        (g.lostPending = 0 →
            exec .issue s = .next
              (({ s with path := { s.path with staging := rest } }.setTag u (issued x)).emit (beat u x))) ∧
          (g.lostPending ≠ 0 →
            exec .gapIssue s = .next
              (({ s with ring := { g with lostPending := 0 } }.setTag u (issued gap)).emit (beat u gap)))) ∧
      ((∀ u : WTag, u < 4 → (s.tag u).state ≠ .free) → space →
        exec .issue s = .next s ∧ exec .gapIssue s = .next s) ∧
      (space → g.lostPending ≠ 0 → exec .issue s = .next s) ∧
      (¬space ∨ g.lostPending = 0 → exec .gapIssue s = .next s) ∧
      (¬space → g.policy = .stall → exec .issue s = .next s) ∧
      (¬space → g.policy = .drop →
        exec .issue s = .next (drainTest (settle true x
          { s with
            path := { s.path with staging := rest }
            ring :=
              { g with
                lostPending := if g.lostPending = 0xFFFFFFFF then 0xFFFFFFFF else g.lostPending + 1
                firstLost := if g.lostPending = 0 then x.seq else g.firstLost }
            dev := { s.dev with recordsLost := s.dev.recordsLost + 1 } })))

/-- R15, R133, R142: rows WRITE_DONE and COMMIT. DONE for an ISSUED record tag makes it DONE, DATA the same with an anomaly;
the commit run follows. The run does nothing unless the tag at PRODUCER is DONE; it advances PRODUCER over the DONE tags of the
run, modulo 2N; each commit frees the tag, settles its record and tests LEVEL, and the run goes on from there while the next tag is
DONE; at its end it considers the writeback, tests and advances. What the run does is said of a ring in the conditions of R126, with
a RING_SIZE that R125 admits. That row COMMIT, commanded alone, runs exactly this, with no alert
check after it, is the model's choice (log entry 3). -/
def Obligations.CommitAdvancesTheProducer : Prop :=
  ∀ (responder : Node) (u : Fin 4) (p : List Byte) (s : State), s.live = true →
    let g := s.ring
    let n := g.size.toNat
    let t : WTag := u.castLE (by decide)
    let doneAt (j : Nat) : Prop := ∃ v ∈ recTags, (s.tag v).state = .done ∧
      (s.tag v).position.toNat = (g.producer.toNat + j) % (2 * n)
    ((s.tag t).state = .issued →
        exec (.writeDone responder u .done) s = afterEvent (commitRun (s.setTag t { s.tag t with state := .done })) ∧
          exec (.writeDone responder u (.data p)) s = afterEvent
            (commitRun ({ s with dev := { s.dev with anomalies := s.dev.anomalies + 1 } }.setTag t
              { s.tag t with state := .done }))) ∧
      exec .commit s = .next (commitRun s) ∧
      (g.runOk → ringSizeOk g.n = true →
        (¬doneAt 0 → commitRun s = s) ∧
          (∀ j : Nat, (∀ m < j, doneAt m) → ¬doneAt j →
            (commitRun s).ring.producer = BitVec.ofNat 17 ((g.producer.toNat + j) % (2 * n))) ∧
          ((s.tag t).state = .done → (s.tag t).position = g.producer →
            let g1 : Ring :=
              { g.setTag t WriteTag.cleared with producer := BitVec.ofNat 17 ((g.producer.toNat + 1) % (2 * n)) }
            let s1 := settle false (s.tag t).record { s with ring := g1 }
            let s2 := if g.fillInt < g.threshold.toNat ∧ (g.threshold.toNat : Int) ≤ g.fillInt + 1
              then s1.raise 6 else s1
            (doneAt 1 → commitRun s = commitRun s2) ∧
              (¬doneAt 1 → commitRun s = advance (drainTest (stopTest (writebackIfDue s2))))))

/-- R134, R135, R138, R140, R141: rows WRITEBACK, WRITEBACK_DONE, WRITE_BOUNCE, REMOTE_FAULT and ORPHAN_REPLY. With WB_ADDR set, tag
4 FREE and the ring RUNNING or STOPPING, PRODUCER goes out on tag 4; else nothing. DONE, or DATA with an anomaly, for an ISSUED tag
4 frees it, and a newer PRODUCER goes out at once. A BOUNCE of an ISSUED tag puts it into BACKOFF with its count, the ninth faults
the ring; a FAULT faults the ring with its code; any reply frees an ORPHANED tag. Each is the whole next state. That row
WRITEBACK, commanded alone, makes exactly this decision, with no alert check after it, is the model's choice (log entry 3). -/
def Obligations.WritesAndTheirReplies : Prop :=
  (∀ (responder : Node) (p : List Byte) (s : State), s.live = true →
       let g := s.ring
       let due := g.wbAddr ≠ 0 ∧ (s.tag 4).state = .free ∧ (g.state = .running ∨ g.state = .stopping)
       (due → exec .writeback s = .next
           ((s.setTag 4 { WriteTag.cleared with state := .issued, value := g.producer, dest := g.node }).emit
             (.request
               { initiator := s.ownId, target := some g.node, tag := 4, kind := .write, reissue := false
                 address := g.wbAddr, length := 4, payload := wordBytes (g.producer.setWidth 32) }))) ∧
         (¬due → exec .writeback s = .next s) ∧
         ((s.tag 4).state = .issued →
           let after (s0 : State) : Result :=
             let s1 := s0.setTag 4 WriteTag.cleared
             afterEvent (drainTest (stopTest (if (s.tag 4).value = g.producer then s1 else writebackIfDue s1)))
           exec (.writebackDone responder .done) s = after s ∧
             exec (.writebackDone responder (.data p)) s = after
               { s with dev := { s.dev with anomalies := s.dev.anomalies + 1 } })) ∧
    ∀ (responder : Node) (u : WTag) (code : BitVec 4) (b : ReplyBody) (s : State), s.live = true →
      let x := s.tag u
      (x.state = .issued → x.bounces + 1 < 9 →
          exec (.writeBounce responder u) s = afterEvent
            (s.setTag u { x with state := .backoff, bounces := x.bounces + 1, backoff := s.ring.backoff })) ∧
        (x.state = .issued → 9 ≤ x.bounces + 1 →
          exec (.writeBounce responder u) s = afterEvent
            (ringFault .bounceLimit 0 (some u) (s.setTag u { x with bounces := x.bounces + 1 }))) ∧
        (x.state = .issued → code ≠ 0 →
          exec (.remoteFault responder u code) s = afterEvent (ringFault .remoteFault code (some u) s)) ∧
        (x.state = .orphaned → b.wf = true →
          exec (.orphanReply responder u b) s = afterEvent (drainTest (stopTest (s.setTag u WriteTag.cleared))))

/-- R122, R136, R137, R139: a ring fault. The ring is FAULTED with the cause recorded; the cause tag and the others become FREE or
ORPHANED; the records in flight join the pending loss and RECORDS_LOST; source 0 is pending; an EXECUTING RING_STOP or DRAIN
ends with RING_FAULTED; indexes, configuration and staging are as they were. Each voided SAMPLE record sets its channel's LOSS and,
under NOTIFY EACH, raises its channel's source. That a DRAIN ends with RING_FAULTED also where the fault frees the last tag with the
drain condition met is the model's reading of R136 and R164 (log entry 9), and so is LOSS for the cause BACKPLANE_RESET (log entry
18). -/
def Obligations.RingFaultDisposesOfTheWrites : Prop :=
  ∀ (cause : RingCause) (code : BitVec 4) (tag : Option WTag) (s : State),
    let g := s.ring
    let t := ringFault cause code tag s
    let lost := recTags.filter fun u => (s.tag u).inFlight
    let total := (lost.map fun u =>
      if (s.tag u).record.w0.extractLsb' 0 4 = 3 then (s.tag u).record.w2.toNat else 1).sum
    (t.ring =
        { g with
          state := .faulted, fault := t.ring.fault, tags := t.ring.tags
          lostPending := t.ring.lostPending, firstLost := t.ring.firstLost }) ∧
      t.ring.fault =
        { cause := some cause, isWriteback := decide (tag = some 4), remoteCode := code, tag := tag.getD 0
          position := match tag with
            | none => 0
            | some u => if u = 4 then 0 else (s.tag u).position } ∧
      (∀ u : WTag, (t.tag u).state =
        if cause = .targetGone ∨ cause = .backplaneReset then .free
        else if tag = some u then (if cause = .timeout then .orphaned else .free)
        else if (s.tag u).state = .issued ∨ (s.tag u).state = .orphaned then .orphaned else .free) ∧
      t.ring.lostPending.toNat = min (2 ^ 32 - 1) (g.lostPending.toNat + total) ∧
      (lost = [] → t.ring.firstLost = g.firstLost) ∧
      (∀ u ∈ lost, (s.tag u).position = g.producer → g.producer.toNat < 2 * g.n →
        (∀ v ∈ lost, v ≠ u → (s.tag v).position.toNat < 2 * g.n ∧ (s.tag v).position ≠ g.producer) →
        t.ring.firstLost = (s.tag u).record.seq) ∧
      t.dev =
        { s.dev with
          recordsLost := s.dev.recordsLost +
            BitVec.ofNat 32 (lost.countP fun u => decide ((s.tag u).record.w0.extractLsb' 0 4 ≠ 3)) } ∧
      has t.ints.ip 0 = true ∧
      (if s.cmd.phase = .executing ∧ (s.cmd.code = Command.ringStop.code ∨ s.cmd.code = Command.drain.code) then
        t.cmd.phase = .result ∧ t.cmd.lastStatus = 7 ∧ t.cmd.lastCode = s.cmd.code ∧
          t.cmd.results = [statusWord .ringFaulted s.cmd.code 0]
       else t.cmd = s.cmd) ∧
      t.path = s.path ∧ t.slots = s.slots ∧ t.closeQueue = s.closeQueue ∧ t.tb = s.tb ∧ t.owner = s.owner ∧
      t.outbox = s.outbox ∧
      (∀ c : ChanId, t.chan c =
        { s.chan c with loss := (s.chan c).loss || decide (s.samplesInFlight c ≠ 0) }) ∧
      Ints.afterEvents s.ints t.ints fun k =>
        (if k = 0 then 1 else 0) + s.lostEvents k +
          (if k = 1 ∧ s.cmd.phase = .executing ∧
            (s.cmd.code = Command.ringStop.code ∨ s.cmd.code = Command.drain.code) then 1 else 0)

/-- R145, R162, R163, R164: rows RING_STOP_COMPLETE and DRAIN_COMPLETE. A STOPPING ring with every tag FREE is IDLE, and an
EXECUTING RING_STOP ends with PRODUCER; an EXECUTING DRAIN whose condition holds ends with OK; else nothing changes. Each is the
whole next state. That the rows, commanded alone, run exactly these tests, with no alert check after them, is the model's choice (log
entry 3). -/
def Obligations.StopAndDrainComplete : Prop :=
  ∀ s : State, s.live = true →
    let free := ∀ u : WTag, (s.tag u).state = .free
    let met := (∀ i : SlotId, (s.slot i).state = .free ∨ (s.slot i).state = .reserved) ∧ s.path.staging = [] ∧
      (s.path.mode = .ring → free)
    (s.ring.state = .stopping → free →
        exec .ringStopComplete s = .next
          (if s.cmd.phase = .executing ∧ s.cmd.code = 0x41 then
            endWith .ok 0 [s.ring.producer.setWidth 32] { s with ring := { s.ring with state := .idle } }
           else { s with ring := { s.ring with state := .idle } })) ∧
      (¬(s.ring.state = .stopping ∧ free) → exec .ringStopComplete s = .next s) ∧
      exec .drainComplete s = .next
        (if (s.cmd.phase = .executing ∧ s.cmd.code = 0x42) ∧ met then endWith .ok 0 [] s else s)
end

