-- ==== Sys2Proof/Laws/State.lean ====
section
/-! SUPPORT. One lemma per field per update of State, and what the reads of a slot, a channel and a write tag give after each
update. -/

namespace Sys2Proof.Machine

variable (s : State)

/-! ### State.setSlot -/

@[simp] theorem State.setSlot_pins (i : SlotId) (x : Slot) : (s.setSlot i x).pins = s.pins := rfl
@[simp] theorem State.setSlot_ownId (i : SlotId) (x : Slot) : (s.setSlot i x).ownId = s.ownId := rfl
@[simp] theorem State.setSlot_present (i : SlotId) (x : Slot) : (s.setSlot i x).present = s.present := rfl
@[simp] theorem State.setSlot_outbox (i : SlotId) (x : Slot) : (s.setSlot i x).outbox = s.outbox := rfl
@[simp] theorem State.setSlot_owner (i : SlotId) (x : Slot) : (s.setSlot i x).owner = s.owner := rfl
@[simp] theorem State.setSlot_bank (i : SlotId) (x : Slot) : (s.setSlot i x).bank = s.bank := rfl
@[simp] theorem State.setSlot_dev (i : SlotId) (x : Slot) : (s.setSlot i x).dev = s.dev := rfl
@[simp] theorem State.setSlot_tb (i : SlotId) (x : Slot) : (s.setSlot i x).tb = s.tb := rfl
@[simp] theorem State.setSlot_chans (i : SlotId) (x : Slot) : (s.setSlot i x).chans = s.chans := rfl
@[simp] theorem State.setSlot_slots (i : SlotId) (x : Slot) : (s.setSlot i x).slots = s.slots.set i.val x i.isLt := rfl
@[simp] theorem State.setSlot_closeQueue (i : SlotId) (x : Slot) : (s.setSlot i x).closeQueue = s.closeQueue := rfl
@[simp] theorem State.setSlot_watchLimit (i : SlotId) (x : Slot) : (s.setSlot i x).watchLimit = s.watchLimit := rfl
@[simp] theorem State.setSlot_path (i : SlotId) (x : Slot) : (s.setSlot i x).path = s.path := rfl
@[simp] theorem State.setSlot_ring (i : SlotId) (x : Slot) : (s.setSlot i x).ring = s.ring := rfl
@[simp] theorem State.setSlot_cmd (i : SlotId) (x : Slot) : (s.setSlot i x).cmd = s.cmd := rfl
@[simp] theorem State.setSlot_ints (i : SlotId) (x : Slot) : (s.setSlot i x).ints = s.ints := rfl
@[simp] theorem State.setSlot_pending (i : SlotId) (x : Slot) : (s.setSlot i x).pending = s.pending := rfl
@[simp] theorem State.setSlot_live (i : SlotId) (x : Slot) : (s.setSlot i x).live = s.live := rfl
@[simp] theorem State.setSlot_chan (i : SlotId) (x : Slot) (d : ChanId) : (s.setSlot i x).chan d = s.chan d := rfl
@[simp] theorem State.setSlot_tag (i : SlotId) (x : Slot) (t : WTag) : (s.setSlot i x).tag t = s.tag t := rfl

/-! ### State.setChan -/

@[simp] theorem State.setChan_pins (c : ChanId) (x : Channel) : (s.setChan c x).pins = s.pins := rfl
@[simp] theorem State.setChan_ownId (c : ChanId) (x : Channel) : (s.setChan c x).ownId = s.ownId := rfl
@[simp] theorem State.setChan_present (c : ChanId) (x : Channel) : (s.setChan c x).present = s.present := rfl
@[simp] theorem State.setChan_outbox (c : ChanId) (x : Channel) : (s.setChan c x).outbox = s.outbox := rfl
@[simp] theorem State.setChan_owner (c : ChanId) (x : Channel) : (s.setChan c x).owner = s.owner := rfl
@[simp] theorem State.setChan_bank (c : ChanId) (x : Channel) : (s.setChan c x).bank = s.bank := rfl
@[simp] theorem State.setChan_dev (c : ChanId) (x : Channel) : (s.setChan c x).dev = s.dev := rfl
@[simp] theorem State.setChan_tb (c : ChanId) (x : Channel) : (s.setChan c x).tb = s.tb := rfl
@[simp] theorem State.setChan_chans (c : ChanId) (x : Channel) : (s.setChan c x).chans = s.chans.set c.val x c.isLt := rfl
@[simp] theorem State.setChan_slots (c : ChanId) (x : Channel) : (s.setChan c x).slots = s.slots := rfl
@[simp] theorem State.setChan_closeQueue (c : ChanId) (x : Channel) : (s.setChan c x).closeQueue = s.closeQueue := rfl
@[simp] theorem State.setChan_watchLimit (c : ChanId) (x : Channel) : (s.setChan c x).watchLimit = s.watchLimit := rfl
@[simp] theorem State.setChan_path (c : ChanId) (x : Channel) : (s.setChan c x).path = s.path := rfl
@[simp] theorem State.setChan_ring (c : ChanId) (x : Channel) : (s.setChan c x).ring = s.ring := rfl
@[simp] theorem State.setChan_cmd (c : ChanId) (x : Channel) : (s.setChan c x).cmd = s.cmd := rfl
@[simp] theorem State.setChan_ints (c : ChanId) (x : Channel) : (s.setChan c x).ints = s.ints := rfl
@[simp] theorem State.setChan_pending (c : ChanId) (x : Channel) : (s.setChan c x).pending = s.pending := rfl
@[simp] theorem State.setChan_live (c : ChanId) (x : Channel) : (s.setChan c x).live = s.live := rfl
@[simp] theorem State.setChan_slot (c : ChanId) (x : Channel) (j : SlotId) : (s.setChan c x).slot j = s.slot j := rfl
@[simp] theorem State.setChan_owned (c : ChanId) (x : Channel) (d : ChanId) : (s.setChan c x).owned d = s.owned d := rfl
@[simp] theorem State.setChan_watching (c : ChanId) (x : Channel) (d : ChanId) : (s.setChan c x).watching d = s.watching d := rfl
@[simp] theorem State.setChan_tag (c : ChanId) (x : Channel) (t : WTag) : (s.setChan c x).tag t = s.tag t := rfl

/-! ### State.setTag -/

@[simp] theorem State.setTag_pins (u : WTag) (x : WriteTag) : (s.setTag u x).pins = s.pins := rfl
@[simp] theorem State.setTag_ownId (u : WTag) (x : WriteTag) : (s.setTag u x).ownId = s.ownId := rfl
@[simp] theorem State.setTag_present (u : WTag) (x : WriteTag) : (s.setTag u x).present = s.present := rfl
@[simp] theorem State.setTag_outbox (u : WTag) (x : WriteTag) : (s.setTag u x).outbox = s.outbox := rfl
@[simp] theorem State.setTag_owner (u : WTag) (x : WriteTag) : (s.setTag u x).owner = s.owner := rfl
@[simp] theorem State.setTag_bank (u : WTag) (x : WriteTag) : (s.setTag u x).bank = s.bank := rfl
@[simp] theorem State.setTag_dev (u : WTag) (x : WriteTag) : (s.setTag u x).dev = s.dev := rfl
@[simp] theorem State.setTag_tb (u : WTag) (x : WriteTag) : (s.setTag u x).tb = s.tb := rfl
@[simp] theorem State.setTag_chans (u : WTag) (x : WriteTag) : (s.setTag u x).chans = s.chans := rfl
@[simp] theorem State.setTag_slots (u : WTag) (x : WriteTag) : (s.setTag u x).slots = s.slots := rfl
@[simp] theorem State.setTag_closeQueue (u : WTag) (x : WriteTag) : (s.setTag u x).closeQueue = s.closeQueue := rfl
@[simp] theorem State.setTag_watchLimit (u : WTag) (x : WriteTag) : (s.setTag u x).watchLimit = s.watchLimit := rfl
@[simp] theorem State.setTag_path (u : WTag) (x : WriteTag) : (s.setTag u x).path = s.path := rfl
@[simp] theorem State.setTag_ring (u : WTag) (x : WriteTag) : (s.setTag u x).ring = s.ring.setTag u x := rfl
@[simp] theorem State.setTag_cmd (u : WTag) (x : WriteTag) : (s.setTag u x).cmd = s.cmd := rfl
@[simp] theorem State.setTag_ints (u : WTag) (x : WriteTag) : (s.setTag u x).ints = s.ints := rfl
@[simp] theorem State.setTag_pending (u : WTag) (x : WriteTag) : (s.setTag u x).pending = s.pending := rfl
@[simp] theorem State.setTag_live (u : WTag) (x : WriteTag) : (s.setTag u x).live = s.live := rfl
@[simp] theorem State.setTag_slot (u : WTag) (x : WriteTag) (j : SlotId) : (s.setTag u x).slot j = s.slot j := rfl
@[simp] theorem State.setTag_owned (u : WTag) (x : WriteTag) (d : ChanId) : (s.setTag u x).owned d = s.owned d := rfl
@[simp] theorem State.setTag_watching (u : WTag) (x : WriteTag) (d : ChanId) : (s.setTag u x).watching d = s.watching d := rfl
@[simp] theorem State.setTag_chan (u : WTag) (x : WriteTag) (d : ChanId) : (s.setTag u x).chan d = s.chan d := rfl

/-! ### State.setCloseQueue -/

@[simp] theorem State.setCloseQueue_pins (q : List SlotId) : (s.setCloseQueue q).pins = s.pins := rfl
@[simp] theorem State.setCloseQueue_ownId (q : List SlotId) : (s.setCloseQueue q).ownId = s.ownId := rfl
@[simp] theorem State.setCloseQueue_present (q : List SlotId) : (s.setCloseQueue q).present = s.present := rfl
@[simp] theorem State.setCloseQueue_outbox (q : List SlotId) : (s.setCloseQueue q).outbox = s.outbox := rfl
@[simp] theorem State.setCloseQueue_owner (q : List SlotId) : (s.setCloseQueue q).owner = s.owner := rfl
@[simp] theorem State.setCloseQueue_bank (q : List SlotId) : (s.setCloseQueue q).bank = s.bank := rfl
@[simp] theorem State.setCloseQueue_dev (q : List SlotId) : (s.setCloseQueue q).dev = s.dev := rfl
@[simp] theorem State.setCloseQueue_tb (q : List SlotId) : (s.setCloseQueue q).tb = s.tb := rfl
@[simp] theorem State.setCloseQueue_chans (q : List SlotId) : (s.setCloseQueue q).chans = s.chans := rfl
@[simp] theorem State.setCloseQueue_slots (q : List SlotId) : (s.setCloseQueue q).slots = s.slots := rfl
@[simp] theorem State.setCloseQueue_closeQueue (q : List SlotId) : (s.setCloseQueue q).closeQueue = q := rfl
@[simp] theorem State.setCloseQueue_watchLimit (q : List SlotId) : (s.setCloseQueue q).watchLimit = s.watchLimit := rfl
@[simp] theorem State.setCloseQueue_path (q : List SlotId) : (s.setCloseQueue q).path = s.path := rfl
@[simp] theorem State.setCloseQueue_ring (q : List SlotId) : (s.setCloseQueue q).ring = s.ring := rfl
@[simp] theorem State.setCloseQueue_cmd (q : List SlotId) : (s.setCloseQueue q).cmd = s.cmd := rfl
@[simp] theorem State.setCloseQueue_ints (q : List SlotId) : (s.setCloseQueue q).ints = s.ints := rfl
@[simp] theorem State.setCloseQueue_pending (q : List SlotId) : (s.setCloseQueue q).pending = s.pending := rfl
@[simp] theorem State.setCloseQueue_live (q : List SlotId) : (s.setCloseQueue q).live = s.live := rfl
@[simp] theorem State.setCloseQueue_slot (q : List SlotId) (j : SlotId) : (s.setCloseQueue q).slot j = s.slot j := rfl
@[simp] theorem State.setCloseQueue_owned (q : List SlotId) (d : ChanId) : (s.setCloseQueue q).owned d = s.owned d := rfl
@[simp] theorem State.setCloseQueue_watching (q : List SlotId) (d : ChanId) : (s.setCloseQueue q).watching d = s.watching d := rfl
@[simp] theorem State.setCloseQueue_chan (q : List SlotId) (d : ChanId) : (s.setCloseQueue q).chan d = s.chan d := rfl
@[simp] theorem State.setCloseQueue_tag (q : List SlotId) (t : WTag) : (s.setCloseQueue q).tag t = s.tag t := rfl

/-! ### State.setPath -/

@[simp] theorem State.setPath_pins (p : Path) : (s.setPath p).pins = s.pins := rfl
@[simp] theorem State.setPath_ownId (p : Path) : (s.setPath p).ownId = s.ownId := rfl
@[simp] theorem State.setPath_present (p : Path) : (s.setPath p).present = s.present := rfl
@[simp] theorem State.setPath_outbox (p : Path) : (s.setPath p).outbox = s.outbox := rfl
@[simp] theorem State.setPath_owner (p : Path) : (s.setPath p).owner = s.owner := rfl
@[simp] theorem State.setPath_bank (p : Path) : (s.setPath p).bank = s.bank := rfl
@[simp] theorem State.setPath_dev (p : Path) : (s.setPath p).dev = s.dev := rfl
@[simp] theorem State.setPath_tb (p : Path) : (s.setPath p).tb = s.tb := rfl
@[simp] theorem State.setPath_chans (p : Path) : (s.setPath p).chans = s.chans := rfl
@[simp] theorem State.setPath_slots (p : Path) : (s.setPath p).slots = s.slots := rfl
@[simp] theorem State.setPath_closeQueue (p : Path) : (s.setPath p).closeQueue = s.closeQueue := rfl
@[simp] theorem State.setPath_watchLimit (p : Path) : (s.setPath p).watchLimit = s.watchLimit := rfl
@[simp] theorem State.setPath_path (p : Path) : (s.setPath p).path = p := rfl
@[simp] theorem State.setPath_ring (p : Path) : (s.setPath p).ring = s.ring := rfl
@[simp] theorem State.setPath_cmd (p : Path) : (s.setPath p).cmd = s.cmd := rfl
@[simp] theorem State.setPath_ints (p : Path) : (s.setPath p).ints = s.ints := rfl
@[simp] theorem State.setPath_pending (p : Path) : (s.setPath p).pending = s.pending := rfl
@[simp] theorem State.setPath_live (p : Path) : (s.setPath p).live = s.live := rfl
@[simp] theorem State.setPath_slot (p : Path) (j : SlotId) : (s.setPath p).slot j = s.slot j := rfl
@[simp] theorem State.setPath_owned (p : Path) (d : ChanId) : (s.setPath p).owned d = s.owned d := rfl
@[simp] theorem State.setPath_watching (p : Path) (d : ChanId) : (s.setPath p).watching d = s.watching d := rfl
@[simp] theorem State.setPath_chan (p : Path) (d : ChanId) : (s.setPath p).chan d = s.chan d := rfl
@[simp] theorem State.setPath_tag (p : Path) (t : WTag) : (s.setPath p).tag t = s.tag t := rfl

/-! ### State.setRing -/

@[simp] theorem State.setRing_pins (g : Ring) : (s.setRing g).pins = s.pins := rfl
@[simp] theorem State.setRing_ownId (g : Ring) : (s.setRing g).ownId = s.ownId := rfl
@[simp] theorem State.setRing_present (g : Ring) : (s.setRing g).present = s.present := rfl
@[simp] theorem State.setRing_outbox (g : Ring) : (s.setRing g).outbox = s.outbox := rfl
@[simp] theorem State.setRing_owner (g : Ring) : (s.setRing g).owner = s.owner := rfl
@[simp] theorem State.setRing_bank (g : Ring) : (s.setRing g).bank = s.bank := rfl
@[simp] theorem State.setRing_dev (g : Ring) : (s.setRing g).dev = s.dev := rfl
@[simp] theorem State.setRing_tb (g : Ring) : (s.setRing g).tb = s.tb := rfl
@[simp] theorem State.setRing_chans (g : Ring) : (s.setRing g).chans = s.chans := rfl
@[simp] theorem State.setRing_slots (g : Ring) : (s.setRing g).slots = s.slots := rfl
@[simp] theorem State.setRing_closeQueue (g : Ring) : (s.setRing g).closeQueue = s.closeQueue := rfl
@[simp] theorem State.setRing_watchLimit (g : Ring) : (s.setRing g).watchLimit = s.watchLimit := rfl
@[simp] theorem State.setRing_path (g : Ring) : (s.setRing g).path = s.path := rfl
@[simp] theorem State.setRing_ring (g : Ring) : (s.setRing g).ring = g := rfl
@[simp] theorem State.setRing_cmd (g : Ring) : (s.setRing g).cmd = s.cmd := rfl
@[simp] theorem State.setRing_ints (g : Ring) : (s.setRing g).ints = s.ints := rfl
@[simp] theorem State.setRing_pending (g : Ring) : (s.setRing g).pending = s.pending := rfl
@[simp] theorem State.setRing_live (g : Ring) : (s.setRing g).live = s.live := rfl
@[simp] theorem State.setRing_slot (g : Ring) (j : SlotId) : (s.setRing g).slot j = s.slot j := rfl
@[simp] theorem State.setRing_owned (g : Ring) (d : ChanId) : (s.setRing g).owned d = s.owned d := rfl
@[simp] theorem State.setRing_watching (g : Ring) (d : ChanId) : (s.setRing g).watching d = s.watching d := rfl
@[simp] theorem State.setRing_chan (g : Ring) (d : ChanId) : (s.setRing g).chan d = s.chan d := rfl

/-! ### State.setCmd -/

@[simp] theorem State.setCmd_pins (p : Processor) : (s.setCmd p).pins = s.pins := rfl
@[simp] theorem State.setCmd_ownId (p : Processor) : (s.setCmd p).ownId = s.ownId := rfl
@[simp] theorem State.setCmd_present (p : Processor) : (s.setCmd p).present = s.present := rfl
@[simp] theorem State.setCmd_outbox (p : Processor) : (s.setCmd p).outbox = s.outbox := rfl
@[simp] theorem State.setCmd_owner (p : Processor) : (s.setCmd p).owner = s.owner := rfl
@[simp] theorem State.setCmd_bank (p : Processor) : (s.setCmd p).bank = s.bank := rfl
@[simp] theorem State.setCmd_dev (p : Processor) : (s.setCmd p).dev = s.dev := rfl
@[simp] theorem State.setCmd_tb (p : Processor) : (s.setCmd p).tb = s.tb := rfl
@[simp] theorem State.setCmd_chans (p : Processor) : (s.setCmd p).chans = s.chans := rfl
@[simp] theorem State.setCmd_slots (p : Processor) : (s.setCmd p).slots = s.slots := rfl
@[simp] theorem State.setCmd_closeQueue (p : Processor) : (s.setCmd p).closeQueue = s.closeQueue := rfl
@[simp] theorem State.setCmd_watchLimit (p : Processor) : (s.setCmd p).watchLimit = s.watchLimit := rfl
@[simp] theorem State.setCmd_path (p : Processor) : (s.setCmd p).path = s.path := rfl
@[simp] theorem State.setCmd_ring (p : Processor) : (s.setCmd p).ring = s.ring := rfl
@[simp] theorem State.setCmd_cmd (p : Processor) : (s.setCmd p).cmd = p := rfl
@[simp] theorem State.setCmd_ints (p : Processor) : (s.setCmd p).ints = s.ints := rfl
@[simp] theorem State.setCmd_pending (p : Processor) : (s.setCmd p).pending = s.pending := rfl
@[simp] theorem State.setCmd_live (p : Processor) : (s.setCmd p).live = s.live := rfl
@[simp] theorem State.setCmd_slot (p : Processor) (j : SlotId) : (s.setCmd p).slot j = s.slot j := rfl
@[simp] theorem State.setCmd_owned (p : Processor) (d : ChanId) : (s.setCmd p).owned d = s.owned d := rfl
@[simp] theorem State.setCmd_watching (p : Processor) (d : ChanId) : (s.setCmd p).watching d = s.watching d := rfl
@[simp] theorem State.setCmd_chan (p : Processor) (d : ChanId) : (s.setCmd p).chan d = s.chan d := rfl
@[simp] theorem State.setCmd_tag (p : Processor) (t : WTag) : (s.setCmd p).tag t = s.tag t := rfl

/-! ### State.setInts -/

@[simp] theorem State.setInts_pins (x : Ints) : (s.setInts x).pins = s.pins := rfl
@[simp] theorem State.setInts_ownId (x : Ints) : (s.setInts x).ownId = s.ownId := rfl
@[simp] theorem State.setInts_present (x : Ints) : (s.setInts x).present = s.present := rfl
@[simp] theorem State.setInts_outbox (x : Ints) : (s.setInts x).outbox = s.outbox := rfl
@[simp] theorem State.setInts_owner (x : Ints) : (s.setInts x).owner = s.owner := rfl
@[simp] theorem State.setInts_bank (x : Ints) : (s.setInts x).bank = s.bank := rfl
@[simp] theorem State.setInts_dev (x : Ints) : (s.setInts x).dev = s.dev := rfl
@[simp] theorem State.setInts_tb (x : Ints) : (s.setInts x).tb = s.tb := rfl
@[simp] theorem State.setInts_chans (x : Ints) : (s.setInts x).chans = s.chans := rfl
@[simp] theorem State.setInts_slots (x : Ints) : (s.setInts x).slots = s.slots := rfl
@[simp] theorem State.setInts_closeQueue (x : Ints) : (s.setInts x).closeQueue = s.closeQueue := rfl
@[simp] theorem State.setInts_watchLimit (x : Ints) : (s.setInts x).watchLimit = s.watchLimit := rfl
@[simp] theorem State.setInts_path (x : Ints) : (s.setInts x).path = s.path := rfl
@[simp] theorem State.setInts_ring (x : Ints) : (s.setInts x).ring = s.ring := rfl
@[simp] theorem State.setInts_cmd (x : Ints) : (s.setInts x).cmd = s.cmd := rfl
@[simp] theorem State.setInts_ints (x : Ints) : (s.setInts x).ints = x := rfl
@[simp] theorem State.setInts_pending (x : Ints) : (s.setInts x).pending = s.pending := rfl
@[simp] theorem State.setInts_live (x : Ints) : (s.setInts x).live = s.live := rfl
@[simp] theorem State.setInts_slot (x : Ints) (j : SlotId) : (s.setInts x).slot j = s.slot j := rfl
@[simp] theorem State.setInts_owned (x : Ints) (d : ChanId) : (s.setInts x).owned d = s.owned d := rfl
@[simp] theorem State.setInts_watching (x : Ints) (d : ChanId) : (s.setInts x).watching d = s.watching d := rfl
@[simp] theorem State.setInts_chan (x : Ints) (d : ChanId) : (s.setInts x).chan d = s.chan d := rfl
@[simp] theorem State.setInts_tag (x : Ints) (t : WTag) : (s.setInts x).tag t = s.tag t := rfl

/-! ### State.setTb -/

@[simp] theorem State.setTb_pins (b : Timebase) : (s.setTb b).pins = s.pins := rfl
@[simp] theorem State.setTb_ownId (b : Timebase) : (s.setTb b).ownId = s.ownId := rfl
@[simp] theorem State.setTb_present (b : Timebase) : (s.setTb b).present = s.present := rfl
@[simp] theorem State.setTb_outbox (b : Timebase) : (s.setTb b).outbox = s.outbox := rfl
@[simp] theorem State.setTb_owner (b : Timebase) : (s.setTb b).owner = s.owner := rfl
@[simp] theorem State.setTb_bank (b : Timebase) : (s.setTb b).bank = s.bank := rfl
@[simp] theorem State.setTb_dev (b : Timebase) : (s.setTb b).dev = s.dev := rfl
@[simp] theorem State.setTb_tb (b : Timebase) : (s.setTb b).tb = b := rfl
@[simp] theorem State.setTb_chans (b : Timebase) : (s.setTb b).chans = s.chans := rfl
@[simp] theorem State.setTb_slots (b : Timebase) : (s.setTb b).slots = s.slots := rfl
@[simp] theorem State.setTb_closeQueue (b : Timebase) : (s.setTb b).closeQueue = s.closeQueue := rfl
@[simp] theorem State.setTb_watchLimit (b : Timebase) : (s.setTb b).watchLimit = s.watchLimit := rfl
@[simp] theorem State.setTb_path (b : Timebase) : (s.setTb b).path = s.path := rfl
@[simp] theorem State.setTb_ring (b : Timebase) : (s.setTb b).ring = s.ring := rfl
@[simp] theorem State.setTb_cmd (b : Timebase) : (s.setTb b).cmd = s.cmd := rfl
@[simp] theorem State.setTb_ints (b : Timebase) : (s.setTb b).ints = s.ints := rfl
@[simp] theorem State.setTb_pending (b : Timebase) : (s.setTb b).pending = s.pending := rfl
@[simp] theorem State.setTb_live (b : Timebase) : (s.setTb b).live = s.live := rfl
@[simp] theorem State.setTb_slot (b : Timebase) (j : SlotId) : (s.setTb b).slot j = s.slot j := rfl
@[simp] theorem State.setTb_owned (b : Timebase) (d : ChanId) : (s.setTb b).owned d = s.owned d := rfl
@[simp] theorem State.setTb_watching (b : Timebase) (d : ChanId) : (s.setTb b).watching d = s.watching d := rfl
@[simp] theorem State.setTb_chan (b : Timebase) (d : ChanId) : (s.setTb b).chan d = s.chan d := rfl
@[simp] theorem State.setTb_tag (b : Timebase) (t : WTag) : (s.setTb b).tag t = s.tag t := rfl

/-! ### State.setDev -/

@[simp] theorem State.setDev_pins (v : DevStats) : (s.setDev v).pins = s.pins := rfl
@[simp] theorem State.setDev_ownId (v : DevStats) : (s.setDev v).ownId = s.ownId := rfl
@[simp] theorem State.setDev_present (v : DevStats) : (s.setDev v).present = s.present := rfl
@[simp] theorem State.setDev_outbox (v : DevStats) : (s.setDev v).outbox = s.outbox := rfl
@[simp] theorem State.setDev_owner (v : DevStats) : (s.setDev v).owner = s.owner := rfl
@[simp] theorem State.setDev_bank (v : DevStats) : (s.setDev v).bank = s.bank := rfl
@[simp] theorem State.setDev_dev (v : DevStats) : (s.setDev v).dev = v := rfl
@[simp] theorem State.setDev_tb (v : DevStats) : (s.setDev v).tb = s.tb := rfl
@[simp] theorem State.setDev_chans (v : DevStats) : (s.setDev v).chans = s.chans := rfl
@[simp] theorem State.setDev_slots (v : DevStats) : (s.setDev v).slots = s.slots := rfl
@[simp] theorem State.setDev_closeQueue (v : DevStats) : (s.setDev v).closeQueue = s.closeQueue := rfl
@[simp] theorem State.setDev_watchLimit (v : DevStats) : (s.setDev v).watchLimit = s.watchLimit := rfl
@[simp] theorem State.setDev_path (v : DevStats) : (s.setDev v).path = s.path := rfl
@[simp] theorem State.setDev_ring (v : DevStats) : (s.setDev v).ring = s.ring := rfl
@[simp] theorem State.setDev_cmd (v : DevStats) : (s.setDev v).cmd = s.cmd := rfl
@[simp] theorem State.setDev_ints (v : DevStats) : (s.setDev v).ints = s.ints := rfl
@[simp] theorem State.setDev_pending (v : DevStats) : (s.setDev v).pending = s.pending := rfl
@[simp] theorem State.setDev_live (v : DevStats) : (s.setDev v).live = s.live := rfl
@[simp] theorem State.setDev_slot (v : DevStats) (j : SlotId) : (s.setDev v).slot j = s.slot j := rfl
@[simp] theorem State.setDev_owned (v : DevStats) (d : ChanId) : (s.setDev v).owned d = s.owned d := rfl
@[simp] theorem State.setDev_watching (v : DevStats) (d : ChanId) : (s.setDev v).watching d = s.watching d := rfl
@[simp] theorem State.setDev_chan (v : DevStats) (d : ChanId) : (s.setDev v).chan d = s.chan d := rfl
@[simp] theorem State.setDev_tag (v : DevStats) (t : WTag) : (s.setDev v).tag t = s.tag t := rfl

/-! ### State.setOwner -/

@[simp] theorem State.setOwner_pins (o : Option Node) : (s.setOwner o).pins = s.pins := rfl
@[simp] theorem State.setOwner_ownId (o : Option Node) : (s.setOwner o).ownId = s.ownId := rfl
@[simp] theorem State.setOwner_present (o : Option Node) : (s.setOwner o).present = s.present := rfl
@[simp] theorem State.setOwner_outbox (o : Option Node) : (s.setOwner o).outbox = s.outbox := rfl
@[simp] theorem State.setOwner_owner (o : Option Node) : (s.setOwner o).owner = o := rfl
@[simp] theorem State.setOwner_bank (o : Option Node) : (s.setOwner o).bank = s.bank := rfl
@[simp] theorem State.setOwner_dev (o : Option Node) : (s.setOwner o).dev = s.dev := rfl
@[simp] theorem State.setOwner_tb (o : Option Node) : (s.setOwner o).tb = s.tb := rfl
@[simp] theorem State.setOwner_chans (o : Option Node) : (s.setOwner o).chans = s.chans := rfl
@[simp] theorem State.setOwner_slots (o : Option Node) : (s.setOwner o).slots = s.slots := rfl
@[simp] theorem State.setOwner_closeQueue (o : Option Node) : (s.setOwner o).closeQueue = s.closeQueue := rfl
@[simp] theorem State.setOwner_watchLimit (o : Option Node) : (s.setOwner o).watchLimit = s.watchLimit := rfl
@[simp] theorem State.setOwner_path (o : Option Node) : (s.setOwner o).path = s.path := rfl
@[simp] theorem State.setOwner_ring (o : Option Node) : (s.setOwner o).ring = s.ring := rfl
@[simp] theorem State.setOwner_cmd (o : Option Node) : (s.setOwner o).cmd = s.cmd := rfl
@[simp] theorem State.setOwner_ints (o : Option Node) : (s.setOwner o).ints = s.ints := rfl
@[simp] theorem State.setOwner_pending (o : Option Node) : (s.setOwner o).pending = s.pending := rfl
@[simp] theorem State.setOwner_live (o : Option Node) : (s.setOwner o).live = s.live := rfl
@[simp] theorem State.setOwner_slot (o : Option Node) (j : SlotId) : (s.setOwner o).slot j = s.slot j := rfl
@[simp] theorem State.setOwner_owned (o : Option Node) (d : ChanId) : (s.setOwner o).owned d = s.owned d := rfl
@[simp] theorem State.setOwner_watching (o : Option Node) (d : ChanId) : (s.setOwner o).watching d = s.watching d := rfl
@[simp] theorem State.setOwner_chan (o : Option Node) (d : ChanId) : (s.setOwner o).chan d = s.chan d := rfl
@[simp] theorem State.setOwner_tag (o : Option Node) (t : WTag) : (s.setOwner o).tag t = s.tag t := rfl

/-! ### State.setPresent -/

@[simp] theorem State.setPresent_pins (m : Mask) : (s.setPresent m).pins = s.pins := rfl
@[simp] theorem State.setPresent_ownId (m : Mask) : (s.setPresent m).ownId = s.ownId := rfl
@[simp] theorem State.setPresent_present (m : Mask) : (s.setPresent m).present = m := rfl
@[simp] theorem State.setPresent_outbox (m : Mask) : (s.setPresent m).outbox = s.outbox := rfl
@[simp] theorem State.setPresent_owner (m : Mask) : (s.setPresent m).owner = s.owner := rfl
@[simp] theorem State.setPresent_bank (m : Mask) : (s.setPresent m).bank = s.bank := rfl
@[simp] theorem State.setPresent_dev (m : Mask) : (s.setPresent m).dev = s.dev := rfl
@[simp] theorem State.setPresent_tb (m : Mask) : (s.setPresent m).tb = s.tb := rfl
@[simp] theorem State.setPresent_chans (m : Mask) : (s.setPresent m).chans = s.chans := rfl
@[simp] theorem State.setPresent_slots (m : Mask) : (s.setPresent m).slots = s.slots := rfl
@[simp] theorem State.setPresent_closeQueue (m : Mask) : (s.setPresent m).closeQueue = s.closeQueue := rfl
@[simp] theorem State.setPresent_watchLimit (m : Mask) : (s.setPresent m).watchLimit = s.watchLimit := rfl
@[simp] theorem State.setPresent_path (m : Mask) : (s.setPresent m).path = s.path := rfl
@[simp] theorem State.setPresent_ring (m : Mask) : (s.setPresent m).ring = s.ring := rfl
@[simp] theorem State.setPresent_cmd (m : Mask) : (s.setPresent m).cmd = s.cmd := rfl
@[simp] theorem State.setPresent_ints (m : Mask) : (s.setPresent m).ints = s.ints := rfl
@[simp] theorem State.setPresent_pending (m : Mask) : (s.setPresent m).pending = s.pending := rfl
@[simp] theorem State.setPresent_live (m : Mask) : (s.setPresent m).live = s.live := rfl
@[simp] theorem State.setPresent_slot (m : Mask) (j : SlotId) : (s.setPresent m).slot j = s.slot j := rfl
@[simp] theorem State.setPresent_owned (m : Mask) (d : ChanId) : (s.setPresent m).owned d = s.owned d := rfl
@[simp] theorem State.setPresent_watching (m : Mask) (d : ChanId) : (s.setPresent m).watching d = s.watching d := rfl
@[simp] theorem State.setPresent_chan (m : Mask) (d : ChanId) : (s.setPresent m).chan d = s.chan d := rfl
@[simp] theorem State.setPresent_tag (m : Mask) (t : WTag) : (s.setPresent m).tag t = s.tag t := rfl

/-! ### State.setPins -/

@[simp] theorem State.setPins_pins (p : Pins) : (s.setPins p).pins = p := rfl
@[simp] theorem State.setPins_ownId (p : Pins) : (s.setPins p).ownId = s.ownId := rfl
@[simp] theorem State.setPins_present (p : Pins) : (s.setPins p).present = s.present := rfl
@[simp] theorem State.setPins_outbox (p : Pins) : (s.setPins p).outbox = s.outbox := rfl
@[simp] theorem State.setPins_owner (p : Pins) : (s.setPins p).owner = s.owner := rfl
@[simp] theorem State.setPins_bank (p : Pins) : (s.setPins p).bank = s.bank := rfl
@[simp] theorem State.setPins_dev (p : Pins) : (s.setPins p).dev = s.dev := rfl
@[simp] theorem State.setPins_tb (p : Pins) : (s.setPins p).tb = s.tb := rfl
@[simp] theorem State.setPins_chans (p : Pins) : (s.setPins p).chans = s.chans := rfl
@[simp] theorem State.setPins_slots (p : Pins) : (s.setPins p).slots = s.slots := rfl
@[simp] theorem State.setPins_closeQueue (p : Pins) : (s.setPins p).closeQueue = s.closeQueue := rfl
@[simp] theorem State.setPins_watchLimit (p : Pins) : (s.setPins p).watchLimit = s.watchLimit := rfl
@[simp] theorem State.setPins_path (p : Pins) : (s.setPins p).path = s.path := rfl
@[simp] theorem State.setPins_ring (p : Pins) : (s.setPins p).ring = s.ring := rfl
@[simp] theorem State.setPins_cmd (p : Pins) : (s.setPins p).cmd = s.cmd := rfl
@[simp] theorem State.setPins_ints (p : Pins) : (s.setPins p).ints = s.ints := rfl
@[simp] theorem State.setPins_pending (p : Pins) : (s.setPins p).pending = s.pending := rfl
@[simp] theorem State.setPins_slot (p : Pins) (j : SlotId) : (s.setPins p).slot j = s.slot j := rfl
@[simp] theorem State.setPins_owned (p : Pins) (d : ChanId) : (s.setPins p).owned d = s.owned d := rfl
@[simp] theorem State.setPins_watching (p : Pins) (d : ChanId) : (s.setPins p).watching d = s.watching d := rfl
@[simp] theorem State.setPins_chan (p : Pins) (d : ChanId) : (s.setPins p).chan d = s.chan d := rfl
@[simp] theorem State.setPins_tag (p : Pins) (t : WTag) : (s.setPins p).tag t = s.tag t := rfl

/-! ### State.setOutbox -/

@[simp] theorem State.setOutbox_pins (l : List Beat) : (s.setOutbox l).pins = s.pins := rfl
@[simp] theorem State.setOutbox_ownId (l : List Beat) : (s.setOutbox l).ownId = s.ownId := rfl
@[simp] theorem State.setOutbox_present (l : List Beat) : (s.setOutbox l).present = s.present := rfl
@[simp] theorem State.setOutbox_outbox (l : List Beat) : (s.setOutbox l).outbox = l := rfl
@[simp] theorem State.setOutbox_owner (l : List Beat) : (s.setOutbox l).owner = s.owner := rfl
@[simp] theorem State.setOutbox_bank (l : List Beat) : (s.setOutbox l).bank = s.bank := rfl
@[simp] theorem State.setOutbox_dev (l : List Beat) : (s.setOutbox l).dev = s.dev := rfl
@[simp] theorem State.setOutbox_tb (l : List Beat) : (s.setOutbox l).tb = s.tb := rfl
@[simp] theorem State.setOutbox_chans (l : List Beat) : (s.setOutbox l).chans = s.chans := rfl
@[simp] theorem State.setOutbox_slots (l : List Beat) : (s.setOutbox l).slots = s.slots := rfl
@[simp] theorem State.setOutbox_closeQueue (l : List Beat) : (s.setOutbox l).closeQueue = s.closeQueue := rfl
@[simp] theorem State.setOutbox_watchLimit (l : List Beat) : (s.setOutbox l).watchLimit = s.watchLimit := rfl
@[simp] theorem State.setOutbox_path (l : List Beat) : (s.setOutbox l).path = s.path := rfl
@[simp] theorem State.setOutbox_ring (l : List Beat) : (s.setOutbox l).ring = s.ring := rfl
@[simp] theorem State.setOutbox_cmd (l : List Beat) : (s.setOutbox l).cmd = s.cmd := rfl
@[simp] theorem State.setOutbox_ints (l : List Beat) : (s.setOutbox l).ints = s.ints := rfl
@[simp] theorem State.setOutbox_pending (l : List Beat) : (s.setOutbox l).pending = s.pending := rfl
@[simp] theorem State.setOutbox_live (l : List Beat) : (s.setOutbox l).live = s.live := rfl
@[simp] theorem State.setOutbox_slot (l : List Beat) (j : SlotId) : (s.setOutbox l).slot j = s.slot j := rfl
@[simp] theorem State.setOutbox_owned (l : List Beat) (d : ChanId) : (s.setOutbox l).owned d = s.owned d := rfl
@[simp] theorem State.setOutbox_watching (l : List Beat) (d : ChanId) : (s.setOutbox l).watching d = s.watching d := rfl
@[simp] theorem State.setOutbox_chan (l : List Beat) (d : ChanId) : (s.setOutbox l).chan d = s.chan d := rfl
@[simp] theorem State.setOutbox_tag (l : List Beat) (t : WTag) : (s.setOutbox l).tag t = s.tag t := rfl

/-! ### State.emit -/

@[simp] theorem State.emit_pins (b : Beat) : (s.emit b).pins = s.pins := rfl
@[simp] theorem State.emit_ownId (b : Beat) : (s.emit b).ownId = s.ownId := rfl
@[simp] theorem State.emit_present (b : Beat) : (s.emit b).present = s.present := rfl
@[simp] theorem State.emit_outbox (b : Beat) : (s.emit b).outbox = s.outbox ++ [b] := rfl
@[simp] theorem State.emit_owner (b : Beat) : (s.emit b).owner = s.owner := rfl
@[simp] theorem State.emit_bank (b : Beat) : (s.emit b).bank = s.bank := rfl
@[simp] theorem State.emit_dev (b : Beat) : (s.emit b).dev = s.dev := rfl
@[simp] theorem State.emit_tb (b : Beat) : (s.emit b).tb = s.tb := rfl
@[simp] theorem State.emit_chans (b : Beat) : (s.emit b).chans = s.chans := rfl
@[simp] theorem State.emit_slots (b : Beat) : (s.emit b).slots = s.slots := rfl
@[simp] theorem State.emit_closeQueue (b : Beat) : (s.emit b).closeQueue = s.closeQueue := rfl
@[simp] theorem State.emit_watchLimit (b : Beat) : (s.emit b).watchLimit = s.watchLimit := rfl
@[simp] theorem State.emit_path (b : Beat) : (s.emit b).path = s.path := rfl
@[simp] theorem State.emit_ring (b : Beat) : (s.emit b).ring = s.ring := rfl
@[simp] theorem State.emit_cmd (b : Beat) : (s.emit b).cmd = s.cmd := rfl
@[simp] theorem State.emit_ints (b : Beat) : (s.emit b).ints = s.ints := rfl
@[simp] theorem State.emit_pending (b : Beat) : (s.emit b).pending = s.pending := rfl
@[simp] theorem State.emit_live (b : Beat) : (s.emit b).live = s.live := rfl
@[simp] theorem State.emit_slot (b : Beat) (j : SlotId) : (s.emit b).slot j = s.slot j := rfl
@[simp] theorem State.emit_owned (b : Beat) (d : ChanId) : (s.emit b).owned d = s.owned d := rfl
@[simp] theorem State.emit_watching (b : Beat) (d : ChanId) : (s.emit b).watching d = s.watching d := rfl
@[simp] theorem State.emit_chan (b : Beat) (d : ChanId) : (s.emit b).chan d = s.chan d := rfl
@[simp] theorem State.emit_tag (b : Beat) (t : WTag) : (s.emit b).tag t = s.tag t := rfl

/-! ### State.raise -/

@[simp] theorem State.raise_pins (k : Source) : (s.raise k).pins = s.pins := rfl
@[simp] theorem State.raise_ownId (k : Source) : (s.raise k).ownId = s.ownId := rfl
@[simp] theorem State.raise_present (k : Source) : (s.raise k).present = s.present := rfl
@[simp] theorem State.raise_outbox (k : Source) : (s.raise k).outbox = s.outbox := rfl
@[simp] theorem State.raise_owner (k : Source) : (s.raise k).owner = s.owner := rfl
@[simp] theorem State.raise_bank (k : Source) : (s.raise k).bank = s.bank := rfl
@[simp] theorem State.raise_dev (k : Source) : (s.raise k).dev = s.dev := rfl
@[simp] theorem State.raise_tb (k : Source) : (s.raise k).tb = s.tb := rfl
@[simp] theorem State.raise_chans (k : Source) : (s.raise k).chans = s.chans := rfl
@[simp] theorem State.raise_slots (k : Source) : (s.raise k).slots = s.slots := rfl
@[simp] theorem State.raise_closeQueue (k : Source) : (s.raise k).closeQueue = s.closeQueue := rfl
@[simp] theorem State.raise_watchLimit (k : Source) : (s.raise k).watchLimit = s.watchLimit := rfl
@[simp] theorem State.raise_path (k : Source) : (s.raise k).path = s.path := rfl
@[simp] theorem State.raise_ring (k : Source) : (s.raise k).ring = s.ring := rfl
@[simp] theorem State.raise_cmd (k : Source) : (s.raise k).cmd = s.cmd := rfl
@[simp] theorem State.raise_ints (k : Source) : (s.raise k).ints = s.ints.event k := rfl
@[simp] theorem State.raise_pending (k : Source) : (s.raise k).pending = s.pending := rfl
@[simp] theorem State.raise_live (k : Source) : (s.raise k).live = s.live := rfl
@[simp] theorem State.raise_slot (k : Source) (j : SlotId) : (s.raise k).slot j = s.slot j := rfl
@[simp] theorem State.raise_owned (k : Source) (d : ChanId) : (s.raise k).owned d = s.owned d := rfl
@[simp] theorem State.raise_watching (k : Source) (d : ChanId) : (s.raise k).watching d = s.watching d := rfl
@[simp] theorem State.raise_chan (k : Source) (d : ChanId) : (s.raise k).chan d = s.chan d := rfl
@[simp] theorem State.raise_tag (k : Source) (t : WTag) : (s.raise k).tag t = s.tag t := rfl

/-! ### State.setRun -/

@[simp] theorem State.setRun_pins (c : ChanId) (r : RunState) : (s.setRun c r).pins = s.pins := rfl
@[simp] theorem State.setRun_ownId (c : ChanId) (r : RunState) : (s.setRun c r).ownId = s.ownId := rfl
@[simp] theorem State.setRun_present (c : ChanId) (r : RunState) : (s.setRun c r).present = s.present := rfl
@[simp] theorem State.setRun_outbox (c : ChanId) (r : RunState) : (s.setRun c r).outbox = s.outbox := rfl
@[simp] theorem State.setRun_owner (c : ChanId) (r : RunState) : (s.setRun c r).owner = s.owner := rfl
@[simp] theorem State.setRun_bank (c : ChanId) (r : RunState) : (s.setRun c r).bank = s.bank := rfl
@[simp] theorem State.setRun_dev (c : ChanId) (r : RunState) : (s.setRun c r).dev = s.dev := rfl
@[simp] theorem State.setRun_tb (c : ChanId) (r : RunState) : (s.setRun c r).tb = s.tb := rfl
@[simp] theorem State.setRun_chans (c : ChanId) (r : RunState) : (s.setRun c r).chans = s.chans.set c.val { s.chan c with run := r } c.isLt := rfl
@[simp] theorem State.setRun_slots (c : ChanId) (r : RunState) : (s.setRun c r).slots = s.slots := rfl
@[simp] theorem State.setRun_closeQueue (c : ChanId) (r : RunState) : (s.setRun c r).closeQueue = s.closeQueue := rfl
@[simp] theorem State.setRun_watchLimit (c : ChanId) (r : RunState) : (s.setRun c r).watchLimit = s.watchLimit := rfl
@[simp] theorem State.setRun_path (c : ChanId) (r : RunState) : (s.setRun c r).path = s.path := rfl
@[simp] theorem State.setRun_ring (c : ChanId) (r : RunState) : (s.setRun c r).ring = s.ring := rfl
@[simp] theorem State.setRun_cmd (c : ChanId) (r : RunState) : (s.setRun c r).cmd = s.cmd := rfl
@[simp] theorem State.setRun_ints (c : ChanId) (r : RunState) : (s.setRun c r).ints = s.ints := rfl
@[simp] theorem State.setRun_pending (c : ChanId) (r : RunState) : (s.setRun c r).pending = s.pending := rfl
@[simp] theorem State.setRun_live (c : ChanId) (r : RunState) : (s.setRun c r).live = s.live := rfl
@[simp] theorem State.setRun_slot (c : ChanId) (r : RunState) (j : SlotId) : (s.setRun c r).slot j = s.slot j := rfl
@[simp] theorem State.setRun_owned (c : ChanId) (r : RunState) (d : ChanId) : (s.setRun c r).owned d = s.owned d := rfl
@[simp] theorem State.setRun_watching (c : ChanId) (r : RunState) (d : ChanId) : (s.setRun c r).watching d = s.watching d := rfl
@[simp] theorem State.setRun_tag (c : ChanId) (r : RunState) (t : WTag) : (s.setRun c r).tag t = s.tag t := rfl

/-! ### State.modStats -/

@[simp] theorem State.modStats_pins (c : ChanId) (f : ChanStats → ChanStats) : (s.modStats c f).pins = s.pins := rfl
@[simp] theorem State.modStats_ownId (c : ChanId) (f : ChanStats → ChanStats) : (s.modStats c f).ownId = s.ownId := rfl
@[simp] theorem State.modStats_present (c : ChanId) (f : ChanStats → ChanStats) : (s.modStats c f).present = s.present := rfl
@[simp] theorem State.modStats_outbox (c : ChanId) (f : ChanStats → ChanStats) : (s.modStats c f).outbox = s.outbox := rfl
@[simp] theorem State.modStats_owner (c : ChanId) (f : ChanStats → ChanStats) : (s.modStats c f).owner = s.owner := rfl
@[simp] theorem State.modStats_bank (c : ChanId) (f : ChanStats → ChanStats) : (s.modStats c f).bank = s.bank := rfl
@[simp] theorem State.modStats_dev (c : ChanId) (f : ChanStats → ChanStats) : (s.modStats c f).dev = s.dev := rfl
@[simp] theorem State.modStats_tb (c : ChanId) (f : ChanStats → ChanStats) : (s.modStats c f).tb = s.tb := rfl
@[simp] theorem State.modStats_chans (c : ChanId) (f : ChanStats → ChanStats) : (s.modStats c f).chans = s.chans.set c.val { s.chan c with stats := f (s.chan c).stats } c.isLt := rfl
@[simp] theorem State.modStats_slots (c : ChanId) (f : ChanStats → ChanStats) : (s.modStats c f).slots = s.slots := rfl
@[simp] theorem State.modStats_closeQueue (c : ChanId) (f : ChanStats → ChanStats) : (s.modStats c f).closeQueue = s.closeQueue := rfl
@[simp] theorem State.modStats_watchLimit (c : ChanId) (f : ChanStats → ChanStats) : (s.modStats c f).watchLimit = s.watchLimit := rfl
@[simp] theorem State.modStats_path (c : ChanId) (f : ChanStats → ChanStats) : (s.modStats c f).path = s.path := rfl
@[simp] theorem State.modStats_ring (c : ChanId) (f : ChanStats → ChanStats) : (s.modStats c f).ring = s.ring := rfl
@[simp] theorem State.modStats_cmd (c : ChanId) (f : ChanStats → ChanStats) : (s.modStats c f).cmd = s.cmd := rfl
@[simp] theorem State.modStats_ints (c : ChanId) (f : ChanStats → ChanStats) : (s.modStats c f).ints = s.ints := rfl
@[simp] theorem State.modStats_pending (c : ChanId) (f : ChanStats → ChanStats) : (s.modStats c f).pending = s.pending := rfl
@[simp] theorem State.modStats_live (c : ChanId) (f : ChanStats → ChanStats) : (s.modStats c f).live = s.live := rfl
@[simp] theorem State.modStats_slot (c : ChanId) (f : ChanStats → ChanStats) (j : SlotId) : (s.modStats c f).slot j = s.slot j := rfl
@[simp] theorem State.modStats_owned (c : ChanId) (f : ChanStats → ChanStats) (d : ChanId) : (s.modStats c f).owned d = s.owned d := rfl
@[simp] theorem State.modStats_watching (c : ChanId) (f : ChanStats → ChanStats) (d : ChanId) : (s.modStats c f).watching d = s.watching d := rfl
@[simp] theorem State.modStats_tag (c : ChanId) (f : ChanStats → ChanStats) (t : WTag) : (s.modStats c f).tag t = s.tag t := rfl

/-! ### Ring.setTag -/

variable (g : Ring)

@[simp] theorem Ring.setTag_node (u : WTag) (x : WriteTag) : (g.setTag u x).node = g.node := rfl
@[simp] theorem Ring.setTag_base (u : WTag) (x : WriteTag) : (g.setTag u x).base = g.base := rfl
@[simp] theorem Ring.setTag_size (u : WTag) (x : WriteTag) : (g.setTag u x).size = g.size := rfl
@[simp] theorem Ring.setTag_policy (u : WTag) (x : WriteTag) : (g.setTag u x).policy = g.policy := rfl
@[simp] theorem Ring.setTag_backoff (u : WTag) (x : WriteTag) : (g.setTag u x).backoff = g.backoff := rfl
@[simp] theorem Ring.setTag_threshold (u : WTag) (x : WriteTag) : (g.setTag u x).threshold = g.threshold := rfl
@[simp] theorem Ring.setTag_writeLimit (u : WTag) (x : WriteTag) : (g.setTag u x).writeLimit = g.writeLimit := rfl
@[simp] theorem Ring.setTag_wbAddr (u : WTag) (x : WriteTag) : (g.setTag u x).wbAddr = g.wbAddr := rfl
@[simp] theorem Ring.setTag_producer (u : WTag) (x : WriteTag) : (g.setTag u x).producer = g.producer := rfl
@[simp] theorem Ring.setTag_consumer (u : WTag) (x : WriteTag) : (g.setTag u x).consumer = g.consumer := rfl
@[simp] theorem Ring.setTag_state (u : WTag) (x : WriteTag) : (g.setTag u x).state = g.state := rfl
@[simp] theorem Ring.setTag_lostPending (u : WTag) (x : WriteTag) : (g.setTag u x).lostPending = g.lostPending := rfl
@[simp] theorem Ring.setTag_firstLost (u : WTag) (x : WriteTag) : (g.setTag u x).firstLost = g.firstLost := rfl
@[simp] theorem Ring.setTag_fault (u : WTag) (x : WriteTag) : (g.setTag u x).fault = g.fault := rfl

/-! ### Reads after writes -/

theorem State.slot_setSlot (i j : SlotId) (x : Slot) : (s.setSlot i x).slot j = if j = i then x else s.slot j := by
  unfold State.slot State.setSlot
  rw [Vector.getElem_set]
  simp [Fin.ext_iff, eq_comm]

@[simp] theorem State.slot_setSlot_self (i : SlotId) (x : Slot) : (s.setSlot i x).slot i = x := by
  simp [State.slot_setSlot]

@[simp] theorem State.slot_setSlot_of_ne {i j : SlotId} (x : Slot) (h : j ≠ i) : (s.setSlot i x).slot j = s.slot j := by
  simp [State.slot_setSlot, h]

theorem State.chan_setChan (c d : ChanId) (x : Channel) : (s.setChan c x).chan d = if d = c then x else s.chan d := by
  unfold State.chan State.setChan
  rw [Vector.getElem_set]
  simp [Fin.ext_iff, eq_comm]

@[simp] theorem State.chan_setChan_self (c : ChanId) (x : Channel) : (s.setChan c x).chan c = x := by
  simp [State.chan_setChan]

@[simp] theorem State.chan_setChan_of_ne {c d : ChanId} (x : Channel) (h : d ≠ c) : (s.setChan c x).chan d = s.chan d := by
  simp [State.chan_setChan, h]

theorem State.chan_setRun (c d : ChanId) (r : RunState) :
    (s.setRun c r).chan d = if d = c then { s.chan c with run := r } else s.chan d := State.chan_setChan s c d _

theorem State.chan_modStats (c d : ChanId) (f : ChanStats → ChanStats) :
    (s.modStats c f).chan d = if d = c then { s.chan c with stats := f (s.chan c).stats } else s.chan d :=
  State.chan_setChan s c d _

theorem Ring.tag_setTag (u t : WTag) (x : WriteTag) : (g.setTag u x).tag t = if t = u then x else g.tag t := by
  unfold Ring.tag Ring.setTag
  rw [Vector.getElem_set]
  simp [Fin.ext_iff, eq_comm]

@[simp] theorem Ring.tag_setTag_self (u : WTag) (x : WriteTag) : (g.setTag u x).tag u = x := by simp [Ring.tag_setTag]

theorem State.tag_setTag (u t : WTag) (x : WriteTag) : (s.setTag u x).tag t = if t = u then x else s.tag t :=
  Ring.tag_setTag s.ring u t x

@[simp] theorem State.tag_setTag_self (u : WTag) (x : WriteTag) : (s.setTag u x).tag u = x := by simp [State.tag_setTag]

@[simp] theorem State.setRing_tag (h : Ring) (t : WTag) : (s.setRing h).tag t = h.tag t := rfl

/-! ### Writing back what is there -/

@[simp] theorem State.setSlot_slot (i : SlotId) : s.setSlot i (s.slot i) = s := by
  unfold State.setSlot State.slot
  simp

@[simp] theorem State.setChan_chan (c : ChanId) : s.setChan c (s.chan c) = s := by
  unfold State.setChan State.chan
  simp

@[simp] theorem Ring.setTag_tag (u : WTag) : g.setTag u (g.tag u) = g := by
  unfold Ring.setTag Ring.tag
  simp

/-- Two states with the same slots, channels and tags and the same other parts are the same. -/
theorem State.slots_ext {s t : State} (h : ∀ i, s.slot i = t.slot i) : s.slots = t.slots := by
  ext1 i hi
  exact h ⟨i, hi⟩

theorem State.chans_ext {s t : State} (h : ∀ c, s.chan c = t.chan c) : s.chans = t.chans := by
  ext1 i hi
  exact h ⟨i, hi⟩

theorem Ring.tags_ext {g h : Ring} (e : ∀ u, g.tag u = h.tag u) : g.tags = h.tags := by
  ext1 i hi
  exact e ⟨i, hi⟩

end Sys2Proof.Machine
end

