-- ==== Sys2Proof/Laws/Frames.lean ====
section
/-! SUPPORT. The frame of each shared operation: the parts of State that it never changes. Each lemma is a conjunction, which
simp uses part by part. -/

namespace Sys2Proof.Machine

/-! ### Command endings and interrupts -/

@[simp] theorem alertCheck_frame (s : State) :
    (alertCheck s).pins = s.pins ∧ (alertCheck s).ownId = s.ownId ∧ (alertCheck s).present = s.present ∧
      (alertCheck s).owner = s.owner ∧ (alertCheck s).bank = s.bank ∧ (alertCheck s).dev = s.dev ∧
      (alertCheck s).tb = s.tb ∧ (alertCheck s).chans = s.chans ∧ (alertCheck s).slots = s.slots ∧
      (alertCheck s).closeQueue = s.closeQueue ∧ (alertCheck s).watchLimit = s.watchLimit ∧ (alertCheck s).path = s.path ∧
      (alertCheck s).ring = s.ring ∧ (alertCheck s).cmd = s.cmd ∧ (alertCheck s).pending = s.pending := by
  unfold alertCheck; (try dsimp only); (repeat' split) <;> simp

@[simp] theorem endWith_frame (st : Status) (d : BitVec 16) (l : List Word) (s : State) :
    (endWith st d l s).pins = s.pins ∧ (endWith st d l s).ownId = s.ownId ∧ (endWith st d l s).present = s.present ∧
      (endWith st d l s).outbox = s.outbox ∧ (endWith st d l s).owner = s.owner ∧ (endWith st d l s).bank = s.bank ∧
      (endWith st d l s).dev = s.dev ∧ (endWith st d l s).tb = s.tb ∧ (endWith st d l s).chans = s.chans ∧
      (endWith st d l s).slots = s.slots ∧ (endWith st d l s).closeQueue = s.closeQueue ∧ (endWith st d l s).watchLimit = s.watchLimit ∧
      (endWith st d l s).path = s.path ∧ (endWith st d l s).ring = s.ring ∧ (endWith st d l s).pending = s.pending := by
  simp [endWith]

@[simp] theorem endCommand_frame (st : Status) (s : State) :
    (endCommand st s).pins = s.pins ∧ (endCommand st s).ownId = s.ownId ∧ (endCommand st s).present = s.present ∧
      (endCommand st s).outbox = s.outbox ∧ (endCommand st s).owner = s.owner ∧ (endCommand st s).bank = s.bank ∧
      (endCommand st s).dev = s.dev ∧ (endCommand st s).tb = s.tb ∧ (endCommand st s).chans = s.chans ∧
      (endCommand st s).slots = s.slots ∧ (endCommand st s).closeQueue = s.closeQueue ∧ (endCommand st s).watchLimit = s.watchLimit ∧
      (endCommand st s).path = s.path ∧ (endCommand st s).ring = s.ring ∧ (endCommand st s).pending = s.pending := by
  simp [endCommand]

@[simp] theorem loseOwner_frame (s : State) :
    (loseOwner s).pins = s.pins ∧ (loseOwner s).ownId = s.ownId ∧ (loseOwner s).present = s.present ∧
      (loseOwner s).outbox = s.outbox ∧ (loseOwner s).bank = s.bank ∧ (loseOwner s).dev = s.dev ∧
      (loseOwner s).tb = s.tb ∧ (loseOwner s).chans = s.chans ∧ (loseOwner s).slots = s.slots ∧
      (loseOwner s).closeQueue = s.closeQueue ∧ (loseOwner s).watchLimit = s.watchLimit ∧ (loseOwner s).path = s.path ∧
      (loseOwner s).ring = s.ring ∧ (loseOwner s).ints = s.ints ∧ (loseOwner s).pending = s.pending := by
  simp [loseOwner]

@[simp] theorem drainTest_frame (s : State) :
    (drainTest s).pins = s.pins ∧ (drainTest s).ownId = s.ownId ∧ (drainTest s).present = s.present ∧
      (drainTest s).outbox = s.outbox ∧ (drainTest s).owner = s.owner ∧ (drainTest s).bank = s.bank ∧
      (drainTest s).dev = s.dev ∧ (drainTest s).tb = s.tb ∧ (drainTest s).chans = s.chans ∧
      (drainTest s).slots = s.slots ∧ (drainTest s).closeQueue = s.closeQueue ∧ (drainTest s).watchLimit = s.watchLimit ∧
      (drainTest s).path = s.path ∧ (drainTest s).ring = s.ring ∧ (drainTest s).pending = s.pending := by
  unfold drainTest; (repeat' split) <;> simp

@[simp] theorem stopTest_frame (s : State) :
    (stopTest s).pins = s.pins ∧ (stopTest s).ownId = s.ownId ∧ (stopTest s).present = s.present ∧
      (stopTest s).outbox = s.outbox ∧ (stopTest s).owner = s.owner ∧ (stopTest s).bank = s.bank ∧
      (stopTest s).dev = s.dev ∧ (stopTest s).tb = s.tb ∧ (stopTest s).chans = s.chans ∧
      (stopTest s).slots = s.slots ∧ (stopTest s).closeQueue = s.closeQueue ∧ (stopTest s).watchLimit = s.watchLimit ∧
      (stopTest s).path = s.path ∧ (stopTest s).pending = s.pending := by
  unfold stopTest; (try dsimp only); (repeat' split) <;> simp

@[simp] theorem endOnFault_frame (s : State) :
    (endOnFault s).pins = s.pins ∧ (endOnFault s).ownId = s.ownId ∧ (endOnFault s).present = s.present ∧
      (endOnFault s).outbox = s.outbox ∧ (endOnFault s).owner = s.owner ∧ (endOnFault s).bank = s.bank ∧
      (endOnFault s).dev = s.dev ∧ (endOnFault s).tb = s.tb ∧ (endOnFault s).chans = s.chans ∧
      (endOnFault s).slots = s.slots ∧ (endOnFault s).closeQueue = s.closeQueue ∧ (endOnFault s).watchLimit = s.watchLimit ∧
      (endOnFault s).path = s.path ∧ (endOnFault s).ring = s.ring ∧ (endOnFault s).pending = s.pending := by
  unfold endOnFault; (repeat' split) <;> simp

@[simp] theorem tickDrain_frame (s : State) :
    (tickDrain s).pins = s.pins ∧ (tickDrain s).ownId = s.ownId ∧ (tickDrain s).present = s.present ∧
      (tickDrain s).outbox = s.outbox ∧ (tickDrain s).owner = s.owner ∧ (tickDrain s).bank = s.bank ∧
      (tickDrain s).dev = s.dev ∧ (tickDrain s).tb = s.tb ∧ (tickDrain s).chans = s.chans ∧
      (tickDrain s).slots = s.slots ∧ (tickDrain s).closeQueue = s.closeQueue ∧ (tickDrain s).watchLimit = s.watchLimit ∧
      (tickDrain s).path = s.path ∧ (tickDrain s).ring = s.ring ∧ (tickDrain s).pending = s.pending := by
  unfold tickDrain drainTimeoutTest; (try dsimp only); (repeat' split) <;> simp

/-! ### Channels -/

@[simp] theorem reload_frame (c : ChanId) (s : State) :
    (reload c s).pins = s.pins ∧ (reload c s).ownId = s.ownId ∧ (reload c s).present = s.present ∧
      (reload c s).outbox = s.outbox ∧ (reload c s).owner = s.owner ∧ (reload c s).bank = s.bank ∧
      (reload c s).dev = s.dev ∧ (reload c s).slots = s.slots ∧ (reload c s).closeQueue = s.closeQueue ∧
      (reload c s).watchLimit = s.watchLimit ∧ (reload c s).path = s.path ∧ (reload c s).ring = s.ring ∧
      (reload c s).cmd = s.cmd ∧ (reload c s).ints = s.ints ∧ (reload c s).pending = s.pending := by
  unfold reload; (try dsimp only); (repeat' split) <;> simp

@[simp] theorem countRequest_frame (c : ChanId) (s : State) :
    (countRequest c s).pins = s.pins ∧ (countRequest c s).ownId = s.ownId ∧ (countRequest c s).present = s.present ∧
      (countRequest c s).outbox = s.outbox ∧ (countRequest c s).owner = s.owner ∧ (countRequest c s).bank = s.bank ∧
      (countRequest c s).dev = s.dev ∧ (countRequest c s).slots = s.slots ∧ (countRequest c s).closeQueue = s.closeQueue ∧
      (countRequest c s).watchLimit = s.watchLimit ∧ (countRequest c s).path = s.path ∧ (countRequest c s).ring = s.ring ∧
      (countRequest c s).cmd = s.cmd ∧ (countRequest c s).ints = s.ints ∧ (countRequest c s).pending = s.pending := by
  unfold countRequest; (try dsimp only); (repeat' split) <;> simp

@[simp] theorem takeInto_frame (c : ChanId) (i : SlotId) (r : Request) (s : State) :
    (takeInto c i r s).pins = s.pins ∧ (takeInto c i r s).ownId = s.ownId ∧ (takeInto c i r s).present = s.present ∧
      (takeInto c i r s).outbox = s.outbox ∧ (takeInto c i r s).owner = s.owner ∧ (takeInto c i r s).bank = s.bank ∧
      (takeInto c i r s).dev = s.dev ∧ (takeInto c i r s).tb = s.tb ∧ (takeInto c i r s).closeQueue = s.closeQueue ∧
      (takeInto c i r s).watchLimit = s.watchLimit ∧ (takeInto c i r s).path = s.path ∧ (takeInto c i r s).ring = s.ring ∧
      (takeInto c i r s).cmd = s.cmd ∧ (takeInto c i r s).ints = s.ints ∧ (takeInto c i r s).pending = s.pending := by
  unfold takeInto; (try dsimp only); (repeat' split) <;> simp

@[simp] theorem collide_frame (c : ChanId) (s : State) :
    (collide c s).pins = s.pins ∧ (collide c s).ownId = s.ownId ∧ (collide c s).present = s.present ∧
      (collide c s).outbox = s.outbox ∧ (collide c s).owner = s.owner ∧ (collide c s).bank = s.bank ∧
      (collide c s).dev = s.dev ∧ (collide c s).tb = s.tb ∧ (collide c s).slots = s.slots ∧
      (collide c s).closeQueue = s.closeQueue ∧ (collide c s).watchLimit = s.watchLimit ∧ (collide c s).path = s.path ∧
      (collide c s).ring = s.ring ∧ (collide c s).cmd = s.cmd ∧ (collide c s).ints = s.ints ∧
      (collide c s).pending = s.pending := by
  simp [collide]

@[simp] theorem reserve_frame (c : ChanId) (i : SlotId) (s : State) :
    (reserve c i s).pins = s.pins ∧ (reserve c i s).ownId = s.ownId ∧ (reserve c i s).present = s.present ∧
      (reserve c i s).outbox = s.outbox ∧ (reserve c i s).owner = s.owner ∧ (reserve c i s).bank = s.bank ∧
      (reserve c i s).dev = s.dev ∧ (reserve c i s).tb = s.tb ∧ (reserve c i s).closeQueue = s.closeQueue ∧
      (reserve c i s).watchLimit = s.watchLimit ∧ (reserve c i s).path = s.path ∧ (reserve c i s).ring = s.ring ∧
      (reserve c i s).cmd = s.cmd ∧ (reserve c i s).ints = s.ints ∧ (reserve c i s).pending = s.pending := by
  simp [reserve]

@[simp] theorem handleFiring_frame (c : ChanId) (r : Request) (k : Option SlotId) (s : State) :
    ((handleFiring c r (s, k)).1).pins = s.pins ∧ ((handleFiring c r (s, k)).1).ownId = s.ownId ∧ ((handleFiring c r (s, k)).1).present = s.present ∧
      ((handleFiring c r (s, k)).1).outbox = s.outbox ∧ ((handleFiring c r (s, k)).1).owner = s.owner ∧ ((handleFiring c r (s, k)).1).bank = s.bank ∧
      ((handleFiring c r (s, k)).1).dev = s.dev ∧ ((handleFiring c r (s, k)).1).tb = s.tb ∧ ((handleFiring c r (s, k)).1).closeQueue = s.closeQueue ∧
      ((handleFiring c r (s, k)).1).watchLimit = s.watchLimit ∧ ((handleFiring c r (s, k)).1).path = s.path ∧ ((handleFiring c r (s, k)).1).ring = s.ring ∧
      ((handleFiring c r (s, k)).1).cmd = s.cmd ∧ ((handleFiring c r (s, k)).1).ints = s.ints ∧ ((handleFiring c r (s, k)).1).pending = s.pending := by
  unfold handleFiring; (try dsimp only); (repeat' split) <;> simp

@[simp] theorem useReservation_frame (c : ChanId) (r : Request) (k : Option SlotId) (s : State) :
    ((useReservation c r (s, k)).1).pins = s.pins ∧ ((useReservation c r (s, k)).1).ownId = s.ownId ∧ ((useReservation c r (s, k)).1).present = s.present ∧
      ((useReservation c r (s, k)).1).outbox = s.outbox ∧ ((useReservation c r (s, k)).1).owner = s.owner ∧ ((useReservation c r (s, k)).1).bank = s.bank ∧
      ((useReservation c r (s, k)).1).dev = s.dev ∧ ((useReservation c r (s, k)).1).tb = s.tb ∧ ((useReservation c r (s, k)).1).closeQueue = s.closeQueue ∧
      ((useReservation c r (s, k)).1).watchLimit = s.watchLimit ∧ ((useReservation c r (s, k)).1).path = s.path ∧ ((useReservation c r (s, k)).1).ring = s.ring ∧
      ((useReservation c r (s, k)).1).cmd = s.cmd ∧ ((useReservation c r (s, k)).1).ints = s.ints ∧ ((useReservation c r (s, k)).1).pending = s.pending := by
  unfold useReservation; (try dsimp only); (repeat' split) <;> simp

@[simp] theorem visitChannel_frame (c : ChanId) (r : Request) (k : Option SlotId) (s : State) :
    ((visitChannel r (s, k) c).1).pins = s.pins ∧ ((visitChannel r (s, k) c).1).ownId = s.ownId ∧ ((visitChannel r (s, k) c).1).present = s.present ∧
      ((visitChannel r (s, k) c).1).outbox = s.outbox ∧ ((visitChannel r (s, k) c).1).owner = s.owner ∧ ((visitChannel r (s, k) c).1).bank = s.bank ∧
      ((visitChannel r (s, k) c).1).dev = s.dev ∧ ((visitChannel r (s, k) c).1).closeQueue = s.closeQueue ∧ ((visitChannel r (s, k) c).1).watchLimit = s.watchLimit ∧
      ((visitChannel r (s, k) c).1).path = s.path ∧ ((visitChannel r (s, k) c).1).ring = s.ring ∧ ((visitChannel r (s, k) c).1).cmd = s.cmd ∧
      ((visitChannel r (s, k) c).1).ints = s.ints ∧ ((visitChannel r (s, k) c).1).pending = s.pending := by
  unfold visitChannel
  dsimp only
  split_ifs
  · have h1 := handleFiring_frame c r (useReservation c r (countRequest c s, k)).2 (useReservation c r (countRequest c s, k)).1
    have h2 := useReservation_frame c r k (countRequest c s)
    simp_all
  · have h2 := useReservation_frame c r k (countRequest c s)
    simp_all
  · simp

@[simp] theorem visitChannels_frame (r : Request) (s : State) :
    ((visitChannels r s).1).pins = s.pins ∧ ((visitChannels r s).1).ownId = s.ownId ∧ ((visitChannels r s).1).present = s.present ∧
      ((visitChannels r s).1).outbox = s.outbox ∧ ((visitChannels r s).1).owner = s.owner ∧ ((visitChannels r s).1).bank = s.bank ∧
      ((visitChannels r s).1).dev = s.dev ∧ ((visitChannels r s).1).closeQueue = s.closeQueue ∧ ((visitChannels r s).1).watchLimit = s.watchLimit ∧
      ((visitChannels r s).1).path = s.path ∧ ((visitChannels r s).1).ring = s.ring ∧ ((visitChannels r s).1).cmd = s.cmd ∧
      ((visitChannels r s).1).ints = s.ints ∧ ((visitChannels r s).1).pending = s.pending := by
  have h : ∀ (l : List ChanId) (p : State × Option SlotId), p.1.pending = s.pending ∧ p.1.pins = s.pins ∧
      p.1.ownId = s.ownId ∧ p.1.present = s.present ∧ p.1.outbox = s.outbox ∧ p.1.owner = s.owner ∧ p.1.bank = s.bank ∧
      p.1.dev = s.dev ∧ p.1.closeQueue = s.closeQueue ∧ p.1.watchLimit = s.watchLimit ∧ p.1.path = s.path ∧
      p.1.ring = s.ring ∧ p.1.cmd = s.cmd ∧ p.1.ints = s.ints →
      let q := (l.foldl (visitChannel r) p).1
      q.pending = s.pending ∧ q.pins = s.pins ∧
      q.ownId = s.ownId ∧ q.present = s.present ∧ q.outbox = s.outbox ∧ q.owner = s.owner ∧ q.bank = s.bank ∧
      q.dev = s.dev ∧ q.closeQueue = s.closeQueue ∧ q.watchLimit = s.watchLimit ∧ q.path = s.path ∧
      q.ring = s.ring ∧ q.cmd = s.cmd ∧ q.ints = s.ints := by
    intro l
    induction l with
    | nil => exact fun p hp => hp
    | cons c l ih =>
      rintro ⟨p, k⟩ hp
      apply ih
      have := visitChannel_frame c r k p
      simp_all
  have := h chanIds (s, none) (by simp)
  unfold visitChannels
  simp_all

@[simp] theorem cancelAt_frame (c : ChanId) (i : SlotId) (r : RunState) (s : State) :
    (cancelAt c i r s).pins = s.pins ∧ (cancelAt c i r s).ownId = s.ownId ∧ (cancelAt c i r s).present = s.present ∧
      (cancelAt c i r s).outbox = s.outbox ∧ (cancelAt c i r s).owner = s.owner ∧ (cancelAt c i r s).bank = s.bank ∧
      (cancelAt c i r s).dev = s.dev ∧ (cancelAt c i r s).tb = s.tb ∧ (cancelAt c i r s).closeQueue = s.closeQueue ∧
      (cancelAt c i r s).watchLimit = s.watchLimit ∧ (cancelAt c i r s).path = s.path ∧ (cancelAt c i r s).ring = s.ring ∧
      (cancelAt c i r s).cmd = s.cmd ∧ (cancelAt c i r s).ints = s.ints ∧ (cancelAt c i r s).pending = s.pending := by
  simp [cancelAt]

@[simp] theorem cancelArming_frame (c : ChanId) (r : RunState) (s : State) :
    (cancelArming c r s).pins = s.pins ∧ (cancelArming c r s).ownId = s.ownId ∧ (cancelArming c r s).present = s.present ∧
      (cancelArming c r s).outbox = s.outbox ∧ (cancelArming c r s).owner = s.owner ∧ (cancelArming c r s).bank = s.bank ∧
      (cancelArming c r s).dev = s.dev ∧ (cancelArming c r s).tb = s.tb ∧ (cancelArming c r s).closeQueue = s.closeQueue ∧
      (cancelArming c r s).watchLimit = s.watchLimit ∧ (cancelArming c r s).path = s.path ∧ (cancelArming c r s).ring = s.ring ∧
      (cancelArming c r s).cmd = s.cmd ∧ (cancelArming c r s).ints = s.ints ∧ (cancelArming c r s).pending = s.pending := by
  unfold cancelArming; (repeat' split) <;> simp

@[simp] theorem cancelIfArmed_frame (r : RunState) (c : ChanId) (s : State) :
    (cancelIfArmed r s c).pins = s.pins ∧ (cancelIfArmed r s c).ownId = s.ownId ∧ (cancelIfArmed r s c).present = s.present ∧
      (cancelIfArmed r s c).outbox = s.outbox ∧ (cancelIfArmed r s c).owner = s.owner ∧ (cancelIfArmed r s c).bank = s.bank ∧
      (cancelIfArmed r s c).dev = s.dev ∧ (cancelIfArmed r s c).tb = s.tb ∧ (cancelIfArmed r s c).closeQueue = s.closeQueue ∧
      (cancelIfArmed r s c).watchLimit = s.watchLimit ∧ (cancelIfArmed r s c).path = s.path ∧ (cancelIfArmed r s c).ring = s.ring ∧
      (cancelIfArmed r s c).cmd = s.cmd ∧ (cancelIfArmed r s c).ints = s.ints ∧ (cancelIfArmed r s c).pending = s.pending := by
  unfold cancelIfArmed; (repeat' split) <;> simp

@[simp] theorem cancelArmings_frame (r : RunState) (s : State) :
    (cancelArmings r s).pins = s.pins ∧ (cancelArmings r s).ownId = s.ownId ∧ (cancelArmings r s).present = s.present ∧
      (cancelArmings r s).outbox = s.outbox ∧ (cancelArmings r s).owner = s.owner ∧ (cancelArmings r s).bank = s.bank ∧
      (cancelArmings r s).dev = s.dev ∧ (cancelArmings r s).tb = s.tb ∧ (cancelArmings r s).closeQueue = s.closeQueue ∧
      (cancelArmings r s).watchLimit = s.watchLimit ∧ (cancelArmings r s).path = s.path ∧ (cancelArmings r s).ring = s.ring ∧
      (cancelArmings r s).cmd = s.cmd ∧ (cancelArmings r s).ints = s.ints ∧ (cancelArmings r s).pending = s.pending := by
  simp [cancelArmings, chanIds]

@[simp] theorem heldEntry_frame (c : ChanId) (s : State) :
    (heldEntry c s).pins = s.pins ∧ (heldEntry c s).ownId = s.ownId ∧ (heldEntry c s).present = s.present ∧
      (heldEntry c s).outbox = s.outbox ∧ (heldEntry c s).owner = s.owner ∧ (heldEntry c s).bank = s.bank ∧
      (heldEntry c s).dev = s.dev ∧ (heldEntry c s).tb = s.tb ∧ (heldEntry c s).closeQueue = s.closeQueue ∧
      (heldEntry c s).watchLimit = s.watchLimit ∧ (heldEntry c s).path = s.path ∧ (heldEntry c s).ring = s.ring ∧
      (heldEntry c s).cmd = s.cmd ∧ (heldEntry c s).ints = s.ints ∧ (heldEntry c s).pending = s.pending := by
  unfold heldEntry; (repeat' split) <;> simp

@[simp] theorem armChannel_frame (c : ChanId) (s : State) :
    (armChannel c s).pins = s.pins ∧ (armChannel c s).ownId = s.ownId ∧ (armChannel c s).present = s.present ∧
      (armChannel c s).outbox = s.outbox ∧ (armChannel c s).owner = s.owner ∧ (armChannel c s).bank = s.bank ∧
      (armChannel c s).dev = s.dev ∧ (armChannel c s).slots = s.slots ∧ (armChannel c s).closeQueue = s.closeQueue ∧
      (armChannel c s).watchLimit = s.watchLimit ∧ (armChannel c s).path = s.path ∧ (armChannel c s).ring = s.ring ∧
      (armChannel c s).cmd = s.cmd ∧ (armChannel c s).ints = s.ints ∧ (armChannel c s).pending = s.pending := by
  simp [armChannel]

@[simp] theorem disarmChannel_frame (c : ChanId) (s : State) :
    (disarmChannel s c).pins = s.pins ∧ (disarmChannel s c).ownId = s.ownId ∧ (disarmChannel s c).present = s.present ∧
      (disarmChannel s c).outbox = s.outbox ∧ (disarmChannel s c).owner = s.owner ∧ (disarmChannel s c).bank = s.bank ∧
      (disarmChannel s c).dev = s.dev ∧ (disarmChannel s c).tb = s.tb ∧ (disarmChannel s c).closeQueue = s.closeQueue ∧
      (disarmChannel s c).watchLimit = s.watchLimit ∧ (disarmChannel s c).path = s.path ∧ (disarmChannel s c).ring = s.ring ∧
      (disarmChannel s c).cmd = s.cmd ∧ (disarmChannel s c).ints = s.ints ∧ (disarmChannel s c).pending = s.pending := by
  simp [disarmChannel]

@[simp] theorem releaseChannel_frame (c : ChanId) (s : State) :
    (releaseChannel c s).pins = s.pins ∧ (releaseChannel c s).ownId = s.ownId ∧ (releaseChannel c s).present = s.present ∧
      (releaseChannel c s).outbox = s.outbox ∧ (releaseChannel c s).owner = s.owner ∧ (releaseChannel c s).bank = s.bank ∧
      (releaseChannel c s).dev = s.dev ∧ (releaseChannel c s).tb = s.tb ∧ (releaseChannel c s).slots = s.slots ∧
      (releaseChannel c s).closeQueue = s.closeQueue ∧ (releaseChannel c s).watchLimit = s.watchLimit ∧ (releaseChannel c s).path = s.path ∧
      (releaseChannel c s).ring = s.ring ∧ (releaseChannel c s).cmd = s.cmd ∧ (releaseChannel c s).ints = s.ints ∧
      (releaseChannel c s).pending = s.pending := by
  simp [releaseChannel]

@[simp] theorem pauseObserving_frame (s : State) :
    (pauseObserving s).pins = s.pins ∧ (pauseObserving s).ownId = s.ownId ∧ (pauseObserving s).present = s.present ∧
      (pauseObserving s).outbox = s.outbox ∧ (pauseObserving s).owner = s.owner ∧ (pauseObserving s).bank = s.bank ∧
      (pauseObserving s).dev = s.dev ∧ (pauseObserving s).closeQueue = s.closeQueue ∧ (pauseObserving s).watchLimit = s.watchLimit ∧
      (pauseObserving s).path = s.path ∧ (pauseObserving s).ring = s.ring ∧ (pauseObserving s).cmd = s.cmd ∧
      (pauseObserving s).ints = s.ints ∧ (pauseObserving s).pending = s.pending := by
  simp [pauseObserving]

@[simp] theorem settle_frame (b : Bool) (x : Record) (s : State) :
    (settle b x s).pins = s.pins ∧ (settle b x s).ownId = s.ownId ∧ (settle b x s).present = s.present ∧
      (settle b x s).outbox = s.outbox ∧ (settle b x s).owner = s.owner ∧ (settle b x s).bank = s.bank ∧
      (settle b x s).dev = s.dev ∧ (settle b x s).tb = s.tb ∧ (settle b x s).slots = s.slots ∧
      (settle b x s).closeQueue = s.closeQueue ∧ (settle b x s).watchLimit = s.watchLimit ∧ (settle b x s).path = s.path ∧
      (settle b x s).ring = s.ring ∧ (settle b x s).cmd = s.cmd ∧ (settle b x s).pending = s.pending := by
  unfold settle; (try dsimp only); (repeat' split) <;> simp

/-! ### The output path and the ring engine -/

@[simp] theorem raiseIfCrossed_frame (a b n : Nat) (s : State) :
    (raiseIfCrossed a b n s).pins = s.pins ∧ (raiseIfCrossed a b n s).ownId = s.ownId ∧ (raiseIfCrossed a b n s).present = s.present ∧
      (raiseIfCrossed a b n s).outbox = s.outbox ∧ (raiseIfCrossed a b n s).owner = s.owner ∧ (raiseIfCrossed a b n s).bank = s.bank ∧
      (raiseIfCrossed a b n s).dev = s.dev ∧ (raiseIfCrossed a b n s).tb = s.tb ∧ (raiseIfCrossed a b n s).chans = s.chans ∧
      (raiseIfCrossed a b n s).slots = s.slots ∧ (raiseIfCrossed a b n s).closeQueue = s.closeQueue ∧ (raiseIfCrossed a b n s).watchLimit = s.watchLimit ∧
      (raiseIfCrossed a b n s).path = s.path ∧ (raiseIfCrossed a b n s).ring = s.ring ∧ (raiseIfCrossed a b n s).cmd = s.cmd ∧
      (raiseIfCrossed a b n s).pending = s.pending := by
  unfold raiseIfCrossed; (repeat' split) <;> simp

@[simp] theorem moveToQueue_frame (x : Record) (l : List Record) (s : State) :
    (moveToQueue x l s).pins = s.pins ∧ (moveToQueue x l s).ownId = s.ownId ∧ (moveToQueue x l s).present = s.present ∧
      (moveToQueue x l s).outbox = s.outbox ∧ (moveToQueue x l s).owner = s.owner ∧ (moveToQueue x l s).bank = s.bank ∧
      (moveToQueue x l s).dev = s.dev ∧ (moveToQueue x l s).tb = s.tb ∧ (moveToQueue x l s).slots = s.slots ∧
      (moveToQueue x l s).closeQueue = s.closeQueue ∧ (moveToQueue x l s).watchLimit = s.watchLimit ∧ (moveToQueue x l s).ring = s.ring ∧
      (moveToQueue x l s).pending = s.pending := by
  simp [moveToQueue]

@[simp] theorem enterStaging_frame (i : SlotId) (l : List SlotId) (s : State) :
    (enterStaging i l s).pins = s.pins ∧ (enterStaging i l s).ownId = s.ownId ∧ (enterStaging i l s).present = s.present ∧
      (enterStaging i l s).outbox = s.outbox ∧ (enterStaging i l s).owner = s.owner ∧ (enterStaging i l s).bank = s.bank ∧
      (enterStaging i l s).dev = s.dev ∧ (enterStaging i l s).tb = s.tb ∧ (enterStaging i l s).watchLimit = s.watchLimit ∧
      (enterStaging i l s).ring = s.ring ∧ (enterStaging i l s).cmd = s.cmd ∧ (enterStaging i l s).ints = s.ints ∧
      (enterStaging i l s).pending = s.pending := by
  simp [enterStaging]

@[simp] theorem issueRecord_frame (u : WTag) (x : Record) (s : State) :
    (issueRecord u x s).pins = s.pins ∧ (issueRecord u x s).ownId = s.ownId ∧ (issueRecord u x s).present = s.present ∧
      (issueRecord u x s).owner = s.owner ∧ (issueRecord u x s).bank = s.bank ∧ (issueRecord u x s).dev = s.dev ∧
      (issueRecord u x s).tb = s.tb ∧ (issueRecord u x s).chans = s.chans ∧ (issueRecord u x s).slots = s.slots ∧
      (issueRecord u x s).closeQueue = s.closeQueue ∧ (issueRecord u x s).watchLimit = s.watchLimit ∧ (issueRecord u x s).path = s.path ∧
      (issueRecord u x s).cmd = s.cmd ∧ (issueRecord u x s).ints = s.ints ∧ (issueRecord u x s).pending = s.pending := by
  simp [issueRecord]

@[simp] theorem issueHead_frame (u : WTag) (x : Record) (l : List Record) (s : State) :
    (issueHead u x l s).pins = s.pins ∧ (issueHead u x l s).ownId = s.ownId ∧ (issueHead u x l s).present = s.present ∧
      (issueHead u x l s).owner = s.owner ∧ (issueHead u x l s).bank = s.bank ∧ (issueHead u x l s).dev = s.dev ∧
      (issueHead u x l s).tb = s.tb ∧ (issueHead u x l s).chans = s.chans ∧ (issueHead u x l s).slots = s.slots ∧
      (issueHead u x l s).closeQueue = s.closeQueue ∧ (issueHead u x l s).watchLimit = s.watchLimit ∧ (issueHead u x l s).cmd = s.cmd ∧
      (issueHead u x l s).ints = s.ints ∧ (issueHead u x l s).pending = s.pending := by
  simp [issueHead]

@[simp] theorem issueGap_frame (u : WTag) (s : State) :
    (issueGap u s).pins = s.pins ∧ (issueGap u s).ownId = s.ownId ∧ (issueGap u s).present = s.present ∧
      (issueGap u s).owner = s.owner ∧ (issueGap u s).bank = s.bank ∧ (issueGap u s).dev = s.dev ∧
      (issueGap u s).tb = s.tb ∧ (issueGap u s).chans = s.chans ∧ (issueGap u s).slots = s.slots ∧
      (issueGap u s).closeQueue = s.closeQueue ∧ (issueGap u s).watchLimit = s.watchLimit ∧ (issueGap u s).path = s.path ∧
      (issueGap u s).cmd = s.cmd ∧ (issueGap u s).ints = s.ints ∧ (issueGap u s).pending = s.pending := by
  simp [issueGap]

@[simp] theorem dropHead_frame (x : Record) (l : List Record) (s : State) :
    (dropHead x l s).pins = s.pins ∧ (dropHead x l s).ownId = s.ownId ∧ (dropHead x l s).present = s.present ∧
      (dropHead x l s).outbox = s.outbox ∧ (dropHead x l s).owner = s.owner ∧ (dropHead x l s).bank = s.bank ∧
      (dropHead x l s).tb = s.tb ∧ (dropHead x l s).slots = s.slots ∧ (dropHead x l s).closeQueue = s.closeQueue ∧
      (dropHead x l s).watchLimit = s.watchLimit ∧ (dropHead x l s).pending = s.pending := by
  simp [dropHead]

theorem queueOnce_frame (t : State) (s : State) (h : queueOnce s = some t) :
    (t).pins = s.pins ∧ (t).ownId = s.ownId ∧ (t).present = s.present ∧
      (t).outbox = s.outbox ∧ (t).owner = s.owner ∧ (t).bank = s.bank ∧
      (t).dev = s.dev ∧ (t).tb = s.tb ∧ (t).slots = s.slots ∧
      (t).closeQueue = s.closeQueue ∧ (t).watchLimit = s.watchLimit ∧ (t).ring = s.ring ∧
      (t).pending = s.pending := by
  unfold queueOnce at h
  repeat' split at h
  all_goals first | contradiction | (cases h; simp)

@[simp] theorem queueLoop_frame (k : Nat) (s : State) :
    (queueLoop k s).pins = s.pins ∧ (queueLoop k s).ownId = s.ownId ∧ (queueLoop k s).present = s.present ∧
      (queueLoop k s).outbox = s.outbox ∧ (queueLoop k s).owner = s.owner ∧ (queueLoop k s).bank = s.bank ∧
      (queueLoop k s).dev = s.dev ∧ (queueLoop k s).tb = s.tb ∧ (queueLoop k s).slots = s.slots ∧
      (queueLoop k s).closeQueue = s.closeQueue ∧ (queueLoop k s).watchLimit = s.watchLimit ∧ (queueLoop k s).ring = s.ring ∧
      (queueLoop k s).pending = s.pending := by
  induction k generalizing s with
  | zero => simp [queueLoop]
  | succ k ih =>
    unfold queueLoop
    split
    · simp
    · rename_i t h
      have h1 := queueOnce_frame t s h
      have h2 := ih t
      simp_all

theorem issueOnce_frame (t : State) (s : State) (h : issueOnce s = some t) :
    (t).pins = s.pins ∧ (t).ownId = s.ownId ∧ (t).present = s.present ∧
      (t).owner = s.owner ∧ (t).bank = s.bank ∧ (t).tb = s.tb ∧
      (t).slots = s.slots ∧ (t).closeQueue = s.closeQueue ∧ (t).watchLimit = s.watchLimit ∧
      (t).pending = s.pending := by
  unfold issueOnce at h
  repeat' split at h
  all_goals first | contradiction | (cases h; simp)

@[simp] theorem issueLoop_frame (k : Nat) (s : State) :
    (issueLoop k s).pins = s.pins ∧ (issueLoop k s).ownId = s.ownId ∧ (issueLoop k s).present = s.present ∧
      (issueLoop k s).owner = s.owner ∧ (issueLoop k s).bank = s.bank ∧ (issueLoop k s).tb = s.tb ∧
      (issueLoop k s).slots = s.slots ∧ (issueLoop k s).closeQueue = s.closeQueue ∧ (issueLoop k s).watchLimit = s.watchLimit ∧
      (issueLoop k s).pending = s.pending := by
  induction k generalizing s with
  | zero => simp [issueLoop]
  | succ k ih =>
    unfold issueLoop
    split
    · simp
    · rename_i t h
      have h1 := issueOnce_frame t s h
      have h2 := ih t
      simp_all

@[simp] theorem issueStep_frame (s : State) :
    (issueStep s).pins = s.pins ∧ (issueStep s).ownId = s.ownId ∧ (issueStep s).present = s.present ∧
      (issueStep s).owner = s.owner ∧ (issueStep s).bank = s.bank ∧ (issueStep s).tb = s.tb ∧
      (issueStep s).slots = s.slots ∧ (issueStep s).closeQueue = s.closeQueue ∧ (issueStep s).watchLimit = s.watchLimit ∧
      (issueStep s).pending = s.pending := by
  unfold issueStep; (repeat' split) <;> simp

@[simp] theorem destinationStep_frame (s : State) :
    (destinationStep s).pins = s.pins ∧ (destinationStep s).ownId = s.ownId ∧ (destinationStep s).present = s.present ∧
      (destinationStep s).owner = s.owner ∧ (destinationStep s).bank = s.bank ∧ (destinationStep s).tb = s.tb ∧
      (destinationStep s).slots = s.slots ∧ (destinationStep s).closeQueue = s.closeQueue ∧ (destinationStep s).watchLimit = s.watchLimit ∧
      (destinationStep s).pending = s.pending := by
  unfold destinationStep; (repeat' split) <;> simp

theorem entryOnce_frame (t : State) (s : State) (h : entryOnce s = some t) :
    (t).pins = s.pins ∧ (t).ownId = s.ownId ∧ (t).present = s.present ∧
      (t).outbox = s.outbox ∧ (t).owner = s.owner ∧ (t).bank = s.bank ∧
      (t).dev = s.dev ∧ (t).tb = s.tb ∧ (t).watchLimit = s.watchLimit ∧
      (t).ring = s.ring ∧ (t).cmd = s.cmd ∧ (t).ints = s.ints ∧
      (t).pending = s.pending := by
  unfold entryOnce at h
  repeat' split at h
  all_goals first | contradiction | (cases h; simp)

@[simp] theorem entryLoop_frame (k : Nat) (s : State) :
    (entryLoop k s).pins = s.pins ∧ (entryLoop k s).ownId = s.ownId ∧ (entryLoop k s).present = s.present ∧
      (entryLoop k s).outbox = s.outbox ∧ (entryLoop k s).owner = s.owner ∧ (entryLoop k s).bank = s.bank ∧
      (entryLoop k s).dev = s.dev ∧ (entryLoop k s).tb = s.tb ∧ (entryLoop k s).watchLimit = s.watchLimit ∧
      (entryLoop k s).ring = s.ring ∧ (entryLoop k s).cmd = s.cmd ∧ (entryLoop k s).ints = s.ints ∧
      (entryLoop k s).pending = s.pending := by
  induction k generalizing s with
  | zero => simp [entryLoop]
  | succ k ih =>
    unfold entryLoop
    split
    · simp
    · rename_i t h
      have h1 := entryOnce_frame t s h
      have h2 := ih t
      simp_all

@[simp] theorem advancePass_frame (s : State) :
    (advancePass s).pins = s.pins ∧ (advancePass s).ownId = s.ownId ∧ (advancePass s).present = s.present ∧
      (advancePass s).owner = s.owner ∧ (advancePass s).bank = s.bank ∧ (advancePass s).tb = s.tb ∧
      (advancePass s).watchLimit = s.watchLimit ∧ (advancePass s).pending = s.pending := by
  simp [advancePass, entryStep]

@[simp] theorem advanceLoop_frame (k : Nat) (s : State) :
    (advanceLoop k s).pins = s.pins ∧ (advanceLoop k s).ownId = s.ownId ∧ (advanceLoop k s).present = s.present ∧
      (advanceLoop k s).owner = s.owner ∧ (advanceLoop k s).bank = s.bank ∧ (advanceLoop k s).tb = s.tb ∧
      (advanceLoop k s).watchLimit = s.watchLimit ∧ (advanceLoop k s).pending = s.pending := by
  induction k generalizing s with
  | zero => simp [advanceLoop]
  | succ k ih =>
    unfold advanceLoop
    simp [ih]

@[simp] theorem advance_frame (s : State) :
    (advance s).pins = s.pins ∧ (advance s).ownId = s.ownId ∧ (advance s).present = s.present ∧
      (advance s).owner = s.owner ∧ (advance s).bank = s.bank ∧ (advance s).tb = s.tb ∧
      (advance s).watchLimit = s.watchLimit ∧ (advance s).pending = s.pending := by
  simp [advance]

@[simp] theorem issueWriteback_frame (s : State) :
    (issueWriteback s).pins = s.pins ∧ (issueWriteback s).ownId = s.ownId ∧ (issueWriteback s).present = s.present ∧
      (issueWriteback s).owner = s.owner ∧ (issueWriteback s).bank = s.bank ∧ (issueWriteback s).dev = s.dev ∧
      (issueWriteback s).tb = s.tb ∧ (issueWriteback s).chans = s.chans ∧ (issueWriteback s).slots = s.slots ∧
      (issueWriteback s).closeQueue = s.closeQueue ∧ (issueWriteback s).watchLimit = s.watchLimit ∧ (issueWriteback s).path = s.path ∧
      (issueWriteback s).cmd = s.cmd ∧ (issueWriteback s).ints = s.ints ∧ (issueWriteback s).pending = s.pending := by
  simp [issueWriteback]

@[simp] theorem writebackIfDue_frame (s : State) :
    (writebackIfDue s).pins = s.pins ∧ (writebackIfDue s).ownId = s.ownId ∧ (writebackIfDue s).present = s.present ∧
      (writebackIfDue s).owner = s.owner ∧ (writebackIfDue s).bank = s.bank ∧ (writebackIfDue s).dev = s.dev ∧
      (writebackIfDue s).tb = s.tb ∧ (writebackIfDue s).chans = s.chans ∧ (writebackIfDue s).slots = s.slots ∧
      (writebackIfDue s).closeQueue = s.closeQueue ∧ (writebackIfDue s).watchLimit = s.watchLimit ∧ (writebackIfDue s).path = s.path ∧
      (writebackIfDue s).cmd = s.cmd ∧ (writebackIfDue s).ints = s.ints ∧ (writebackIfDue s).pending = s.pending := by
  unfold writebackIfDue; (repeat' split) <;> simp

@[simp] theorem commitTag_frame (u : WTag) (s : State) :
    (commitTag u s).pins = s.pins ∧ (commitTag u s).ownId = s.ownId ∧ (commitTag u s).present = s.present ∧
      (commitTag u s).outbox = s.outbox ∧ (commitTag u s).owner = s.owner ∧ (commitTag u s).bank = s.bank ∧
      (commitTag u s).dev = s.dev ∧ (commitTag u s).tb = s.tb ∧ (commitTag u s).slots = s.slots ∧
      (commitTag u s).closeQueue = s.closeQueue ∧ (commitTag u s).watchLimit = s.watchLimit ∧ (commitTag u s).path = s.path ∧
      (commitTag u s).cmd = s.cmd ∧ (commitTag u s).pending = s.pending := by
  simp [commitTag]

theorem commitOnce_frame (t : State) (s : State) (h : commitOnce s = some t) :
    (t).pins = s.pins ∧ (t).ownId = s.ownId ∧ (t).present = s.present ∧
      (t).outbox = s.outbox ∧ (t).owner = s.owner ∧ (t).bank = s.bank ∧
      (t).dev = s.dev ∧ (t).tb = s.tb ∧ (t).slots = s.slots ∧
      (t).closeQueue = s.closeQueue ∧ (t).watchLimit = s.watchLimit ∧ (t).path = s.path ∧
      (t).cmd = s.cmd ∧ (t).pending = s.pending := by
  unfold commitOnce at h
  repeat' split at h
  all_goals first | contradiction | (cases h; simp)

@[simp] theorem commitLoop_frame (k : Nat) (s : State) :
    (commitLoop k s).pins = s.pins ∧ (commitLoop k s).ownId = s.ownId ∧ (commitLoop k s).present = s.present ∧
      (commitLoop k s).outbox = s.outbox ∧ (commitLoop k s).owner = s.owner ∧ (commitLoop k s).bank = s.bank ∧
      (commitLoop k s).dev = s.dev ∧ (commitLoop k s).tb = s.tb ∧ (commitLoop k s).slots = s.slots ∧
      (commitLoop k s).closeQueue = s.closeQueue ∧ (commitLoop k s).watchLimit = s.watchLimit ∧ (commitLoop k s).path = s.path ∧
      (commitLoop k s).cmd = s.cmd ∧ (commitLoop k s).pending = s.pending := by
  induction k generalizing s with
  | zero => simp [commitLoop]
  | succ k ih =>
    unfold commitLoop
    split
    · simp
    · rename_i t h
      have h1 := commitOnce_frame t s h
      have h2 := ih t
      simp_all

@[simp] theorem commitRun_frame (s : State) :
    (commitRun s).pins = s.pins ∧ (commitRun s).ownId = s.ownId ∧ (commitRun s).present = s.present ∧
      (commitRun s).owner = s.owner ∧ (commitRun s).bank = s.bank ∧ (commitRun s).tb = s.tb ∧
      (commitRun s).watchLimit = s.watchLimit ∧ (commitRun s).pending = s.pending := by
  unfold commitRun afterCommit
  split
  · simp
  · rename_i t h
    have := commitOnce_frame t s h
    simp_all

@[simp] theorem voidRecords_frame (l : List Record) (s : State) :
    (voidRecords l s).pins = s.pins ∧ (voidRecords l s).ownId = s.ownId ∧ (voidRecords l s).present = s.present ∧
      (voidRecords l s).outbox = s.outbox ∧ (voidRecords l s).owner = s.owner ∧ (voidRecords l s).bank = s.bank ∧
      (voidRecords l s).tb = s.tb ∧ (voidRecords l s).slots = s.slots ∧ (voidRecords l s).closeQueue = s.closeQueue ∧
      (voidRecords l s).watchLimit = s.watchLimit ∧ (voidRecords l s).path = s.path ∧ (voidRecords l s).cmd = s.cmd ∧
      (voidRecords l s).pending = s.pending := by
  unfold voidRecords
  dsimp only
  generalize h : State.setDev _ _ = t
  have ht : t.pins = s.pins ∧ t.ownId = s.ownId ∧ t.present = s.present ∧ t.outbox = s.outbox ∧ t.owner = s.owner ∧
      t.bank = s.bank ∧ t.tb = s.tb ∧ t.slots = s.slots ∧ t.closeQueue = s.closeQueue ∧
      t.watchLimit = s.watchLimit ∧ t.path = s.path ∧ t.cmd = s.cmd ∧ t.pending = s.pending := by
    subst h; simp
  clear h
  induction l generalizing t with
  | nil => simpa using ht
  | cons x l ih => exact ih _ (by simpa using ht)

@[simp] theorem ringFault_frame (a : RingCause) (b : BitVec 4) (k : Option WTag) (s : State) :
    (ringFault a b k s).pins = s.pins ∧ (ringFault a b k s).ownId = s.ownId ∧ (ringFault a b k s).present = s.present ∧
      (ringFault a b k s).outbox = s.outbox ∧ (ringFault a b k s).owner = s.owner ∧ (ringFault a b k s).bank = s.bank ∧
      (ringFault a b k s).tb = s.tb ∧ (ringFault a b k s).slots = s.slots ∧ (ringFault a b k s).closeQueue = s.closeQueue ∧
      (ringFault a b k s).watchLimit = s.watchLimit ∧ (ringFault a b k s).path = s.path ∧ (ringFault a b k s).pending = s.pending := by
  simp [ringFault]

@[simp] theorem afterTagFree_frame (s : State) :
    (afterTagFree s).pins = s.pins ∧ (afterTagFree s).ownId = s.ownId ∧ (afterTagFree s).present = s.present ∧
      (afterTagFree s).outbox = s.outbox ∧ (afterTagFree s).owner = s.owner ∧ (afterTagFree s).bank = s.bank ∧
      (afterTagFree s).dev = s.dev ∧ (afterTagFree s).tb = s.tb ∧ (afterTagFree s).chans = s.chans ∧
      (afterTagFree s).slots = s.slots ∧ (afterTagFree s).closeQueue = s.closeQueue ∧ (afterTagFree s).watchLimit = s.watchLimit ∧
      (afterTagFree s).path = s.path ∧ (afterTagFree s).pending = s.pending := by
  simp [afterTagFree]

@[simp] theorem freeOrphan_frame (u : WTag) (s : State) :
    (freeOrphan u s).pins = s.pins ∧ (freeOrphan u s).ownId = s.ownId ∧ (freeOrphan u s).present = s.present ∧
      (freeOrphan u s).outbox = s.outbox ∧ (freeOrphan u s).owner = s.owner ∧ (freeOrphan u s).bank = s.bank ∧
      (freeOrphan u s).dev = s.dev ∧ (freeOrphan u s).tb = s.tb ∧ (freeOrphan u s).chans = s.chans ∧
      (freeOrphan u s).slots = s.slots ∧ (freeOrphan u s).closeQueue = s.closeQueue ∧ (freeOrphan u s).watchLimit = s.watchLimit ∧
      (freeOrphan u s).path = s.path ∧ (freeOrphan u s).pending = s.pending := by
  simp [freeOrphan]

@[simp] theorem completeWriteback_frame (s : State) :
    (completeWriteback s).pins = s.pins ∧ (completeWriteback s).ownId = s.ownId ∧ (completeWriteback s).present = s.present ∧
      (completeWriteback s).owner = s.owner ∧ (completeWriteback s).bank = s.bank ∧ (completeWriteback s).dev = s.dev ∧
      (completeWriteback s).tb = s.tb ∧ (completeWriteback s).chans = s.chans ∧ (completeWriteback s).slots = s.slots ∧
      (completeWriteback s).closeQueue = s.closeQueue ∧ (completeWriteback s).watchLimit = s.watchLimit ∧ (completeWriteback s).path = s.path ∧
      (completeWriteback s).pending = s.pending := by
  unfold completeWriteback; (try dsimp only); (repeat' split) <;> simp

@[simp] theorem completeTag_frame (u : WTag) (s : State) :
    (completeTag u s).pins = s.pins ∧ (completeTag u s).ownId = s.ownId ∧ (completeTag u s).present = s.present ∧
      (completeTag u s).owner = s.owner ∧ (completeTag u s).bank = s.bank ∧ (completeTag u s).tb = s.tb ∧
      (completeTag u s).watchLimit = s.watchLimit ∧ (completeTag u s).pending = s.pending := by
  unfold completeTag; (try dsimp only); (repeat' split) <;> simp

@[simp] theorem bounceTag_frame (u : WTag) (s : State) :
    (bounceTag u s).pins = s.pins ∧ (bounceTag u s).ownId = s.ownId ∧ (bounceTag u s).present = s.present ∧
      (bounceTag u s).outbox = s.outbox ∧ (bounceTag u s).owner = s.owner ∧ (bounceTag u s).bank = s.bank ∧
      (bounceTag u s).tb = s.tb ∧ (bounceTag u s).slots = s.slots ∧ (bounceTag u s).closeQueue = s.closeQueue ∧
      (bounceTag u s).watchLimit = s.watchLimit ∧ (bounceTag u s).path = s.path ∧ (bounceTag u s).pending = s.pending := by
  unfold bounceTag; (try dsimp only); (repeat' split) <;> simp

@[simp] theorem replyToTag_frame (u : WTag) (b : ReplyBody) (s : State) :
    (replyToTag u b s).pins = s.pins ∧ (replyToTag u b s).ownId = s.ownId ∧ (replyToTag u b s).present = s.present ∧
      (replyToTag u b s).owner = s.owner ∧ (replyToTag u b s).bank = s.bank ∧ (replyToTag u b s).tb = s.tb ∧
      (replyToTag u b s).watchLimit = s.watchLimit ∧ (replyToTag u b s).pending = s.pending := by
  unfold replyToTag replyToIssued; (try dsimp only); (repeat' split) <;> simp

@[simp] theorem ownReply_frame (r : Reply) (s : State) :
    (ownReply r s).pins = s.pins ∧ (ownReply r s).ownId = s.ownId ∧ (ownReply r s).present = s.present ∧
      (ownReply r s).owner = s.owner ∧ (ownReply r s).bank = s.bank ∧ (ownReply r s).tb = s.tb ∧
      (ownReply r s).watchLimit = s.watchLimit ∧ (ownReply r s).pending = s.pending := by
  unfold ownReply; (try dsimp only); (repeat' split) <;> simp

@[simp] theorem reissueTag_frame (u : WTag) (s : State) :
    (reissueTag s u).pins = s.pins ∧ (reissueTag s u).ownId = s.ownId ∧ (reissueTag s u).present = s.present ∧
      (reissueTag s u).owner = s.owner ∧ (reissueTag s u).bank = s.bank ∧ (reissueTag s u).dev = s.dev ∧
      (reissueTag s u).tb = s.tb ∧ (reissueTag s u).chans = s.chans ∧ (reissueTag s u).slots = s.slots ∧
      (reissueTag s u).closeQueue = s.closeQueue ∧ (reissueTag s u).watchLimit = s.watchLimit ∧ (reissueTag s u).path = s.path ∧
      (reissueTag s u).cmd = s.cmd ∧ (reissueTag s u).ints = s.ints ∧ (reissueTag s u).pending = s.pending := by
  unfold reissueTag; (try dsimp only); (repeat' split) <;> simp

@[simp] theorem tickBackoff_frame (u : WTag) (s : State) :
    (tickBackoff s u).pins = s.pins ∧ (tickBackoff s u).ownId = s.ownId ∧ (tickBackoff s u).present = s.present ∧
      (tickBackoff s u).owner = s.owner ∧ (tickBackoff s u).bank = s.bank ∧ (tickBackoff s u).dev = s.dev ∧
      (tickBackoff s u).tb = s.tb ∧ (tickBackoff s u).chans = s.chans ∧ (tickBackoff s u).slots = s.slots ∧
      (tickBackoff s u).closeQueue = s.closeQueue ∧ (tickBackoff s u).watchLimit = s.watchLimit ∧ (tickBackoff s u).path = s.path ∧
      (tickBackoff s u).cmd = s.cmd ∧ (tickBackoff s u).ints = s.ints ∧ (tickBackoff s u).pending = s.pending := by
  unfold tickBackoff; (try dsimp only); (repeat' split) <;> simp

@[simp] theorem limitTest_frame (u : WTag) (s : State) :
    (limitTest u s).pins = s.pins ∧ (limitTest u s).ownId = s.ownId ∧ (limitTest u s).present = s.present ∧
      (limitTest u s).outbox = s.outbox ∧ (limitTest u s).owner = s.owner ∧ (limitTest u s).bank = s.bank ∧
      (limitTest u s).tb = s.tb ∧ (limitTest u s).slots = s.slots ∧ (limitTest u s).closeQueue = s.closeQueue ∧
      (limitTest u s).watchLimit = s.watchLimit ∧ (limitTest u s).path = s.path ∧ (limitTest u s).pending = s.pending := by
  unfold limitTest timeoutTag expireOrphan; (repeat' split) <;> simp

@[simp] theorem tickAge_frame (g : Ring) (u : WTag) (s : State) :
    (tickAge g s u).pins = s.pins ∧ (tickAge g s u).ownId = s.ownId ∧ (tickAge g s u).present = s.present ∧
      (tickAge g s u).outbox = s.outbox ∧ (tickAge g s u).owner = s.owner ∧ (tickAge g s u).bank = s.bank ∧
      (tickAge g s u).tb = s.tb ∧ (tickAge g s u).slots = s.slots ∧ (tickAge g s u).closeQueue = s.closeQueue ∧
      (tickAge g s u).watchLimit = s.watchLimit ∧ (tickAge g s u).path = s.path ∧ (tickAge g s u).pending = s.pending := by
  unfold tickAge; (try dsimp only); (repeat' split) <;> simp

@[simp] theorem tickRing_frame (g : Ring) (s : State) :
    (tickRing g s).pins = s.pins ∧ (tickRing g s).ownId = s.ownId ∧ (tickRing g s).present = s.present ∧
      (tickRing g s).owner = s.owner ∧ (tickRing g s).bank = s.bank ∧ (tickRing g s).tb = s.tb ∧
      (tickRing g s).slots = s.slots ∧ (tickRing g s).closeQueue = s.closeQueue ∧ (tickRing g s).watchLimit = s.watchLimit ∧
      (tickRing g s).path = s.path ∧ (tickRing g s).pending = s.pending := by
  simp [tickRing, allTags]

@[simp] theorem startRing_frame (b : Bool) (s : State) :
    (startRing b s).pins = s.pins ∧ (startRing b s).ownId = s.ownId ∧ (startRing b s).present = s.present ∧
      (startRing b s).owner = s.owner ∧ (startRing b s).bank = s.bank ∧ (startRing b s).tb = s.tb ∧
      (startRing b s).watchLimit = s.watchLimit ∧ (startRing b s).pending = s.pending := by
  unfold startRing; (try dsimp only); (repeat' split) <;> simp

@[simp] theorem stopRing_frame (s : State) :
    (stopRing s).pins = s.pins ∧ (stopRing s).ownId = s.ownId ∧ (stopRing s).present = s.present ∧
      (stopRing s).outbox = s.outbox ∧ (stopRing s).owner = s.owner ∧ (stopRing s).bank = s.bank ∧
      (stopRing s).dev = s.dev ∧ (stopRing s).tb = s.tb ∧ (stopRing s).chans = s.chans ∧
      (stopRing s).slots = s.slots ∧ (stopRing s).closeQueue = s.closeQueue ∧ (stopRing s).watchLimit = s.watchLimit ∧
      (stopRing s).path = s.path ∧ (stopRing s).pending = s.pending := by
  simp [stopRing]

@[simp] theorem freeOrphanOf_frame (n : Node) (u : WTag) (s : State) :
    (freeOrphanOf n s u).pins = s.pins ∧ (freeOrphanOf n s u).ownId = s.ownId ∧ (freeOrphanOf n s u).present = s.present ∧
      (freeOrphanOf n s u).outbox = s.outbox ∧ (freeOrphanOf n s u).owner = s.owner ∧ (freeOrphanOf n s u).bank = s.bank ∧
      (freeOrphanOf n s u).dev = s.dev ∧ (freeOrphanOf n s u).tb = s.tb ∧ (freeOrphanOf n s u).chans = s.chans ∧
      (freeOrphanOf n s u).slots = s.slots ∧ (freeOrphanOf n s u).closeQueue = s.closeQueue ∧ (freeOrphanOf n s u).watchLimit = s.watchLimit ∧
      (freeOrphanOf n s u).path = s.path ∧ (freeOrphanOf n s u).pending = s.pending := by
  unfold freeOrphanOf; (repeat' split) <;> simp

@[simp] theorem ringWithdraw_frame (n : Node) (s : State) :
    (ringWithdraw n s).pins = s.pins ∧ (ringWithdraw n s).ownId = s.ownId ∧ (ringWithdraw n s).present = s.present ∧
      (ringWithdraw n s).outbox = s.outbox ∧ (ringWithdraw n s).owner = s.owner ∧ (ringWithdraw n s).bank = s.bank ∧
      (ringWithdraw n s).tb = s.tb ∧ (ringWithdraw n s).slots = s.slots ∧ (ringWithdraw n s).closeQueue = s.closeQueue ∧
      (ringWithdraw n s).watchLimit = s.watchLimit ∧ (ringWithdraw n s).path = s.path ∧ (ringWithdraw n s).pending = s.pending := by
  unfold ringWithdraw; (repeat' split) <;> simp [allTags]

@[simp] theorem ringBackplaneReset_frame (s : State) :
    (ringBackplaneReset s).pins = s.pins ∧ (ringBackplaneReset s).ownId = s.ownId ∧ (ringBackplaneReset s).present = s.present ∧
      (ringBackplaneReset s).outbox = s.outbox ∧ (ringBackplaneReset s).owner = s.owner ∧ (ringBackplaneReset s).bank = s.bank ∧
      (ringBackplaneReset s).tb = s.tb ∧ (ringBackplaneReset s).slots = s.slots ∧ (ringBackplaneReset s).closeQueue = s.closeQueue ∧
      (ringBackplaneReset s).watchLimit = s.watchLimit ∧ (ringBackplaneReset s).path = s.path ∧ (ringBackplaneReset s).pending = s.pending := by
  unfold ringBackplaneReset; (repeat' split) <;> simp

@[simp] theorem writeConsumer_frame (v : BitVec 17) (s : State) :
    (writeConsumer v s).pins = s.pins ∧ (writeConsumer v s).ownId = s.ownId ∧ (writeConsumer v s).present = s.present ∧
      (writeConsumer v s).owner = s.owner ∧ (writeConsumer v s).bank = s.bank ∧ (writeConsumer v s).tb = s.tb ∧
      (writeConsumer v s).watchLimit = s.watchLimit ∧ (writeConsumer v s).pending = s.pending := by
  unfold writeConsumer; (try dsimp only); (repeat' split) <;> simp

/-! ### The slots -/

@[simp] theorem closeSlot_frame (i : SlotId) (e : Ending) (s : State) :
    (closeSlot i e s).pins = s.pins ∧ (closeSlot i e s).ownId = s.ownId ∧ (closeSlot i e s).present = s.present ∧
      (closeSlot i e s).owner = s.owner ∧ (closeSlot i e s).bank = s.bank ∧ (closeSlot i e s).tb = s.tb ∧
      (closeSlot i e s).watchLimit = s.watchLimit ∧ (closeSlot i e s).pending = s.pending := by
  unfold closeSlot; (try dsimp only); (repeat' split) <;> simp

@[simp] theorem supersede_frame (i : SlotId) (s : State) :
    (supersede i s).pins = s.pins ∧ (supersede i s).ownId = s.ownId ∧ (supersede i s).present = s.present ∧
      (supersede i s).owner = s.owner ∧ (supersede i s).bank = s.bank ∧ (supersede i s).tb = s.tb ∧
      (supersede i s).watchLimit = s.watchLimit ∧ (supersede i s).pending = s.pending := by
  unfold supersede countAnomaly; (try dsimp only); (repeat' split) <;> simp

@[simp] theorem watchMatch_frame (r : Request) (s : State) :
    (watchMatch r s).pins = s.pins ∧ (watchMatch r s).ownId = s.ownId ∧ (watchMatch r s).present = s.present ∧
      (watchMatch r s).owner = s.owner ∧ (watchMatch r s).bank = s.bank ∧ (watchMatch r s).tb = s.tb ∧
      (watchMatch r s).watchLimit = s.watchLimit ∧ (watchMatch r s).pending = s.pending := by
  unfold watchMatch reopen; (try dsimp only); (repeat' split) <;> simp

@[simp] theorem snoopRequest_frame (r : Request) (s : State) :
    (snoopRequest r s).pins = s.pins ∧ (snoopRequest r s).ownId = s.ownId ∧ (snoopRequest r s).present = s.present ∧
      (snoopRequest r s).owner = s.owner ∧ (snoopRequest r s).bank = s.bank ∧ (snoopRequest r s).watchLimit = s.watchLimit ∧
      (snoopRequest r s).pending = s.pending := by
  unfold snoopRequest closeUnreplied; (repeat' split) <;> simp

@[simp] theorem replyToSlot_frame (i : SlotId) (b : ReplyBody) (s : State) :
    (replyToSlot i b s).pins = s.pins ∧ (replyToSlot i b s).ownId = s.ownId ∧ (replyToSlot i b s).present = s.present ∧
      (replyToSlot i b s).owner = s.owner ∧ (replyToSlot i b s).bank = s.bank ∧ (replyToSlot i b s).tb = s.tb ∧
      (replyToSlot i b s).watchLimit = s.watchLimit ∧ (replyToSlot i b s).pending = s.pending := by
  unfold replyToSlot countStray bounceSlot faultSlot completeSlot countAnomaly; (try dsimp only); (repeat' split) <;> simp

@[simp] theorem snoopReply_frame (r : Reply) (s : State) :
    (snoopReply r s).pins = s.pins ∧ (snoopReply r s).ownId = s.ownId ∧ (snoopReply r s).present = s.present ∧
      (snoopReply r s).owner = s.owner ∧ (snoopReply r s).bank = s.bank ∧ (snoopReply r s).tb = s.tb ∧
      (snoopReply r s).watchLimit = s.watchLimit ∧ (snoopReply r s).pending = s.pending := by
  unfold snoopReply countStray; (try dsimp only); (repeat' split) <;> simp

@[simp] theorem expireSlot_frame (i : SlotId) (s : State) :
    (expireSlot s i).pins = s.pins ∧ (expireSlot s i).ownId = s.ownId ∧ (expireSlot s i).present = s.present ∧
      (expireSlot s i).owner = s.owner ∧ (expireSlot s i).bank = s.bank ∧ (expireSlot s i).tb = s.tb ∧
      (expireSlot s i).watchLimit = s.watchLimit ∧ (expireSlot s i).pending = s.pending := by
  unfold expireSlot; (try dsimp only); (repeat' split) <;> simp

@[simp] theorem tickSlots_frame (s : State) :
    (tickSlots s).pins = s.pins ∧ (tickSlots s).ownId = s.ownId ∧ (tickSlots s).present = s.present ∧
      (tickSlots s).owner = s.owner ∧ (tickSlots s).bank = s.bank ∧ (tickSlots s).tb = s.tb ∧
      (tickSlots s).watchLimit = s.watchLimit ∧ (tickSlots s).pending = s.pending := by
  simp [tickSlots, slotIds, ageSlot]

@[simp] theorem abandonSlot_frame (n : Node) (i : SlotId) (s : State) :
    (abandonSlot n s i).pins = s.pins ∧ (abandonSlot n s i).ownId = s.ownId ∧ (abandonSlot n s i).present = s.present ∧
      (abandonSlot n s i).owner = s.owner ∧ (abandonSlot n s i).bank = s.bank ∧ (abandonSlot n s i).tb = s.tb ∧
      (abandonSlot n s i).watchLimit = s.watchLimit ∧ (abandonSlot n s i).pending = s.pending := by
  unfold abandonSlot; (repeat' split) <;> simp

@[simp] theorem abandonNode_frame (n : Node) (s : State) :
    (abandonNode n s).pins = s.pins ∧ (abandonNode n s).ownId = s.ownId ∧ (abandonNode n s).present = s.present ∧
      (abandonNode n s).owner = s.owner ∧ (abandonNode n s).bank = s.bank ∧ (abandonNode n s).tb = s.tb ∧
      (abandonNode n s).watchLimit = s.watchLimit ∧ (abandonNode n s).pending = s.pending := by
  simp [abandonNode, slotIds]

@[simp] theorem discardSlot_frame (i : SlotId) (s : State) :
    (discardSlot i s).pins = s.pins ∧ (discardSlot i s).ownId = s.ownId ∧ (discardSlot i s).present = s.present ∧
      (discardSlot i s).outbox = s.outbox ∧ (discardSlot i s).owner = s.owner ∧ (discardSlot i s).bank = s.bank ∧
      (discardSlot i s).tb = s.tb ∧ (discardSlot i s).watchLimit = s.watchLimit ∧ (discardSlot i s).path = s.path ∧
      (discardSlot i s).ring = s.ring ∧ (discardSlot i s).cmd = s.cmd ∧ (discardSlot i s).ints = s.ints ∧
      (discardSlot i s).pending = s.pending := by
  simp [discardSlot]

@[simp] theorem freeVisit_frame (f : ChanId → Bool) (r : RunState) (i : SlotId) (s : State) :
    (freeVisit f r s i).pins = s.pins ∧ (freeVisit f r s i).ownId = s.ownId ∧ (freeVisit f r s i).present = s.present ∧
      (freeVisit f r s i).outbox = s.outbox ∧ (freeVisit f r s i).owner = s.owner ∧ (freeVisit f r s i).bank = s.bank ∧
      (freeVisit f r s i).tb = s.tb ∧ (freeVisit f r s i).watchLimit = s.watchLimit ∧ (freeVisit f r s i).path = s.path ∧
      (freeVisit f r s i).ring = s.ring ∧ (freeVisit f r s i).cmd = s.cmd ∧ (freeVisit f r s i).ints = s.ints ∧
      (freeVisit f r s i).pending = s.pending := by
  unfold freeVisit; (try dsimp only); (repeat' split) <;> simp

@[simp] theorem freeSlots_frame (f : ChanId → Bool) (r : RunState) (s : State) :
    (freeSlots f r s).pins = s.pins ∧ (freeSlots f r s).ownId = s.ownId ∧ (freeSlots f r s).present = s.present ∧
      (freeSlots f r s).outbox = s.outbox ∧ (freeSlots f r s).owner = s.owner ∧ (freeSlots f r s).bank = s.bank ∧
      (freeSlots f r s).tb = s.tb ∧ (freeSlots f r s).watchLimit = s.watchLimit ∧ (freeSlots f r s).path = s.path ∧
      (freeSlots f r s).ring = s.ring ∧ (freeSlots f r s).cmd = s.cmd ∧ (freeSlots f r s).ints = s.ints ∧
      (freeSlots f r s).pending = s.pending := by
  simp [freeSlots, slotIds]

/-! ### The scopes of RESET, and the commands -/

@[simp] theorem scopeSampling_frame (s : State) :
    (scopeSampling s).pins = s.pins ∧ (scopeSampling s).ownId = s.ownId ∧ (scopeSampling s).present = s.present ∧
      (scopeSampling s).outbox = s.outbox ∧ (scopeSampling s).owner = s.owner ∧ (scopeSampling s).bank = s.bank ∧
      (scopeSampling s).tb = s.tb ∧ (scopeSampling s).watchLimit = s.watchLimit ∧ (scopeSampling s).path = s.path ∧
      (scopeSampling s).ring = s.ring ∧ (scopeSampling s).cmd = s.cmd ∧ (scopeSampling s).ints = s.ints ∧
      (scopeSampling s).pending = s.pending := by
  simp [scopeSampling, chanIds, resetChannel]

@[simp] theorem scopeStatistics_frame (s : State) :
    (scopeStatistics s).pins = s.pins ∧ (scopeStatistics s).ownId = s.ownId ∧ (scopeStatistics s).present = s.present ∧
      (scopeStatistics s).outbox = s.outbox ∧ (scopeStatistics s).owner = s.owner ∧ (scopeStatistics s).bank = s.bank ∧
      (scopeStatistics s).tb = s.tb ∧ (scopeStatistics s).slots = s.slots ∧ (scopeStatistics s).closeQueue = s.closeQueue ∧
      (scopeStatistics s).watchLimit = s.watchLimit ∧ (scopeStatistics s).path = s.path ∧ (scopeStatistics s).ring = s.ring ∧
      (scopeStatistics s).cmd = s.cmd ∧ (scopeStatistics s).ints = s.ints ∧ (scopeStatistics s).pending = s.pending := by
  simp [scopeStatistics, chanIds, zeroStats]

@[simp] theorem scopeInterrupts_frame (s : State) :
    (scopeInterrupts s).pins = s.pins ∧ (scopeInterrupts s).ownId = s.ownId ∧ (scopeInterrupts s).present = s.present ∧
      (scopeInterrupts s).outbox = s.outbox ∧ (scopeInterrupts s).owner = s.owner ∧ (scopeInterrupts s).bank = s.bank ∧
      (scopeInterrupts s).dev = s.dev ∧ (scopeInterrupts s).tb = s.tb ∧ (scopeInterrupts s).chans = s.chans ∧
      (scopeInterrupts s).slots = s.slots ∧ (scopeInterrupts s).closeQueue = s.closeQueue ∧ (scopeInterrupts s).watchLimit = s.watchLimit ∧
      (scopeInterrupts s).path = s.path ∧ (scopeInterrupts s).ring = s.ring ∧ (scopeInterrupts s).cmd = s.cmd ∧
      (scopeInterrupts s).pending = s.pending := by
  simp [scopeInterrupts]

@[simp] theorem scopeOutput_frame (s : State) :
    (scopeOutput s).pins = s.pins ∧ (scopeOutput s).ownId = s.ownId ∧ (scopeOutput s).present = s.present ∧
      (scopeOutput s).owner = s.owner ∧ (scopeOutput s).bank = s.bank ∧ (scopeOutput s).tb = s.tb ∧
      (scopeOutput s).watchLimit = s.watchLimit ∧ (scopeOutput s).pending = s.pending := by
  unfold scopeOutput
  dsimp only
  have h : ∀ (l : List Record) (t : State), t.pins = s.pins ∧ t.ownId = s.ownId ∧ t.present = s.present ∧
      t.owner = s.owner ∧ t.bank = s.bank ∧ t.tb = s.tb ∧ t.watchLimit = s.watchLimit ∧ t.pending = s.pending →
      let q := l.foldl discardStaged t
      q.pins = s.pins ∧ q.ownId = s.ownId ∧ q.present = s.present ∧
      q.owner = s.owner ∧ q.bank = s.bank ∧ q.tb = s.tb ∧ q.watchLimit = s.watchLimit ∧ q.pending = s.pending := by
    intro l
    induction l with
    | nil => exact fun t ht => ht
    | cons x l ih => exact fun t ht => ih _ (by simpa [discardStaged] using ht)
  have := h s.path.staging (s.setPath { s.path with results := [] }) (by simp)
  simp_all

@[simp] theorem runCommand_frame (c : Command) (v : Word) (s : State) :
    (runCommand c v s).pins = s.pins ∧ (runCommand c v s).ownId = s.ownId ∧ (runCommand c v s).present = s.present ∧
      (runCommand c v s).owner = s.owner ∧ (runCommand c v s).bank = s.bank ∧ (runCommand c v s).watchLimit = s.watchLimit ∧
      (runCommand c v s).pending = s.pending := by
  cases c <;> simp only [runCommand, cmdStart, cmdPause, cmdArm, cmdDisarm, cmdRelease, cmdPurge, cmdSnapshot, cmdReadWatch,
    cmdSetTime, cmdRingStart, cmdRingStop, cmdDrain, cmdSelectOutput, cmdReset, applyScopes, whenScope] <;>
    (repeat' split) <;> simp

end Sys2Proof.Machine
end

