-- ==== Sys2Proof/Laws/Words.lean ====
section
/-! SUPPORT. Laws of the bit-field helpers, the byte order of words, arithmetic modulo 2N, and the register map. -/

namespace Sys2Proof.Machine

/-! ### Masks -/

theorem has_withBit {n : Nat} (m : BitVec n) (i j : Nat) (h : j < n) : has (withBit m i) j = (has m j || decide (i = j)) := by
  unfold has withBit
  rw [BitVec.getLsbD_or, BitVec.getLsbD_shiftLeft, BitVec.getLsbD_one]
  by_cases e : i = j
  · subst e; simp [h]; omega
  · have : ¬(i ≤ j ∧ j - i = 0) := by omega
    simp [h, e]
    omega

theorem has_withoutBit {n : Nat} (m : BitVec n) (i j : Nat) (h : j < n) :
    has (withoutBit m i) j = (has m j && !decide (i = j)) := by
  unfold has withoutBit
  rw [BitVec.getLsbD_and, BitVec.getLsbD_not, BitVec.getLsbD_shiftLeft, BitVec.getLsbD_one]
  by_cases e : i = j
  · subst e; simp [h]; omega
  · have : ¬(i ≤ j ∧ j - i = 0) := by omega
    simp [h, e]
    omega

/-- Setting a bit that is set changes nothing. -/
theorem withBit_of_has {n : Nat} (m : BitVec n) (i : Nat) (h : has m i = true) : withBit m i = m := by
  apply BitVec.eq_of_getLsbD_eq
  intro j hj
  have := has_withBit m i j hj
  unfold has at this h
  rw [this]
  by_cases e : i = j
  · subst e; simp [h]
  · simp [e]

/-! ### Words and bytes -/

/-- A word's bytes, taken as a word again, are the word. -/
@[simp] theorem wordOfBytes_wordBytes (v : Word) : wordOfBytes (wordBytes v) = v := by
  unfold wordBytes wordOfBytes
  apply BitVec.eq_of_getLsbD_eq
  intro j hj
  simp only [BitVec.getLsbD_append, BitVec.getLsbD_extractLsb']
  by_cases h1 : j < 8
  · simp [h1]
  · by_cases h2 : j < 16
    · have : j - 8 < 8 := by omega
      simp [h1, this, show 8 + (j - 8) = j by omega]
    · by_cases h3 : j < 24
      · have a : ¬(j - 8 < 8) := by omega
        have b : j - 8 - 8 < 8 := by omega
        simp [h1, a, b, show 16 + (j - 8 - 8) = j by omega]
      · have a : ¬(j - 8 < 8) := by omega
        have b : ¬(j - 8 - 8 < 8) := by omega
        have c : j - 8 - 8 - 8 < 8 := by omega
        simp [h1, a, b, c, show 24 + (j - 8 - 8 - 8) = j by omega]

@[simp] theorem wordBytes_length (v : Word) : (wordBytes v).length = 4 := rfl

/-! ### Arithmetic modulo m -/

/-- The difference modulo m is the Euclidean remainder of the difference of integers. -/
theorem subMod_eq_emod (a b m : Nat) (h : 0 < m) : ((subMod a b m : Nat) : Int) = ((a : Int) - b) % (m : Int) := by
  unfold subMod
  have hb : b % m ≤ m := (Nat.mod_lt b h).le
  push_cast [Nat.cast_sub hb]
  conv_rhs => rw [Int.sub_emod, ← Int.add_emod_right]
  congr 1
  ring

theorem subMod_lt (a b m : Nat) (h : 0 < m) : subMod a b m < m := Nat.mod_lt _ h

theorem subMod_self (a m : Nat) (h : 0 < m) : subMod a a m = 0 := by
  unfold subMod
  rw [Nat.add_sub_cancel' (Nat.mod_lt a h).le, Nat.mod_self]

/-! ### The register map -/

/-- The offset of an address with a page above it. -/
@[simp] theorem offsetOf_append (page : BitVec 22) (off : BitVec 10) : offsetOf (page ++ off) = off.toNat := by
  unfold offsetOf
  have h : (page ++ off).toNat = page.toNat * 1024 + off.toNat := by
    rw [BitVec.toNat_append, Nat.shiftLeft_eq, Nat.mul_comm, ← Nat.two_pow_add_eq_or_of_lt off.isLt]
  rw [h]
  have := off.isLt
  omega

/-- The register of a window row is the one at its offset. -/
theorem ofOffset_offset (g : Reg) (h : g ∈ [Reg.claim, .relinquish, .cmdPort, .resultPort, .cmdCancel, .consumer,
    .queueData, .queuePtr, .intCtrl, .ack, .endSvc, .marker]) : Reg.ofOffset g.offset.toNat = some g := by
  fin_cases h <;> decide

/-! ### The beats of the window rows -/

/-- The beat of a write row is well-formed. -/
@[simp] theorem writerBeat_wf (w : Writer) (g : Reg) (v : Word) (own : Node) : (writerBeat w g v own).wf = true := by
  unfold writerBeat
  cases w.posted <;> simp [Request.wf, Request.targetOk, Request.payloadOk, wordBytes, ReqKind.hasPayload, lengthOk]

/-- The beat of a read row is well-formed. -/
@[simp] theorem readerBeat_wf (r : Reader) (g : Reg) (own : Node) : (readerBeat r g own).wf = true := by
  simp [readerBeat, Request.wf, Request.targetOk, Request.payloadOk, ReqKind.hasPayload, lengthOk]

@[simp] theorem writtenWord_writerBeat (w : Writer) (g : Reg) (v : Word) (own : Node) :
    writtenWord (writerBeat w g v own) = v := by
  simp [writtenWord, writerBeat]

end Sys2Proof.Machine
end

