-- ==== Sys2Proof/Laws/Views.lean ====
section
/-! SUPPORT. The decisions that the operations take, said as propositions: searches over slots, tags and sources, the
qualification of a request, the drain condition, and the fill. -/

namespace Sys2Proof.Machine

/-! ### Searches in ascending number -/

/-- A search over an ascending list finds i exactly when i passes and no lower member does. -/
theorem find_ascending {n : Nat} (l : List (Fin n)) (p : Fin n → Bool) (h : l.Pairwise (· < ·)) (i : Fin n) :
    l.find? p = some i ↔ i ∈ l ∧ p i = true ∧ ∀ j ∈ l, j < i → p j = false := by
  induction l with
  | nil => simp
  | cons a l ih =>
    rw [List.pairwise_cons] at h
    rw [List.find?_cons]
    cases ha : p a
    · rw [ih h.2]
      constructor
      · rintro ⟨hi, hp, hj⟩
        refine ⟨List.mem_cons_of_mem _ hi, hp, ?_⟩
        rintro j (_ | ⟨_, hm⟩) hlt
        · exact ha
        · exact hj j hm hlt
      · rintro ⟨hi, hp, hj⟩
        refine ⟨?_, hp, fun j hm => hj j (List.mem_cons_of_mem _ hm)⟩
        rcases List.mem_cons.1 hi with rfl | hi
        · rw [ha] at hp; cases hp
        · exact hi
    · constructor
      · rintro h2
        cases h2
        refine ⟨List.mem_cons_self, ha, ?_⟩
        rintro j (_ | ⟨_, hm⟩) hlt
        · exact absurd hlt (lt_irrefl _)
        · exact absurd (h.1 j hm) (not_lt.2 hlt.le)
      · rintro ⟨hi, hp, hj⟩
        rcases List.mem_cons.1 hi with rfl | hi
        · rfl
        · have := hj a List.mem_cons_self (h.1 i hi)
          rw [ha] at this
          cases this

@[simp] theorem mem_slotIds (i : SlotId) : i ∈ slotIds := by revert i; decide
@[simp] theorem mem_chanIds (c : ChanId) : c ∈ chanIds := by revert c; decide
@[simp] theorem mem_allTags (u : WTag) : u ∈ allTags := by revert u; decide
@[simp] theorem mem_sources (k : Source) : k ∈ sources := by revert k; decide
theorem mem_recTags (u : WTag) : u ∈ recTags ↔ u < 4 := by revert u; decide

theorem slotIds_ascending : slotIds.Pairwise (· < ·) := by decide
theorem recTags_ascending : recTags.Pairwise (· < ·) := by decide
theorem sources_ascending : sources.Pairwise (· < ·) := by decide

/-- The lowest FREE slot (R73). -/
theorem State.freeSlot_eq_some (s : State) (i : SlotId) :
    s.freeSlot = some i ↔ (s.slot i).state = .free ∧ ∀ j, j < i → (s.slot j).state ≠ .free := by
  simp [State.freeSlot, find_ascending _ _ slotIds_ascending]

theorem State.freeSlot_eq_none (s : State) : s.freeSlot = none ↔ ∀ i, (s.slot i).state ≠ .free := by
  simp [State.freeSlot, List.find?_eq_none]

/-- The slot RESERVED for a channel (R53). -/
theorem State.reservedSlot_eq_some (s : State) (c : ChanId) (i : SlotId) :
    s.reservedSlot c = some i ↔ ((s.slot i).state = .reserved ∧ (s.slot i).channel = c) ∧
      ∀ j, j < i → ¬((s.slot j).state = .reserved ∧ (s.slot j).channel = c) := by
  simp [State.reservedSlot, find_ascending _ _ slotIds_ascending]

theorem State.reservedSlot_eq_none (s : State) (c : ChanId) :
    s.reservedSlot c = none ↔ ∀ i, ¬((s.slot i).state = .reserved ∧ (s.slot i).channel = c) := by
  simp [State.reservedSlot, List.find?_eq_none]

/-- The slot that follows a pair (R78). -/
theorem State.matchPair_eq_some (s : State) (n : Node) (tag : Tag) (i : SlotId) :
    s.matchPair n tag = some i ↔ s.follows i n tag := by
  simp [State.matchPair, State.follows, find_ascending _ _ slotIds_ascending, and_assoc]

theorem State.matchPair_eq_none (s : State) (n : Node) (tag : Tag) : s.matchPair n tag = none ↔ s.unwatched n tag := by
  simp [State.matchPair, State.unwatched, List.find?_eq_none, and_assoc]

/-- The lowest FREE record tag (R130). -/
theorem Ring.freeRecTag_eq_some (g : Ring) (u : WTag) :
    g.freeRecTag = some u ↔ u < 4 ∧ (g.tag u).state = .free ∧ ∀ t, t < u → (g.tag t).state ≠ .free := by
  simp only [Ring.freeRecTag, find_ascending _ _ recTags_ascending, mem_recTags, decide_eq_true_eq, decide_eq_false_iff_not]
  constructor
  · rintro ⟨a, b, c⟩
    exact ⟨a, b, fun t h => c t (h.trans a) h⟩
  · rintro ⟨a, b, c⟩
    exact ⟨a, b, fun t _ h => c t h⟩

theorem Ring.freeRecTag_eq_none (g : Ring) : g.freeRecTag = none ↔ ∀ u, u < 4 → (g.tag u).state ≠ .free := by
  simp [Ring.freeRecTag, List.find?_eq_none, mem_recTags]

/-! ### Interrupts -/

/-- The Boolean test of R172 says its four conditions. -/
theorem Ints.deliverable_iff (x : Ints) (k : Source) : x.deliverable k = true ↔ x.canDeliver k := by
  simp only [Ints.deliverable, Ints.canDeliver, has, Bool.and_eq_true, List.all_eq_true, mem_sources, forall_const,
    Bool.not_eq_true', Bool.and_eq_false_iff, decide_eq_false_iff_not, and_assoc]
  simp only [imp_iff_not_or]

/-- The highest deliverable source (R172). -/
theorem Ints.highest_eq_some (x : Ints) (h : Source) : x.highest = some h ↔ x.isHighest h := by
  simp only [Ints.highest, find_ascending _ _ sources_ascending, mem_sources, true_and, Ints.isHighest, forall_const]
  simp only [← Bool.not_eq_true, Ints.deliverable_iff]

theorem Ints.highest_eq_none (x : Ints) : x.highest = none ↔ ∀ k, ¬x.canDeliver k := by
  simp only [Ints.highest, List.find?_eq_none, mem_sources, forall_const, Ints.deliverable_iff]

/-- The most urgent source in service (R174). -/
theorem Ints.inService_eq_some (x : Ints) (k : Source) :
    x.inService = some k ↔ x.ius.getLsbD k.val = true ∧ ∀ t, t < k → x.ius.getLsbD t.val = false := by
  simp [Ints.inService, has, find_ascending _ _ sources_ascending]

/-! ### Qualification -/

/-- The Boolean test of R54 says its conditions. -/
theorem qualifies_iff (s : State) (c : ChanId) (r : Request) : qualifies s c r = true ↔ s.counts c r := by
  simp only [qualifies, State.counts, targetTest, windowTest, has, Bool.and_eq_true, Bool.or_eq_true, decide_eq_true_eq,
    Bool.not_eq_true', and_assoc]
  cases r.target <;> simp

/-! ### Conditions of the commands -/

theorem Ring.tagsFree_iff (g : Ring) : g.tagsFree = true ↔ ∀ u, (g.tag u).state = .free := by
  simp [Ring.tagsFree]

theorem Ring.hasOrphan_iff (g : Ring) : g.hasOrphan = true ↔ ∃ u, (g.tag u).state = .orphaned := by
  simp [Ring.hasOrphan]

theorem Slot.isWatching_iff (x : Slot) : x.isWatching = true ↔ x.state ≠ .free ∧ x.state ≠ .reserved := by
  unfold Slot.isWatching Slot.isLive
  cases x.state <;> simp

/-- The drain condition (R163). -/
theorem State.drained_iff (s : State) :
    s.drained = true ↔ (∀ i, (s.slot i).state = .free ∨ (s.slot i).state = .reserved) ∧ s.path.staging = [] ∧
      (s.path.mode = .ring → ∀ u, (s.tag u).state = .free) := by
  have h : ∀ x : Slot, (x.isWatching = false) ↔ (x.state = .free ∨ x.state = .reserved) := by
    intro x
    unfold Slot.isWatching Slot.isLive
    cases x.state <;> simp
  have g : s.path.mode = .queue ∨ s.ring.tagsFree = true ↔ (s.path.mode = .ring → ∀ u, (s.tag u).state = .free) := by
    rw [Ring.tagsFree_iff]
    cases s.path.mode <;> simp [State.tag]
  simp [State.drained, h, g, and_assoc]

theorem Processor.isExecuting_iff (p : Processor) (c : Command) :
    p.isExecuting c = true ↔ p.phase = .executing ∧ p.code = c.code := by
  simp [Processor.isExecuting]

/-- The code of a command names that command (R151). -/
@[simp] theorem Command.ofCode_code (c : Command) : Command.ofCode c.code = some c := by cases c <;> decide

theorem Command.code_injective (c d : Command) (h : c.code = d.code) : c = d := by
  have := congrArg Command.ofCode h
  simpa using this

/-- The fill as an integer (R126). -/
theorem Ring.fill_eq (g : Ring) (h : 0 < g.n) : (g.fill : Int) = g.fillInt := by
  unfold Ring.fill
  rw [subMod_eq_emod _ _ _ (by omega)]
  simp [Ring.n]

theorem State.live_iff (s : State) :
    s.live = true ↔ s.pins.backplaneReset = false ∧ s.pins.deviceReset = false := by
  simp [State.live]

/-! ### Ages and reload values -/

/-- Ageing by a tick is the saturating increment (R40, R76). -/
theorem satInc_eq_agedBy1 (a : BitVec 16) : satInc a = agedBy1 a := by
  have h : BitVec.allOnes 16 = 65535 := by decide
  rw [satInc, agedBy1, h]
  split_ifs with e
  · exact e
  · rfl

/-- The reload value is PERIOD less the drawn amount, and 1 where the difference is below 1 (R56). -/
theorem reloadValue_eq_reloadFrom (b : Bank) (l : BitVec 16) : reloadValue b l = reloadFrom b l := by
  unfold reloadValue reloadFrom jitterAmount
  split_ifs with h1 h2
  · rfl
  · rw [Nat.sub_eq_zero_of_le h2]; rfl
  · rw [Nat.max_eq_right (by omega)]

end Sys2Proof.Machine
end

