-- ==== Sys2Proof/Laws/Loops.lean ====
section
/-! SUPPORT. Each repeated operation once: what one repetition can do, and the induction that carries a property through all of
them. A property of States is kept by the output advance when it is kept by its five single moves, and so on. -/

namespace Sys2Proof.Machine

variable {P : State → Prop}

/-- A property kept by every visit holds after all of them. -/
theorem foldl_keeps {α : Type} (f : State → α → State) (h : ∀ s x, P s → P (f s x)) (l : List α) (s : State) (hs : P s) :
    P (l.foldl f s) := by
  induction l generalizing s with
  | nil => exact hs
  | cons x l ih => exact ih _ (h s x hs)

/-! ### One repetition -/

/-- One move into the result queue (R117). -/
theorem queueOnce_eq_some (s t : State) :
    queueOnce s = some t ↔ ∃ x rest, s.path.staging = x :: rest ∧ s.path.mode = .queue ∧ s.path.results.length < 16 ∧
      t = moveToQueue x rest s := by
  unfold queueOnce
  split
  · simp_all
  · split_ifs with h
    · simp_all [Config.queueCap, eq_comm]
    · simp only [Config.queueCap] at h
      simp_all

/-- One entry into staging (R109). -/
theorem entryOnce_eq_some (s t : State) :
    entryOnce s = some t ↔ ∃ i rest, s.closeQueue = i :: rest ∧ s.path.staging.length < 8 ∧ t = enterStaging i rest s := by
  unfold entryOnce
  split
  · simp_all
  · split_ifs with h
    · simp_all [Config.stagingCap, eq_comm]
    · simp only [Config.stagingCap] at h
      simp_all

/-- One repetition of the issue step (R130): a GAP, a record or a drop. -/
theorem issueOnce_cases (s t : State) (h : issueOnce s = some t) :
    ∃ x rest, s.path.staging = x :: rest ∧
      ((s.ring.hasSpace = true ∧ ∃ u, s.ring.freeRecTag = some u ∧
          ((s.ring.lostPending ≠ 0 ∧ t = issueGap u s) ∨ (s.ring.lostPending = 0 ∧ t = issueHead u x rest s))) ∨
        (s.ring.hasSpace = false ∧ s.ring.policy = .drop ∧ t = dropHead x rest s)) := by
  unfold issueOnce at h
  split at h
  · cases h
  · rename_i x rest hx
    refine ⟨x, rest, hx, ?_⟩
    split at h
    · rename_i hsp
      split at h
      · cases h
      · rename_i u hu
        refine Or.inl ⟨hsp, u, hu, ?_⟩
        split at h
        · rename_i hl; cases h; exact Or.inl ⟨hl, rfl⟩
        · rename_i hl; cases h; exact Or.inr ⟨not_not.1 hl, rfl⟩
    · rename_i hsp
      split at h
      · cases h
      · rename_i hp; cases h; exact Or.inr ⟨by simpa using hsp, hp, rfl⟩

/-- One commit (R133): the record tag at PRODUCER is DONE. -/
theorem commitOnce_eq_some (s t : State) :
    commitOnce s = some t ↔ ∃ u, s.ring.producerTag = some u ∧ (s.tag u).state = .done ∧ t = commitTag u s := by
  unfold commitOnce
  cases s.ring.producerTag with
  | none => simp
  | some u =>
    simp only [Option.some.injEq, exists_eq_left']
    split_ifs with h
    · simp [h, eq_comm]
    · simp [h]

/-! ### The output advance -/

theorem queueLoop_keeps (h : ∀ s x rest, s.path.staging = x :: rest → s.path.mode = .queue →
    s.path.results.length < 16 → P s → P (moveToQueue x rest s)) (k : Nat) (s : State) (hs : P s) : P (queueLoop k s) := by
  induction k generalizing s with
  | zero => exact hs
  | succ k ih =>
    unfold queueLoop
    split
    · exact hs
    · rename_i t ht
      obtain ⟨x, rest, h1, h2, h3, rfl⟩ := (queueOnce_eq_some s t).1 ht
      exact ih _ (h s x rest h1 h2 h3 hs)

/-- What one repetition of the issue step can do, as a premise about P. -/
def IssueKeeps (P : State → Prop) : Prop :=
  ∀ s x rest, s.path.staging = x :: rest → P s →
    (s.ring.hasSpace = true → ∀ u, s.ring.freeRecTag = some u →
        (s.ring.lostPending ≠ 0 → P (issueGap u s)) ∧ (s.ring.lostPending = 0 → P (issueHead u x rest s))) ∧
      (s.ring.hasSpace = false → s.ring.policy = .drop → P (dropHead x rest s))

theorem issueOnce_keeps (h : IssueKeeps P) (s t : State) (hs : P s) (e : issueOnce s = some t) : P t := by
  obtain ⟨x, rest, hx, hc⟩ := issueOnce_cases s t e
  have := h s x rest hx hs
  rcases hc with ⟨h1, u, hu, ⟨h2, rfl⟩ | ⟨h2, rfl⟩⟩ | ⟨h1, h2, rfl⟩
  · exact (this.1 h1 u hu).1 h2
  · exact (this.1 h1 u hu).2 h2
  · exact this.2 h1 h2

theorem issueLoop_keeps (h : IssueKeeps P) (k : Nat) (s : State) (hs : P s) : P (issueLoop k s) := by
  induction k generalizing s with
  | zero => exact hs
  | succ k ih =>
    unfold issueLoop
    split
    · exact hs
    · rename_i t ht
      exact ih _ (issueOnce_keeps h s t hs ht)

theorem entryLoop_keeps (h : ∀ s i rest, s.closeQueue = i :: rest → s.path.staging.length < 8 → P s →
    P (enterStaging i rest s)) (k : Nat) (s : State) (hs : P s) : P (entryLoop k s) := by
  induction k generalizing s with
  | zero => exact hs
  | succ k ih =>
    unfold entryLoop
    split
    · exact hs
    · rename_i t ht
      obtain ⟨i, rest, h1, h2, rfl⟩ := (entryOnce_eq_some s t).1 ht
      exact ih _ (h s i rest h1 h2 hs)

/-- A property kept by the single moves of the output advance is kept by the advance (R110). -/
theorem advance_keeps
    (hq : ∀ s x rest, s.path.staging = x :: rest → s.path.mode = .queue → s.path.results.length < 16 → P s →
      P (moveToQueue x rest s))
    (hi : IssueKeeps P)
    (he : ∀ s i rest, s.closeQueue = i :: rest → s.path.staging.length < 8 → P s → P (enterStaging i rest s))
    (s : State) (hs : P s) : P (advance s) := by
  have hd : ∀ s, P s → P (destinationStep s) := by
    intro s hs
    unfold destinationStep
    split
    · exact queueLoop_keeps hq _ s hs
    · unfold issueStep
      split
      · exact issueLoop_keeps hi _ s hs
      · exact hs
  have hp : ∀ s, P s → P (advancePass s) := fun s hs => entryLoop_keeps he _ _ (hd s hs)
  have hl : ∀ k s, P s → P (advanceLoop k s) := by
    intro k
    induction k with
    | zero => exact fun s hs => hs
    | succ k ih => exact fun s hs => ih _ (hp s hs)
  exact hl _ s hs

/-! ### Commits -/

theorem commitLoop_keeps (h : ∀ s u, s.ring.producerTag = some u → (s.tag u).state = .done → P s → P (commitTag u s))
    (k : Nat) (s : State) (hs : P s) : P (commitLoop k s) := by
  induction k generalizing s with
  | zero => exact hs
  | succ k ih =>
    unfold commitLoop
    split
    · exact hs
    · rename_i t ht
      obtain ⟨u, h1, h2, rfl⟩ := (commitOnce_eq_some s t).1 ht
      exact ih _ (h s u h1 h2 hs)

/-- A property kept by each commit and by what follows a run is kept by the commit run (R133). -/
theorem commitRun_keeps
    (h : ∀ s u, s.ring.producerTag = some u → (s.tag u).state = .done → P s → P (commitTag u s))
    (ha : ∀ s, P s → P (afterCommit s)) (s : State) (hs : P s) : P (commitRun s) := by
  unfold commitRun
  split
  · exact hs
  · rename_i t ht
    obtain ⟨u, h1, h2, rfl⟩ := (commitOnce_eq_some s t).1 ht
    exact ha _ (commitLoop_keeps h _ _ (h s u h1 h2 hs))

/-! ### Slots -/

/-- A property kept by each visit is kept by the freeing of slots without a record (R89). -/
theorem freeSlots_keeps (scope : ChanId → Bool) (next : RunState)
    (hr : ∀ s i, scope (s.slot i).channel = true → (s.slot i).state = .reserved → P s →
      P (cancelAt (s.slot i).channel i next s))
    (hd : ∀ s i, scope (s.slot i).channel = true → (s.slot i).isWatching = true → P s → P (discardSlot i s))
    (s : State) (hs : P s) : P (freeSlots scope next s) := by
  refine foldl_keeps _ (fun s i hs => ?_) _ s hs
  unfold freeVisit
  dsimp only
  split_ifs with hc
  · split
    · exact hs
    · rename_i h; exact hr s i hc h hs
    all_goals
      rename_i h
      exact hd s i hc (by simp [Slot.isWatching_iff, h]) hs
  · exact hs

/-- A property kept by a closing is kept by the expiry of slots, after they aged (R40). -/
theorem expiry_keeps (h : ∀ s i, s.expiryDue i = true → P s →
    P (closeSlot i .expired (s.setDev { s.dev with slotsExpired := s.dev.slotsExpired + 1 }))) (s : State) (hs : P s) :
    P (slotIds.foldl expireSlot s) := by
  refine foldl_keeps _ (fun s i hs => ?_) _ s hs
  unfold expireSlot
  split_ifs with hd
  · exact h s i hd hs
  · exact hs

/-- A property kept by a closing is kept by the abandonment of a node's transactions (R86). -/
theorem abandonNode_keeps (n : Node) (h : ∀ s i, (s.slot i).involves n = true → P s → P (closeSlot i .abandoned s))
    (s : State) (hs : P s) : P (abandonNode n s) := by
  refine foldl_keeps _ (fun s i hs => ?_) _ s hs
  unfold abandonSlot
  split_ifs with hd
  · exact h s i hd hs
  · exact hs

/-! ### Tests -/

/-- The drain test ends an EXECUTING DRAIN or does nothing (R164). -/
theorem drainTest_keeps (h : ∀ s, s.cmd.isExecuting .drain = true → s.drained = true → P s → P (endCommand .ok s))
    (s : State) (hs : P s) : P (drainTest s) := by
  unfold drainTest
  split_ifs with hc
  · rw [Bool.and_eq_true] at hc
    exact h s hc.1 hc.2 hs
  · exact hs

/-- Settling sets LOSS or nothing, then raises the channel's source or nothing (R122). -/
theorem settle_keeps (h1 : ∀ s c, P s → P (s.setChan c { s.chan c with loss := true })) (h2 : ∀ s c, P s → P (s.raise (srcChan c)))
    (lost : Bool) (x : Record) (s : State) (hs : P s) : P (settle lost x s) := by
  have h3 : ∀ b : Bool, P (if b then s.setChan x.channel { s.chan x.channel with loss := true } else s) := by
    intro b
    cases b
    · exact hs
    · exact h1 _ _ hs
  unfold settle
  dsimp only
  split
  · split
    · exact h2 _ _ (h3 lost)
    · exact h3 lost
  · exact hs

/-- A move into the result queue is a change of the path, a settling, a LEVEL event or none, and the drain test (R117). -/
theorem moveToQueue_keeps (hp : ∀ s p, P s → P (s.setPath p))
    (hl : ∀ s c, P s → P (s.setChan c { s.chan c with loss := true })) (hr : ∀ s k, P s → P (s.raise k))
    (he : ∀ s, s.cmd.isExecuting .drain = true → s.drained = true → P s → P (endCommand .ok s))
    (x : Record) (rest : List Record) (s : State) (hs : P s) : P (moveToQueue x rest s) := by
  unfold moveToQueue
  apply drainTest_keeps he
  unfold raiseIfCrossed
  have := settle_keeps hl (fun s c => hr s _) false x _ (hp s { s.path with staging := rest, results := s.path.results ++ [x] } hs)
  split_ifs
  · exact hr _ _ this
  · exact this

end Sys2Proof.Machine
end

