-- ==== Sys2Proof/Laws/Ring.lean ====
section
/-! SUPPORT. The ring engine: the tags after an issue, a commit and a fault, and the parts of the ring that each leaves. -/

namespace Sys2Proof.Machine

/-! ### Issue -/

theorem issueRecord_tag (u t : WTag) (x : Record) (s : State) :
    (issueRecord u x s).tag t = if t = u then issuedTag s.ring x else s.tag t := by
  simp only [issueRecord, State.emit_tag, State.tag_setTag]

/-- An issue changes nothing of the ring but its tag (R130). -/
theorem issueRecord_ring (u : WTag) (x : Record) (s : State) :
    (issueRecord u x s).ring = s.ring.setTag u (issuedTag s.ring x) := rfl

theorem issueHead_ring (u : WTag) (x : Record) (rest : List Record) (s : State) :
    (issueHead u x rest s).ring = s.ring.setTag u (issuedTag s.ring x) := rfl

theorem issueHead_path (u : WTag) (x : Record) (rest : List Record) (s : State) :
    (issueHead u x rest s).path = { s.path with staging := rest } := rfl

theorem issueGap_ring (u : WTag) (s : State) :
    (issueGap u s).ring =
      { s.ring.setTag u (issuedTag s.ring (composeGap s.ring.firstLost s.ring.lostPending s.tb.time)) with
        lostPending := 0 } := rfl

theorem issueGap_path (u : WTag) (s : State) : (issueGap u s).path = s.path := rfl

theorem dropHead_ring (x : Record) (rest : List Record) (s : State) :
    (dropHead x rest s).ring = s.ring.countDrop x := by
  simp [dropHead]

theorem dropHead_path (x : Record) (rest : List Record) (s : State) :
    (dropHead x rest s).path = { s.path with staging := rest } := by
  simp [dropHead]

/-- The cases of R130 that end the issue step. -/
theorem issueOnce_eq_none (s : State) : issueOnce s = none ↔ s.issueWaits := by
  unfold issueOnce State.issueWaits Ring.freeRecTag
  cases s.path.staging with
  | nil => simp
  | cons x rest =>
    cases s.ring.hasSpace with
    | false => cases s.ring.policy <;> simp
    | true =>
      simp only [if_true]
      split
      · rename_i h; simpa [State.tag] using h
      · rename_i u h
        have hu := List.find?_some h
        have hm := List.mem_of_find?_eq_some h
        have hf : ∃ v ∈ recTags, (s.ring.tag v).state = .free := ⟨u, hm, by simpa using hu⟩
        split_ifs <;> simpa [State.tag] using hf

/-- The repetitions that the issue step can still make: one for each record in staging, and one for a GAP. -/
def issueMeasure (s : State) : Nat :=
  s.path.staging.length + if s.ring.hasSpace = true ∧ s.ring.lostPending ≠ 0 then 1 else 0

theorem issueOnce_measure (s t : State) (h : issueOnce s = some t) : issueMeasure t < issueMeasure s := by
  obtain ⟨x, rest, hx, hc⟩ := issueOnce_cases s t h
  unfold issueMeasure
  rcases hc with ⟨h1, u, -, ⟨h2, rfl⟩ | ⟨h2, rfl⟩⟩ | ⟨h1, -, rfl⟩
  · have h0 : (issueGap u s).ring.lostPending = 0 := rfl
    rw [issueGap_path, if_neg fun h => h.2 h0, if_pos ⟨h1, h2⟩]
    omega
  · simp [issueHead_path, issueHead_ring, hx, h2]
  · have : (dropHead x rest s).ring.hasSpace = false := by rw [dropHead_ring]; exact h1
    simp [dropHead_path, this, hx, h1]

/-- The issue step repeats until a case of R130 ends it. -/
theorem issueLoop_waits (k : Nat) (s : State) (h : issueMeasure s < k) : (issueLoop k s).issueWaits := by
  induction k generalizing s with
  | zero => omega
  | succ k ih =>
    unfold issueLoop
    split
    · rename_i h0; exact (issueOnce_eq_none s).1 h0
    · rename_i t ht
      exact ih t (by have := issueOnce_measure s t ht; omega)

/-- After the issue step of a RUNNING ring nothing is left to issue or drop (R130, R131). -/
theorem issueStep_waits (s : State) (h : s.ring.state = .running) : (issueStep s).issueWaits := by
  unfold issueStep
  rw [if_pos h]
  apply issueLoop_waits
  unfold issueMeasure
  split_ifs <;> omega

/-! ### Commit -/

theorem commitTag_ring (u : WTag) (s : State) :
    (commitTag u s).ring = (s.ring.setTag u WriteTag.cleared).advanceProducer := by
  have h : ∀ a b n (t : State), (raiseIfCrossed a b n t).ring = t.ring := by simp
  unfold commitTag
  dsimp only
  rw [h]
  simp

@[simp] theorem Ring.advanceProducer_tag (g : Ring) (u : WTag) : g.advanceProducer.tag u = g.tag u := rfl

theorem commitTag_tag (u t : WTag) (s : State) :
    (commitTag u s).tag t = if t = u then WriteTag.cleared else s.tag t := by
  unfold State.tag
  rw [commitTag_ring, Ring.advanceProducer_tag, Ring.tag_setTag]

/-! ### Faults -/

/-- The tags after steps 2 and 3 of a fault (R136). -/
theorem Ring.toFaulted_tag (g : Ring) (cause : RingCause) (code : BitVec 4) (tag : Option WTag) (u : WTag) :
    (g.toFaulted cause code tag).tag u = disposeTag cause (decide (tag = some u)) (g.tag u) := by
  have h : ∀ (t : WTag) (x : WriteTag) (v : Ring), (v.setTag t x).tag u = if u = t then x else v.tag u :=
    fun t x v => Ring.tag_setTag v t u x
  simp only [Ring.toFaulted, allTags, List.foldl, h]
  fin_cases u <;> simp

@[simp] theorem Ring.toFaulted_fields (g : Ring) (cause : RingCause) (code : BitVec 4) (tag : Option WTag) :
    (g.toFaulted cause code tag).state = .faulted ∧ (g.toFaulted cause code tag).fault = faultReg g cause code tag ∧
      (g.toFaulted cause code tag).node = g.node ∧ (g.toFaulted cause code tag).base = g.base ∧
      (g.toFaulted cause code tag).size = g.size ∧ (g.toFaulted cause code tag).policy = g.policy ∧
      (g.toFaulted cause code tag).backoff = g.backoff ∧ (g.toFaulted cause code tag).threshold = g.threshold ∧
      (g.toFaulted cause code tag).writeLimit = g.writeLimit ∧ (g.toFaulted cause code tag).wbAddr = g.wbAddr ∧
      (g.toFaulted cause code tag).producer = g.producer ∧ (g.toFaulted cause code tag).consumer = g.consumer ∧
      (g.toFaulted cause code tag).lostPending = g.lostPending ∧ (g.toFaulted cause code tag).firstLost = g.firstLost := by
  simp [Ring.toFaulted, allTags]

/-- Settling every voided record keeps what settling one keeps (R137). -/
theorem voidRecords_ring (l : List Record) (s : State) : (voidRecords l s).ring = s.ring.countVoided l := by
  have h : ∀ (l : List Record) (t : State), (l.foldl (fun st r => settle true r st) t).ring = t.ring := by
    intro l
    induction l with
    | nil => exact fun _ => rfl
    | cons x l ih => exact fun t => (ih _).trans (by simp)
  simp [voidRecords, h]

/-- The ring after a fault (R136, R137). -/
theorem ringFault_ring (cause : RingCause) (code : BitVec 4) (tag : Option WTag) (s : State) :
    (ringFault cause code tag s).ring = (s.ring.toFaulted cause code tag).countVoided s.ring.voided := by
  have h : ∀ t : State, (endOnFault t).ring = t.ring := by simp
  unfold ringFault
  rw [h]
  simp [voidRecords_ring]

@[simp] theorem Ring.countVoided_tag (g : Ring) (l : List Record) (u : WTag) : (g.countVoided l).tag u = g.tag u := by
  cases l <;> rfl

/-- The tags after a fault (R136). -/
theorem ringFault_tag (cause : RingCause) (code : BitVec 4) (tag : Option WTag) (s : State) (u : WTag) :
    (ringFault cause code tag s).tag u = disposeTag cause (decide (tag = some u)) (s.tag u) := by
  unfold State.tag
  rw [ringFault_ring, Ring.countVoided_tag, Ring.toFaulted_tag]

end Sys2Proof.Machine
end

