-- ==== Sys2Proof/Laws/Sampling.lean ====
section
/-! SUPPORT. What the visit of a channel can do: counting and reload, the rows of R59, the use of a reservation, and the end of
an arming. -/

namespace Sys2Proof.Machine

/-! ### Counting -/

/-- A reload draws on the bank and LFSR, and steps LFSR when it is jittered (R43, R56). -/
theorem reload_chan (c d : ChanId) (s : State) :
    (reload c s).chan d =
      if d = c then { s.chan c with count := reloadValue (s.chan c).bank s.tb.lfsr } else s.chan d := by
  unfold reload
  dsimp only
  split <;> simp [State.chan_setChan]

theorem reload_tb (c : ChanId) (s : State) :
    (reload c s).tb = if (s.chan c).bank.jitter = 0 then s.tb else { s.tb with lfsr := lfsrStep s.tb.lfsr } := by
  unfold reload
  dsimp only
  split <;> simp

/-- The counting of a request by channel c (R55), with COUNT as it was. -/
theorem countRequest_chan (c d : ChanId) (s : State) :
    (countRequest c s).chan d =
      if d = c then
        (if (s.chan c).count = 1 then
          { s.chan c with
            count := reloadValue (s.chan c).bank s.tb.lfsr
            stats :=
              { (s.chan c).stats with counted := (s.chan c).stats.counted + 1, fires := (s.chan c).stats.fires + 1 } }
         else
          { s.chan c with
            count := (s.chan c).count - 1, stats := { (s.chan c).stats with counted := (s.chan c).stats.counted + 1 } })
      else s.chan d := by
  unfold countRequest firesNow
  dsimp only
  by_cases h : (s.chan c).count = 1
  · rw [if_pos (by simpa using h), if_pos h, reload_chan]
    by_cases e : d = c
    · subst e
      simp [State.chan_modStats]
    · simp [e, State.chan_modStats]
  · rw [if_neg (by simpa using h), if_neg h]
    simp [State.chan_setChan]

theorem countRequest_tb (c : ChanId) (s : State) :
    (countRequest c s).tb =
      if (s.chan c).count = 1 ∧ (s.chan c).bank.jitter ≠ 0 then { s.tb with lfsr := lfsrStep s.tb.lfsr } else s.tb := by
  unfold countRequest firesNow
  dsimp only
  by_cases h : (s.chan c).count = 1
  · rw [if_pos (by simpa using h), reload_tb]
    by_cases j : (s.chan c).bank.jitter = 0 <;> simp [h, j, State.chan_modStats]
  · rw [if_neg (by simpa using h), if_neg (fun e => h e.1)]
    simp

/-! ### Firing -/

/-- The first row of R59 that holds decides a firing. -/
theorem handleFiring_cases (c : ChanId) (r : Request) (s : State) (k : Option SlotId) :
    ((s.chan c).run = .held ∧
        handleFiring c r (s, k) = (s.modStats c fun x => { x with heldover := x.heldover + 1 }, k)) ∨
      ((s.chan c).run ≠ .held ∧
        ((s.chan c).run = .armed ∨ (s.chan c).bank.quota.toNat ≤ s.owned c ∨ s.freeSlot = none) ∧
        handleFiring c r (s, k) = (collide c s, k)) ∨
      ((s.chan c).run ≠ .held ∧ (s.chan c).run ≠ .armed ∧ s.owned c < (s.chan c).bank.quota.toNat ∧
        ∃ i, s.freeSlot = some i ∧
          ((k = none ∧ handleFiring c r (s, k) = (takeInto c i r s, some i)) ∨
            ∃ j, k = some j ∧ handleFiring c r (s, k) = (reserve c i s, k))) := by
  unfold handleFiring
  dsimp only
  split_ifs with h1 h2 h3
  · exact Or.inl ⟨h1, rfl⟩
  · exact Or.inr (Or.inl ⟨h1, Or.inl h2, rfl⟩)
  · exact Or.inr (Or.inl ⟨h1, Or.inr (Or.inl h3), rfl⟩)
  · cases hf : s.freeSlot with
    | none => exact Or.inr (Or.inl ⟨h1, Or.inr (Or.inr rfl), rfl⟩)
    | some i =>
      refine Or.inr (Or.inr ⟨h1, h2, not_le.1 h3, i, rfl, ?_⟩)
      cases k with
      | none => exact Or.inl ⟨rfl, rfl⟩
      | some j => exact Or.inr ⟨j, rfl, rfl⟩

/-- An ARMED channel with its reservation takes an untaken request (R58 step 2(b)); else nothing happens. -/
theorem useReservation_cases (c : ChanId) (r : Request) (s : State) (k : Option SlotId) :
    (∃ i, (s.chan c).run = .armed ∧ s.reservedSlot c = some i ∧ k = none ∧
        useReservation c r (s, k) = (takeInto c i r s, some i)) ∨
      (((s.chan c).run ≠ .armed ∨ s.reservedSlot c = none ∨ k ≠ none) ∧ useReservation c r (s, k) = (s, k)) := by
  unfold useReservation
  dsimp only
  split_ifs with h
  · cases hr : s.reservedSlot c with
    | none => exact Or.inr ⟨Or.inr (Or.inl rfl), rfl⟩
    | some i =>
      cases k with
      | none => exact Or.inl ⟨i, h, rfl, rfl, rfl⟩
      | some j => exact Or.inr ⟨Or.inr (Or.inr (by simp)), rfl⟩
  · exact Or.inr ⟨Or.inl h, rfl⟩

/-- A visit of a channel that the request does not qualify for does nothing (R58). -/
theorem visitChannel_of_not_counts (r : Request) (s : State) (k : Option SlotId) (c : ChanId) (h : ¬s.counts c r) :
    visitChannel r (s, k) c = (s, k) := by
  unfold visitChannel
  rw [if_neg]
  rwa [qualifies_iff]

/-- A request that qualifies for no channel leaves the sampling path alone (R58). -/
theorem visitChannels_of_not_counts (r : Request) (s : State) (h : ∀ c, ¬s.counts c r) : visitChannels r s = (s, none) := by
  simp [visitChannels, chanIds, visitChannel_of_not_counts r s none _ (h _)]

/-! ### Ending an arming -/

/-- The cancellation of an arming (R61): the channel's run state and collision, and its reserved slot. -/
theorem cancelAt_chan (c d : ChanId) (i : SlotId) (next : RunState) (s : State) :
    (cancelAt c i next s).chan d =
      if d = c then
        { s.chan c with
          run := next, stats := { (s.chan c).stats with collisions := (s.chan c).stats.collisions + 1 } }
      else s.chan d := by
  by_cases e : d = c <;> simp [cancelAt, collide, State.chan_setRun, State.chan_modStats, e]

theorem cancelAt_slot (c : ChanId) (i j : SlotId) (next : RunState) (s : State) :
    (cancelAt c i next s).slot j = if j = i then Slot.cleared else s.slot j := by
  simp [cancelAt, collide, State.slot_setSlot]

theorem cancelIfArmed_of_ne (next : RunState) (s : State) (c : ChanId) (h : (s.chan c).run ≠ .armed) :
    cancelIfArmed next s c = s := if_neg h

end Sys2Proof.Machine
end

