-- ==== Sys2Proof/Laws/Window.lean ====
section
/-! SUPPORT. What an event does, once: a live event runs its reaction and then the alert check; a window row is checked and
then answered and performed; a command row is an opening or a parameter word; an own reply goes to its tag. -/

namespace Sys2Proof.Machine

/-! ### Events -/

theorem event_of_live (f : State → State) (s : State) (h : s.live = true) : event f s = afterEvent (f s) := by
  simp [event, afterEvent, h]

theorem event_of_not_live (f : State → State) (s : State) (h : s.live = false) : event f s = .next s := by
  simp [event, h]

theorem innerStep_of_live (f : State → State) (s : State) (h : s.live = true) : innerStep f s = .next (f s) := by
  simp [innerStep, h]

theorem innerStep_of_not_live (f : State → State) (s : State) (h : s.live = false) : innerStep f s = .next s := by
  simp [innerStep, h]

/-- An event always answers a next state. -/
theorem event_next (f : State → State) (s : State) : ∃ t, event f s = .next t := ⟨_, rfl⟩

theorem innerStep_next (f : State → State) (s : State) : ∃ t, innerStep f s = .next t := ⟨_, rfl⟩

theorem requestEvent_of_live (r : Request) (s : State) (h : s.live = true) (hr : r.wf = true) :
    requestEvent r s = afterEvent (requestBeat r s) := by
  simp [requestEvent, hr, event_of_live _ _ h]

theorem replyEvent_of_live (r : Reply) (s : State) (h : s.live = true) (hr : r.wf = true) :
    replyEvent r s = afterEvent (replyBeat r s) := by
  simp [replyEvent, hr, event_of_live _ _ h]

/-- A live request beat addressed to OWN_ID is a target access (R11). -/
theorem requestEvent_target (r : Request) (s : State) (h : s.live = true) (hr : r.wf = true)
    (hk : r.kind ≠ .broadcast) (ht : r.target = some s.ownId) :
    requestEvent r s = afterEvent (targetAccess r (s.arrived r.initiator)) := by
  rw [requestEvent_of_live r s h hr]
  simp [requestBeat, isTargetAccess, implicitArrival, State.arrived, State.setPresent, hk, ht]

/-- A live request beat that is snooped passes the sampling path (R11, R58). -/
theorem requestEvent_snooped (r : Request) (s : State) (h : s.live = true) (hr : r.wf = true) (hs : s.snoops r) :
    requestEvent r s = afterEvent (snoopRequest r (s.arrived r.initiator)) := by
  rw [requestEvent_of_live r s h hr]
  have : isTargetAccess (implicitArrival r.initiator s) r = false := by
    rcases hs with hs | hs <;> simp [isTargetAccess, implicitArrival, hs]
  simp only [requestBeat, this, Bool.false_eq_true, if_false]
  rfl

/-- A live own reply for write tag u (R15). -/
theorem ownReplyEvent_tag (responder : Node) (u : WTag) (b : ReplyBody) (s : State) (h : s.live = true)
    (hb : b.wf = true) :
    ownReplyEvent responder (u.castLE (by decide)) b s = afterEvent (replyToTag u b s) := by
  rw [ownReplyEvent, replyEvent_of_live _ _ h (by simpa [Reply.wf] using hb)]
  have : ¬(5 ≤ u.val) := by omega
  simp [replyBeat, ownReply]

/-! ### The answer of the window -/

theorem answer_write (w : Writer) (g : Reg) (v : Word) (s : State) :
    answer (writerBeat w g v s.ownId) .done (s.arrived w.initiator) = s.written w := by
  unfold answer writerBeat State.written State.arrived
  cases w.posted <;> simp [State.emit, State.setOutbox, replyTo, State.replyBeat]

theorem answer_read (r : Reader) (g : Reg) (v : Word) (s : State) :
    answer (readerBeat r g s.ownId) (.data (wordBytes v)) (s.arrived r.initiator) = s.readAs r v := by
  simp [answer, readerBeat, State.readAs, State.arrived, State.emit, State.setOutbox, replyTo, State.replyBeat]

theorem refuse_write (w : Writer) (g : Reg) (v : Word) (f : WindowFault) (s : State) :
    refuseAccess (writerBeat w g v s.ownId) f (s.arrived w.initiator) = s.refusedWrite w f.code := by
  unfold refuseAccess writerBeat State.refusedWrite State.refusedAccess State.arrived
  cases w.posted <;> simp [State.emit, State.setOutbox, State.setDev, replyTo, State.replyBeat]

theorem refuse_read (r : Reader) (g : Reg) (f : WindowFault) (s : State) :
    refuseAccess (readerBeat r g s.ownId) f (s.arrived r.initiator) = s.refusedRead r f.code := by
  simp [refuseAccess, readerBeat, State.refusedRead, State.refusedAccess, State.arrived, State.emit, State.setOutbox,
    replyTo, State.replyBeat]

/-! ### Window rows -/

/-- The registers that the window rows reach. -/
def Reg.hasRow (g : Reg) : Prop :=
  g ∈ [Reg.claim, .relinquish, .cmdPort, .resultPort, .cmdCancel, .consumer, .queueData, .queuePtr, .intCtrl, .ack,
    .endSvc, .marker]

/-- A live write row, by what the checks of R20 find. -/
theorem writeEvent_cases (w : Writer) (g : Reg) (v : Word) (s : State) (hl : s.live = true) (hg : g.hasRow) :
    writeEvent w g v s =
      match checkReg (s.arrived w.initiator) (writerBeat w g v s.ownId) g with
      | some f => afterEvent (s.refusedWrite w f.code)
      | none =>
        if g = .marker then afterEvent (writeMarker (writerBeat w .marker v s.ownId) (s.arrived w.initiator))
        else afterEvent (writeReg w.initiator g v (s.written w)) := by
  have hk : (writerBeat w g v s.ownId).kind ≠ .broadcast := by
    unfold writerBeat
    cases w.posted <;> simp
  have hs : (writerBeat w g v s.ownId).kind ≠ .swap := by
    unfold writerBeat
    cases w.posted <;> simp
  have hr : (writerBeat w g v s.ownId).kind ≠ .read := by
    unfold writerBeat
    cases w.posted <;> simp
  rw [writeEvent, requestEvent_target _ s hl (writerBeat_wf ..) hk rfl]
  have ho : Reg.ofOffset (offsetOf (writerBeat w g v s.ownId).address) = some g := by
    simpa [writerBeat] using ofOffset_offset g hg
  have hn : (writerBeat w g v s.ownId).length = 4 := rfl
  unfold targetAccess checkAccess
  rw [if_neg hs, if_neg (by simp [hn]), ho]
  simp only
  have hi : (writerBeat w g v s.ownId).initiator = w.initiator := rfl
  rw [hi]
  cases hc : checkReg (s.arrived w.initiator) (writerBeat w g v s.ownId) g with
  | some f => simp only [refuse_write]
  | none =>
    simp only [performAccess, readsOnly, decide_eq_true_eq, if_neg hr, hi, writtenWord_writerBeat, answer_write]
    split
    · rename_i h; subst h; rfl
    · rfl

/-- A live read row, by what the checks of R20 find. -/
theorem readEvent_cases (r : Reader) (g : Reg) (s : State) (hl : s.live = true) (hg : g.hasRow) :
    readEvent r g s =
      match checkReg (s.arrived r.initiator) (readerBeat r g s.ownId) g with
      | some f => afterEvent (s.refusedRead r f.code)
      | none => afterEvent (readEffect g (s.readAs r (readReg (s.arrived r.initiator) g))) := by
  rw [readEvent, requestEvent_target _ s hl (readerBeat_wf ..) (by simp [readerBeat]) rfl]
  have ho : Reg.ofOffset (offsetOf (readerBeat r g s.ownId).address) = some g := by
    simpa [readerBeat] using ofOffset_offset g hg
  have hn : (readerBeat r g s.ownId).length = 4 := rfl
  have hk : (readerBeat r g s.ownId).kind = .read := rfl
  unfold targetAccess checkAccess
  rw [if_neg (by simp [hk]), if_neg (by simp [hn]), ho]
  simp only
  have hi : (readerBeat r g s.ownId).initiator = r.initiator := rfl
  rw [hi]
  cases hc : checkReg (s.arrived r.initiator) (readerBeat r g s.ownId) g with
  | some f => simp only [refuse_read]
  | none => simp only [performAccess, readsOnly, hk, decide_true, if_true, answer_read]

/-! ### The command port -/

/-- A write row whose register is the command port: the checks (R24, R152) and then the word. -/
theorem cmdPort_cases (w : Writer) (v : Word) (s : State) (hl : s.live = true) :
    writeEvent w .cmdPort v s =
      if s.owner ≠ some w.initiator then afterEvent (s.refusedWrite w 2)
      else if s.cmd.phase = .executing ∨ s.cmd.phase = .result then afterEvent (s.refusedWrite w 4)
      else afterEvent (writeCmdPort v (s.written w)) := by
  rw [writeEvent_cases w _ v s hl (by simp [Reg.hasRow])]
  have hr : readsOnly (writerBeat w .cmdPort v s.ownId) = false := by
    unfold writerBeat readsOnly
    cases w.posted <;> simp
  have hi : (writerBeat w .cmdPort v s.ownId).initiator = w.initiator := rfl
  unfold checkReg
  by_cases ho : s.owner = some w.initiator
  · by_cases hp : s.cmd.phase = .executing ∨ s.cmd.phase = .result
    · simp [wrongDirection, Reg.direction, hr, ownerRefused, hi, State.arrived, ho, phaseRefused, hp, WindowFault.code]
    · simp [wrongDirection, Reg.direction, hr, ownerRefused, hi, State.arrived, ho, phaseRefused, hp, lockRefused,
        Reg.isBank, Reg.isRingConfig, markerClosed, valueOk, writeReg]
  · simp [wrongDirection, Reg.direction, hr, ownerRefused, hi, State.arrived, ho, WindowFault.code]

/-- The owner's opening word in IDLE (R151). -/
theorem cmdPort_opening (w : Writer) (v : Word) (s : State) (h : s.atOpening w) :
    writeEvent w .cmdPort v s = afterEvent (openCommand v (s.written w)) := by
  obtain ⟨⟨hl, ho⟩, hp⟩ := h
  rw [cmdPort_cases w v s hl]
  simp [ho, hp, writeCmdPort, State.written]

/-- The owner's parameter word of command c in PARAMS (R152). -/
theorem cmdPort_param (w : Writer) (v : Word) (c : Command) (s : State) (h : s.atParam w c) :
    writeEvent w .cmdPort v s = afterEvent (runCommand c v (s.executing w)) := by
  obtain ⟨⟨hl, ho⟩, hp, hc⟩ := h
  rw [cmdPort_cases w v s hl]
  simp [ho, hp, writeCmdPort, paramWord, State.written, State.executing, hc, State.setCmd]

/-- The code field of an opening word (R151). -/
@[simp] theorem openingWord_code (code : BitVec 8) (high : BitVec 24) :
    (openingWord code high).extractLsb' 0 8 = code := by
  unfold openingWord
  apply BitVec.eq_of_getLsbD_eq
  intro j hj
  rw [BitVec.getLsbD_extractLsb', BitVec.getLsbD_append]
  simp [hj]

/-- The opening word of a command without a parameter runs it (R151, R153). -/
theorem cmdPort_immediate (w : Writer) (c : Command) (high : BitVec 24) (s : State) (h : s.atOpening w)
    (hc : c.takesParam = false) :
    writeEvent w .cmdPort (openingWord c.code high) s = afterEvent (runCommand c 0 (s.opening w c)) := by
  rw [cmdPort_opening w _ s h]
  simp [openCommand, hc, Processor.opened, State.opening, State.setCmd, State.written]

end Sys2Proof.Machine
end

