-- ==== Sys2Proof/Tests/Slice0.lean ====
section
/-! SUPPORT. Small tests, each one step on a small state with its expected value from the named rule or worked example of the
manual, and, for every obligation with hypotheses, a witness that they can hold together. -/

set_option Elab.async false

namespace Sys2Proof.Tests

open Sys2Proof Machine

/-! ### Helpers -/

/-- The state a command leads to; State.reset where it leads to none. -/
def after (c : Instr) (s : State) : State :=
  match exec c s with
  | .next t => t
  | _ => State.reset

/-- Node 4, writing with tag 1. -/
def w4 : Writer := { initiator := 4, tag := 1, posted := false, reissue := false, page := 0 }
/-- Node 6, writing. -/
def w6 : Writer := { w4 with initiator := 6 }
/-- Node 4, reading with tag 2. -/
def r4 : Reader := { initiator := 4, tag := 2, reissue := false, page := 0 }
/-- Node 6, reading. -/
def r6 : Reader := { r4 with initiator := 6 }

/-- After reset, with node 4 the owner and present. -/
def owned : State := { State.reset with owner := some 4, present := 0x0210 }
/-- The owner may write the parameter word of c. -/
def par (c : Command) : State := owned.setCmd { owned.cmd with phase := .params, code := c.code }
/-- A command of code c is EXECUTING. -/
def busy (s : State) (c : Command) : State := s.setCmd { s.cmd with phase := .executing, code := c.code }
/-- Two result words wait. -/
def ended (s : State) : State := s.setCmd { s.cmd with phase := .result, code := 0x10, results := [0x1000, 7] }
/-- s with channel c as x makes it. -/
def withChan (s : State) (c : ChanId) (f : Channel → Channel) : State := s.setChan c (f (s.chan c))
/-- OBSERVING, with channel 0 COUNTING and about to fire. -/
def counting (s : State) : State :=
  withChan (s.setTb { s.tb with obs := .observing, time := 0x1000 }) 0 fun x => { x with run := .counting, count := 1 }
/-- The READ of section 5.3: node 2 to node 5, tag 3, 64 bytes at 0x40001000. -/
def read25 : Request :=
  { initiator := 2, target := some 5, tag := 3, kind := .read, reissue := false, address := 0x40001000, length := 64,
    payload := [] }
/-- A slot that follows that READ, in OPEN at age 7. -/
def slot25 : Slot := { openedSlot 0 read25 0x1000 with age := 7 }
/-- s with slot 0 as x. -/
def watching (s : State) (x : Slot) : State := s.setSlot 0 x
/-- Channel 0 ARMED, slot 1 RESERVED for it. -/
def armed (s : State) : State :=
  (withChan (s.setTb { s.tb with obs := .observing }) 0 fun x => { x with run := .armed, count := 3 }).setSlot 1
    { Slot.cleared with state := .reserved, channel := 0 }
/-- The closed slot of section 5.3. -/
def closed25 : Slot :=
  { slot25 with
    state := .closing, age := 22, bounces := 1, reissued := true, wait := some 7, total := some 22
    outcome := some .completed, closeTime := some 0x1016 }
/-- Slot 0 holds the closed slot, at the head of the close queue. -/
def closing (s : State) : State := (watching s closed25).setCloseQueue [0]
/-- A record in staging. -/
def rec0 : Record := composeSample closed25 0 0x0123
/-- A running ring of 16 in ring mode with node 3 its memory node. -/
def ringUp (s : State) : State :=
  (s.setPath { s.path with mode := .ring }).setRing { s.ring with state := .running, node := 3, base := 0x1000 }
/-- Record tag u with a write of rec0 at position p. -/
def withTag (s : State) (u : WTag) (st : TagState) (p : BitVec 17) : State :=
  s.setTag u { WriteTag.cleared with state := st, record := rec0, position := p, dest := 3 }
/-- An alert of source 4 is due at node 4 (section 10.4, step 1). -/
def alertable (s : State) : State :=
  s.setInts
    { s.ints with
      mie := true, ie := 0x13, ip := 0x10, alertNode := 4, alertEnable := true, alertAddr := 0x00200000
      alertCount := 0x11 }

/-! ### Well-formedness: each check refuses an ill-formed term -/

theorem test_wf_length_not_multiple : (Instr.snoopedRequest { read25 with length := 6 }).wf = false := by decide +kernel
theorem test_wf_length_zero : (Instr.snoopedRequest { read25 with length := 0 }).wf = false := by decide +kernel
theorem test_wf_length_high : (Instr.snoopedRequest { read25 with length := 260 }).wf = false := by decide +kernel
theorem test_wf_target_absent : (Instr.snoopedRequest { read25 with target := none }).wf = false := by decide +kernel
theorem test_wf_broadcast_target :
    (Instr.snoopedRequest { read25 with kind := .broadcast, length := 4, payload := [1, 2, 3, 4] }).wf = false := by
  decide +kernel
theorem test_wf_payload_short :
    (Instr.snoopedRequest { read25 with kind := .write, length := 4, payload := [1] }).wf = false := by decide +kernel
theorem test_wf_read_payload : (Instr.snoopedRequest { read25 with length := 4, payload := [1, 2, 3, 4] }).wf = false := by
  decide +kernel
theorem test_wf_fault_code_final : (Instr.finalReply 5 2 3 (.fault 0)).wf = false := by decide +kernel
theorem test_wf_fault_code_stray : (Instr.strayReply { responder := 5, initiator := 2, tag := 3, body := .fault 0 }).wf = false := by
  decide +kernel
theorem test_wf_fault_code_remote : (Instr.remoteFault 3 0 0).wf = false := by decide +kernel
theorem test_wf_fault_code_orphan : (Instr.orphanReply 3 0 (.fault 0)).wf = false := by decide +kernel
theorem test_wf_access :
    (Instr.registerWrite { w4.access 0x008 0 with payload := [] }).wf = false := by decide +kernel
theorem test_wf_open_start : (Instr.commandOpen w4 .start 0).wf = false := by decide +kernel
theorem test_wf_invalid_is_arm : (Instr.invalidCommand w4 0x10).wf = false := by decide +kernel
theorem test_wf_admits : (Instr.snoopedRequest read25).wf = true ∧ (Instr.commandOpen w4 .arm 5).wf = true := by
  decide +kernel

/-- An ill-formed beat is no event (R4). -/
theorem test_ill_formed_beat_changes_nothing :
    after (.snoopedRequest { read25 with length := 6 }) (counting owned) = counting owned := by decide +kernel

/-! ### Decoding: no row of the opcode table gives bits -/

theorem test_decode_none : decodeTableWord 32 0x12345678 = none ∧ owned.withFetchWord 32 7 = owned := by decide +kernel

/-! ### Reset values (R180 and the register tables) -/

theorem test_reset_window :
    [Reg.ident, .owner, .gstatus, .present, .prescale, .watchLimit, .lfsr, .cmdStatus].map (readReg State.reset) =
      [0x53380109, 0xFF, 0x00080000, 0x0200, 64, 4096, 1, 0x000F0000] := by decide +kernel
theorem test_reset_channel :
    [Reg.chKinds, .chInit, .chTarg, .chPeriod, .chState].map (readReg State.reset) =
      [0x1F, 0xFFFF, 0xFFFF, 0x10010000, 0] := by decide +kernel
theorem test_reset_output_registers :
    [Reg.ringSize, .ringPolicy, .ringThreshold, .writeLimit, .queueThreshold, .queueCount, .mie].map
      (readReg State.reset) = [16, 0x1000, 1, 1024, 1, 0, 0] := by decide +kernel
theorem test_power_on_straps : (after (.powerOnReset 3 0x0010) owned).present = 0x0018 := by decide +kernel

/-! ### Resets and presence -/

theorem test_backplane_assert_discards_beats :
    (after .backplaneResetAssert (after (.claim w4 0) State.reset)).outbox = [] := by decide +kernel
theorem test_backplane_release_aborts :
    (after .backplaneReset ((busy owned .drain).setPins { owned.pins with backplaneReset := true })).cmd.lastStatus = 8 := by
  decide +kernel
theorem test_device_reset_holds : after .tick (after .deviceResetAssert owned) = after .deviceResetAssert owned := by
  decide +kernel
theorem test_arrival : (after (.arrival 5) owned).present = 0x0230 := by decide +kernel
theorem test_withdrawal_owner_loses : (after (.withdrawal 4) owned).owner = none := by decide +kernel
theorem test_withdrawal_abandons :
    (after (.withdrawal 5) ((watching owned slot25).setPresent 0x0224)).path.results.length = 1 := by decide +kernel

/-! ### Ticks -/

theorem test_tick_time : (after .tick (owned.setTb { owned.tb with time := 0xFFFFFFFF })).tb.time = 0 := by decide +kernel
theorem test_tick_ages : ((after .tick (watching owned slot25)).slot 0).age = 8 := by decide +kernel
/-- Step 2 of the tick of section 3.3: a slot at age 499 under WATCH_LIMIT 500 expires. -/
theorem test_tick_expires :
    (after .tick { watching owned { slot25 with age := 499 } with watchLimit := 500 }).dev.slotsExpired = 1 := by
  decide +kernel
theorem test_slot_expiry_needs_the_limit :
    after (.slotExpiry 0) { watching owned slot25 with watchLimit := 8 } = { watching owned slot25 with watchLimit := 8 } := by
  decide +kernel
theorem test_backoff_reissue : ((after (.backoffReissue 0) (withTag (ringUp owned) 0 .backoff 0)).tag 0).state = .issued := by
  decide +kernel
theorem test_timeout :
    (after (.timeout 0) ((withTag (ringUp owned) 0 .issued 0).setTag 0
      { WriteTag.cleared with state := .issued, age := 1024 })).ring.fault.cause = some .timeout := by decide +kernel
theorem test_orphan_free :
    ((after (.orphanFree 0) ((ringUp owned).setTag 0 { WriteTag.cleared with state := .orphaned, age := 1024 })).tag 0).state =
      .free := by decide +kernel
theorem test_drain_timed_out :
    (after .drainTimedOut ((busy owned .drain).setCmd
      { (busy owned .drain).cmd with drainTimeout := 2, drainTicks := 2 })).cmd.lastStatus = 6 := by decide +kernel

/-! ### Sampling and watching -/

/-- The first steps from 0x0001, and the eleventh and twelfth after 0x8000 (R42). -/
theorem test_lfsr :
    [lfsrStep 0x0001, lfsrStep 0x8000, lfsrStep 0x4000, lfsrStep 0x0020, lfsrStep 0x8010] =
      [0x8000, 0x4000, 0x2000, 0x8010, 0x4008] := by decide +kernel
/-- Section 3.4: LFSR 0x4008 under JITTER 4 takes 8 from PERIOD 1000. -/
theorem test_jittered_reload :
    reloadValue { Bank.powerOn with period := 1000, jitter := 4 } 0x4008 = 992 := by decide +kernel
theorem test_request_is_taken :
    ((after (.snoopedRequest read25) (counting owned)).slot 0) = { slot25 with age := 0 } := by decide +kernel
theorem test_request_to_self_is_not_snooped :
    ((after (.snoopedRequest { read25 with target := some 9 }) (counting owned)).chan 0).stats.counted = 0 := by
  decide +kernel
/-- Section 5.3, step 2. -/
theorem test_slot_bounce :
    (after (.slotBounce 5 2 3) (watching owned slot25)).slot 0 =
      { slot25 with state := .bounced, wait := some 7, bounces := 1 } := by decide +kernel
/-- Section 5.3, step 3: DATA for a BOUNCED slot is a stray. -/
theorem test_stray_reply :
    (after (.strayReply { responder := 5, initiator := 2, tag := 3, body := .data [] })
      (watching owned { slot25 with state := .bounced })).dev.strayReplies = 1 := by decide +kernel
/-- Section 5.3, step 7, and the record of section 6.5. -/
theorem test_final_reply_makes_the_record :
    (after (.finalReply 5 2 3 (.data []))
      ((watching (owned.setTb { owned.tb with time := 0x1016 })
        { slot25 with age := 22, wait := some 7, bounces := 1, reissued := true }).setPath
          { owned.path with seq := 0x0123 })).path.results =
      [⟨0xB1352001, 0x00F00123, 0x40001000, 0x1000, 0x00160007, 0x1016, 0x8141, 0xF1D3B072⟩] := by decide +kernel
theorem test_misfit_reply_is_an_anomaly :
    (after (.finalReply 5 2 3 .done) (watching owned slot25)).dev.anomalies = 1 := by decide +kernel

/-! ### Records and the output path -/

/-- Section 6.5: the marker after that record. -/
theorem test_marker_record :
    composeMarker 7 0x42 0x1020 0x0124 = ⟨0x7002, 0x124, 0x42, 0x1020, 0, 0, 0, 0x6144⟩ := by decide +kernel
theorem test_record_bytes_little_endian : rec0.bytes.head? = some 0x01 ∧ rec0.bytes[28]? = some 0x72 := by decide +kernel
theorem test_close_queue_entry :
    (after .closeQueueEntry ((closing owned).setPath { owned.path with seq := 0x0123 })).path.staging = [rec0] := by
  decide +kernel
theorem test_result_queue_entry :
    (after .resultQueueEntry (owned.setPath { owned.path with staging := [rec0] })).path.results = [rec0] := by decide +kernel
theorem test_marker_accepted : (after (.marker w6 0x42) (counting owned)).dev.markersAccepted = 1 := by decide +kernel
/-- Section 7.3, step 3: a marker behind a waiting close queue is bounced. -/
theorem test_marker_bounced :
    (after (.marker w6 0x42) ((closing (counting owned)).setPath
      { owned.path with
        staging := List.replicate 8 rec0, results := List.replicate 16 rec0 })).dev.markersRefused = 1 := by decide +kernel
theorem test_queue_data_word : (after (.queueData r4) (owned.setPath { owned.path with results := [rec0] })).path.ptr = 1 := by
  decide +kernel
theorem test_queue_data_removes :
    (after (.queueData r4) (owned.setPath { owned.path with results := [rec0], ptr := 7 })).path.results = [] := by
  decide +kernel
theorem test_queue_ptr : (after (.queuePtr w4 9) (owned.setPath { owned.path with ptr := 5 })).path.ptr = 0 := by
  decide +kernel

/-! ### The ring engine -/

theorem test_issue : ((after .issue ((ringUp owned).setPath
    { (ringUp owned).path with staging := [rec0] })).tag 0).state = .issued := by decide +kernel
theorem test_gap_issue :
    (after .gapIssue (((ringUp owned).setPath { (ringUp owned).path with staging := [rec0] }).setRing
      { (ringUp owned).ring with lostPending := 4, firstLost := 0x41 })).ring.lostPending = 0 := by decide +kernel
/-- Section 8.7, step 2: DONE for the tag at PRODUCER commits. -/
theorem test_write_done : (after (.writeDone 3 0 .done) (withTag (ringUp owned) 0 .issued 0)).ring.producer = 1 := by
  decide +kernel
theorem test_write_done_out_of_order :
    ((after (.writeDone 3 1 .done) (withTag (withTag (ringUp owned) 0 .issued 0) 1 .issued 1)).tag 1).state = .done := by
  decide +kernel
theorem test_commit : (after .commit (withTag (ringUp owned) 0 .done 0)).ring.producer = 1 := by decide +kernel
theorem test_writeback :
    ((after .writeback ((ringUp owned).setRing { (ringUp owned).ring with wbAddr := 0x8000, producer := 5 })).tag 4).value = 5 := by
  decide +kernel
theorem test_writeback_done :
    ((after (.writebackDone 3 .done) ((ringUp owned).setTag 4 { WriteTag.cleared with state := .issued })).tag 4).state = .free := by
  decide +kernel
theorem test_write_bounce : ((after (.writeBounce 3 0) (withTag (ringUp owned) 0 .issued 0)).tag 0).state = .backoff := by
  decide +kernel
/-- Section 8.7, step 3: REMOTE_FAULT with its code. -/
theorem test_remote_fault : (after (.remoteFault 3 0 7) (withTag (ringUp owned) 0 .issued 0)).ring.fault.remoteCode = 7 := by
  decide +kernel
theorem test_remote_fault_counts_the_loss :
    (after (.remoteFault 3 0 7) (withTag (ringUp owned) 0 .issued 0)).ring.lostPending = 1 := by decide +kernel
theorem test_orphan_reply :
    ((after (.orphanReply 3 0 .done) (withTag (ringUp owned) 0 .orphaned 0)).tag 0).state = .free := by decide +kernel
theorem test_ring_stop_complete :
    (after .ringStopComplete ((ringUp owned).setRing { (ringUp owned).ring with state := .stopping })).ring.state = .idle := by
  decide +kernel
theorem test_drain_complete : (after .drainComplete (busy owned .drain)).cmd.lastStatus = 0 := by decide +kernel
theorem test_consumer : (after (.consumer w4 3) (owned.setRing { owned.ring with producer := 3 })).ring.consumer = 3 := by
  decide +kernel
theorem test_consumer_past_producer :
    (after (.consumer w4 4) (owned.setRing { owned.ring with producer := 3 })).ring.consumer = 0 := by decide +kernel

/-! ### The window -/

theorem test_claim : (after (.claim w4 7) State.reset).owner = some 4 := by decide +kernel
theorem test_claim_refused : (after (.claim w6 7) owned).owner = some 4 := by decide +kernel
theorem test_relinquish : (after (.relinquish w4 7) owned).owner = none := by decide +kernel
/-- Section 2.2, line 1: the kind is checked before the length. -/
theorem test_bad_kind_first :
    (after (.registerWrite { w6.access 0x008 0 with kind := .swap, length := 8, payload := List.replicate 8 0 }) owned).outbox =
      [.reply { responder := 9, initiator := 6, tag := 1, body := .fault 5 }] := by decide +kernel
/-- Section 2.2, line 3: an offset that is no multiple of 4. -/
theorem test_no_such_register :
    (after (.registerWrite (r4.access 0x00A)) owned).outbox =
      [.reply { responder := 9, initiator := 4, tag := 2, body := .fault 1 }] := by decide +kernel
theorem test_result_port_last_word :
    (after (.resultPort r4) ((ended owned).setCmd { (ended owned).cmd with results := [7] })).cmd.phase = .idle := by
  decide +kernel
theorem test_cancel_result : (after (.cmdCancel w4 0) (ended owned)).cmd.discarded = true := by decide +kernel

/-! ### Commands -/

theorem test_command_open : (after (.commandOpen w4 .arm 5) owned).cmd.phase = .params := by decide +kernel
theorem test_invalid_command : (after (.invalidCommand w4 0xFF) owned).cmd.results = [0x0000FF01] := by decide +kernel
theorem test_start : (after (.start w4 0) owned).tb.obs = .observing := by decide +kernel
theorem test_pause_cancels :
    ((after (.pause w4 0) (armed owned)).chan 0).stats.collisions = 1 := by decide +kernel
theorem test_set_time : (after (.setTime w4 0x1234) (par .setTime)).tb.time = 0x1234 := by decide +kernel
theorem test_arm : ((after (.arm w4 2) (par .arm)).chan 2).count = 65536 := by decide +kernel
theorem test_arm_bad_param : (after (.arm w4 4) (par .arm)).cmd.lastStatus = 2 := by decide +kernel
theorem test_disarm : ((after (.disarm w4 0) (counting (par .disarm))).chan 0).count = 0 := by decide +kernel
theorem test_release :
    ((after (.release w4 0) (withChan (par .release) 0 fun x => { x with run := .held, loss := true, count := 5 })).chan 0).loss =
      false := by decide +kernel
theorem test_purge : (after (.purge w4 15) (watching (par .purge) slot25)).cmd.results = [0x1300, 1] := by decide +kernel
theorem test_snapshot : (after (.snapshot w4 0) (watching (par .snapshot) slot25)).cmd.results.head? = some 0x00102000 := by
  decide +kernel
theorem test_read_watch :
    (after (.readWatch w4 0) (watching (par .readWatch) slot25)).cmd.results =
      [0x2100, 0x2, 0x000F0352, 0x40001000, 0x1000, 7, 0] := by decide +kernel
theorem test_ring_start :
    (after (.ringStart w4 0) (((par .ringStart).setPath { owned.path with mode := .ring }).setRing
      { owned.ring with node := 4, producer := 9 })).ring.producer = 0 := by decide +kernel
theorem test_ring_start_queue_mode : (after (.ringStart w4 0) (par .ringStart)).cmd.lastStatus = 4 := by decide +kernel
theorem test_ring_stop : (after (.ringStop w4 0) (ringUp owned)).ring.state = .idle := by decide +kernel
theorem test_drain_waits : (after (.drain w4 9) (watching (par .drain) slot25)).cmd.phase = .executing := by decide +kernel
theorem test_select_output : (after (.selectOutput w4 1) (par .selectOutput)).path.mode = .ring := by decide +kernel
theorem test_reset_sampling : ((after (.resetSampling w4 0) (counting (par .reset))).chan 0).run = .disarmed := by
  decide +kernel
theorem test_reset_output :
    (after (.resetOutput w4 0) ((par .reset).setPath { owned.path with results := [rec0], seq := 7 })).path.seq = 0 := by
  decide +kernel
theorem test_reset_statistics :
    (after (.resetStatistics w4 0) ((par .reset).setDev { owned.dev with purged := 7 })).dev.purged = 0 := by decide +kernel
theorem test_reset_interrupts :
    (after (.resetInterrupts w4 0) ((par .reset).setInts { owned.ints with err := 7 })).ints.err = 0 := by decide +kernel

/-! ### Interrupts and alerts -/

theorem test_set_ie : (after (.setIe w4 4 0xFFFFFFFF) owned).ints.ie = 0x10 := by decide +kernel
theorem test_clear_ie : (after (.clearIe w4 4 0) (alertable owned)).ints.ie = 0x03 := by decide +kernel
/-- Section 10.4: a second SET_IP finds IP set and sets ERR. -/
theorem test_set_ip_twice : (after (.setIp w4 4 0) (alertable owned)).ints.err = 0x10 := by decide +kernel
theorem test_clear_ip : (after (.clearIp w4 4 0) (alertable owned)).ints.ip = 0 := by decide +kernel
theorem test_set_ius : (after (.setIus w4 4 0) owned).ints.ius = 0x10 := by decide +kernel
theorem test_clear_ius : (after (.clearIus w4 4 0) (owned.setInts { owned.ints with ius := 0x11 })).ints.ius = 1 := by
  decide +kernel
theorem test_clear_err : (after (.clearErr w4 4 0) (owned.setInts { owned.ints with err := 0x11 })).ints.err = 1 := by
  decide +kernel
theorem test_clear_all : (after (.clearAll w4 4 0) (alertable owned)).ints.ip = 0 := by decide +kernel
/-- Section 10.4, step 3. -/
theorem test_ack : (after (.ack r4) (alertable owned)).ints.ius = 0x10 := by decide +kernel
/-- Section 10.4, step 7: END closes the service of source 0 before that of source 4. -/
theorem test_end : (after (.endService w4 0) (owned.setInts { owned.ints with ius := 0x11 })).ints.ius = 0x10 := by
  decide +kernel
/-- Section 10.4, step 1: the alert's payload is 0x00120904. -/
theorem test_alert_payload :
    (after .alert (alertable owned)).outbox =
      [.request
        { initiator := 9, target := some 4, tag := 5, kind := .posted, reissue := false, address := 0x00200000, length := 4,
          payload := wordBytes 0x00120904 }] := by decide +kernel

/-! ### The idle clock (log entry 4) -/

theorem test_idle_clock :
    ((match step (owned.setTb { owned.tb with divider := 63 }) with | .next t => t.tb.time | _ => 0) : Word) = 1 := by
  decide +kernel

end Sys2Proof.Tests
end

