-- ==== Sys2Proof/Tests/Witnesses.lean ====
section
/-! SUPPORT. For every obligation with hypotheses, concrete states and operands that meet them, clause by clause and at the
boundary values of their ranges. -/

set_option Elab.async false
set_option synthInstance.maxSize 4096

namespace Sys2Proof.Tests

open Sys2Proof Machine

/-- The command answers a next state. -/
def runs (c : Instr) (s : State) : Bool :=
  match exec c s with
  | .next _ => true
  | _ => false

theorem exec_of_runs {c : Instr} {s : State} (h : runs c s = true) : exec c s = .next (after c s) := by
  unfold runs at h
  unfold after
  split at h
  · rename_i e; rw [e]
  · cases h

/-- The state a step leads to. -/
def stepped (s : State) : State :=
  match step s with
  | .next t => t
  | _ => State.reset

/-- The step answers a next state. -/
def steps (s : State) : Bool :=
  match step s with
  | .next _ => true
  | _ => false

theorem step_of_steps {s : State} (h : steps s = true) : step s = .next (stepped s) := by
  unfold steps at h
  unfold stepped
  split at h
  · rename_i e; rw [e]
  · cases h

/-! ### States that satisfy every invariant -/

/-- A DRAIN waits for an OPEN slot. -/
def draining : State := busy (watching owned slot25) .drain
/-- A record write is ISSUED on a RUNNING ring. -/
def writing : State := withTag (ringUp owned) 0 .issued 0

theorem owned_good : owned.good := by decide +kernel
theorem draining_good : draining.good := by decide +kernel
theorem writing_good : writing.good := by decide +kernel
theorem armed_good : (armed owned).good := by decide +kernel

/-- The hypotheses of the invariant statements: LfsrStaysNonzero, AlertsStayConsistent, ProcessorPhasesStayLegal,
SlotPoolStaysConsistent, ChannelConditionsHold, OutputPathStaysQuiescent, RingWritesStayConsistent and
DrainConditionIsNeverMissed. The commands in front are a final reply, a commit, a PAUSE and a tick. -/
theorem witness_invariants :
    ∃ s t, s.good ∧ s.lfsrOk ∧ s.alertsOk ∧ step s = .next t ∧ s.pending = [.finalReply 5 2 3 (.data [])] := by
  refine ⟨{ draining with pending := [.finalReply 5 2 3 (.data [])] }, _, draining_good, by decide +kernel, by decide +kernel,
    step_of_steps (by decide +kernel), rfl⟩

theorem witness_invariants_writing :
    ∃ s t, s.good ∧ step s = .next t ∧ s.ring.active = true ∧ s.pending = [.writeDone 3 0 .done] :=
  ⟨{ writing with pending := [.writeDone 3 0 .done] }, _, writing_good, step_of_steps (by decide +kernel), by decide +kernel, rfl⟩

theorem witness_invariants_armed :
    ∃ s t, s.good ∧ step s = .next t ∧ (s.chan 0).run = .armed ∧ s.pending = [.pause w4 0] :=
  ⟨{ armed owned with pending := [.pause w4 0] }, _, armed_good, step_of_steps (by decide +kernel), by decide +kernel, rfl⟩

/-! ### The machine as a whole -/

theorem witness_StepRunsTheFrontCommand : { owned with pending := [.tick] }.pending = .tick :: [] := rfl

/-- An idle block under reset; one clock short of the period; and at the period. -/
theorem witness_IdleStepIsOneClock :
    (after .deviceResetAssert owned).pending = [] ∧ (after .deviceResetAssert owned).live = false ∧
      (owned.pending = [] ∧ owned.live = true ∧ 62 + 1 < owned.tb.active.toNat ∧ ¬(63 + 1 < owned.tb.active.toNat) ∧
        owned.tb.active.toNat ≤ 63 + 1) := by decide +kernel

theorem witness_TimeAndObservationChangeOnlyByTheirCommands_time :
    ∃ i s t, exec i s = .next t ∧ i ≠ .tick ∧ (∀ straps lines, i ≠ .powerOnReset straps lines) ∧
      ¬(s.cmd.phase = .params ∧ s.cmd.code = Command.setTime.code) :=
  ⟨.arm w4 2, par .arm, _, exec_of_runs (by decide +kernel), by simp, by simp, by decide +kernel⟩

theorem witness_TimeAndObservationChangeOnlyByTheirCommands_obs :
    ∃ i s t, exec i s = .next t ∧ i ≠ .backplaneReset ∧ (∀ straps lines, i ≠ .powerOnReset straps lines) ∧
      t.tb.obs ≠ s.tb.obs :=
  ⟨.start w4 0, owned, _, exec_of_runs (by decide +kernel), by simp, by simp, by decide +kernel⟩

theorem witness_BanksKeepTheirValues :
    ∃ i t, exec i (armed owned) = .next t ∧ (∀ straps lines, i ≠ .powerOnReset straps lines) ∧
      (2 : ChanId) ≠ (armed owned).bank ∧ ((armed owned).chan 0).run ≠ .disarmed ∧ (armed owned).owned 0 ≠ 0 :=
  ⟨.registerWrite (w4.access 0x050 7), _, exec_of_runs (by decide +kernel), by simp, by decide +kernel⟩

theorem witness_StatisticsBalance :
    ∃ i s t, s.poolOk ∧ exec i s = .next t ∧ (∀ straps lines, i ≠ .powerOnReset straps lines) ∧
      ¬(s.cmd.phase = .params ∧ s.cmd.code = Command.reset.code) :=
  ⟨.pause w4 0, armed owned, _, by decide +kernel, exec_of_runs (by decide +kernel), by simp, by decide +kernel⟩

/-! ### Resets and presence -/

theorem witness_PowerOnResetLoadsEveryValue : owned.pins.backplaneReset = false ∧ owned.pending = [] := by decide +kernel

theorem witness_ResetLinesStopTheBlock :
    (after .deviceResetAssert owned).live = false ∧ Instr.tick.isPin = false ∧ (Instr.claim w4 0).isPin = false ∧
      (after .deviceResetAssert owned).pins.deviceReset = true := by decide +kernel

theorem witness_BackplaneResetRelease :
    (∃ s : State, s.pins.deviceReset = false ∧ s.good ∧ s.cmd.phase = .executing ∧ s.ring.state = .idle) ∧
      ∃ s : State, s.pins.deviceReset = false ∧ s.good ∧ s.cmd.phase ≠ .executing ∧ s.ring.state ≠ .idle :=
  ⟨⟨draining, by decide +kernel, draining_good, by decide +kernel⟩,
    ⟨writing, by decide +kernel, writing_good, by decide +kernel⟩⟩

/-- Unread results; a SAMPLE record in flight; and none. -/
theorem witness_BackplaneResetRelease_losses :
    ((ended owned).pins.deviceReset = false ∧ (ended owned).good ∧ (ended owned).cmd.results ≠ []) ∧
      (writing.samplesInFlight 0 = 1 ∧ draining.samplesInFlight 0 = 0) := by decide +kernel

theorem witness_ArrivalAddsTheNode :
    owned.live = true ∧ ((5 : Node) ≠ owned.ownId ∧ has owned.present (5 : Node) = false) ∧
      ((4 : Node) ≠ owned.ownId ∧ has owned.present (4 : Node) = true) ∧ (9 : Node) = owned.ownId := by decide +kernel

/-- The owner, the memory node, and a node that a FAULTED ring's orphan waits for. -/
theorem witness_WithdrawalRemovesTheNode :
    (owned.live = true ∧ (4 : Node) ≠ owned.ownId ∧ has owned.present (4 : Node) = true ∧ owned.poolOk ∧
        owned.owner = some 4) ∧
      (let s := writing.setPresent 0x0218
       s.live = true ∧ (3 : Node) ≠ s.ownId ∧ has s.present (3 : Node) = true ∧ s.poolOk ∧ s.ring.active = true ∧
        s.ring.node = 3) ∧
      (let s := ((withTag owned 0 .orphaned 0).setRing
         { (withTag owned 0 .orphaned 0).ring with state := .faulted }).setPresent 0x0218
       s.live = true ∧ has s.present (3 : Node) = true ∧ s.poolOk ∧ s.ring.state = .faulted ∧
        (s.tag 0).state = .orphaned ∧ (s.tag 0).dest = 3) := by decide +kernel

/-- The initiator, and the target, of an OPEN slot. -/
theorem witness_WithdrawalRemovesTheNode_abandons :
    let s := (watching owned slot25).setPresent 0x0234
    s.live = true ∧ s.poolOk ∧
      ((2 : Node) ≠ s.ownId ∧ has s.present (2 : Node) = true ∧ (s.slot 0).involves 2 = true) ∧
      ((5 : Node) ≠ s.ownId ∧ has s.present (5 : Node) = true ∧ (s.slot 0).involves 5 = true) ∧
      (s.slot 0).involves 4 = false := by decide +kernel

/-! ### Ticks -/

/-- An ageing slot at 7 under limits 8 (expires) and 9 (ages), and a saturated age. -/
theorem witness_TickAdvancesTimeAndAgesSlots :
    (watching owned slot25).live = true ∧ (watching owned slot25).poolOk ∧
      (((watching owned slot25).slot 0).isLive = true ∧ 8 ≤ ((watching owned slot25).slot 0).age.toNat + 1 ∧
        ¬(9 ≤ ((watching owned slot25).slot 0).age.toNat + 1)) ∧
      ((closing owned).poolOk ∧ ((closing owned).slot 0).state = .closing) := by decide +kernel

/-- Backoff counts 1 and 2; an ORPHANED tag one tick short of the limit, and at it; two ISSUED tags at the limit, the lower the
least that is; and a DRAIN whose count reaches its timeout, and one that does not, with nothing else due. -/
theorem witness_TickAdvancesTimeAndAgesSlots_tags :
    (let s := (owned.setTag 0 { WriteTag.cleared with state := .backoff, backoff := 1 }).setTag 1
       { WriteTag.cleared with state := .backoff, backoff := 2 }
     s.live = true ∧ (∀ u : WTag, ¬s.timesOut u) ∧ (s.tag 0).backoff.toNat ≤ 1 ∧ 2 ≤ (s.tag 1).backoff.toNat) ∧
      (let s := (owned.setTag 2 { WriteTag.cleared with state := .orphaned, age := 1022 }).setTag 3
         { WriteTag.cleared with state := .orphaned, age := 1023 }
       (∀ u : WTag, ¬s.timesOut u) ∧ ¬s.limitAtTick 2 ∧ s.limitAtTick 3) ∧
      (let s := (owned.setTag 1 { WriteTag.cleared with state := .issued, age := 1023 }).setTag 4
         { WriteTag.cleared with state := .issued, age := 65535 }
       s.timesOut 1 ∧ (∀ u : WTag, u < 1 → ¬s.timesOut u) ∧ (s.tag 4).state = .issued ∧ s.limitAtTick 4) := by decide +kernel

theorem witness_TickAdvancesTimeAndAgesSlots_drain :
    (let s := draining.setCmd { draining.cmd with drainTimeout := 3, drainTicks := 2 }
     s.live = true ∧
      (∀ i : SlotId, ¬((s.slot i).isLive = true ∧ s.watchLimit ≠ 0 ∧
        s.watchLimit.toNat ≤ (agedBy1 (s.slot i).age).toNat)) ∧
      (∀ u : WTag, (s.tag u).state = .issued ∨ (s.tag u).state = .orphaned → ¬s.limitAtTick u) ∧
      (s.cmd.phase = .executing ∧ s.cmd.code = Command.drain.code) ∧
      s.cmd.drainTimeout.toNat ≤ (s.cmd.drainTicks + 1).toNat ∧ ¬(4 ≤ (s.cmd.drainTicks + 1).toNat)) ∧
      (after .tick draining).cmd.phase = .executing := by decide +kernel

theorem witness_TickTestsActOneAtATime_slot :
    (let s : State := { watching owned slot25 with watchLimit := 7 }
     s.live = true ∧ (s.slot 0).isLive = true ∧ s.watchLimit ≠ 0 ∧ s.watchLimit.toNat ≤ (s.slot 0).age.toNat) ∧
      (let s : State := { watching owned slot25 with watchLimit := 8 }
       s.live = true ∧ ¬((s.slot 0).isLive = true ∧ s.watchLimit ≠ 0 ∧ s.watchLimit.toNat ≤ (s.slot 0).age.toNat)) := by
  decide +kernel

theorem witness_TickTestsActOneAtATime_tags :
    (let s := withTag (ringUp owned) 4 .backoff 0
     s.live = true ∧ (s.tag 4).state = .backoff ∧ (s.tag 4).backoff = 0) ∧
      (let s := owned.setTag 0 { WriteTag.cleared with state := .issued, age := 1024 }
       (s.tag 0).state = .issued ∧ s.ring.writeLimit.toNat ≤ (s.tag 0).age.toNat) ∧
      (let s := owned.setTag 0 { WriteTag.cleared with state := .orphaned, age := 1024 }
       (s.tag 0).state = .orphaned ∧ s.ring.writeLimit.toNat ≤ (s.tag 0).age.toNat) ∧
      (let s := draining.setCmd { draining.cmd with drainTimeout := 3, drainTicks := 3 }
       s.cmd.phase = .executing ∧ s.cmd.code = Command.drain.code ∧ s.cmd.drainTimeout ≠ 0 ∧
        s.cmd.drainTimeout.toNat ≤ s.cmd.drainTicks.toNat) := by decide +kernel

/-- Each condition failing by one: a backoff of 1, ages and DRAIN ticks one below their limits. -/
theorem witness_TickTestsActOneAtATime_refused :
    (let s := owned.setTag 4 { WriteTag.cleared with state := .backoff, backoff := 1 }
     s.live = true ∧ ¬((s.tag 4).state = .backoff ∧ (s.tag 4).backoff = 0)) ∧
      (let s := owned.setTag 0 { WriteTag.cleared with state := .issued, age := 1023 }
       ¬((s.tag 0).state = .issued ∧ s.ring.writeLimit.toNat ≤ (s.tag 0).age.toNat)) ∧
      (let s := owned.setTag 0 { WriteTag.cleared with state := .orphaned, age := 1023 }
       ¬((s.tag 0).state = .orphaned ∧ s.ring.writeLimit.toNat ≤ (s.tag 0).age.toNat)) ∧
      (let s := draining.setCmd { draining.cmd with drainTimeout := 3, drainTicks := 2 }
       ¬(s.cmd.phase = .executing ∧ s.cmd.code = Command.drain.code ∧ s.cmd.drainTimeout ≠ 0 ∧
        s.cmd.drainTimeout.toNat ≤ s.cmd.drainTicks.toNat)) := by decide +kernel

/-! ### The control window -/

/-- One well-formed access for each fault code of R20, in the order of the checks, and one that is accepted. -/
theorem witness_WindowRefusesInOrder :
    ([(6, { w6.access 0x008 0 with kind := .swap }, owned), (6, { r6.access 0x3F0 with length := 8 }, owned),
        (4, r4.access 0x00A, owned), (6, w6.access 0x104 0, owned), (6, w6.access 0x01C 0x100, counting owned),
        (4, w4.access 0x030 0, ended owned), (4, w4.access 0x01C 0, counting owned), (4, w4.access 0x140 0, owned),
        (4, w4.access 0x01C 0, owned), (4, w4.access 0x01C 4096, owned)] : List (Node × Access × State)).map
      (fun p => (p.2.2.live, (p.2.1.toRequest p.2.2.ownId).wf,
        (after (.registerWrite p.2.1) p.2.2).outbox.map fun b =>
          match b with
          | .reply { body := .fault code, .. } => code
          | _ => 0)) =
      [5, 6, 1, 3, 2, 4, 8, 7, 9, 0].map fun c => (true, true, [c]) := by decide +kernel

/-- The lowest and the highest offset of a register whose read is open. -/
theorem witness_OpenReadsReturnTheRegister :
    owned.live = true ∧
      (Reg.ofOffset (0x000 : BitVec 10).toNat = some .ident ∧ Reg.ident.direction ≠ .writeOnly) ∧
      (Reg.ofOffset (0x27C : BitVec 10).toNat = some (.chStat 3 7) ∧ (Reg.chStat 3 7).direction ≠ .writeOnly) := by
  decide +kernel

theorem witness_RegisterWritesReplaceTheField_plain :
    owned.ownedBy w4.initiator ∧ owned.tb.obs = .paused ∧
      (1 ≤ ((1 : Word).extractLsb' 0 13).toNat ∧ ((4096 : Word).extractLsb' 0 13).toNat ≤ 4096) ∧
      (0x00010001 : Word).extractLsb' 0 16 ≠ 0 ∧ (3 : Word).toNat = (3 : ChanId).val ∧
      (1 ≤ ((1 : Word).extractLsb' 0 5).toNat ∧ ((16 : Word).extractLsb' 0 5).toNat ≤ 16) ∧
      (((0x14 : Word).extractLsb' 0 4).toNat = (4 : Node).val ∧ (4 : Node) ≠ owned.ownId) ∧
      (0x00200000 : Word).extractLsb' 0 2 = 0 := by decide +kernel

theorem witness_RegisterWritesReplaceTheField_ring :
    owned.ownedBy w4.initiator ∧ owned.ring.state = .idle ∧
      (((3 : Word).extractLsb' 0 4).toNat = (3 : Node).val ∧ (3 : Node) ≠ owned.ownId) ∧ (0xFFFFFFE0 : Word).toNat % 32 = 0 ∧
      (((16 : Word).extractLsb' 0 17).toNat = 16 ∧ ((65536 : Word).extractLsb' 0 17).toNat = 65536) ∧
      (0x101 : Word).extractLsb' 8 8 ≠ 0 ∧
      (1 ≤ ((1 : Word).extractLsb' 0 17).toNat ∧ ((65536 : Word).extractLsb' 0 17).toNat ≤ 65536) ∧
      (1 : Word).extractLsb' 0 16 ≠ 0 ∧ (4 : Word).toNat % 4 = 0 := by decide +kernel

/-- The refused values next to each range: PRESCALE 0 and 4097, LFSR 0, BANK 4 and a word whose low bits are 0, QUEUE_THRESHOLD 0
and 17, node 9, unaligned addresses, sizes 8 and 17, BACKOFF 0, RING_THRESHOLD 0 and 65537, WRITE_LIMIT 0. -/
theorem witness_RegisterWritesReplaceTheField_refused :
    (owned.ownedBy w4.initiator ∧ owned.tb.obs = .paused ∧ owned.ring.state = .idle) ∧
      (((0x2000 : Word).extractLsb' 0 13).toNat = 0 ∧ 4096 < ((4097 : Word).extractLsb' 0 13).toNat) ∧
      (0x10000 : Word).extractLsb' 0 16 = 0 ∧ (4 ≤ (4 : Word).toNat ∧ 4 ≤ (0x100 : Word).toNat) ∧
      (((0x20 : Word).extractLsb' 0 5).toNat = 0 ∧ 16 < ((17 : Word).extractLsb' 0 5).toNat) ∧
      ((0x19 : Word).extractLsb' 0 4).toNat = owned.ownId.val ∧ (2 : Word).extractLsb' 0 2 ≠ 0 ∧
      ((16 : Word).toNat % 32 ≠ 0 ∧ (2 : Word).toNat % 4 ≠ 0) ∧
      ((∀ k < 17, 4 ≤ k → ((8 : Word).extractLsb' 0 17).toNat ≠ 2 ^ k) ∧
        (∀ k < 17, 4 ≤ k → ((17 : Word).extractLsb' 0 17).toNat ≠ 2 ^ k)) ∧
      (0x10001 : Word).extractLsb' 8 8 = 0 ∧
      (((0x20000 : Word).extractLsb' 0 17).toNat = 0 ∧ 65536 < ((65537 : Word).extractLsb' 0 17).toNat) := by decide +kernel

/-- CH_PERIOD at the bounds of its fields: 1, 0, 1 and 0xFFFFFF, 8, 8. -/
theorem witness_BankRegisterWritesReachTheNamedChannel :
    owned.ownedBy w4.initiator ∧ (owned.chan owned.bank).run = .disarmed ∧ owned.owned owned.bank = 0 ∧
      ((0x10000001 : Word).extractLsb' 0 24 ≠ 0 ∧ ((0x10000001 : Word).extractLsb' 24 4).toNat ≤ 8 ∧
        1 ≤ ((0x10000001 : Word).extractLsb' 28 4).toNat ∧ ((0x10000001 : Word).extractLsb' 28 4).toNat ≤ 8) ∧
      ((0x88FFFFFF : Word).extractLsb' 0 24 ≠ 0 ∧ ((0x88FFFFFF : Word).extractLsb' 24 4).toNat ≤ 8 ∧
        1 ≤ ((0x88FFFFFF : Word).extractLsb' 28 4).toNat ∧ ((0x88FFFFFF : Word).extractLsb' 28 4).toNat ≤ 8) := by decide +kernel

/-- PERIOD 0, JITTER 9, QUOTA 0 and QUOTA 9, each the only field that is refused. -/
theorem witness_BankRegisterWritesReachTheNamedChannel_refused :
    (0x10000000 : Word).extractLsb' 0 24 = 0 ∧ 8 < ((0x19000001 : Word).extractLsb' 24 4).toNat ∧
      ((0x00000001 : Word).extractLsb' 28 4).toNat = 0 ∧ 8 < ((0x90000001 : Word).extractLsb' 28 4).toNat := by decide +kernel

theorem witness_ClaimAndRelinquishMoveOwnership :
    (State.reset.live = true ∧ State.reset.owner = none) ∧ (owned.live = true ∧ owned.owner = some w4.initiator) ∧
      (owned.owner = some 4 ∧ (4 : Node) ≠ w6.initiator ∧ owned.owner ≠ some w6.initiator) := by decide +kernel

theorem witness_MarkerIsStagedBouncedOrClosed :
    (let s := counting owned
     s.live = true ∧ s.tb.obs = .observing ∧ s.closeQueue = [] ∧ s.path.staging.length < 8) ∧
      (let s := closing (counting owned)
       s.live = true ∧ s.tb.obs = .observing ∧ s.closeQueue ≠ []) ∧
      (let s := (counting owned).setPath { owned.path with staging := List.replicate 8 rec0 }
       s.tb.obs = .observing ∧ 8 ≤ s.path.staging.length) ∧
      (owned.live = true ∧ owned.tb.obs = .paused) := by decide +kernel

theorem witness_QueueReadsWordByWord :
    owned.live = true ∧ owned.owner = some r4.initiator ∧ owned.path.results = [] ∧ owned.owner ≠ some r6.initiator ∧
      (owned.setPath { owned.path with results := [rec0], ptr := 6 }).path.ptr ≠ 7 ∧
      (owned.setPath { owned.path with results := [rec0, rec0], ptr := 7 }).path.ptr = 7 ∧
      (owned.setPath { owned.path with results := [rec0, rec0], ptr := 7 }).path.results = rec0 :: [rec0] := by
  decide +kernel

/-- CONSUMER at PRODUCER (admitted), one past it, and at 2N (both refused). -/
theorem witness_ConsumerNeverPassesTheProducer :
    let s := owned.setRing { owned.ring with producer := 3 }
    s.live = true ∧ s.owner = some w4.initiator ∧ s.owner ≠ some w6.initiator ∧
      (((3 : Word).extractLsb' 0 17).toNat < 32 ∧ ((3 : Int) - s.ring.consumer.toNat) % 32 ≤ ((3 : Int) - 0) % 32) ∧
      ¬(((4 : Int) - s.ring.consumer.toNat) % 32 ≤ ((3 : Int) - 0) % 32) ∧
      ¬(((32 : Word).extractLsb' 0 17).toNat < 32) := by decide +kernel

/-! ### The command processor -/

theorem witness_CommandPortTakesWordsByPhase :
    (owned.atOpening w4 ∧ Command.arm.takesParam = true) ∧
      (Instr.portWord (.arm w4 2) = some (w4, 2) ∧ owned.live = true ∧ (ended owned).owner = some w4.initiator ∧
        (ended owned).cmd.phase = .result ∧ draining.cmd.phase = .executing ∧ owned.owner ≠ some w6.initiator) := by
  decide +kernel

theorem witness_CommandPortTakesWordsByPhase_no_command : ∀ d : Command, d.code ≠ (0x1FF : Word).extractLsb' 0 8 := by
  intro d; cases d <;> decide

/-- The least word outside each range, and a word whose low bits alone would be admitted. -/
theorem witness_BadParametersEndTheCommand :
    ((par .arm).atParam w4 .arm ∧ (par .disarm).atParam w4 .disarm ∧ (par .release).atParam w4 .release ∧
        (par .purge).atParam w4 .purge ∧ (par .snapshot).atParam w4 .snapshot ∧ (par .readWatch).atParam w4 .readWatch ∧
        (par .ringStart).atParam w4 .ringStart ∧ (par .selectOutput).atParam w4 .selectOutput ∧
        (par .reset).atParam w4 .reset) ∧
      (4 ≤ (4 : Word).toNat ∧ 4 ≤ (0x10000 : Word).toNat ∧ (4 : Word).toNat ≠ 15 ∧ 8 ≤ (8 : Word).toNat ∧
        2 ≤ (2 : Word).toNat ∧ 16 ≤ (16 : Word).toNat) := by decide +kernel

theorem witness_ResultPortAndCancelActByPhase :
    (ended owned).live = true ∧ (ended owned).owner = some r4.initiator ∧ (ended owned).cmd.phase = .result ∧
      (ended owned).cmd.results = 0x1000 :: [7] ∧ owned.cmd.phase ≠ .result ∧ owned.owner ≠ some r6.initiator ∧
      owned.owner = some w4.initiator ∧ owned.owner ≠ some w6.initiator := by decide +kernel

theorem witness_StartPauseAndSetTime :
    owned.atOpening w4 ∧ (par .setTime).atParam w4 .setTime ∧
      ((armed owned).atOpening w4 ∧ (armed owned).tb.obs = .observing ∧ (armed owned).poolOk) ∧
      owned.tb.obs = .paused := by decide +kernel

/-- A running channel; one with its window crossed by one; and the highest channel, plain. -/
theorem witness_ArmLoadsTheCountdown :
    ((par .arm).atParam w4 .arm ∧ (3 : Word).toNat = (3 : ChanId).val ∧ ((par .arm).chan 3).run = .disarmed) ∧
      ((counting (par .arm)).chan 0).run ≠ .disarmed ∧
      (let s := withChan (par .arm) 0 fun x => { x with bank := { x.bank with window := true, wlo := 5, whi := 4 } }
       s.atParam w4 .arm ∧ (s.chan 0).run = .disarmed ∧ (s.chan 0).bank.window = true ∧
        (s.chan 0).bank.whi.toNat < (s.chan 0).bank.wlo.toNat) ∧
      (let s := withChan (par .arm) 0 fun x => { x with bank := { x.bank with window := true, wlo := 5, whi := 5 } }
       ¬((s.chan 0).bank.whi.toNat < (s.chan 0).bank.wlo.toNat)) := by decide +kernel

theorem witness_DisarmAndReleaseChangeTheRunState :
    ((armed (par .disarm)).atParam w4 .disarm ∧ (0 : Word).toNat = (0 : ChanId).val ∧ (armed (par .disarm)).poolOk) ∧
      (let s := withChan (par .release) 0 fun x => { x with run := .held }
       s.atParam w4 .release ∧ (s.chan 0).run = .held) := by decide +kernel

theorem witness_PurgeFreesWithoutRecords :
    let s := armed (watching (par .purge) slot25)
    s.atParam w4 .purge ∧ s.poolOk ∧ ((15 : Word).toNat = 15) ∧ (∀ c : ChanId, (fun _ => true) c = true) ∧
      (∀ c : ChanId, (fun c : ChanId => decide (c = 0)) c = decide ((0 : Word).toNat = c.val)) := by decide +kernel

/-- A FREE, a RESERVED and a CLOSING slot. -/
theorem witness_SnapshotAndReadWatchOnlyReport :
    (par .snapshot).atParam w4 .snapshot ∧ (3 : Word).toNat = (3 : ChanId).val ∧
      (par .readWatch).atParam w4 .readWatch ∧ (7 : Word).toNat = (7 : SlotId).val ∧
      Slot.cleared.state = .free ∧ ((armed owned).slot 1).state = .reserved ∧ closed25.state = .closing := by decide +kernel

/-- A queue-mode observer; a ring in ring mode whose threshold exceeds its size by one; and a consistent one. -/
theorem witness_RingStartChecksAndRuns :
    (par .ringStart).atParam w4 .ringStart ∧ (par .ringStart).path.mode ≠ .ring ∧
      (let s := ((par .ringStart).setPath { owned.path with mode := .ring }).setRing { owned.ring with node := 4 }
       s.atParam w4 .ringStart ∧ s.path.mode = .ring ∧ s.ring.state = .idle ∧ (∀ u, (s.tag u).state ≠ .orphaned) ∧
        s.ring.node ≠ s.ownId ∧ has (withBit s.present w4.initiator) s.ring.node = true ∧
        16 ≤ s.ring.size.toNat ∧ ¬(17 ≤ s.ring.size.toNat) ∧ s.ring.wbAddr = 0 ∧
        s.ring.base.toNat + 32 * s.ring.size.toNat - 1 ≤ 0xFFFFFFFF ∧
        s.ring.producer.toNat < 32 ∧ s.ring.consumer.toNat < 32) := by decide +kernel

theorem witness_StopSelectAndDrainStart :
    (ringUp owned).atOpening w4 ∧ (par .selectOutput).atParam w4 .selectOutput ∧ (1 : Word).toNat ≤ 1 ∧
      (par .drain).atParam w4 .drain := by decide +kernel

/-- An OUTPUT scope on an IDLE ring and on a RUNNING one, and states for the scopes' own clauses. -/
theorem witness_ResetAppliesItsScopes :
    (par .reset).atParam w4 .reset ∧ (15 : Word).toNat < 16 ∧ (withBit (0 : Word) 1).getLsbD 1 = true ∧
      (par .reset).ring.state = .idle ∧ (ringUp (par .reset)).ring.state = .running ∧ (armed owned).poolOk ∧
      owned.closeQueue = [] := by decide +kernel

/-- The OUTPUT scope's own clauses at a SAMPLE record in staging, with the close queue empty, and at a slot that waits in it. -/
theorem witness_ResetAppliesItsScopes_output :
    (let s := owned.setPath { owned.path with staging := [rec0] }
     s.closeQueue = [] ∧ rec0.isSample = true ∧ scopeOutput s ≠ s) ∧
      (let s := closing owned
       s.closeQueue ≠ [] ∧ (scopeOutput s).closeQueue = []) := by decide +kernel

/-! ### Interrupts and alerts -/

/-- The least reserved action, 8, and the greatest, 15. -/
theorem witness_InterruptActionsChangeOneSource :
    owned.live = true ∧ owned.owner = some w4.initiator ∧ owned.owner ≠ some w6.initiator ∧
      8 ≤ ((0x800 : Word).extractLsb' 8 4).toNat ∧ 8 ≤ ((0xF07 : Word).extractLsb' 8 4).toNat := by decide +kernel

theorem witness_AcknowledgeTakesTheHighestSource :
    (alertable owned).live = true ∧ (alertable owned).owner = some r4.initiator ∧ (alertable owned).ints.isHighest 4 ∧
      (∀ k : Source, ¬owned.ints.canDeliver k) ∧ owned.owner ≠ some r6.initiator := by decide +kernel

/-- Sources 0 and 7 in service, and none. -/
theorem witness_EndClosesTheMostUrgentService :
    let s := owned.setInts { owned.ints with ius := 0x80 }
    s.live = true ∧ s.owner = some w4.initiator ∧ s.ints.ius.getLsbD (7 : Source).val = true ∧
      (∀ t : Source, t < 7 → s.ints.ius.getLsbD t.val = false) ∧ owned.ints.ius = 0 ∧ s.owner ≠ some w6.initiator := by
  decide +kernel

theorem witness_AlertCheckSendsOneAlert :
    (let s := alertable owned
     s.live = true ∧ s.ints.alertEnable = true ∧ has s.present s.ints.alertNode = true ∧ s.ints.isHighest 4 ∧
      s.ints.alerted.getLsbD (4 : Source).val = false) ∧
      owned.ints.alertEnable = false ∧ has (alertable State.reset).present (alertable State.reset).ints.alertNode = false ∧
      (let s := after .alert (alertable owned)
       s.ints.isHighest 4 ∧ s.ints.alerted.getLsbD (4 : Source).val = true) := by decide +kernel

/-! ### Sampling and watching -/

theorem witness_RequestsAreCountedPerChannel :
    (counting owned).live = true ∧ read25.wf = true ∧ (counting owned).snoops read25 ∧ (counting owned).counts 0 read25 ∧
      ¬(counting owned).counts 1 read25 ∧ ((counting owned).chan 0).count = 1 := by decide +kernel

/-- Channels 0 and 1 COUNTING and about to fire. -/
def counting2 : State := withChan (counting owned) 1 fun x => { x with run := .counting, count := 1 }

/-- Two firing channels with jitter: the second draws after the first. -/
theorem witness_RequestsAreCountedPerChannel_draws :
    let s := withChan (withChan counting2 0 fun x => { x with bank := { x.bank with jitter := 1 } }) 1
      fun x => { x with bank := { x.bank with jitter := 8 } }
    s.counts 0 read25 ∧ s.counts 1 read25 ∧ s.drawsBefore 0 read25 = 0 ∧ s.drawsBefore 1 read25 = 1 := by decide +kernel

theorem witness_FiringsTakeReserveOrCollide :
    (let s := counting2
     s.live = true ∧ read25.wf = true ∧ s.snoops read25 ∧ s.counts 0 read25 ∧ s.unwatched read25.initiator read25.tag ∧
      read25.kind ≠ .posted ∧ read25.kind ≠ .broadcast ∧ (∀ d : ChanId, d < 0 → ¬s.counts d read25) ∧
      (s.chan 0).run = .counting ∧ (s.chan 0).count = 1 ∧ s.owned 0 < (s.chan 0).bank.quota.toNat ∧
      (s.slot 0).state = .free ∧ (∀ j : SlotId, j < 0 → (s.slot j).state ≠ .free) ∧
      (s.counts 1 read25 ∧ (s.chan 1).count = 1 ∧ (s.chan 1).run = .counting ∧ s.owned 1 < (s.chan 1).bank.quota.toNat ∧
        (∀ e : ChanId, 0 < e → e < 1 → ¬s.counts e read25) ∧ (s.slot 1).state = .free ∧
        (∀ k : SlotId, k < 1 → k ≠ 0 → (s.slot k).state ≠ .free))) ∧
      (let s := armed owned
       s.counts 0 read25 ∧ s.unwatched read25.initiator read25.tag ∧ (s.chan 0).run = .armed ∧ (s.chan 0).count ≠ 1 ∧
        (s.slot 1).state = .reserved ∧ (s.slot 1).channel = 0 ∧
        (∀ j : SlotId, j < 1 → ¬((s.slot j).state = .reserved ∧ (s.slot j).channel = 0))) ∧
      (let s := watching (counting owned) { slot25 with tag := 7 }
       s.counts 0 read25 ∧ s.unwatched read25.initiator read25.tag ∧ (s.chan 0).run = .counting ∧ (s.chan 0).count = 1 ∧
        (s.chan 0).bank.quota.toNat ≤ s.owned 0) ∧
      (let s := withChan (counting owned) 0 fun x => { x with run := .held }
       s.counts 0 read25 ∧ (s.chan 0).run = .held ∧ (s.chan 0).count = 1) := by decide +kernel

/-- An ARMED channel that also fires, with quota left and without; an ARMED channel above one that takes; and a POSTED. -/
theorem witness_FiringsTakeReserveOrCollide_armed :
    (let s := withChan (armed owned) 0 fun x => { x with count := 1, bank := { x.bank with quota := 2 } }
     s.live = true ∧ s.snoops read25 ∧ s.counts 0 read25 ∧ s.unwatched read25.initiator read25.tag ∧ (s.chan 0).run = .armed ∧
      (s.chan 0).count = 1 ∧ s.reservation 0 1 ∧ s.owned 0 < (s.chan 0).bank.quota.toNat ∧ s.lowestFree 0) ∧
      (let s := withChan (armed owned) 0 fun x => { x with count := 1 }
       s.counts 0 read25 ∧ (s.chan 0).bank.quota.toNat ≤ s.owned 0) ∧
      (let s := (withChan (counting owned) 1 fun x => { x with run := .armed, count := 1 }).setSlot 7
         { Slot.cleared with state := .reserved, channel := 1 }
       s.counts 0 read25 ∧ s.takesInto 0 0 ∧ s.counts 1 read25 ∧ (s.chan 1).run = .armed ∧ (s.chan 1).count = 1 ∧
        (s.slot 7).state = .reserved ∧ (s.slot 7).channel = 1) ∧
      (let r : Request := { read25 with kind := .posted, payload := List.replicate 64 0 }
       let s := counting owned
       r.wf = true ∧ s.snoops r ∧ s.counts 0 r ∧ s.unwatched r.initiator r.tag ∧ s.takesInto 0 0) := by decide +kernel

theorem witness_UncountedRequestsOnlyMeetTheirPair :
    (owned.live = true ∧ read25.wf = true ∧ owned.snoops read25 ∧ (∀ c : ChanId, ¬owned.counts c read25) ∧
        owned.unwatched read25.initiator read25.tag) ∧
      (let s := watching (counting owned) slot25
       (∀ c : ChanId, ¬s.counts c { read25 with reissue := true }) ∧ s.follows 0 read25.initiator read25.tag ∧
        (s.slot 0).state = .opened) ∧
      (let s := watching owned { slot25 with state := .bounced }
       (∀ c : ChanId, ¬s.counts c read25) ∧ s.follows 0 read25.initiator read25.tag ∧ (s.slot 0).state = .bounced) := by
  decide +kernel

theorem witness_RepliesMoveTheOpenSlot :
    let s := watching owned slot25
    s.live = true ∧ (2 : Node) ≠ s.ownId ∧ s.follows 0 2 3 ∧ (s.slot 0).state = .opened ∧
      ((s.slot 0).kind = .read ∨ (s.slot 0).kind = .swap) ∧ (7 : BitVec 4) ≠ 0 := by decide +kernel

/-- Another node's reply that nothing awaits; one for a BOUNCED slot; own replies on tag 5 and for a FREE tag. -/
theorem witness_StrayRepliesAreOnlyCounted :
    (owned.live = true ∧ (2 : Node) ≠ owned.ownId ∧ owned.unwatched 2 3) ∧
      (let s := watching owned { slot25 with state := .bounced }
       s.follows 0 2 3 ∧ (s.slot 0).state = .bounced) ∧
      ((9 : Node) = owned.ownId ∧ 5 ≤ (5 : Tag).val) ∧
      ((4 : WTag).val = (4 : Tag).val ∧ (owned.tag 4).state ≠ .issued ∧ (owned.tag 4).state ≠ .orphaned) := by
  decide +kernel

/-- A latency at THRESH and one below it, under both senses. -/
theorem witness_ClosingQualifiesTheRecord :
    qualifiesRecord { Bank.powerOn with thresh := 7 } closed25 = true ∧
      qualifiesRecord { Bank.powerOn with thresh := 8 } closed25 = false ∧
      qualifiesRecord { Bank.powerOn with thresh := 8, inv := true } closed25 = true ∧
      qualifiesRecord { Bank.powerOn with thresh := 7, inv := true } closed25 = false ∧
      qualifiesRecord { Bank.powerOn with sigMask := 0x0002, sigMatch := 0x0002 } closed25 = false := by decide +kernel

/-! ### The output path and the ring -/

theorem witness_RecordsMoveDownTheOutputPath_entry :
    ((closing owned).live = true ∧ (closing owned).closeQueue = 0 :: [] ∧ (closing owned).path.staging.length < 8) ∧
      (let s := (closing owned).setPath { owned.path with staging := List.replicate 8 rec0 }
       8 ≤ s.path.staging.length) ∧
      owned.closeQueue = [] ∧
      (let s := withChan (armed owned) 0 fun x => { x with bank := { x.bank with notify := .each } }
       (s.chan 0).bank.notify = .each ∧ (s.chan 0).run = .armed ∧ (s.slot 1).state = .reserved ∧ (s.slot 1).channel = 0 ∧
        ∀ j : SlotId, j < 1 → ¬((s.slot j).state = .reserved ∧ (s.slot j).channel = 0)) := by decide +kernel

theorem witness_RecordsMoveDownTheOutputPath_queue :
    (let s := owned.setPath { owned.path with staging := [rec0], results := List.replicate 15 rec0 }
     s.live = true ∧ s.path.staging = rec0 :: [] ∧ s.path.mode = .queue ∧ s.path.results.length < 16) ∧
      (let s := owned.setPath { owned.path with staging := [rec0], results := List.replicate 16 rec0 }
       16 ≤ s.path.results.length) ∧
      (rec0.w0.extractLsb' 0 4 = 1 ∧ (composeMarker 7 1 2 3).w0.extractLsb' 0 4 ≠ 1) := by decide +kernel

theorem witness_AdvanceMovesEverythingInOrder :
    (let s := (closing owned).setPath
       { owned.path with staging := List.replicate 8 rec0, results := List.replicate 16 rec0 }
     s.path.mode = .queue ∧ (advance s).closeQueue ≠ [] ∧ (advance s).path.staging ≠ []) := by decide +kernel

/-- A running ring with a record in staging: with space; with its record tags busy; and full by one position. -/
def issuing : State := (ringUp owned).setPath { (ringUp owned).path with staging := [rec0] }

theorem witness_IssueWritesGapsAndDrops :
    (let s := issuing
     s.live = true ∧ s.path.mode = .ring ∧ s.ring.state = .running ∧ s.path.staging = rec0 :: [] ∧
      ringSizeOk s.ring.n = true ∧ (s.tag 0).state = .free ∧ (∀ t : WTag, t < 0 → (s.tag t).state ≠ .free) ∧
      s.ring.fillInt + recTags.countP (fun u => (s.tag u).inFlight) < (s.ring.size.toNat : Int) ∧
      s.ring.lostPending = 0) ∧
      (let s := withTag (withTag (withTag (withTag issuing 0 .issued 0) 1 .issued 1) 2 .issued 2) 3 .issued 3
       (∀ u : WTag, u < 4 → (s.tag u).state ≠ .free) ∧
        s.ring.fillInt + recTags.countP (fun u => (s.tag u).inFlight) < (s.ring.size.toNat : Int)) ∧
      (let s := issuing.setRing { issuing.ring with producer := 16 }
       ¬(s.ring.fillInt + recTags.countP (fun u => (s.tag u).inFlight) < (s.ring.size.toNat : Int)) ∧
        s.ring.policy = .stall) ∧
      (let s := issuing.setRing { issuing.ring with producer := 15 }
       s.ring.fillInt + recTags.countP (fun u => (s.tag u).inFlight) < (s.ring.size.toNat : Int)) := by decide +kernel

/-- A pending loss with space; the DROP policy without space, at a saturated count and at 0; and nothing in staging. -/
theorem witness_IssueWritesGapsAndDrops_losses :
    (let s := issuing.setRing { issuing.ring with lostPending := 1 }
     s.path.staging = rec0 :: [] ∧ ringSizeOk s.ring.n = true ∧ (s.tag 0).state = .free ∧ s.ring.lostPending ≠ 0 ∧
      s.ring.fillInt + recTags.countP (fun u => (s.tag u).inFlight) < (s.ring.size.toNat : Int)) ∧
      (let s := issuing.setRing { issuing.ring with producer := 16, policy := .drop, lostPending := 0xFFFFFFFF }
       s.live = true ∧ s.path.mode = .ring ∧ s.ring.state = .running ∧ ringSizeOk s.ring.n = true ∧ s.ring.policy = .drop ∧
        ¬(s.ring.fillInt + recTags.countP (fun u => (s.tag u).inFlight) < (s.ring.size.toNat : Int))) ∧
      (let s := issuing.setRing { issuing.ring with producer := 16, policy := .drop }
       s.ring.lostPending = 0 ∧
        ¬(s.ring.fillInt + recTags.countP (fun u => (s.tag u).inFlight) < (s.ring.size.toNat : Int))) ∧
      (owned.live = true ∧ owned.path.staging = []) := by decide +kernel

theorem witness_CommitAdvancesTheProducer :
    ((writing.tag 0).state = .issued ∧ writing.ring.runOk ∧ ringSizeOk writing.ring.n = true) ∧
      (let s := withTag (ringUp owned) 0 .done 0
       s.live = true ∧ s.ring.runOk ∧ ringSizeOk s.ring.n = true ∧ (s.tag 0).state = .done ∧
        (s.tag 0).position = s.ring.producer ∧
        ¬∃ v ∈ recTags, (s.tag v).state = .done ∧ (s.tag v).position.toNat = (s.ring.producer.toNat + 1) % 32) := by
  decide +kernel

/-- A run of two. -/
theorem witness_CommitAdvancesTheProducer_run :
    let s := withTag (withTag (ringUp owned) 0 .done 0) 3 .done 1
    s.live = true ∧ s.ring.runOk ∧ ringSizeOk s.ring.n = true ∧ (s.tag 0).state = .done ∧
      (s.tag 0).position = s.ring.producer ∧
      ∃ v ∈ recTags, (s.tag v).state = .done ∧ (s.tag v).position.toNat = (s.ring.producer.toNat + 1) % 32 := by
  decide +kernel

/-- The greatest RING_SIZE, 65536, with PRODUCER at 2N - 1: the commit wraps it to 0. -/
theorem witness_CommitAdvancesTheProducer_wrap :
    let s := (owned.setRing { (ringUp owned).ring with size := 65536, producer := 131071, consumer := 131070 }).setTag 0
      { WriteTag.cleared with state := .done, position := 131071 }
    s.live = true ∧ s.ring.runOk ∧ ringSizeOk s.ring.n = true ∧ (s.tag 0).state = .done ∧
      (s.tag 0).position = s.ring.producer ∧
      ¬∃ v ∈ recTags, (s.tag v).state = .done ∧ (s.tag v).position.toNat = (s.ring.producer.toNat + 1) % 131072 := by
  decide +kernel

theorem witness_WritesAndTheirReplies :
    (let s := (ringUp owned).setRing { (ringUp owned).ring with wbAddr := 0x8000 }
     s.live = true ∧ s.ring.wbAddr ≠ 0 ∧ (s.tag 4).state = .free ∧ s.ring.state = .running) ∧
      ((ringUp owned).setTag 4 { WriteTag.cleared with state := .issued }).tag 4 =
        { WriteTag.cleared with state := .issued } ∧
      ((writing.tag 0).state = .issued ∧ (writing.tag 0).bounces + 1 < 9) ∧
      (let s := (ringUp owned).setTag 0 { WriteTag.cleared with state := .issued, bounces := 8 }
       (s.tag 0).state = .issued ∧ 9 ≤ (s.tag 0).bounces + 1) ∧
      ((7 : BitVec 4) ≠ 0 ∧ ((withTag owned 0 .orphaned 0).tag 0).state = .orphaned ∧ ReplyBody.done.wf = true) := by
  decide +kernel

theorem witness_RingFaultDisposesOfTheWrites :
    (recTags.filter fun u => (writing.tag u).inFlight) = [0] ∧ (writing.tag 0).position = writing.ring.producer ∧
      writing.ring.producer.toNat < 2 * writing.ring.n ∧
      (recTags.filter fun u => (owned.tag u).inFlight) = [] := by decide +kernel

theorem witness_StopAndDrainComplete :
    (let s := (ringUp owned).setRing { (ringUp owned).ring with state := .stopping }
     s.live = true ∧ s.ring.state = .stopping ∧ ∀ u : WTag, (s.tag u).state = .free) ∧
      ¬(owned.ring.state = .stopping) := by decide +kernel

end Sys2Proof.Tests
end

