-- ==== Sys2Proof/Proofs/ControlWindow.lean ====
section
/-! PROOF. Ownership of the control window: what the checks of R20 come to for the writes that ownership alone decides, what
CLAIM and RELINQUISH do, and what the command processor abandons when its owner leaves. -/

namespace Sys2Proof.Machine

/-! ### Writes that ownership alone decides -/

/-- A write row's beat is a WRITE or a POSTED, never a READ. -/
@[simp] theorem readsOnly_writerBeat (w : Writer) (g : Reg) (v : Word) (own : Node) :
    readsOnly (writerBeat w g v own) = false := by
  unfold readsOnly writerBeat
  cases w.posted <;> simp

/-- The registers whose writes meet no check of R20 but the one for ownership: they may be written, have no phase or lock,
and take every word. -/
def Reg.ownerDecides (g : Reg) : Prop := g ∈ [Reg.claim, .relinquish, .cmdCancel, .queuePtr, .endSvc]

theorem Reg.hasRow_of_ownerDecides {g : Reg} (h : g.ownerDecides) : g.hasRow := by
  unfold Reg.ownerDecides at h
  fin_cases h <;> simp [Reg.hasRow]

theorem Reg.ne_marker_of_ownerDecides {g : Reg} (h : g.ownerDecides) : g ≠ .marker := by
  rintro rfl
  simp [Reg.ownerDecides] at h

/-- Of the conditions 4 to 9 of R20 only the fifth can hold of such a write. -/
theorem checkReg_of_ownerDecides {g : Reg} (h : g.ownerDecides) (w : Writer) (v : Word) (own : Node) (s : State) :
    checkReg s (writerBeat w g v own) g = if ownerRefused s (writerBeat w g v own) g then some .notOwner else none := by
  have hdir : wrongDirection (writerBeat w g v own) g = false := by
    unfold Reg.ownerDecides at h
    fin_cases h <;> simp [wrongDirection, Reg.direction]
  have hphase : phaseRefused s g = false := by
    unfold Reg.ownerDecides at h
    fin_cases h <;> rfl
  have hlock : lockRefused s (writerBeat w g v own) g = false := by
    unfold Reg.ownerDecides at h
    fin_cases h <;> simp [lockRefused, Reg.isBank, Reg.isRingConfig]
  have hmarker : markerClosed s g = false := by simp [markerClosed, Reg.ne_marker_of_ownerDecides h]
  have hvalue : valueOk s g v = true := by
    unfold Reg.ownerDecides at h
    fin_cases h <;> rfl
  simp [checkReg, hdir, hphase, hlock, hmarker, hvalue]

/-- A live write of such a register is refused with NOT_OWNER, or answered and performed (R20, R22, R24). -/
theorem writeEvent_of_ownerDecides {g : Reg} (h : g.ownerDecides) (w : Writer) (v : Word) (s : State)
    (hl : s.live = true) :
    writeEvent w g v s =
      if ownerRefused (s.arrived w.initiator) (writerBeat w g v s.ownId) g then afterEvent (s.refusedWrite w 2)
      else afterEvent (writeReg w.initiator g v (s.written w)) := by
  rw [writeEvent_cases w g v s hl (Reg.hasRow_of_ownerDecides h), checkReg_of_ownerDecides h]
  cases ownerRefused (s.arrived w.initiator) (writerBeat w g v s.ownId) g
  · simp [Reg.ne_marker_of_ownerDecides h]
  · simp [WindowFault.code]

/-! ### Who is refused -/

/-- CLAIM is refused exactly while another node owns the observer (R27). -/
theorem ownerRefused_claim (w : Writer) (v : Word) (s : State) :
    ownerRefused (s.arrived w.initiator) (writerBeat w .claim v s.ownId) .claim = true ↔
      s.owner ≠ none ∧ s.owner ≠ some w.initiator := by
  simp only [ownerRefused, Bool.and_eq_true, decide_eq_true_iff]
  rfl

/-- RELINQUISH is refused to every node but the owner (R28). -/
theorem ownerRefused_relinquish (w : Writer) (v : Word) (s : State) :
    ownerRefused (s.arrived w.initiator) (writerBeat w .relinquish v s.ownId) .relinquish = true ↔
      s.owner ≠ some w.initiator := by
  simp only [ownerRefused, readsOnly_writerBeat, Bool.not_false, Bool.true_and, decide_eq_true_iff]
  rfl

/-! ### The rows -/

/-- CLAIM by whether the window is free or the claimant's own already (R27). -/
theorem execClaim_cases (w : Writer) (v : Word) (s : State) (hl : s.live = true) :
    execClaim w v s =
      if s.owner = none ∨ s.owner = some w.initiator then
        afterEvent { s.written w with owner := some w.initiator }
      else afterEvent (s.refusedWrite w 2) := by
  have hwrite := writeEvent_of_ownerDecides (g := .claim) (by simp [Reg.ownerDecides]) w v s hl
  rw [execClaim, hwrite]
  by_cases ho : s.owner = none ∨ s.owner = some w.initiator
  · rw [if_pos ho, if_neg (by rw [ownerRefused_claim]; tauto)]
    rfl
  · rw [if_neg ho, if_pos (by rw [ownerRefused_claim]; tauto)]

/-- RELINQUISH by whether the owner writes it (R28, R29). -/
theorem execRelinquish_cases (w : Writer) (v : Word) (s : State) (hl : s.live = true) :
    execRelinquish w v s =
      if s.owner = some w.initiator then afterEvent { s.written w with owner := none, cmd := s.cmd.abort }
      else afterEvent (s.refusedWrite w 2) := by
  have hwrite := writeEvent_of_ownerDecides (g := .relinquish) (by simp [Reg.ownerDecides]) w v s hl
  rw [execRelinquish, hwrite]
  by_cases ho : s.owner = some w.initiator
  · rw [if_pos ho, if_neg (by rw [ownerRefused_relinquish]; tauto)]
    rfl
  · rw [if_neg ho, if_pos (by rw [ownerRefused_relinquish]; tauto)]

/-! ### The command processor at a loss of ownership (R156) -/

section Abort

variable {c : Processor}

theorem Processor.abort_of_idle (h : c.phase = .idle) : c.abort = c := by
  simp [Processor.abort, h]

theorem Processor.abort_of_params (h : c.phase = .params) : c.abort = { c with phase := .idle, code := 0 } := by
  simp [Processor.abort, h]

theorem Processor.abort_of_executing (h : c.phase = .executing) :
    c.abort =
      { c with phase := .idle, code := 0, results := [], lastStatus := 8, lastCode := c.code, discarded := true } := by
  simp [Processor.abort, h, Status.code]

theorem Processor.abort_of_result (h : c.phase = .result) :
    c.abort =
      { c with phase := .idle, code := 0, results := [], discarded := c.discarded || decide (c.results ≠ []) } := by
  cases hr : c.results <;> simp [Processor.abort, h, hr]

end Abort

/-! ### Settled -/

/-- Settles O27: the two rows by their cases, and the abandoned command by its phase. -/
theorem claimAndRelinquishMoveOwnership : Obligations.ClaimAndRelinquishMoveOwnership := by
  unfold Obligations.ClaimAndRelinquishMoveOwnership
  refine ⟨fun w v s hl => ⟨fun ho => ?_, fun n hn hne => ?_⟩, fun w v s hl => ⟨fun ho => ?_, fun ho => ?_⟩⟩
  · exact (execClaim_cases w v s hl).trans (if_pos ho)
  · have hother : ¬(s.owner = none ∨ s.owner = some w.initiator) := by simp [hn, hne]
    exact (execClaim_cases w v s hl).trans (if_neg hother)
  · refine (execRelinquish_cases w v s hl).trans ((if_pos ho).trans ?_)
    cases hp : s.cmd.phase with
    | idle => rw [Processor.abort_of_idle hp]
    | params => rw [Processor.abort_of_params hp]
    | executing => rw [Processor.abort_of_executing hp]
    | result => rw [Processor.abort_of_result hp]
  · exact (execRelinquish_cases w v s hl).trans (if_neg ho)

end Sys2Proof.Machine
end

