-- ==== Sys2Proof/Proofs/Qualification.lean ====
section
/-! PROOF. Qualification of a closed slot: the event test and the latency test as propositions about the owning channel's
bank, and the two ends of a closing by their outcome. -/

namespace Sys2Proof.Machine

/-! ### The two tests -/

/-- The event test compares under SIG_MASK (R95). -/
theorem eventTest_iff (b : Bank) (sig : BitVec 16) :
    eventTest b sig = true ↔ sig &&& b.sigMask = b.sigMatch &&& b.sigMask := by
  rw [eventTest, decide_eq_true_iff]

theorem selectedLatency_eq (b : Bank) (x : Slot) :
    selectedLatency b x = if b.sel = .wait then x.wait else x.total := by
  cases h : b.sel <;> simp [selectedLatency, h]

/-- The rows of R96 in order: a THRESH of 0 passes, an absent latency fails, and INV gives the sense of the comparison. -/
theorem latencyTest_iff (b : Bank) (x : Slot) :
    latencyTest b x = true ↔ b.thresh = 0 ∨ ∃ l, selectedLatency b x = some l ∧
      (if b.inv then l.toNat < b.thresh.toNat else b.thresh.toNat ≤ l.toNat) := by
  cases hlatency : selectedLatency b x with
  | none => simp [latencyTest, hlatency]
  | some l => cases hinv : b.inv <;> simp [latencyTest, hlatency, hinv]

/-- A closed slot passes qualification when both tests pass (R97). -/
theorem qualifiesRecord_iff (b : Bank) (x : Slot) :
    qualifiesRecord b x = true ↔ x.signature &&& b.sigMask = b.sigMatch &&& b.sigMask ∧
      (b.thresh = 0 ∨ ∃ l, (if b.sel = .wait then x.wait else x.total) = some l ∧
        (if b.inv then l.toNat < b.thresh.toNat else b.thresh.toNat ≤ l.toNat)) := by
  rw [qualifiesRecord, Bool.and_eq_true, eventTest_iff, latencyTest_iff, selectedLatency_eq]

/-! ### The two ends of a closing -/

/-- Slot i after step 1 of its closing: outcome and close time are fixed (R87). -/
def State.endedSlot (s : State) (i : SlotId) (e : Ending) : Slot :=
  { s.slot i with outcome := some e, closeTime := some s.tb.time }

section Closing

variable {i : SlotId} {e : Ending} {s : State}

/-- A slot that passes becomes CLOSING and joins the close queue, and the output advances (R87). -/
theorem closeSlot_of_qualifies (h : qualifiesRecord (s.chan (s.endedSlot i e).channel).bank (s.endedSlot i e) = true) :
    closeSlot i e s = advance
      { s.setSlot i { s.endedSlot i e with state := .closing } with closeQueue := s.closeQueue ++ [i] } :=
  if_pos h

/-- A slot that fails is FREE at once and counts in FILTERED of its channel (R87). -/
theorem closeSlot_of_not_qualifies
    (h : ¬qualifiesRecord (s.chan (s.endedSlot i e).channel).bank (s.endedSlot i e) = true) :
    closeSlot i e s = drainTest ((s.setSlot i Slot.cleared).setChan (s.endedSlot i e).channel
      { s.chan (s.endedSlot i e).channel with
        stats :=
          { (s.chan (s.endedSlot i e).channel).stats with
            filtered := (s.chan (s.endedSlot i e).channel).stats.filtered + 1 } }) :=
  if_neg h

end Closing

/-! ### Settled -/

/-- Settles O52: the two ends of a closing, with qualification read as R95 to R97 state it. -/
theorem closingQualifiesTheRecord : Obligations.ClosingQualifiesTheRecord := by
  unfold Obligations.ClosingQualifiesTheRecord
  intro i e s
  have hqualifies := qualifiesRecord_iff (s.chan (s.endedSlot i e).channel).bank (s.endedSlot i e)
  exact ⟨fun hpasses => closeSlot_of_qualifies (hqualifies.mpr hpasses),
    fun hfails => closeSlot_of_not_qualifies (mt hqualifies.mp hfails)⟩

end Sys2Proof.Machine
end

