-- ==== Sys2Proof/Proofs/Interrupts.lean ====
section
/-! PROOF. The interrupt registers INT_CTRL, ACK and END: what the window makes of an access to each, and what the flags
become. -/

namespace Sys2Proof.Machine

/-! ### Accesses spelt out by their offset -/

/-- A write to the offset of a register, as an access of any register, is the write row's beat (R19). -/
theorem exec_registerWrite_writerAccess (w : Writer) (g : Reg) (v : Word) (s : State) :
    exec (.registerWrite (w.access g.offset v)) s = writeEvent w g v s := by
  have hbeat : (w.access g.offset v).toRequest s.ownId = writerBeat w g v s.ownId := by
    unfold Writer.access writerBeat
    cases w.posted <;> rfl
  exact congrArg (requestEvent · s) hbeat

/-- A read of the offset of a register, as an access of any register, is the read row's beat (R19). -/
theorem exec_registerWrite_readerAccess (r : Reader) (g : Reg) (s : State) :
    exec (.registerWrite (r.access g.offset)) s = readEvent r g s := rfl

/-! ### Accesses against a register's direction (R23) -/

/-- A live READ of a write-only register is refused with ACCESS_DIRECTION. -/
theorem readEvent_of_writeOnly {g : Reg} (hg : g.hasRow) (hd : g.direction = .writeOnly) (r : Reader) (s : State)
    (hl : s.live = true) : readEvent r g s = afterEvent (s.refusedRead r 3) := by
  have hwrong : wrongDirection (readerBeat r g s.ownId) g = true := by
    rw [wrongDirection, hd]
    rfl
  rw [readEvent_cases r g s hl hg, checkReg, if_pos hwrong]
  rfl

/-- A live write to a read-only register is refused with ACCESS_DIRECTION. -/
theorem writeEvent_of_readOnly {g : Reg} (hg : g.hasRow) (hd : g.direction = .readOnly) (w : Writer) (v : Word) (s : State)
    (hl : s.live = true) : writeEvent w g v s = afterEvent (s.refusedWrite w 3) := by
  have hwrong : wrongDirection (writerBeat w g v s.ownId) g = true := by simp [wrongDirection, hd]
  rw [writeEvent_cases w g v s hl hg, checkReg, if_pos hwrong]
  rfl

/-! ### Action codes and the fields of an INT_CTRL word -/

@[simp] theorem IntAction.ofCode_code (a : IntAction) : IntAction.ofCode a.code = some a := by
  cases a <;> decide

theorem IntAction.code_lt (a : IntAction) : a.code.toNat < 8 := by
  cases a <;> decide

/-- The codes 8 to 15 name no action (R171). -/
theorem IntAction.ofCode_eq_none {code : BitVec 4} (h : 8 ≤ code.toNat) : IntAction.ofCode code = none := by
  simp only [IntAction.ofCode, List.find?_eq_none, decide_eq_true_eq]
  rintro a - rfl
  exact absurd a.code_lt (not_lt.mpr h)

@[simp] theorem intCtrlWord_action (code : BitVec 4) (k : Source) (junk : Word) :
    (intCtrlWord code k junk).extractLsb' 8 4 = code := by
  apply BitVec.eq_of_getLsbD_eq
  intro j hj
  interval_cases j <;> simp [intCtrlWord, fieldAt]

@[simp] theorem intCtrlWord_source (code : BitVec 4) (k : Source) (junk : Word) :
    Fin.ofNat 8 ((intCtrlWord code k junk).extractLsb' 0 3).toNat = k := by
  have hfield : (intCtrlWord code k junk).extractLsb' 0 3 = BitVec.ofNat 3 k.val := by
    apply BitVec.eq_of_getLsbD_eq
    intro j hj
    interval_cases j <;> simp [intCtrlWord, fieldAt]
  rw [hfield, BitVec.toNat_ofNat]
  exact Fin.ext (by simp)

/-! ### INT_CTRL (R171) -/

section IntCtrl

variable {w : Writer} {v : Word} {s : State}

/-- Of the conditions 4 to 9 of R20 a write to INT_CTRL can meet only the fifth and the ninth. -/
theorem checkReg_intCtrl (w : Writer) (v : Word) (s : State) :
    checkReg (s.arrived w.initiator) (writerBeat w .intCtrl v s.ownId) .intCtrl =
      if s.owner ≠ some w.initiator then some .notOwner
      else if (IntAction.ofCode (v.extractLsb' 8 4)).isSome then none else some .badValue := by
  have howner : (s.arrived w.initiator).owner = s.owner := rfl
  have hinit : (writerBeat w .intCtrl v s.ownId).initiator = w.initiator := rfl
  by_cases ho : s.owner = some w.initiator
  · cases ha : IntAction.ofCode (v.extractLsb' 8 4) <;>
      simp [checkReg, wrongDirection, Reg.direction, ownerRefused, phaseRefused, lockRefused, Reg.isBank, Reg.isRingConfig,
        markerClosed, valueOk, howner, hinit, ho, ha]
  · simp [checkReg, wrongDirection, Reg.direction, ownerRefused, howner, hinit, ho]

theorem writeEvent_intCtrl_of_not_owner (hl : s.live = true) (ho : s.owner ≠ some w.initiator) :
    writeEvent w .intCtrl v s = afterEvent (s.refusedWrite w 2) := by
  rw [writeEvent_cases w _ v s hl (by simp [Reg.hasRow]), checkReg_intCtrl, if_pos ho]
  rfl

theorem writeEvent_intCtrl_of_no_action (hl : s.live = true) (ho : s.owner = some w.initiator)
    (ha : IntAction.ofCode (v.extractLsb' 8 4) = none) :
    writeEvent w .intCtrl v s = afterEvent (s.refusedWrite w 9) := by
  rw [writeEvent_cases w _ v s hl (by simp [Reg.hasRow]), checkReg_intCtrl, if_neg (not_not.mpr ho), ha]
  rfl

theorem writeEvent_intCtrl_of_action {a : IntAction} (hl : s.live = true) (ho : s.owner = some w.initiator)
    (ha : IntAction.ofCode (v.extractLsb' 8 4) = some a) :
    writeEvent w .intCtrl v s =
      afterEvent ((s.written w).setInts (s.ints.act (Fin.ofNat 8 (v.extractLsb' 0 3).toNat) a)) := by
  rw [writeEvent_cases w _ v s hl (by simp [Reg.hasRow]), checkReg_intCtrl, if_neg (not_not.mpr ho), ha]
  simp only [Option.isSome_some, if_true, reduceCtorEq, if_false, writeReg, writeIntCtrl, ha]
  rfl

end IntCtrl

/-! ### The rows of the eight actions -/

/-- The row of each INT_CTRL action. -/
def IntAction.row (w : Writer) (k : Source) (junk : Word) : IntAction → Instr
  | .setIe => .setIe w k junk
  | .clearIe => .clearIe w k junk
  | .setIp => .setIp w k junk
  | .clearIp => .clearIp w k junk
  | .setIus => .setIus w k junk
  | .clearIus => .clearIus w k junk
  | .clearErr => .clearErr w k junk
  | .clearAll => .clearAll w k junk

section Rows

variable {w : Writer} {s : State}

theorem exec_intActionRow (a : IntAction) (w : Writer) (k : Source) (junk : Word) (s : State) :
    exec (a.row w k junk) s = writeEvent w .intCtrl (intCtrlWord a.code k junk) s := by
  cases a <;> rfl

/-- The owner's row performs its action on the named source, whatever the ignored bits (R171). -/
theorem exec_intActionRow_of_owner (hl : s.live = true) (ho : s.owner = some w.initiator) (k : Source) (junk : Word)
    (a : IntAction) : exec (a.row w k junk) s = afterEvent ((s.written w).setInts (s.ints.act k a)) := by
  rw [exec_intActionRow, writeEvent_intCtrl_of_action (a := a) hl ho (by simp), intCtrlWord_source]

theorem exec_intActionRow_of_not_owner (hl : s.live = true) (ho : s.owner ≠ some w.initiator) (k : Source) (junk : Word)
    (a : IntAction) : exec (a.row w k junk) s = afterEvent (s.refusedWrite w 2) := by
  rw [exec_intActionRow, writeEvent_intCtrl_of_not_owner hl ho]

end Rows

/-! ### ACK (R173) -/

/-- ACK may be read in every phase; of R20 only ownership can refuse its READ (R24). -/
theorem checkReg_ack (r : Reader) (s : State) :
    checkReg (s.arrived r.initiator) (readerBeat r .ack s.ownId) .ack =
      if s.owner ≠ some r.initiator then some .notOwner else none := by
  have howner : (s.arrived r.initiator).owner = s.owner := rfl
  have hinit : (readerBeat r .ack s.ownId).initiator = r.initiator := rfl
  have hread : readsOnly (readerBeat r .ack s.ownId) = true := rfl
  simp [checkReg, wrongDirection, Reg.direction, ownerRefused, phaseRefused, lockRefused, markerClosed, howner, hinit, hread]

/-- ACK by whether the owner reads it: the value is taken before the flags move (R22, R173). -/
theorem execAck_cases (r : Reader) (s : State) (hl : s.live = true) :
    execAck r s =
      if s.owner = some r.initiator then afterEvent ((s.readAs r s.ints.ackValue).setInts s.ints.acknowledge)
      else afterEvent (s.refusedRead r 2) := by
  rw [execAck, readEvent_cases r _ s hl (by simp [Reg.hasRow]), checkReg_ack]
  by_cases ho : s.owner = some r.initiator
  · rw [if_pos ho, if_neg (not_not.mpr ho)]
    rfl
  · rw [if_neg ho, if_pos ho]
    rfl

section Acknowledge

variable {x : Ints} {h : Source}

theorem Ints.ackValue_of_isHighest (hh : x.isHighest h) : x.ackValue = BitVec.ofNat 32 h.val := by
  rw [Ints.ackValue, (x.highest_eq_some h).mpr hh]

theorem Ints.acknowledge_of_isHighest (hh : x.isHighest h) :
    x.acknowledge =
      { x with ip := withoutBit x.ip h, alerted := withoutBit x.alerted h, ius := withBit x.ius h } := by
  rw [Ints.acknowledge, (x.highest_eq_some h).mpr hh]

theorem Ints.ackValue_of_none (hnone : ∀ k, ¬x.canDeliver k) : x.ackValue = 0xFF := by
  rw [Ints.ackValue, x.highest_eq_none.mpr hnone]

theorem Ints.acknowledge_of_none (hnone : ∀ k, ¬x.canDeliver k) : x.acknowledge = x := by
  rw [Ints.acknowledge, x.highest_eq_none.mpr hnone]

/-- A source in service blocks itself and every source below it (R172). -/
theorem Ints.not_canDeliver_of_inService {k : Source} (hius : has x.ius h = true) (hle : h ≤ k) : ¬x.canDeliver k := by
  rintro ⟨-, -, -, hfree⟩
  exact absurd (hfree h hle) (by simpa [has] using hius)

end Acknowledge

/-! ### END (R174) -/

/-- END is refused to every node but the owner (R24). -/
theorem ownerRefused_endSvc (w : Writer) (v : Word) (s : State) :
    ownerRefused (s.arrived w.initiator) (writerBeat w .endSvc v s.ownId) .endSvc = true ↔
      s.owner ≠ some w.initiator := by
  simp only [ownerRefused, readsOnly_writerBeat, Bool.not_false, Bool.true_and, decide_eq_true_iff]
  rfl

/-- END by whether the owner writes it. -/
theorem execEndService_cases (w : Writer) (v : Word) (s : State) (hl : s.live = true) :
    execEndService w v s =
      if s.owner = some w.initiator then afterEvent ((s.written w).setInts s.ints.endService)
      else afterEvent (s.refusedWrite w 2) := by
  rw [execEndService, writeEvent_of_ownerDecides (g := .endSvc) (by simp [Reg.ownerDecides]) w v s hl]
  by_cases ho : s.owner = some w.initiator
  · rw [if_pos ho, if_neg (by rw [ownerRefused_endSvc]; exact not_not.mpr ho)]
    rfl
  · rw [if_neg ho, if_pos ((ownerRefused_endSvc w v s).mpr ho)]

section EndService

variable {x : Ints}

theorem Ints.endService_of_inService {k : Source} (hk : x.inService = some k) :
    x.endService = { x with ius := withoutBit x.ius k } := by
  rw [Ints.endService, hk]

theorem Ints.inService_eq_none_of_ius_eq_zero (hius : x.ius = 0) : x.inService = none := by
  simp [Ints.inService, List.find?_eq_none, has, hius]

theorem Ints.endService_of_ius_eq_zero (hius : x.ius = 0) : x.endService = x := by
  rw [Ints.endService, Ints.inService_eq_none_of_ius_eq_zero hius]

end EndService

/-! ### Settled -/

/-- Settles O43: the owner's row of each action, the reserved actions, the other nodes, and the READ. -/
theorem interruptActionsChangeOneSource : Obligations.InterruptActionsChangeOneSource := by
  unfold Obligations.InterruptActionsChangeOneSource
  intro w r k junk v s hl
  refine ⟨fun ho => ?_, fun ho => ?_, ?_⟩
  · have hrow := exec_intActionRow_of_owner hl ho k junk
    refine ⟨hrow .setIe, hrow .clearIe, hrow .setIp, hrow .clearIp, hrow .setIus, hrow .clearIus, hrow .clearErr,
      hrow .clearAll, fun hreserved => ?_⟩
    exact (exec_registerWrite_writerAccess w .intCtrl v s).trans
      (writeEvent_intCtrl_of_no_action hl ho (IntAction.ofCode_eq_none hreserved))
  · have hrow := exec_intActionRow_of_not_owner hl ho k junk
    simp only [List.forall_mem_cons]
    exact ⟨hrow .setIe, hrow .clearIe, hrow .setIp, hrow .clearIp, hrow .setIus, hrow .clearIus, hrow .clearErr,
      hrow .clearAll, List.forall_mem_nil _⟩
  · exact (exec_registerWrite_readerAccess r .intCtrl s).trans
      (readEvent_of_writeOnly (by simp [Reg.hasRow]) rfl r s hl)

/-- Settles O44: the read by what it finds deliverable; the source taken is then in service and blocks itself and below. -/
theorem acknowledgeTakesTheHighestSource : Obligations.AcknowledgeTakesTheHighestSource := by
  unfold Obligations.AcknowledgeTakesTheHighestSource
  intro r w v s hl
  have hack := execAck_cases r s hl
  refine ⟨fun ho => ⟨fun h hh => ⟨?_, fun k hle => ?_⟩, fun hnone => ?_⟩, fun ho => hack.trans (if_neg ho), ?_⟩
  · rw [if_pos ho, Ints.ackValue_of_isHighest hh, Ints.acknowledge_of_isHighest hh] at hack
    exact hack
  · refine Ints.not_canDeliver_of_inService (h := h) ?_ hle
    exact (has_withBit s.ints.ius h h h.isLt).trans (by simp)
  · rw [if_pos ho, Ints.ackValue_of_none hnone, Ints.acknowledge_of_none hnone] at hack
    exact hack
  · exact (exec_registerWrite_writerAccess w .ack v s).trans
      (writeEvent_of_readOnly (by simp [Reg.hasRow]) rfl w v s hl)

/-- Settles O45: the write by whether any source is in service. -/
theorem endClosesTheMostUrgentService : Obligations.EndClosesTheMostUrgentService := by
  unfold Obligations.EndClosesTheMostUrgentService
  intro w r v s hl
  have hend := execEndService_cases w v s hl
  refine ⟨fun ho => ⟨fun k hk hlower => ?_, fun hius => ?_⟩, fun ho => hend.trans (if_neg ho), ?_⟩
  · rw [if_pos ho, Ints.endService_of_inService ((s.ints.inService_eq_some k).mpr ⟨hk, hlower⟩)] at hend
    exact hend
  · rw [if_pos ho, Ints.endService_of_ius_eq_zero hius] at hend
    exact hend
  · exact (exec_registerWrite_readerAccess r .endSvc s).trans
      (readEvent_of_writeOnly (by simp [Reg.hasRow]) rfl r s hl)

end Sys2Proof.Machine
end

