-- ==== Sys2Proof/Proofs/Steps.lean ====
section
/-! PROOF. What a step can be: every command ends in one of the effects listed here, and an access to the window in one of the
performances listed here, each with what the checks before it have established. The proofs about all commands go through these
two lists. -/

namespace Sys2Proof.Machine

/-! ### What a command can do -/

@[simp] theorem setLine_live (n : Node) (b : Bool) (s : State) : (setLine n b s).live = s.live := by
  unfold setLine
  split <;> rfl

/-- The state t that a command answers with, and the condition that let it act. Most window and beat rows share `request` and
`reply`; the rows of log entry 3 are the single steps at the end. -/
inductive Effect (s : State) : Instr → State → Prop
  | ignored (i : Instr) : Effect s i s
  | powerOn (straps : Node) (lines : Mask) :
      Effect s (.powerOnReset straps lines) (releaseDeviceReset straps lines s)
  | pins (i : Instr) (p : Pins) (l : List Beat) : Effect s i ((s.setPins p).setOutbox l)
  | backplaneReset (p : Pins) :
      Effect s .backplaneReset (alertCheck (backplaneResetBeat ((s.setPins p).setOutbox [])))
  | arrival (n : Node) : s.live = true → Effect s (.arrival n) (alertCheck (implicitArrival n (setLine n true s)))
  | withdrawal (n : Node) : s.live = true → n ≠ s.ownId →
      Effect s (.withdrawal n) (alertCheck (withdraw n (setLine n false s)))
  | tick : s.live = true → Effect s .tick (alertCheck (tickBeat s))
  | request (i : Instr) (r : Request) : s.live = true → r.wf = true → Effect s i (alertCheck (requestBeat r s))
  | reply (i : Instr) (r : Reply) : s.live = true → Effect s i (alertCheck (replyBeat r s))
  | slotExpiry (k : SlotId) : Effect s (.slotExpiry k) (expireSlot s k)
  | backoffReissue (u : WTag) : Effect s (.backoffReissue u) (reissueTag s u)
  | timeout (u : WTag) : Effect s (.timeout u) (timeoutTag u s)
  | orphanFree (u : WTag) : Effect s (.orphanFree u) (expireOrphan u s)
  | drainTimedOut : Effect s .drainTimedOut (drainTimeoutTest s)
  | entry (t : State) : entryOnce s = some t → Effect s .closeQueueEntry t
  | move (t : State) : queueOnce s = some t → Effect s .resultQueueEntry t
  | issue (i : Instr) (t : State) : s.engineRuns = true → issueOnce s = some t → Effect s i t
  | commit : Effect s .commit (commitRun s)
  | writeback : Effect s .writeback (writebackIfDue s)
  | stopComplete : Effect s .ringStopComplete (stopTest s)
  | drainComplete : Effect s .drainComplete (drainTest s)
  | alert : Effect s .alert (alertCheck s)

section Effects

variable {s : State} {i : Instr}

/-- x answers a next state that is an effect of command i. -/
def Effective (s : State) (i : Instr) (x : Result) : Prop := ∃ t, x = .next t ∧ Effect s i t

theorem event_effective {f : State → State} (h : s.live = true → Effect s i (alertCheck (f s))) :
    Effective s i (event f s) := by
  cases hl : s.live with
  | false => exact ⟨s, event_of_not_live f s hl, .ignored i⟩
  | true => exact ⟨_, event_of_live f s hl, h hl⟩

theorem innerStep_effective {f : State → State} (h : Effect s i (f s)) : Effective s i (innerStep f s) := by
  cases hl : s.live with
  | false => exact ⟨s, innerStep_of_not_live f s hl, .ignored i⟩
  | true => exact ⟨_, innerStep_of_live f s hl, h⟩

theorem requestEvent_effective (i : Instr) (r : Request) (s : State) : Effective s i (requestEvent r s) := by
  unfold requestEvent
  split
  · next hr => exact event_effective fun hl => .request i r hl hr
  · exact ⟨s, rfl, .ignored i⟩

theorem replyEvent_effective (i : Instr) (r : Reply) (s : State) : Effective s i (replyEvent r s) := by
  unfold replyEvent
  split
  · exact event_effective fun hl => .reply i r hl
  · exact ⟨s, rfl, .ignored i⟩

/-- A change of a presence line that is no presence change moves the line at most (R9). -/
theorem setLine_effect (i : Instr) (n : Node) (b : Bool) (s : State) : Effect s i (setLine n b s) := by
  unfold setLine
  split
  · exact .ignored i
  · exact .pins i { s.pins with lines := if b then withBit s.pins.lines n else withoutBit s.pins.lines n } s.outbox

theorem arrivalEvent_effective (n : Node) (s : State) : Effective s (.arrival n) (arrivalEvent n s) := by
  unfold arrivalEvent
  split
  · exact ⟨_, rfl, setLine_effect _ n true s⟩
  · cases hl : s.live with
    | false => exact ⟨_, event_of_not_live _ _ (by simpa using hl), setLine_effect _ n true s⟩
    | true => exact ⟨_, event_of_live _ _ (by simpa using hl), .arrival n hl⟩

theorem withdrawalEvent_effective (n : Node) (s : State) : Effective s (.withdrawal n) (withdrawalEvent n s) := by
  unfold withdrawalEvent
  split
  · exact ⟨_, rfl, setLine_effect _ n false s⟩
  · next hn =>
    cases hl : s.live with
    | false => exact ⟨_, event_of_not_live _ _ (by simpa using hl), setLine_effect _ n false s⟩
    | true => exact ⟨_, event_of_live _ _ (by simpa using hl), .withdrawal n hl fun h => hn (.inl h)⟩

theorem releaseBackplaneReset_effective (s : State) : Effective s .backplaneReset (releaseBackplaneReset s) := by
  unfold releaseBackplaneReset
  dsimp only
  split
  · exact ⟨_, rfl, .pins _ { s.pins with backplaneReset := false } s.outbox⟩
  · exact ⟨_, rfl, .backplaneReset _⟩

theorem assertBackplaneReset_effect (s : State) : Effect s .backplaneResetAssert (assertBackplaneReset s) := by
  unfold assertBackplaneReset
  dsimp only
  split
  · exact .pins _ { s.pins with backplaneReset := true } s.outbox
  · exact .pins _ _ []

theorem entryOnce_effect (s : State) : Effect s .closeQueueEntry ((entryOnce s).getD s) := by
  cases h : entryOnce s with
  | none => exact .ignored _
  | some t => exact .entry t h

theorem queueOnce_effect (s : State) : Effect s .resultQueueEntry ((queueOnce s).getD s) := by
  cases h : queueOnce s with
  | none => exact .ignored _
  | some t => exact .move t h

theorem issueOnce_effect (i : Instr) (s : State) (b : Bool) :
    Effect s i (if s.engineRuns && b then (issueOnce s).getD s else s) := by
  split
  · next hc =>
    rw [Bool.and_eq_true] at hc
    cases h : issueOnce s with
    | none => exact .ignored _
    | some t => exact .issue i t hc.1 h
  · exact .ignored _

end Effects

/-- How the rows other than those of the pins run: as one of the kinds of event, or as a single step (log entry 3). -/
inductive Row (s : State) : Instr → Result → Prop
  | request (i : Instr) (r : Request) : Row s i (requestEvent r s)
  | reply (i : Instr) (r : Reply) : Row s i (replyEvent r s)
  | tick : Row s .tick (event tickBeat s)
  | inner (i : Instr) (f : State → State) : Effect s i (f s) → Row s i (innerStep f s)

theorem exec_row (i : Instr) (s : State) (hi : i.isPin = false) : Row s i (exec i s) := by
  cases i
  case powerOnReset | backplaneResetAssert | backplaneReset | deviceResetAssert | arrival | withdrawal =>
    cases hi
  case tick => exact .tick
  case slotExpiry k => exact .inner _ _ (.slotExpiry k)
  case backoffReissue u => exact .inner _ _ (.backoffReissue u)
  case timeout u => exact .inner _ _ (.timeout u)
  case orphanFree u => exact .inner _ _ (.orphanFree u)
  case drainTimedOut => exact .inner _ _ .drainTimedOut
  case closeQueueEntry => exact .inner _ _ (entryOnce_effect s)
  case resultQueueEntry => exact .inner _ _ (queueOnce_effect s)
  case issue => exact .inner _ _ (issueOnce_effect _ s !s.gapNext)
  case gapIssue => exact .inner _ _ (issueOnce_effect _ s s.gapNext)
  case commit => exact .inner _ _ .commit
  case writeback => exact .inner _ _ .writeback
  case ringStopComplete => exact .inner _ _ .stopComplete
  case drainComplete => exact .inner _ _ .drainComplete
  case alert => exact .inner _ _ .alert
  case slotBounce a n tag => exact .reply _ { responder := a, initiator := n, tag := tag, body := .bounce }
  case writeBounce a u =>
    exact .reply _ { responder := a, initiator := s.ownId, tag := u.castLE (by decide), body := .bounce }
  case finalReply | strayReply | writeDone | writebackDone | remoteFault | orphanReply => exact .reply _ _
  all_goals exact .request _ _

theorem Row.effective {s : State} {i : Instr} {x : Result} (h : Row s i x) : Effective s i x := by
  cases h with
  | request _ r => exact requestEvent_effective i r s
  | reply _ r => exact replyEvent_effective i r s
  | tick => exact event_effective fun hl => .tick hl
  | inner _ f he => exact innerStep_effective he

/-- While a reset line is asserted such a row does nothing (R17, R18). -/
theorem Row.of_not_live {s : State} {i : Instr} {x : Result} (h : Row s i x) (hl : s.live = false) : x = .next s := by
  cases h with
  | request _ r => simp [requestEvent, event_of_not_live _ _ hl]
  | reply _ r => simp [replyEvent, event_of_not_live _ _ hl]
  | tick => exact event_of_not_live _ s hl
  | inner _ f => exact innerStep_of_not_live f s hl

/-- Every command answers a next state, by one of the effects (R1). -/
theorem exec_effective (i : Instr) (s : State) : Effective s i (exec i s) := by
  cases hi : i.isPin with
  | false => exact (exec_row i s hi).effective
  | true =>
    cases i
    case powerOnReset straps lines => exact ⟨_, rfl, .powerOn straps lines⟩
    case backplaneResetAssert => exact ⟨_, rfl, assertBackplaneReset_effect s⟩
    case backplaneReset => exact releaseBackplaneReset_effective s
    case deviceResetAssert => exact ⟨_, rfl, .pins _ { s.pins with deviceReset := true } s.outbox⟩
    case arrival n => exact arrivalEvent_effective n s
    case withdrawal n => exact withdrawalEvent_effective n s
    all_goals cases hi

theorem effect_of_exec {i : Instr} {s t : State} (h : exec i s = .next t) : Effect s i t := by
  obtain ⟨u, hu, he⟩ := exec_effective i s
  cases hu.symm.trans h
  exact he

/-! ### What a target access can do -/

/-- The checks of R20 all passed. -/
theorem checkReg_eq_none (s : State) (r : Request) (g : Reg) :
    checkReg s r g = none ↔ wrongDirection r g = false ∧ ownerRefused s r g = false ∧ phaseRefused s g = false ∧
      lockRefused s r g = false ∧ markerClosed s g = false ∧ (readsOnly r = true ∨ valueOk s g (writtenWord r) = true) := by
  unfold checkReg
  cases wrongDirection r g <;> cases ownerRefused s r g <;> cases phaseRefused s g <;> cases lockRefused s r g <;>
    cases markerClosed s g <;> simp [imp_iff_not_or]

/-- The state t that an access by node n leaves once it has been answered, with what the checks of R20 have established. -/
inductive Performs (s : State) (n : Node) : State → Prop
  | nothing : Performs s n s
  | refusal (d : DevStats) : Performs s n (s.setDev d)
  | resultPort : s.owner = some n → s.cmd.phase = .result → Performs s n (s.setCmd s.cmd.takeWord)
  | queueData : Performs s n (readQueue s)
  | ack : Performs s n (s.setInts s.ints.acknowledge)
  | marker (v : Word) : s.markerBlocked = false → Performs s n (acceptMarker n v s)
  | markerRefused : Performs s n (refuseMarker s)
  | claim : s.owner = none ∨ s.owner = some n → Performs s n (s.setOwner (some n))
  | relinquish : s.owner = some n → Performs s n (loseOwner s)
  | prescale (v : BitVec 13) : Performs s n (s.setTb { s.tb with prescale := v })
  | watchLimit (v : BitVec 16) : Performs s n { s with watchLimit := v }
  | lfsr (v : BitVec 16) : v ≠ 0 → Performs s n (s.setTb { s.tb with lfsr := v })
  | cmdPort (v : Word) : s.owner = some n → s.cmd.phase = .idle ∨ s.cmd.phase = .params →
      Performs s n (writeCmdPort v s)
  | cmdCancel : s.owner = some n → Performs s n (cancelCommand s)
  | bank (c : ChanId) : Performs s n { s with bank := c }
  | bankReg (g : Reg) (v : Word) : g.isBank = true → valueOk s g v = true → (s.chan s.bank).run = .disarmed →
      s.owned s.bank = 0 → Performs s n (writeBank g v s)
  | ringReg (g : Reg) (v : Word) : valueOk s g v = true → s.ring.active = false →
      Performs s n (s.setRing (s.ring.writeConfig g v))
  | consumer (v : BitVec 17) : s.ring.consumerOk v = true → Performs s n (writeConsumer v s)
  | queuePtr : Performs s n (s.setPath { s.path with ptr := 0 })
  | queueThreshold (v : BitVec 5) : Performs s n (s.setPath { s.path with threshold := v })
  | intCtrl (k : Source) (a : IntAction) : Performs s n (s.setInts (s.ints.act k a))
  | endSvc : Performs s n (s.setInts s.ints.endService)
  | mie (b : Bool) : Performs s n (s.setInts { s.ints with mie := b })
  | alertNode (m : Node) (b : Bool) : m ≠ s.ownId →
      Performs s n (s.setInts { s.ints with alertNode := m, alertEnable := b })
  | alertAddr (v : Word) : Performs s n (s.setInts { s.ints with alertAddr := v })

section Performances

variable {s : State} {r : Request}

/-- The answer emits a beat or nothing (R12, R25). -/
theorem answer_cases (r : Request) (b : ReplyBody) (s : State) : answer r b s = s ∨ ∃ x, answer r b s = s.emit x := by
  unfold answer
  split
  · exact .inl rfl
  · exact .inr ⟨_, rfl⟩

@[simp] theorem answer_frame (r : Request) (b : ReplyBody) (s : State) :
    (answer r b s).pins = s.pins ∧ (answer r b s).ownId = s.ownId ∧ (answer r b s).present = s.present ∧
      (answer r b s).owner = s.owner ∧ (answer r b s).bank = s.bank ∧ (answer r b s).dev = s.dev ∧
      (answer r b s).tb = s.tb ∧ (answer r b s).chans = s.chans ∧ (answer r b s).slots = s.slots ∧
      (answer r b s).closeQueue = s.closeQueue ∧ (answer r b s).watchLimit = s.watchLimit ∧ (answer r b s).path = s.path ∧
      (answer r b s).ring = s.ring ∧ (answer r b s).cmd = s.cmd ∧ (answer r b s).ints = s.ints ∧
      (answer r b s).pending = s.pending := by
  unfold answer
  split <;> simp

@[simp] theorem answer_chan (r : Request) (b : ReplyBody) (s : State) (c : ChanId) : (answer r b s).chan c = s.chan c := by
  simp [State.chan]

@[simp] theorem answer_owned (r : Request) (b : ReplyBody) (s : State) (c : ChanId) : (answer r b s).owned c = s.owned c := by
  obtain h | ⟨x, h⟩ := answer_cases r b s
  · rw [h]
  · rw [h]
    rfl

theorem readEffect_performs {g : Reg} (h : checkReg s r g = none) (b : ReplyBody) :
    Performs (answer r b s) r.initiator (readEffect g (answer r b s)) := by
  obtain ⟨-, howner, hphase, -⟩ := (checkReg_eq_none s r g).mp h
  cases g
  case resultPort =>
    refine .resultPort ?_ ?_
    · simpa [ownerRefused] using howner
    · simpa [phaseRefused] using hphase
  case queueData => exact .queueData
  case ack => exact .ack
  all_goals exact .nothing

theorem owner_of_checked {g : Reg} (hr : readsOnly r = false) (h : ownerRefused s r g = false) (hc : g ≠ .claim)
    (hm : g ≠ .marker) : s.owner = some r.initiator := by
  unfold ownerRefused at h
  split at h <;> simp_all

theorem unlocked_of_checked {g : Reg} (hg : g.isBank = true) (hr : readsOnly r = false) (h : lockRefused s r g = false) :
    (s.chan s.bank).run = .disarmed ∧ s.owned s.bank = 0 := by
  have hbank : s.bankLocked s.bank = false := by
    simp only [lockRefused, hr, hg, Bool.not_false, Bool.true_and, Bool.or_eq_false_iff] at h
    exact h.1.2
  simpa [State.bankLocked] using hbank

theorem inactive_of_checked {g : Reg} (hg : g.isRingConfig = true) (hr : readsOnly r = false)
    (h : lockRefused s r g = false) : s.ring.active = false := by
  have : g.isRingConfig = true → g.isBank = false := by cases g <;> simp [Reg.isBank, Reg.isRingConfig]
  simp only [lockRefused, hr, hg, Bool.or_eq_false_iff, Bool.and_eq_false_iff, Bool.true_and, Bool.not_false] at h
  tauto

/-- No admitted value of a register but CONSUMER depends on the beats or the counters. -/
theorem valueOk_answer (g : Reg) (v : Word) (b : ReplyBody) : valueOk (answer r b s) g v = valueOk s g v := by
  cases g <;> simp [valueOk]

theorem nodeField_ne {v : Word} {n : Node} (h : v.extractLsb' 0 4 ≠ nodeBits n) : nodeField v ≠ n := by
  rintro rfl
  apply h
  apply BitVec.eq_of_toNat_eq
  have := (v.extractLsb' 0 4).isLt
  simp only [nodeField, nodeBits, Fin.ofNat, BitVec.toNat_ofNat]
  omega

/-- An accepted write of R20, by its register. -/
theorem writeReg_performs {g : Reg} (hr : readsOnly r = false) (h : checkReg s r g = none) (hm : g ≠ .marker)
    (b : ReplyBody) :
    Performs (answer r b s) r.initiator (writeReg r.initiator g (writtenWord r) (answer r b s)) := by
  obtain ⟨hdir, howner, hphase, hlock, -, hvalue⟩ := (checkReg_eq_none s r g).mp h
  replace hvalue : valueOk (answer r b s) g (writtenWord r) = true := by
    rw [valueOk_answer]
    simpa [hr] using hvalue
  have hown : g ≠ .claim → (answer r b s).owner = some r.initiator := fun hc => by
    simpa using owner_of_checked hr howner hc hm
  have hbank : g.isBank = true → ((answer r b s).chan (answer r b s).bank).run = .disarmed ∧
      (answer r b s).owned (answer r b s).bank = 0 := fun hg => by simpa using unlocked_of_checked hg hr hlock
  have hring : g.isRingConfig = true → (answer r b s).ring.active = false := fun hg => by
    simpa using inactive_of_checked hg hr hlock
  cases g
  case marker => exact absurd rfl hm
  case claim =>
    refine .claim ?_
    have : s.owner ≠ none → s.owner = some r.initiator := by simpa [ownerRefused] using howner
    simpa [or_iff_not_imp_left] using this
  case relinquish => exact .relinquish (hown (by simp))
  case prescale => exact .prescale _
  case watchLimit => exact .watchLimit _
  case lfsr => exact .lfsr _ (by simpa [valueOk] using hvalue)
  case cmdPort =>
    refine .cmdPort _ (hown (by simp)) ?_
    have hp : s.cmd.phase ≠ .executing ∧ s.cmd.phase ≠ .result := by simpa [phaseRefused] using hphase
    cases hc : s.cmd.phase <;> simp_all
  case cmdCancel => exact .cmdCancel (hown (by simp))
  case bank => exact .bank _
  case chKinds | chInit | chTarg | chWlo | chWhi | chPeriod | chSig | chLatfilt | chCtrl =>
    exact .bankReg _ _ rfl hvalue (hbank rfl).1 (hbank rfl).2
  case ringNode | ringBase | ringSize | ringPolicy | ringThreshold | writeLimit | wbAddr =>
    exact .ringReg _ _ hvalue (hring rfl)
  case consumer => exact .consumer _ hvalue
  case queuePtr => exact .queuePtr
  case queueThreshold => exact .queueThreshold _
  case intCtrl =>
    simp only [writeReg, writeIntCtrl]
    split
    · exact .nothing
    · exact .intCtrl _ _
  case endSvc => exact .endSvc
  case mie => exact .mie _
  case alertNode => exact .alertNode _ _ (nodeField_ne (by simpa [valueOk] using hvalue))
  case alertAddr => exact .alertAddr _
  all_goals exact .nothing

theorem writeMarker_performs (r : Request) (s : State) :
    ∃ b, Performs (answer r b s) r.initiator (writeMarker r s) := by
  unfold writeMarker
  split
  · exact ⟨.bounce, .markerRefused⟩
  · next h => exact ⟨.done, .marker _ (by simpa [State.markerBlocked] using h)⟩

end Performances

/-- A target access is answered, and then one of the performances follows (R22, R25). -/
theorem targetAccess_performs (r : Request) (s : State) :
    ∃ u, (u = s ∨ ∃ b, u = s.emit b) ∧ Performs u r.initiator (targetAccess r s) := by
  unfold targetAccess
  split
  · unfold refuseAccess
    split
    · exact ⟨s, .inl rfl, .refusal _⟩
    · exact ⟨_, .inr ⟨_, rfl⟩, .nothing⟩
  · next g hg =>
    have hc : checkReg s r g = none := by
      unfold checkAccess at hg
      split at hg
      · cases hg
      · split at hg
        · cases hg
        · split at hg
          · cases hg
          · split at hg
            · cases hg
            · cases hg
              assumption
    unfold performAccess
    split
    · exact ⟨_, answer_cases r _ s, readEffect_performs hc _⟩
    · next hr =>
      split
      · obtain ⟨b, hb⟩ := writeMarker_performs r s
        exact ⟨_, answer_cases r b s, hb⟩
      · next hm => exact ⟨_, answer_cases r _ s, writeReg_performs (by simpa using hr) hc hm _⟩

/-! ### What a step can do -/

/-- A step is one clock or the effect of the front command (R1; log entries 1 and 4). -/
theorem step_cases {s t : State} (h : step s = .next t) :
    t = clock s ∨ ∃ i rest, Effect { s with pending := rest } i t := by
  unfold step at h
  split at h
  · cases h
    exact .inl rfl
  · next c rest _ => exact .inr ⟨c, rest, effect_of_exec h⟩

/-- A clock does nothing, or places a beat and counts; and where the period ends the tick follows (R35). -/
theorem clock_cases (s : State) :
    clock s = s ∨ ∃ d, clock s = (s.setOutbox s.outbox.tail).setTb { s.tb with divider := d } ∨
      clock s = alertCheck (tickBeat ((s.setOutbox s.outbox.tail).setTb { s.tb with divider := d })) := by
  unfold clock
  dsimp only
  split_ifs
  · exact .inr ⟨_, .inr rfl⟩
  · exact .inr ⟨_, .inl rfl⟩
  · exact .inl rfl

end Sys2Proof.Machine
end

