-- ==== Sys2Proof/Proofs/Resets.lean ====
section
/-! PROOF. The machine as a whole, power-on reset, the reset lines and the presence lines. -/

namespace Sys2Proof.Machine

/-! ### What no command changes: OWN_ID and the waiting commands -/

section Frame

variable {s t : State}

@[simp] theorem applyScopes_frame (v : Word) (s : State) :
    (applyScopes v s).pins = s.pins ∧ (applyScopes v s).ownId = s.ownId ∧ (applyScopes v s).present = s.present ∧
      (applyScopes v s).owner = s.owner ∧ (applyScopes v s).bank = s.bank ∧ (applyScopes v s).tb = s.tb ∧
      (applyScopes v s).watchLimit = s.watchLimit ∧ (applyScopes v s).pending = s.pending := by
  simp only [applyScopes, whenScope]
  split_ifs <;> simp

@[simp] theorem writeCmdPort_frame (v : Word) (s : State) :
    (writeCmdPort v s).pins = s.pins ∧ (writeCmdPort v s).ownId = s.ownId ∧ (writeCmdPort v s).present = s.present ∧
      (writeCmdPort v s).owner = s.owner ∧ (writeCmdPort v s).bank = s.bank ∧
      (writeCmdPort v s).watchLimit = s.watchLimit ∧ (writeCmdPort v s).pending = s.pending := by
  unfold writeCmdPort openCommand paramWord openInvalid
  dsimp only
  repeat' split
  all_goals simp

@[simp] theorem cancelCommand_frame (s : State) :
    (cancelCommand s).pins = s.pins ∧ (cancelCommand s).ownId = s.ownId ∧ (cancelCommand s).present = s.present ∧
      (cancelCommand s).owner = s.owner ∧ (cancelCommand s).bank = s.bank ∧ (cancelCommand s).tb = s.tb ∧
      (cancelCommand s).chans = s.chans ∧ (cancelCommand s).slots = s.slots ∧
      (cancelCommand s).closeQueue = s.closeQueue ∧ (cancelCommand s).path = s.path ∧ (cancelCommand s).ring = s.ring ∧
      (cancelCommand s).watchLimit = s.watchLimit ∧ (cancelCommand s).pending = s.pending := by
  unfold cancelCommand
  split <;> simp

@[simp] theorem readQueue_frame (s : State) :
    (readQueue s).pins = s.pins ∧ (readQueue s).ownId = s.ownId ∧ (readQueue s).present = s.present ∧
      (readQueue s).owner = s.owner ∧ (readQueue s).bank = s.bank ∧ (readQueue s).tb = s.tb ∧
      (readQueue s).watchLimit = s.watchLimit ∧ (readQueue s).pending = s.pending := by
  unfold readQueue
  repeat' split
  all_goals simp

@[simp] theorem acceptMarker_frame (n : Node) (v : Word) (s : State) :
    (acceptMarker n v s).pins = s.pins ∧ (acceptMarker n v s).ownId = s.ownId ∧ (acceptMarker n v s).present = s.present ∧
      (acceptMarker n v s).owner = s.owner ∧ (acceptMarker n v s).bank = s.bank ∧ (acceptMarker n v s).tb = s.tb ∧
      (acceptMarker n v s).watchLimit = s.watchLimit ∧ (acceptMarker n v s).pending = s.pending := by
  simp [acceptMarker]

/-- The answer to an access keeps the pins, OWN_ID, PRESENT and the queue of commands. -/
theorem Performs.frame {n : Node} (h : Performs s n t) :
    t.pins = s.pins ∧ t.ownId = s.ownId ∧ t.present = s.present ∧ t.pending = s.pending := by
  cases h <;> simp [refuseMarker, writeBank]

theorem targetAccess_frame (r : Request) (s : State) :
    (targetAccess r s).pins = s.pins ∧ (targetAccess r s).ownId = s.ownId ∧ (targetAccess r s).present = s.present ∧
      (targetAccess r s).pending = s.pending := by
  obtain ⟨u, hu, hp⟩ := targetAccess_performs r s
  have := hp.frame
  obtain rfl | ⟨b, rfl⟩ := hu
  · exact this
  · simpa using this

@[simp] theorem requestBeat_frame (r : Request) (s : State) :
    (requestBeat r s).pins = s.pins ∧ (requestBeat r s).ownId = s.ownId ∧
      (requestBeat r s).present = withBit s.present r.initiator ∧ (requestBeat r s).pending = s.pending := by
  unfold requestBeat implicitArrival
  dsimp only
  split
  · simpa using targetAccess_frame r (s.setPresent (withBit s.present r.initiator))
  · simp

@[simp] theorem replyBeat_frame (r : Reply) (s : State) :
    (replyBeat r s).pins = s.pins ∧ (replyBeat r s).ownId = s.ownId ∧ (replyBeat r s).present = s.present ∧
      (replyBeat r s).owner = s.owner ∧ (replyBeat r s).bank = s.bank ∧ (replyBeat r s).tb = s.tb ∧
      (replyBeat r s).watchLimit = s.watchLimit ∧ (replyBeat r s).pending = s.pending := by
  unfold replyBeat
  split <;> simp

@[simp] theorem tickBeat_frame (s : State) :
    (tickBeat s).pins = s.pins ∧ (tickBeat s).ownId = s.ownId ∧ (tickBeat s).present = s.present ∧
      (tickBeat s).owner = s.owner ∧ (tickBeat s).bank = s.bank ∧
      (tickBeat s).tb = { s.tb with divider := 0, active := s.tb.prescale, time := s.tb.time + 1 } ∧
      (tickBeat s).watchLimit = s.watchLimit ∧ (tickBeat s).pending = s.pending := by
  simp [tickBeat, tickTime, Timebase.restart]

@[simp] theorem setLine_frame (n : Node) (b : Bool) (s : State) :
    (setLine n b s).ownId = s.ownId ∧ (setLine n b s).present = s.present ∧ (setLine n b s).outbox = s.outbox ∧
      (setLine n b s).owner = s.owner ∧ (setLine n b s).bank = s.bank ∧ (setLine n b s).dev = s.dev ∧
      (setLine n b s).tb = s.tb ∧ (setLine n b s).chans = s.chans ∧ (setLine n b s).slots = s.slots ∧
      (setLine n b s).closeQueue = s.closeQueue ∧ (setLine n b s).watchLimit = s.watchLimit ∧
      (setLine n b s).path = s.path ∧ (setLine n b s).ring = s.ring ∧ (setLine n b s).cmd = s.cmd ∧
      (setLine n b s).ints = s.ints ∧ (setLine n b s).pending = s.pending := by
  unfold setLine
  split <;> simp

@[simp] theorem withdraw_frame (n : Node) (s : State) :
    (withdraw n s).pins = s.pins ∧ (withdraw n s).ownId = s.ownId ∧ (withdraw n s).present = withoutBit s.present n ∧
      (withdraw n s).bank = s.bank ∧ (withdraw n s).tb = s.tb ∧ (withdraw n s).watchLimit = s.watchLimit ∧
      (withdraw n s).pending = s.pending := by
  unfold withdraw
  dsimp only
  split <;> simp

theorem backplaneResetBeat_frame (s : State) :
    (backplaneResetBeat s).pins = s.pins ∧ (backplaneResetBeat s).ownId = s.ownId ∧
      (backplaneResetBeat s).present = s.pins.lines ||| lineOf s.ownId ∧ (backplaneResetBeat s).outbox = s.outbox ∧
      (backplaneResetBeat s).owner = none ∧ (backplaneResetBeat s).bank = s.bank ∧
      (backplaneResetBeat s).path = s.path ∧ (backplaneResetBeat s).watchLimit = s.watchLimit ∧
      (backplaneResetBeat s).pending = s.pending := by
  unfold backplaneResetBeat resetObserving
  dsimp only
  split <;> simp [loseOwner]

@[simp] theorem expireOrphan_frame (u : WTag) (s : State) :
    (expireOrphan u s).pins = s.pins ∧ (expireOrphan u s).ownId = s.ownId ∧ (expireOrphan u s).present = s.present ∧
      (expireOrphan u s).outbox = s.outbox ∧ (expireOrphan u s).owner = s.owner ∧ (expireOrphan u s).bank = s.bank ∧
      (expireOrphan u s).dev = s.dev ∧ (expireOrphan u s).tb = s.tb ∧ (expireOrphan u s).chans = s.chans ∧
      (expireOrphan u s).slots = s.slots ∧ (expireOrphan u s).closeQueue = s.closeQueue ∧
      (expireOrphan u s).watchLimit = s.watchLimit ∧ (expireOrphan u s).path = s.path ∧
      (expireOrphan u s).pending = s.pending := by
  unfold expireOrphan
  split <;> simp

@[simp] theorem timeoutTag_frame (u : WTag) (s : State) :
    (timeoutTag u s).pins = s.pins ∧ (timeoutTag u s).ownId = s.ownId ∧ (timeoutTag u s).present = s.present ∧
      (timeoutTag u s).outbox = s.outbox ∧ (timeoutTag u s).owner = s.owner ∧ (timeoutTag u s).bank = s.bank ∧
      (timeoutTag u s).tb = s.tb ∧ (timeoutTag u s).slots = s.slots ∧ (timeoutTag u s).closeQueue = s.closeQueue ∧
      (timeoutTag u s).watchLimit = s.watchLimit ∧ (timeoutTag u s).path = s.path ∧
      (timeoutTag u s).pending = s.pending := by
  unfold timeoutTag
  split <;> simp

@[simp] theorem drainTimeoutTest_frame (s : State) :
    (drainTimeoutTest s).pins = s.pins ∧ (drainTimeoutTest s).ownId = s.ownId ∧
      (drainTimeoutTest s).present = s.present ∧ (drainTimeoutTest s).outbox = s.outbox ∧
      (drainTimeoutTest s).owner = s.owner ∧ (drainTimeoutTest s).bank = s.bank ∧ (drainTimeoutTest s).dev = s.dev ∧
      (drainTimeoutTest s).tb = s.tb ∧ (drainTimeoutTest s).chans = s.chans ∧ (drainTimeoutTest s).slots = s.slots ∧
      (drainTimeoutTest s).closeQueue = s.closeQueue ∧ (drainTimeoutTest s).watchLimit = s.watchLimit ∧
      (drainTimeoutTest s).path = s.path ∧ (drainTimeoutTest s).ring = s.ring ∧
      (drainTimeoutTest s).pending = s.pending := by
  unfold drainTimeoutTest
  split <;> simp

theorem Effect.keeps_queue {i : Instr} (h : Effect s i t) :
    t.pending = s.pending ∧ ((∀ straps lines, i ≠ .powerOnReset straps lines) → t.ownId = s.ownId) := by
  cases h
  case powerOn straps lines => exact ⟨rfl, fun hne => absurd rfl (hne straps lines)⟩
  case backplaneReset p =>
    obtain ⟨-, hown, -, -, -, -, -, -, hpending⟩ := backplaneResetBeat_frame ((s.setPins p).setOutbox [])
    simp [hown, hpending]
  case entry h =>
    have := entryOnce_frame _ _ h
    simp_all
  case move h =>
    have := queueOnce_frame _ _ h
    simp_all
  case issue h =>
    have := issueOnce_frame _ _ h
    simp_all
  all_goals simp [implicitArrival]

end Frame

/-! ### Settled: the machine as a whole -/

/-- Settles O1: the queue's front decides the step. -/
theorem stepRunsTheFrontCommand : Obligations.StepRunsTheFrontCommand := by
  unfold Obligations.StepRunsTheFrontCommand
  intro c rest s h
  rw [step, h]

/-- The tick does not read the divider: its first step restarts it (R35). -/
theorem tickBeat_setDivider (s : State) (d : BitVec 13) : tickBeat (s.setTb { s.tb with divider := d }) = tickBeat s := rfl

/-- Settles O2: the three cases of a clock. -/
theorem idleStepIsOneClock : Obligations.IdleStepIsOneClock := by
  unfold Obligations.IdleStepIsOneClock
  intro s h
  have hstep : step s = .next (clock s) := by rw [step, h]
  rw [hstep]
  refine ⟨fun hl => ?_, fun hl hd => ?_, fun hl hd => ?_⟩
  · simp [clock, hl]
  · have : ¬s.tb.active.toNat ≤ s.tb.divider.toNat + 1 := by omega
    simp [clock, hl, this, State.setOutbox, State.setTb]
  · have hclock : clock s = alertCheck (tickBeat (s.setOutbox s.outbox.tail)) := by
      rw [clock, if_pos hl, ← tickBeat_setDivider _ (s.tb.divider + 1)]
      exact if_pos hd
    have hlive : ({ s with outbox := s.outbox.tail } : State).live = true := hl
    rw [hclock]
    exact (event_of_live tickBeat _ hlive).symm

/-- Settles O3: each effect keeps the queue and, but for power-on reset, OWN_ID. -/
theorem everyCommandAnswersNext : Obligations.EveryCommandAnswersNext := by
  unfold Obligations.EveryCommandAnswersNext
  intro i s
  obtain ⟨t, ht, he⟩ := exec_effective i s
  exact ⟨t, ht, he.keeps_queue⟩

/-! ### Power-on reset (R180) -/

section PowerOn

variable (straps : Node) (lines : Mask) (line : Bool) (queue : List Instr)

@[simp] theorem State.powerOn_chan (c : ChanId) : (State.powerOn straps lines line queue).chan c = Channel.powerOn := by
  simp [State.powerOn, State.chan]

@[simp] theorem State.powerOn_slot (i : SlotId) : (State.powerOn straps lines line queue).slot i = Slot.cleared := by
  simp [State.powerOn, State.slot]

@[simp] theorem State.powerOn_tag (u : WTag) : (State.powerOn straps lines line queue).tag u = WriteTag.cleared := by
  simp [State.powerOn, State.tag, Ring.powerOn, Ring.tag]

theorem has_lineOf (n : Node) : has (lineOf n) n = true := by
  revert n
  decide

/-- Power-on reset leaves every invariant in force. -/
theorem State.powerOn_good : (State.powerOn straps lines line queue).good := by
  have halerts : (State.powerOn straps lines line queue).alertsOk := by
    refine ⟨?_, fun h => absurd h Bool.false_ne_true, (by decide : Ints.powerOn.alerted &&& ~~~Ints.powerOn.ip = 0)⟩
    have := has_lineOf straps
    simp_all [State.powerOn, has]
  have hpool : (State.powerOn straps lines line queue).poolOk := by
    refine ⟨List.nodup_nil, fun i => ?_, fun c => ?_, fun i j hi => ?_, fun _ c => ?_⟩
    · simp [State.powerOn_slot, Slot.cleared]
      exact List.not_mem_nil
    · simp [Channel.powerOn, Slot.cleared]
    · simp [Slot.cleared] at hi
    · simp [Channel.powerOn]
  have hchannels : (State.powerOn straps lines line queue).channelsOk := by
    intro c
    simp [State.owned, Channel.powerOn, Bank.powerOn, Slot.isOwned, Slot.cleared]
  have hring : (State.powerOn straps lines line queue).ringOk := ⟨(by decide : ringSizeOk Ring.powerOn.n = true), by simp [State.powerOn, Ring.powerOn,
    RingFaultReg.cleared], by simp [State.powerOn, Ring.powerOn, Ring.active]⟩
  refine ⟨?_, halerts, ?_, hpool, ?_, hchannels, ?_, ?_, hring, ?_⟩
  · exact (by decide : Timebase.powerOn.lfsr ≠ 0)
  · simp [State.processorOk, State.powerOn, Processor.powerOn]
  · simp [State.pairsOk, Slot.cleared, Slot.isLive]
  · simp [State.pathOk, State.powerOn, Path.powerOn, Ring.powerOn]
  · refine ⟨fun _ u => ?_, fun _ u => ?_, fun _ u => ?_, fun h => ?_, ?_⟩
    · simp [WriteTag.cleared]
    · simp [WriteTag.cleared]
    · simp [WriteTag.cleared]
    · exact absurd h (by simp [State.powerOn, Ring.powerOn])
    · simp [WriteTag.cleared]
  · simp [State.drainOk, State.powerOn, Processor.powerOn, Processor.isExecuting]

end PowerOn

/-- Settles O7: reset is one power-on release. -/
theorem resetSatisfiesTheInvariants : Obligations.ResetSatisfiesTheInvariants :=
  State.powerOn_good _ _ _ _

/-- Settles O16: the values of the power-on state, field by field. -/
theorem powerOnResetLoadsEveryValue : Obligations.PowerOnResetLoadsEveryValue := by
  unfold Obligations.PowerOnResetLoadsEveryValue
  refine ⟨fun straps lines s => ⟨_, rfl, ?_⟩, fun s hline hqueue => ?_⟩
  · refine ⟨⟨rfl, rfl, rfl⟩, ⟨rfl, rfl⟩, rfl, fun c => ?_, fun i => ?_, rfl, rfl, rfl, ?_, ?_, rfl, rfl, rfl, rfl, rfl⟩
    · exact State.powerOn_chan ..
    · have hslot : (releaseDeviceReset straps lines s).slot i = Slot.cleared := State.powerOn_slot ..
      rw [hslot]
      exact ⟨rfl, rfl⟩
    · refine ⟨rfl, rfl, rfl, rfl, rfl, rfl, rfl, rfl, rfl, rfl, rfl, rfl, rfl, rfl, fun u => ?_⟩
      exact congrArg WriteTag.state (State.powerOn_tag ..)
    · exact ⟨rfl, rfl, rfl, rfl, rfl, rfl, rfl⟩
  · have : exec (.powerOnReset Config.resetStraps Config.resetLines) s =
        .next (State.powerOn Config.resetStraps Config.resetLines s.pins.backplaneReset s.pending) := rfl
    rw [this, hline, hqueue, State.reset]

/-! ### The reset lines (R17, R18, R181) -/

section Frozen

variable {s : State} (hl : s.live = false)
include hl

/-- A presence line then only changes its level (R185). -/
theorem presence_of_not_live (n : Node) :
    exec (.arrival n) s = .next (setLine n true s) ∧ exec (.withdrawal n) s = .next (setLine n false s) := by
  have hline : ∀ b, (setLine n b s).live = false := fun b => (setLine_live n b s).trans hl
  constructor
  · show arrivalEvent n s = _
    unfold arrivalEvent
    split
    · rfl
    · exact event_of_not_live _ _ (hline true)
  · show withdrawalEvent n s = _
    unfold withdrawalEvent
    split
    · rfl
    · exact event_of_not_live _ _ (hline false)

end Frozen

theorem setLine_restored (n : Node) (b : Bool) (s : State) :
    { setLine n b s with pins := { (setLine n b s).pins with lines := s.pins.lines } } = s := by
  unfold setLine
  split <;> rfl

/-- Settles O17: the two assertions, and the frozen block. -/
theorem resetLinesStopTheBlock : Obligations.ResetLinesStopTheBlock := by
  unfold Obligations.ResetLinesStopTheBlock
  refine ⟨fun s => ⟨?_, rfl⟩, fun i s hl => ⟨fun hi => (exec_row i s hi).of_not_live hl, fun n hi => ?_, fun hi hd => ?_⟩⟩
  · show Host.Outcome.next (assertBackplaneReset s) = _
    cases hd : s.pins.deviceReset <;> simp [assertBackplaneReset, hd, State.setPins, State.setOutbox]
  · obtain rfl | rfl := hi
    · exact ⟨_, (presence_of_not_live hl n).1, setLine_restored n true s⟩
    · exact ⟨_, (presence_of_not_live hl n).2, setLine_restored n false s⟩
  · subst hi
    show releaseBackplaneReset s = _
    simp [releaseBackplaneReset, hd, State.setPins]

/-! ### Presence changes (R9) -/

theorem setLine_of_ne {n : Node} {s : State} (h : n ≠ s.ownId) (b : Bool) :
    setLine n b s =
      { s with pins := { s.pins with lines := if b then withBit s.pins.lines n else withoutBit s.pins.lines n } } := by
  simp [setLine, h, State.setPins]

/-- Settles O19: an arrival, and the changes that are none. -/
theorem arrivalAddsTheNode : Obligations.ArrivalAddsTheNode := by
  unfold Obligations.ArrivalAddsTheNode
  refine ⟨fun n s hl => ⟨fun hn hp => ?_, fun hn hp => ?_, fun hn => ?_⟩, fun n s => ⟨fun hn hp => ?_, fun hn => ?_⟩⟩
  · show arrivalEvent n s = _
    have hlive : (setLine n true s).live = true := (setLine_live n true s).trans hl
    rw [arrivalEvent, if_neg (by simp [hn, hp]), event_of_live _ _ hlive, setLine_of_ne hn]
    rfl
  · show arrivalEvent n s = _
    rw [arrivalEvent, if_pos (.inr hp), setLine_of_ne hn]
    rfl
  · show arrivalEvent n s = _
    rw [arrivalEvent, if_pos (.inl hn), setLine, if_pos hn]
  · show withdrawalEvent n s = _
    rw [withdrawalEvent, if_pos (.inr (by simp [hp])), setLine_of_ne hn]
    rfl
  · show withdrawalEvent n s = _
    rw [withdrawalEvent, if_pos (.inl hn), setLine, if_pos hn]

end Sys2Proof.Machine
end

