-- ==== Sys2Proof/Proofs/Fields.lean ====
section
/-! PROOF. Bit fields: what a field or a bit of a word is when the word is put together from fields, and with it the layout of
the records, of the status word and of the result words. -/

namespace Sys2Proof.Machine

/-! ### Fields of a word put together from fields -/

section Fields

variable {n w : Nat}

theorem getLsbD_fieldAt (lo : Nat) (v : BitVec w) (j : Nat) :
    (fieldAt lo v : BitVec n).getLsbD j = (decide (j < n) && decide (lo ≤ j) && v.getLsbD (j - lo)) := by
  by_cases hn : j < n
  · by_cases hlo : lo ≤ j
    · simp [fieldAt, hn, hlo, Nat.not_lt.mpr hlo]
    · simp [fieldAt, hn, hlo, Nat.lt_of_not_le hlo]
  · simp [fieldAt, hn]

theorem getLsbD_bitAt (i : Nat) (b : Bool) (j : Nat) :
    (bitAt i b : BitVec n).getLsbD j = (decide (j < n) && decide (i = j) && b) := by
  by_cases hn : j < n
  · rcases Nat.lt_trichotomy i j with h | rfl | h
    · have h1 : ¬j < i := by omega
      have h2 : i ≠ j := by omega
      have h3 : j - i ≠ 0 := by omega
      simp [bitAt, hn, h2, h1, BitVec.getLsbD_ofBool, h3]
    · simp [bitAt, hn]
    · have h2 : i ≠ j := by omega
      simp [bitAt, hn, h, h2]
  · simp [bitAt, hn]

theorem getElem_fieldAt (lo : Nat) (v : BitVec w) (j : Nat) (h : j < n) :
    (fieldAt lo v : BitVec n)[j] = (decide (lo ≤ j) && v.getLsbD (j - lo)) := by
  rw [← BitVec.getLsbD_eq_getElem, getLsbD_fieldAt, decide_eq_true h, Bool.true_and]

theorem getElem_bitAt (i : Nat) (b : Bool) (j : Nat) (h : j < n) :
    (bitAt i b : BitVec n)[j] = (decide (i = j) && b) := by
  rw [← BitVec.getLsbD_eq_getElem, getLsbD_bitAt, decide_eq_true h, Bool.true_and]

theorem extractLsb'_fieldAt_self (lo : Nat) (v : BitVec w) (h : lo + w ≤ n) :
    (fieldAt lo v : BitVec n).extractLsb' lo w = v := by
  apply BitVec.eq_of_getLsbD_eq
  intro j hj
  have : lo + j < n := by omega
  rw [BitVec.getLsbD_extractLsb', getLsbD_fieldAt]
  simp [hj, this]

theorem extractLsb'_fieldAt_of_disjoint (lo : Nat) (v : BitVec w) (a k : Nat) (h : lo + w ≤ a ∨ a + k ≤ lo) :
    (fieldAt lo v : BitVec n).extractLsb' a k = 0#k := by
  apply BitVec.eq_of_getLsbD_eq
  intro j hj
  have : lo ≤ a + j → v.getLsbD (a + j - lo) = false := fun hle => BitVec.getLsbD_of_ge _ _ (by omega)
  by_cases hle : lo ≤ a + j
  · simp [getLsbD_fieldAt, this hle]
  · simp [getLsbD_fieldAt, hle]

theorem extractLsb'_bitAt_of_disjoint (i : Nat) (b : Bool) (a k : Nat) (h : i < a ∨ a + k ≤ i) :
    (bitAt i b : BitVec n).extractLsb' a k = 0#k := by
  apply BitVec.eq_of_getLsbD_eq
  intro j hj
  have : i ≠ a + j := by omega
  simp [getLsbD_bitAt, this]

theorem getElem_fieldAt_of_disjoint (lo : Nat) (v : BitVec w) (j : Nat) (hj : j < n) (h : j < lo ∨ lo + w ≤ j) :
    (fieldAt lo v : BitVec n)[j] = false := by
  rw [getElem_fieldAt]
  by_cases hle : lo ≤ j
  · rw [BitVec.getLsbD_of_ge _ _ (by omega), Bool.and_false]
  · simp [hle]

theorem fieldAt_zero (v : BitVec w) : (fieldAt 0 v : BitVec n) = v.setWidth n := by
  simp [fieldAt]

/-- Two fields side by side. -/
theorem fieldAt_or_fieldAt (n : Nat) {w u : Nat} (v : BitVec w) (x : BitVec u) (h : u + w = n) :
    (fieldAt 0 v ||| fieldAt w x : BitVec n) = (x ++ v).cast h := by
  apply BitVec.eq_of_getLsbD_eq
  intro j hj
  rw [BitVec.getLsbD_or, getLsbD_fieldAt, getLsbD_fieldAt, BitVec.getLsbD_cast, BitVec.getLsbD_append]
  by_cases hw : j < w
  · simp [hj, hw, Nat.not_le.mpr hw]
  · simp [hj, hw, Nat.le_of_not_lt hw]

end Fields

/-! ### The status word (R153) -/

/-- Settles O31: the command's end, part by part, and the fields of the status word. -/
theorem commandEndLoadsTheResults : Obligations.CommandEndLoadsTheResults := by
  unfold Obligations.CommandEndLoadsTheResults
  refine ⟨fun st detail words s => rfl, fun st code detail => ⟨?_, ?_, ?_, ?_⟩⟩
  all_goals
    simp [statusWord, BitVec.extractLsb'_or, extractLsb'_fieldAt_self, extractLsb'_fieldAt_of_disjoint]

/-! ### Signature and records (R93, R99–R102) -/

theorem Slot.signature_outcome (x : Slot) (e : Ending) :
    x.signature.getLsbD e.code.toNat = decide (x.outcome = some e) := by
  cases e <;> simp [Slot.signature, Ending.code, getElem_bitAt]

theorem Slot.signature_kind (x : Slot) (k : ReqKind) :
    x.signature.getLsbD (8 + (kindCode k).toNat) = decide (x.kind = k) := by
  cases k <;> simp [Slot.signature, kindCode, getElem_bitAt]

/-- The other bits of the signature (R93). -/
theorem Slot.signature_flags (x : Slot) :
    x.signature.getLsbD 6 = decide (x.bounces ≠ 0) ∧ x.signature.getLsbD 7 = x.anomaly ∧
      x.signature.getLsbD 13 = decide (x.wait = some 65535 ∨ x.total = some 65535) ∧
      x.signature.getLsbD 14 = decide (64 < x.length) ∧ x.signature.getLsbD 15 = x.reissued := by
  simp [Slot.signature, getElem_bitAt, Slot.isSaturated, Slot.isLong]

/-- The check word makes the exclusive-OR of the eight words 0 (R104). -/
theorem sealWords_xor (w0 w1 w2 w3 w4 w5 w6 : Word) :
    w0 ^^^ w1 ^^^ w2 ^^^ w3 ^^^ w4 ^^^ w5 ^^^ w6 ^^^ (sealWords w0 w1 w2 w3 w4 w5 w6).w7 = 0 :=
  BitVec.xor_self

theorem sampleW0_fields (x : Slot) :
    (sampleW0 x).extractLsb' 0 4 = 1 ∧ (sampleW0 x).extractLsb' 4 2 = BitVec.ofNat 2 x.channel.val ∧
      (sampleW0 x).extractLsb' 6 3 = (x.outcome.map Ending.code).getD 0 ∧
      (sampleW0 x).extractLsb' 9 3 = kindCode x.kind ∧ (sampleW0 x).extractLsb' 12 4 = nodeBits x.initiator ∧
      (sampleW0 x).extractLsb' 16 4 = (x.target.map nodeBits).getD 0 ∧ (sampleW0 x).extractLsb' 20 4 = nodeBits x.tag ∧
      (sampleW0 x).extractLsb' 24 4 = x.bounces ∧ (sampleW0 x).getLsbD 28 = x.wait.isSome ∧
      (sampleW0 x).getLsbD 29 = x.total.isSome ∧ (sampleW0 x).getLsbD 30 = x.anomaly ∧
      (sampleW0 x).getLsbD 31 = x.reissued := by
  unfold sampleW0
  refine ⟨?_, ?_, ?_, ?_, ?_, ?_, ?_, ?_, ?_, ?_, ?_, ?_⟩
  case refine_1 | refine_2 | refine_3 | refine_4 | refine_5 | refine_6 | refine_7 | refine_8 =>
    simp [BitVec.extractLsb'_or, extractLsb'_fieldAt_self, extractLsb'_fieldAt_of_disjoint,
      extractLsb'_bitAt_of_disjoint]
  all_goals simp [getElem_bitAt, getElem_fieldAt_of_disjoint]

theorem fieldAt_nodeBits (n : Node) : (2 : Word) + 4096 * BitVec.ofNat 32 n.val = fieldAt 0 2#4 ||| fieldAt 12 (nodeBits n) := by
  revert n
  decide

/-- Settles O53: the signature bit by bit, and each record word by word. -/
theorem recordsAreLaidOutAndSealed : Obligations.RecordsAreLaidOutAndSealed := by
  unfold Obligations.RecordsAreLaidOutAndSealed
  refine ⟨fun x => ⟨x.signature_outcome, x.signature_kind, x.signature_flags⟩, fun x i seq => ?_,
    fun n v time seq => ?_, fun first lost time => ?_⟩
  · refine ⟨sampleW0_fields x, ?_, rfl, rfl, ?_, rfl, ?_, sealWords_xor ..⟩
    · refine ⟨?_, ?_, ?_, ?_⟩
      all_goals
        simp [composeSample, sealWords, lengthCode, BitVec.extractLsb'_or, extractLsb'_fieldAt_self,
          extractLsb'_fieldAt_of_disjoint]
    · exact fieldAt_or_fieldAt 32 (x.wait.getD 0) (x.total.getD 0) rfl
    · refine ⟨?_, ?_, ?_⟩
      all_goals
        simp [composeSample, sealWords, BitVec.extractLsb'_or, extractLsb'_fieldAt_self, extractLsb'_fieldAt_of_disjoint]
  · simp only [composeMarker, sealWords, fieldAt_nodeBits n, fieldAt_zero]
    simp
  · simp [composeGap, sealWords, fieldAt_zero]

end Sys2Proof.Machine
end

