-- ==== Sys2Proof/Proofs/Accesses.lean ====
section
/-! PROOF. Accesses to the window at any offset: the checks of R20 read as propositions, the owner's writes, the open reads, and
the ports of the result queue, the ring's CONSUMER index and the command results. -/

namespace Sys2Proof.Machine

/-! ### The checks of R20 as propositions -/

section Checks

variable {s : State} {r : Request} {g : Reg}

theorem wrongDirection_iff :
    wrongDirection r g = true ↔ g.direction = if r.kind = .read then .writeOnly else .readOnly := by
  unfold wrongDirection readsOnly
  by_cases hk : r.kind = .read <;> cases g.direction <;> simp [hk]

theorem ownerRefused_iff (hdir : ¬wrongDirection r g = true) :
    ownerRefused s r g = true ↔ s.owner ≠ some r.initiator ∧
      (if r.kind = .read then g = .resultPort ∨ g = .queueData ∨ g = .ack
       else g ≠ .marker ∧ (g = .claim → s.owner ≠ none)) := by
  by_cases hk : r.kind = .read
  · have hclaim : g ≠ .claim := by
      rintro rfl
      exact hdir (wrongDirection_iff.mpr (by simp [hk, Reg.direction]))
    cases g
    case claim => exact absurd rfl hclaim
    all_goals simp [ownerRefused, readsOnly, hk]
  · cases g
    all_goals simp [ownerRefused, readsOnly, hk, and_comm]

theorem phaseRefused_iff :
    phaseRefused s g = true ↔ (g = .cmdPort ∧ (s.cmd.phase = .executing ∨ s.cmd.phase = .result)) ∨
      (g = .resultPort ∧ s.cmd.phase ≠ .result) := by
  cases g
  all_goals simp [phaseRefused]

theorem State.bankLocked_iff (s : State) (c : ChanId) :
    s.bankLocked c = true ↔ (s.chan c).run ≠ .disarmed ∨ s.owned c ≠ 0 := by
  simp [State.bankLocked]

theorem Ring.active_iff (g : Ring) : g.active = true ↔ g.state = .running ∨ g.state = .stopping := by
  simp [Ring.active]

theorem lockRefused_iff :
    lockRefused s r g = true ↔ r.kind ≠ .read ∧
      ((g = .prescale ∧ s.tb.obs = .observing) ∨
        (g.isBank = true ∧ ((s.chan s.bank).run ≠ .disarmed ∨ s.owned s.bank ≠ 0)) ∨
        (g.isRingConfig = true ∧ (s.ring.state = .running ∨ s.ring.state = .stopping))) := by
  simp only [lockRefused, readsOnly, Bool.and_eq_true, Bool.or_eq_true, Bool.not_eq_true', decide_eq_false_iff_not,
    decide_eq_true_eq, State.bankLocked_iff, Ring.active_iff, or_assoc]

theorem markerClosed_iff : markerClosed s g = true ↔ g = .marker ∧ s.tb.obs = .paused := by
  simp [markerClosed]

/-- The fault code with which conditions 4 to 9 of R20 refuse, if they do. -/
theorem checkReg_code :
    (checkReg s r g).map WindowFault.code =
      if g.direction = (if r.kind = .read then .writeOnly else .readOnly) then some 3
      else if s.owner ≠ some r.initiator ∧
          (if r.kind = .read then g = .resultPort ∨ g = .queueData ∨ g = .ack
           else g ≠ .marker ∧ (g = .claim → s.owner ≠ none)) then some 2
      else if (g = .cmdPort ∧ (s.cmd.phase = .executing ∨ s.cmd.phase = .result)) ∨
          (g = .resultPort ∧ s.cmd.phase ≠ .result) then some 4
      else if r.kind ≠ .read ∧
          ((g = .prescale ∧ s.tb.obs = .observing) ∨
            (g.isBank = true ∧ ((s.chan s.bank).run ≠ .disarmed ∨ s.owned s.bank ≠ 0)) ∨
            (g.isRingConfig = true ∧ (s.ring.state = .running ∨ s.ring.state = .stopping))) then some 8
      else if g = .marker ∧ s.tb.obs = .paused then some 7
      else if r.kind ≠ .read ∧ valueOk s g (writtenWord r) = false then some 9
      else none := by
  unfold checkReg
  by_cases hdir : wrongDirection r g = true
  · rw [if_pos hdir, if_pos (wrongDirection_iff.mp hdir)]
    rfl
  rw [if_neg hdir, if_neg (mt wrongDirection_iff.mpr hdir)]
  by_cases howner : ownerRefused s r g = true
  · rw [if_pos howner, if_pos ((ownerRefused_iff hdir).mp howner)]
    rfl
  rw [if_neg howner, if_neg (mt (ownerRefused_iff hdir).mpr howner)]
  by_cases hphase : phaseRefused s g = true
  · rw [if_pos hphase, if_pos (phaseRefused_iff.mp hphase)]
    rfl
  rw [if_neg hphase, if_neg (mt phaseRefused_iff.mpr hphase)]
  by_cases hlock : lockRefused s r g = true
  · rw [if_pos hlock, if_pos (lockRefused_iff.mp hlock)]
    rfl
  rw [if_neg hlock, if_neg (mt lockRefused_iff.mpr hlock)]
  by_cases hmarker : markerClosed s g = true
  · rw [if_pos hmarker, if_pos (markerClosed_iff.mp hmarker)]
    rfl
  rw [if_neg hmarker, if_neg (mt markerClosed_iff.mpr hmarker)]
  have hvalue : (!readsOnly r && !valueOk s g (writtenWord r)) = true ↔
      r.kind ≠ .read ∧ valueOk s g (writtenWord r) = false := by simp [readsOnly]
  by_cases hv : r.kind ≠ .read ∧ valueOk s g (writtenWord r) = false
  · rw [if_pos (hvalue.mpr hv), if_pos hv]
    rfl
  · rw [if_neg (mt hvalue.mp hv), if_neg hv]
    rfl

end Checks

/-! ### Refusals (O23) -/

/-- The fault with which the checks of R20 refuse an access, if they do. -/
def refusal (s : State) (r : Request) : Option WindowFault :=
  match checkAccess s r with
  | .refused f => some f
  | .accepted _ => none

/-- The first condition of R20 that holds decides. -/
theorem refusal_eq (s : State) (r : Request) :
    refusal s r =
      if r.kind = .swap then some .badKind
      else if r.length ≠ 4 then some .badLength
      else
        match Reg.ofOffset (offsetOf r.address) with
        | none => some .noSuchRegister
        | some g => checkReg s r g := by
  rw [refusal, checkAccess]
  split_ifs
  · rfl
  · rfl
  · cases Reg.ofOffset (offsetOf r.address) with
    | none => rfl
    | some g => cases h : checkReg s r g <;> simp [h]

theorem checkAccess_of_refusal {s : State} {r : Request} {f : WindowFault} (h : refusal s r = some f) :
    checkAccess s r = .refused f := by
  cases hc : checkAccess s r with
  | refused e =>
    rw [refusal, hc] at h
    exact congrArg _ (Option.some.inj h)
  | accepted g =>
    rw [refusal, hc] at h
    cases h

theorem checkAccess_of_not_refusal {s : State} {r : Request} (h : refusal s r = none) :
    ∃ g, checkAccess s r = .accepted g := by
  cases hc : checkAccess s r with
  | refused e =>
    rw [refusal, hc] at h
    cases h
  | accepted g => exact ⟨g, rfl⟩

theorem targetAccess_of_refused {s : State} {r : Request} {f : WindowFault} (h : checkAccess s r = .refused f) :
    targetAccess r s = refuseAccess r f s := by
  rw [targetAccess, h]

theorem targetAccess_of_accepted {s : State} {r : Request} {g : Reg} (h : checkAccess s r = .accepted g) :
    targetAccess r s = performAccess r g s := by
  rw [targetAccess, h]

/-- An accepted access addresses the register that it performs on. -/
theorem ofOffset_of_accepted {s : State} {r : Request} {g : Reg} (h : checkAccess s r = .accepted g) :
    Reg.ofOffset (offsetOf r.address) = some g := by
  unfold checkAccess at h
  split_ifs at h
  cases ho : Reg.ofOffset (offsetOf r.address) with
  | none =>
    rw [ho] at h
    cases h
  | some g' =>
    rw [ho] at h
    cases hc : checkReg s r g' with
    | some f => simp [hc] at h
    | none => simpa [hc] using h

section Access

variable {s : State} {a : Access}

theorem exec_registerWrite (hl : s.live = true) (hw : (a.toRequest s.ownId).wf = true) :
    exec (.registerWrite a) s = afterEvent (targetAccess (a.toRequest s.ownId) (s.arrived a.initiator)) := by
  refine requestEvent_target _ s hl hw ?_ rfl
  show a.kind.reqKind ≠ .broadcast
  cases a.kind <;> simp [AccessKind.reqKind]

theorem refuseAccess_arrived (f : WindowFault) :
    refuseAccess (a.toRequest s.ownId) f (s.arrived a.initiator) =
      s.refusedAccess a.initiator a.tag (decide (a.kind = .posted)) f.code := by
  have hk : (a.toRequest s.ownId).kind = .posted ↔ a.kind = .posted := by
    show a.kind.reqKind = .posted ↔ _
    cases a.kind <;> simp [AccessKind.reqKind]
  unfold refuseAccess State.refusedAccess
  by_cases h : a.kind = .posted
  · rw [if_pos (hk.mpr h), if_pos (by simpa using h)]
    rfl
  · rw [if_neg (mt hk.mp h), if_neg (by simpa using h)]
    rfl

theorem exec_registerWrite_of_refusal (hl : s.live = true) (hw : (a.toRequest s.ownId).wf = true) {f : WindowFault}
    (h : refusal (s.arrived a.initiator) (a.toRequest s.ownId) = some f) :
    exec (.registerWrite a) s =
      afterEvent (s.refusedAccess a.initiator a.tag (decide (a.kind = .posted)) f.code) := by
  rw [exec_registerWrite hl hw, targetAccess_of_refused (checkAccess_of_refusal h), refuseAccess_arrived]

end Access

/-! ### WINDOW_REFUSALS counts refusals only (R25) -/

theorem dropHead_dev (x : Record) (rest : List Record) (s : State) :
    (dropHead x rest s).dev = { s.dev with recordsLost := s.dev.recordsLost + 1 } := by
  simp [dropHead]

theorem advance_windowRefusals (s : State) : (advance s).dev.windowRefusals = s.dev.windowRefusals := by
  refine advance_keeps (P := fun u => u.dev.windowRefusals = s.dev.windowRefusals) ?_ ?_ ?_ s rfl
  · intro u x rest _ _ _ h
    simpa using h
  · intro u x rest _ h
    refine ⟨fun _ v _ => ⟨fun _ => by simpa using h, fun _ => by simpa using h⟩, fun _ _ => ?_⟩
    show (dropHead x rest u).dev.windowRefusals = _
    rw [dropHead_dev]
    exact h
  · intro u i rest _ _ h
    simpa using h

/-- The counters after an accepted access to a register other than CMD_PORT. -/
theorem Performs.windowRefusals_of_accepted {s : State} {r : Request} {g : Reg} (hg : g ≠ .cmdPort) :
    (performAccess r g s).dev.windowRefusals = s.dev.windowRefusals := by
  unfold performAccess
  split_ifs
  · have hread : ∀ u : State, (readEffect g u).dev.windowRefusals = u.dev.windowRefusals := by
      intro u
      unfold readEffect readQueue
      repeat' split
      all_goals simp [advance_windowRefusals]
    rw [hread]
    simp
  · unfold writeMarker
    split_ifs
    · simp [refuseMarker]
    · simp [acceptMarker, advance_windowRefusals]
  · cases g
    case cmdPort => exact absurd rfl hg
    case consumer =>
      simp only [writeReg, writeConsumer]
      split_ifs <;> simp [advance_windowRefusals]
    case cmdCancel =>
      simp only [writeReg, cancelCommand]
      split <;> simp
    case intCtrl =>
      simp only [writeReg, writeIntCtrl]
      split <;> simp
    all_goals simp [writeReg, writeBank]

/-- Settles O23: the code is the one of the first check that refuses; an accepted access leaves the count alone. -/
theorem windowRefusesInOrder : Obligations.WindowRefusesInOrder := by
  unfold Obligations.WindowRefusesInOrder
  intro a s hl hw v code
  have hkind : (a.toRequest s.ownId).kind = .swap ↔ a.kind = .swap := by
    show a.kind.reqKind = .swap ↔ _
    cases a.kind <;> simp [AccessKind.reqKind]
  have hread : (a.toRequest s.ownId).kind = .read ↔ a.kind = .read := by
    show a.kind.reqKind = .read ↔ _
    cases a.kind <;> simp [AccessKind.reqKind]
  have hoffset : offsetOf (a.toRequest s.ownId).address = a.address.toNat % 0x400 := rfl
  have hcode : code = (refusal (s.arrived a.initiator) (a.toRequest s.ownId)).map WindowFault.code := by
    rw [refusal_eq, hoffset]
    show (if a.kind = .swap then some 5 else _) = _
    by_cases hs : a.kind = .swap
    · rw [if_pos hs, if_pos (hkind.mpr hs)]
      rfl
    rw [if_neg hs, if_neg (mt hkind.mp hs)]
    by_cases hlen : a.length ≠ 4
    · rw [if_pos hlen, if_pos (show (a.toRequest s.ownId).length ≠ 4 from hlen)]
      rfl
    rw [if_neg hlen, if_neg (show ¬(a.toRequest s.ownId).length ≠ 4 from hlen)]
    cases hg : Reg.ofOffset (a.address.toNat % 0x400) with
    | none => rfl
    | some g =>
      dsimp only
      rw [checkReg_code]
      simp only [hread, ne_eq]
      rfl
  refine ⟨fun k hk => ?_, fun hk => ?_⟩
  · rw [hcode, Option.map_eq_some_iff] at hk
    obtain ⟨f, hf, rfl⟩ := hk
    exact exec_registerWrite_of_refusal hl hw hf
  · rw [hcode, Option.map_eq_none_iff] at hk
    refine ⟨_, exec_registerWrite hl hw, ?_⟩
    have hdev : ∀ u : State, (alertCheck u).dev = u.dev := fun u => by simp
    obtain ⟨g, hg⟩ := checkAccess_of_not_refusal hk
    beta_reduce
    rw [hdev, targetAccess_of_accepted hg]
    by_cases hport : g = .cmdPort
    · exact .inr (hoffset ▸ hport ▸ ofOffset_of_accepted hg)
    · exact .inl (Performs.windowRefusals_of_accepted hport)

end Sys2Proof.Machine
end

