-- ==== Sys2Proof/Proofs/Registers.lean ====
section
/-! PROOF. The owner's writes to the registers that may be read and written, the open reads of every register, and the fields of
the words that they return. -/

namespace Sys2Proof.Machine

/-! ### The owner's writes -/

/-- A write to register g is refused as locked (R36, R51, R125). -/
def State.locks (s : State) (g : Reg) : Prop :=
  (g = .prescale ∧ s.tb.obs = .observing) ∨
    (g.isBank = true ∧ ((s.chan s.bank).run ≠ .disarmed ∨ s.owned s.bank ≠ 0)) ∨
    (g.isRingConfig = true ∧ (s.ring.state = .running ∨ s.ring.state = .stopping))

section OwnerWrites

variable {w : Writer} {off : BitVec 10} {v : Word} {s : State} {g : Reg}

theorem writerAccess_kind (w : Writer) (off : BitVec 10) (v : Word) (own : Node) :
    ((w.access off v).toRequest own).kind = if w.posted then .posted else .write := by
  unfold Writer.access Access.toRequest
  cases w.posted <;> rfl

theorem writerAccess_wf (w : Writer) (off : BitVec 10) (v : Word) (own : Node) :
    ((w.access off v).toRequest own).wf = true := by
  unfold Writer.access Access.toRequest
  cases w.posted <;>
    simp [AccessKind.reqKind, Request.wf, Request.targetOk, Request.payloadOk, wordBytes, ReqKind.hasPayload, lengthOk]

theorem writtenWord_access (w : Writer) (off : BitVec 10) (v : Word) (own : Node) :
    writtenWord ((w.access off v).toRequest own) = v :=
  wordOfBytes_wordBytes v

theorem valueOk_arrived (s : State) (n : Node) (g : Reg) (v : Word) : valueOk (s.arrived n) g v = valueOk s g v := by
  cases g <;> rfl

/-- The owner's write to a register that may be read and written meets only the lock and the value check. -/
theorem checkReg_ownerWrite (hd : g.direction = .readWrite) (howner : s.owner = some w.initiator) (hlock : ¬s.locks g) :
    checkReg (s.arrived w.initiator) ((w.access off v).toRequest s.ownId) g =
      if valueOk s g v then none else some .badValue := by
  have hread : readsOnly ((w.access off v).toRequest s.ownId) = false := by
    rw [readsOnly, writerAccess_kind]
    cases w.posted <;> rfl
  have hdir : wrongDirection ((w.access off v).toRequest s.ownId) g = false := by
    rw [wrongDirection, hd]
  have hown : ownerRefused (s.arrived w.initiator) ((w.access off v).toRequest s.ownId) g = false := by
    rw [Bool.eq_false_iff, Ne, ownerRefused_iff (by simp [hdir])]
    exact fun h => h.1 howner
  have hphase : phaseRefused (s.arrived w.initiator) g = false := by
    cases g
    case cmdPort => cases hd
    case resultPort => cases hd
    all_goals rfl
  have hmarker : markerClosed (s.arrived w.initiator) g = false := by
    rw [Bool.eq_false_iff, Ne, markerClosed_iff]
    rintro ⟨rfl, -⟩
    cases hd
  have hfree : lockRefused (s.arrived w.initiator) ((w.access off v).toRequest s.ownId) g = false := by
    rw [Bool.eq_false_iff, Ne, lockRefused_iff]
    exact fun h => hlock h.2
  rw [checkReg, hdir, hown, hphase, hfree, hmarker, hread, valueOk_arrived, writtenWord_access]
  cases valueOk s g v <;> rfl

/-- The owner's write to an unlocked register that may be read and written is performed, or refused for its value (R20, R22). -/
theorem exec_ownerWrite (hg : Reg.ofOffset off.toNat = some g) (hd : g.direction = .readWrite)
    (hs : s.ownedBy w.initiator) (hlock : ¬s.locks g) :
    exec (.registerWrite (w.access off v)) s =
      if valueOk s g v then afterEvent (writeReg w.initiator g v (s.written w))
      else afterEvent (s.refusedWrite w 9) := by
  obtain ⟨hlive, howner⟩ := hs
  have hwf := writerAccess_wf w off v s.ownId
  have hoff : offsetOf ((w.access off v).toRequest s.ownId).address = off.toNat := offsetOf_append _ _
  have hswap : ((w.access off v).toRequest s.ownId).kind ≠ .swap := by
    rw [writerAccess_kind]
    cases w.posted <;> simp
  have hrefusal : refusal (s.arrived w.initiator) ((w.access off v).toRequest s.ownId) =
      if valueOk s g v then none else some .badValue := by
    rw [refusal_eq, if_neg hswap, if_neg (show ¬((w.access off v).toRequest s.ownId).length ≠ 4 from fun h => h rfl),
      hoff, hg]
    exact checkReg_ownerWrite hd howner hlock
  by_cases hv : valueOk s g v = true
  · rw [if_pos hv] at hrefusal ⊢
    obtain ⟨g', hacc⟩ := checkAccess_of_not_refusal hrefusal
    have hsame : g' = g := by
      have h := ofOffset_of_accepted hacc
      rw [hoff, hg] at h
      exact (Option.some.inj h).symm
    subst hsame
    refine (exec_registerWrite hlive hwf).trans (congrArg afterEvent ?_)
    refine (targetAccess_of_accepted hacc).trans ?_
    have hread : readsOnly ((w.access off v).toRequest s.ownId) = false := by
      rw [readsOnly, writerAccess_kind]
      cases w.posted <;> rfl
    have hmarker : g' ≠ .marker := by
      rintro rfl
      cases hd
    have hanswer : answer ((w.access off v).toRequest s.ownId) .done (s.arrived w.initiator) = s.written w := by
      rw [answer, writerAccess_kind]
      unfold State.written
      cases w.posted <;> rfl
    rw [performAccess, hread, if_neg (by simp), if_neg hmarker, writtenWord_access]
    exact congrArg (writeReg w.initiator g' v) hanswer
  · rw [if_neg hv] at hrefusal ⊢
    refine (exec_registerWrite_of_refusal hlive hwf hrefusal).trans (congrArg afterEvent ?_)
    unfold State.refusedWrite Writer.access
    cases w.posted <;> rfl

theorem exec_ownerWrite_ok (hg : Reg.ofOffset off.toNat = some g) (hd : g.direction = .readWrite)
    (hs : s.ownedBy w.initiator) (hlock : ¬s.locks g) (hv : valueOk s g v = true) :
    exec (.registerWrite (w.access off v)) s = afterEvent (writeReg w.initiator g v (s.written w)) :=
  (exec_ownerWrite hg hd hs hlock).trans (if_pos hv)

theorem exec_ownerWrite_bad (hg : Reg.ofOffset off.toNat = some g) (hd : g.direction = .readWrite)
    (hs : s.ownedBy w.initiator) (hlock : ¬s.locks g) (hv : valueOk s g v = false) :
    exec (.registerWrite (w.access off v)) s = afterEvent (s.refusedWrite w 9) :=
  (exec_ownerWrite hg hd hs hlock).trans (if_neg (by simp [hv]))

/-! #### When a register is unlocked -/

theorem State.not_locks_prescale (h : s.tb.obs = .paused) : ¬s.locks .prescale := by
  simp [State.locks, h, Reg.isBank, Reg.isRingConfig]

theorem State.not_locks_bank (hg : g.isBank = true) (hrun : (s.chan s.bank).run = .disarmed)
    (howned : s.owned s.bank = 0) : ¬s.locks g := by
  have hother : g ≠ .prescale ∧ g.isRingConfig = false := by
    cases g <;> simp_all [Reg.isBank, Reg.isRingConfig]
  simp [State.locks, hother, hrun, howned]

theorem State.not_locks_ring (hg : g.isRingConfig = true) (h : s.ring.state = .idle ∨ s.ring.state = .faulted) :
    ¬s.locks g := by
  have hother : g ≠ .prescale ∧ g.isBank = false := by
    cases g <;> simp_all [Reg.isBank, Reg.isRingConfig]
  rcases h with h | h <;> simp [State.locks, hother, h]

/-- The registers outside the three groups of R36, R51 and R125 are never locked. -/
theorem State.not_locks (hp : g ≠ .prescale) (hb : g.isBank = false) (hr : g.isRingConfig = false) : ¬s.locks g := by
  simp [State.locks, hp, hb, hr]

end OwnerWrites

/-! ### The values that a register admits -/

theorem nodeBits_eq_iff (v : Word) (n : Node) : v.extractLsb' 0 4 = nodeBits n ↔ (v.extractLsb' 0 4).toNat = n.val := by
  rw [← BitVec.toNat_inj]
  simp [nodeBits]

theorem nodeField_eq {v : Word} {n : Node} (h : (v.extractLsb' 0 4).toNat = n.val) : nodeField v = n := by
  rw [nodeField, h]
  exact Fin.ext (Nat.mod_eq_of_lt n.isLt)

theorem extractLsb'_zero_eq_zero_iff (v : Word) (k : Nat) : v.extractLsb' 0 k = 0 ↔ v.toNat % 2 ^ k = 0 := by
  rw [← BitVec.toNat_inj, BitVec.extractLsb'_toNat]
  simp

theorem range_ok {n m : Nat} (hlow : 1 ≤ n) (hhigh : n ≤ m) : (decide (1 ≤ n) && decide (n ≤ m)) = true := by
  simp [hlow, hhigh]

theorem not_range {n m : Nat} (h : n = 0 ∨ m < n) : (decide (1 ≤ n) && decide (n ≤ m)) = false := by
  simp only [Bool.and_eq_false_iff, decide_eq_false_iff_not]
  omega

theorem ringSizeOk_iff (n : Nat) : ringSizeOk n = true ↔ ∃ k, 4 ≤ k ∧ k < 17 ∧ n = 2 ^ k := by
  constructor
  · intro h
    simp only [ringSizeOk, List.contains_eq_mem, decide_eq_true_eq] at h
    fin_cases h
    exacts [⟨4, by decide⟩, ⟨5, by decide⟩, ⟨6, by decide⟩, ⟨7, by decide⟩, ⟨8, by decide⟩, ⟨9, by decide⟩,
      ⟨10, by decide⟩, ⟨11, by decide⟩, ⟨12, by decide⟩, ⟨13, by decide⟩, ⟨14, by decide⟩, ⟨15, by decide⟩,
      ⟨16, by decide⟩]
  · rintro ⟨k, hlow, hhigh, rfl⟩
    interval_cases k <;> decide

/-! ### Settled: the registers of the observer, and those of a bank -/

/-- Settles O25: an admitted value is written to its own field; the others are refused for their value. -/
theorem registerWritesReplaceTheField : Obligations.RegisterWritesReplaceTheField := by
  unfold Obligations.RegisterWritesReplaceTheField
  refine ⟨fun w v s hs => ⟨fun hp hlow hhigh => ?_, ?_, fun hv => ?_, fun c hc => ?_, fun hlow hhigh => ?_, ?_,
      fun n hn hne => ?_, fun hv => ?_⟩,
    fun w v s hs hr => ⟨fun n hn hne => ?_, fun hv => ?_, fun k hlow hhigh hv => ?_, fun hv => ?_, fun hlow hhigh => ?_,
      fun hv => ?_, fun hv => ?_⟩,
    fun w v s hs => ⟨fun hp hv => ?_, fun hv => ?_, fun hv => ?_, fun hv => ?_, fun hv => ?_, fun hv => ?_,
      fun hr => ⟨fun hv => ?_, fun hv => ?_, fun hv => ?_, fun hv => ?_, fun hv => ?_, fun hv => ?_, fun hv => ?_⟩⟩⟩
  · exact exec_ownerWrite_ok (g := .prescale) rfl rfl hs (State.not_locks_prescale hp) (range_ok hlow hhigh)
  · exact exec_ownerWrite_ok (g := .watchLimit) rfl rfl hs (State.not_locks nofun rfl rfl) rfl
  · exact exec_ownerWrite_ok (g := .lfsr) rfl rfl hs (State.not_locks nofun rfl rfl) (by simpa [valueOk] using hv)
  · have hfin : Fin.ofNat 4 v.toNat = c := by
      rw [hc]
      exact Fin.ext (Nat.mod_eq_of_lt c.isLt)
    rw [← hfin]
    exact exec_ownerWrite_ok (g := .bank) rfl rfl hs (State.not_locks nofun rfl rfl) (by simp [valueOk, hc])
  · exact exec_ownerWrite_ok (g := .queueThreshold) rfl rfl hs (State.not_locks nofun rfl rfl)
      (range_ok hlow hhigh)
  · exact exec_ownerWrite_ok (g := .mie) rfl rfl hs (State.not_locks nofun rfl rfl) rfl
  · have hok : valueOk s .alertNode v = true := by
      simpa [valueOk, nodeBits_eq_iff, hn] using fun h => hne (Fin.ext h)
    rw [← nodeField_eq hn]
    exact exec_ownerWrite_ok (g := .alertNode) rfl rfl hs (State.not_locks nofun rfl rfl) hok
  · exact exec_ownerWrite_ok (g := .alertAddr) rfl rfl hs (State.not_locks nofun rfl rfl) (by simpa [valueOk] using hv)
  · have hok : valueOk s .ringNode v = true := by
      simpa [valueOk, nodeBits_eq_iff, hn] using fun h => hne (Fin.ext h)
    rw [← nodeField_eq hn]
    exact exec_ownerWrite_ok (g := .ringNode) rfl rfl hs (State.not_locks_ring rfl hr) hok
  · exact exec_ownerWrite_ok (g := .ringBase) rfl rfl hs (State.not_locks_ring rfl hr)
      (decide_eq_true ((extractLsb'_zero_eq_zero_iff v 5).mpr hv))
  · exact exec_ownerWrite_ok (g := .ringSize) rfl rfl hs (State.not_locks_ring rfl hr)
      ((ringSizeOk_iff _).mpr ⟨k, hlow, by omega, hv⟩)
  · exact exec_ownerWrite_ok (g := .ringPolicy) rfl rfl hs (State.not_locks_ring rfl hr) (by simpa [valueOk] using hv)
  · exact exec_ownerWrite_ok (g := .ringThreshold) rfl rfl hs (State.not_locks_ring rfl hr)
      (range_ok hlow hhigh)
  · exact exec_ownerWrite_ok (g := .writeLimit) rfl rfl hs (State.not_locks_ring rfl hr) (by simpa [valueOk] using hv)
  · exact exec_ownerWrite_ok (g := .wbAddr) rfl rfl hs (State.not_locks_ring rfl hr)
      (decide_eq_true ((extractLsb'_zero_eq_zero_iff v 2).mpr hv))
  · exact exec_ownerWrite_bad (g := .prescale) rfl rfl hs (State.not_locks_prescale hp) (not_range hv)
  · exact exec_ownerWrite_bad (g := .lfsr) rfl rfl hs (State.not_locks nofun rfl rfl) (by simpa [valueOk] using hv)
  · exact exec_ownerWrite_bad (g := .bank) rfl rfl hs (State.not_locks nofun rfl rfl) (by simpa [valueOk] using hv)
  · exact exec_ownerWrite_bad (g := .queueThreshold) rfl rfl hs (State.not_locks nofun rfl rfl) (not_range hv)
  · exact exec_ownerWrite_bad (g := .alertNode) rfl rfl hs (State.not_locks nofun rfl rfl)
      (by simpa [valueOk, nodeBits_eq_iff] using hv)
  · exact exec_ownerWrite_bad (g := .alertAddr) rfl rfl hs (State.not_locks nofun rfl rfl) (by simpa [valueOk] using hv)
  · exact exec_ownerWrite_bad (g := .ringNode) rfl rfl hs (State.not_locks_ring rfl hr)
      (by simpa [valueOk, nodeBits_eq_iff] using hv)
  · exact exec_ownerWrite_bad (g := .ringBase) rfl rfl hs (State.not_locks_ring rfl hr)
      (decide_eq_false (mt (extractLsb'_zero_eq_zero_iff v 5).mp hv))
  · refine exec_ownerWrite_bad (g := .ringSize) rfl rfl hs (State.not_locks_ring rfl hr) ?_
    rw [← Bool.not_eq_true]
    exact fun h => by
      obtain ⟨k, hlow, hhigh, hk⟩ := (ringSizeOk_iff _).mp h
      exact hv k hhigh hlow hk
  · exact exec_ownerWrite_bad (g := .ringPolicy) rfl rfl hs (State.not_locks_ring rfl hr) (by simpa [valueOk] using hv)
  · exact exec_ownerWrite_bad (g := .ringThreshold) rfl rfl hs (State.not_locks_ring rfl hr) (not_range hv)
  · exact exec_ownerWrite_bad (g := .writeLimit) rfl rfl hs (State.not_locks_ring rfl hr) (by simpa [valueOk] using hv)
  · exact exec_ownerWrite_bad (g := .wbAddr) rfl rfl hs (State.not_locks_ring rfl hr)
      (decide_eq_false (mt (extractLsb'_zero_eq_zero_iff v 2).mp hv))

/-- Settles O26: the nine registers of the unlocked bank that BANK names, CH_PERIOD by the values it admits. -/
theorem bankRegisterWritesReachTheNamedChannel : Obligations.BankRegisterWritesReachTheNamedChannel := by
  unfold Obligations.BankRegisterWritesReachTheNamedChannel
  intro w v s hs hrun howned
  have hfree {g : Reg} (hg : g.isBank = true) : ¬s.locks g := State.not_locks_bank hg hrun howned
  refine ⟨?_, ?_, ?_, ?_, ?_, fun hperiod hjitter hlow hhigh => ?_, fun hv => ?_, ?_, ?_, ?_⟩
  · exact exec_ownerWrite_ok (g := .chKinds) rfl rfl hs (hfree rfl) rfl
  · exact exec_ownerWrite_ok (g := .chInit) rfl rfl hs (hfree rfl) rfl
  · exact exec_ownerWrite_ok (g := .chTarg) rfl rfl hs (hfree rfl) rfl
  · exact exec_ownerWrite_ok (g := .chWlo) rfl rfl hs (hfree rfl) rfl
  · exact exec_ownerWrite_ok (g := .chWhi) rfl rfl hs (hfree rfl) rfl
  · exact exec_ownerWrite_ok (g := .chPeriod) rfl rfl hs (hfree rfl) (by simpa [valueOk] using ⟨⟨⟨hperiod, hjitter⟩, hlow⟩, hhigh⟩)
  · refine exec_ownerWrite_bad (g := .chPeriod) rfl rfl hs (hfree rfl) ?_
    simp only [valueOk, Bool.and_eq_false_iff, decide_eq_false_iff_not, ne_eq, not_not, not_le, Nat.lt_one_iff]
    tauto
  · exact exec_ownerWrite_ok (g := .chSig) rfl rfl hs (hfree rfl) rfl
  · exact exec_ownerWrite_ok (g := .chLatfilt) rfl rfl hs (hfree rfl) rfl
  · exact exec_ownerWrite_ok (g := .chCtrl) rfl rfl hs (hfree rfl) rfl

end Sys2Proof.Machine
end

