-- ==== Sys2Proof/Proofs/OpenReads.lean ====
section
/-! PROOF. Open reads: any node is answered with the register's value as it stands; and the fields of the words so returned. -/

namespace Sys2Proof.Machine

/-! ### The answer -/

section Reads

variable {r : Reader} {off : BitVec 10} {s : State} {g : Reg}

theorem checkReg_openRead (hd : g.direction ≠ .writeOnly) (hr : g ≠ .resultPort) (hq : g ≠ .queueData) (ha : g ≠ .ack) :
    checkReg (s.arrived r.initiator) ((r.access off).toRequest s.ownId) g = none := by
  have hread : ((r.access off).toRequest s.ownId).kind = .read := rfl
  have hdir : ¬wrongDirection ((r.access off).toRequest s.ownId) g = true := by
    rw [wrongDirection_iff, if_pos hread]
    exact hd
  have hown : ¬ownerRefused (s.arrived r.initiator) ((r.access off).toRequest s.ownId) g = true := by
    rw [ownerRefused_iff hdir, if_pos hread]
    tauto
  have hphase : ¬phaseRefused (s.arrived r.initiator) g = true := by
    rw [phaseRefused_iff]
    rintro (⟨rfl, -⟩ | ⟨rfl, -⟩)
    · exact hd rfl
    · exact hr rfl
  have hlock : ¬lockRefused (s.arrived r.initiator) ((r.access off).toRequest s.ownId) g = true := by
    rw [lockRefused_iff]
    exact fun h => h.1 hread
  have hmarker : ¬markerClosed (s.arrived r.initiator) g = true := by
    rw [markerClosed_iff]
    rintro ⟨rfl, -⟩
    exact hd rfl
  rw [checkReg, if_neg hdir, if_neg hown, if_neg hphase, if_neg hlock, if_neg hmarker, readsOnly, hread]
  rfl

/-- A READ of a register whose read is open is answered with its value and has no other effect (R22, R24). -/
theorem exec_openRead (hl : s.live = true) (hg : Reg.ofOffset off.toNat = some g) (hd : g.direction ≠ .writeOnly)
    (hr : g ≠ .resultPort) (hq : g ≠ .queueData) (ha : g ≠ .ack) :
    exec (.registerWrite (r.access off)) s = afterEvent (s.readAs r (readReg (s.arrived r.initiator) g)) := by
  have hwf : ((r.access off).toRequest s.ownId).wf = true := by
    simp [Reader.access, Access.toRequest, AccessKind.reqKind, Request.wf, Request.targetOk, Request.payloadOk,
      ReqKind.hasPayload, lengthOk]
  have hoff : offsetOf ((r.access off).toRequest s.ownId).address = off.toNat := offsetOf_append _ _
  have hrefusal : refusal (s.arrived r.initiator) ((r.access off).toRequest s.ownId) = none := by
    rw [refusal_eq, if_neg (show ¬((r.access off).toRequest s.ownId).kind = .swap from nofun),
      if_neg (show ¬((r.access off).toRequest s.ownId).length ≠ 4 from fun h => h rfl), hoff, hg]
    exact checkReg_openRead hd hr hq ha
  obtain ⟨g', hacc⟩ := checkAccess_of_not_refusal hrefusal
  have hsame : g' = g := by
    have h := ofOffset_of_accepted hacc
    rw [hoff, hg] at h
    exact (Option.some.inj h).symm
  subst hsame
  refine (exec_registerWrite hl hwf).trans (congrArg afterEvent ((targetAccess_of_accepted hacc).trans ?_))
  have heffect : ∀ t, readEffect g' t = t := by
    intro t
    cases g'
    case resultPort => exact absurd rfl hr
    case queueData => exact absurd rfl hq
    case ack => exact absurd rfl ha
    all_goals rfl
  have hread : readsOnly ((r.access off).toRequest s.ownId) = true := rfl
  rw [performAccess, hread, if_pos rfl, heffect]
  rfl

end Reads

/-! ### The fields of the words -/

theorem identWord_eq (n : Node) : identWord n = 0x53380100 + BitVec.ofNat 32 n.val := by
  revert n
  decide

theorem gstatusWord_fields (s : State) :
    (gstatusWord s).getLsbD 0 = decide (s.tb.obs = .observing) ∧ (gstatusWord s).getLsbD 1 = decide (s.path.mode = .ring) ∧
      (gstatusWord s).extractLsb' 2 2 = s.ring.state.code ∧ (gstatusWord s).extractLsb' 4 2 = s.cmd.phase.code ∧
      (gstatusWord s).extractLsb' 8 4 = BitVec.ofNat 4 s.path.staging.length ∧
      (gstatusWord s).extractLsb' 12 4 = BitVec.ofNat 4 s.closeQueue.length ∧
      (gstatusWord s).extractLsb' 16 4 = BitVec.ofNat 4 (slotIds.countP fun i => decide ((s.slot i).state = .free)) ∧
      (gstatusWord s).extractLsb' 20 12 = 0 := by
  refine ⟨?_, ?_, ?_, ?_, ?_, ?_, ?_, ?_⟩ <;>
    simp [gstatusWord, BitVec.extractLsb'_or, extractLsb'_fieldAt_self, extractLsb'_fieldAt_of_disjoint,
      extractLsb'_bitAt_of_disjoint, getElem_fieldAt_of_disjoint, getElem_bitAt]

theorem chStateWord_fields (s : State) (c : ChanId) :
    (chStateWord s c).extractLsb' 0 2 = (s.chan c).run.code ∧ (chStateWord s c).getLsbD 2 = (s.chan c).loss ∧
      (chStateWord s c).getLsbD 3 = decide ((s.chan c).run ≠ .disarmed ∨ s.owned c ≠ 0) ∧
      (chStateWord s c).extractLsb' 4 4 = BitVec.ofNat 4 (s.owned c) ∧
      (chStateWord s c).extractLsb' 8 24 = (s.chan c).count := by
  have hlocked : s.bankLocked c = decide ((s.chan c).run ≠ .disarmed ∨ s.owned c ≠ 0) := by
    rw [Bool.eq_iff_iff, State.bankLocked_iff, decide_eq_true_iff]
  rw [← hlocked]
  refine ⟨?_, ?_, ?_, ?_, ?_⟩ <;>
    simp [chStateWord, BitVec.extractLsb'_or, extractLsb'_fieldAt_self, extractLsb'_fieldAt_of_disjoint,
      extractLsb'_bitAt_of_disjoint, getElem_fieldAt_of_disjoint, getElem_bitAt]

theorem Processor.statusWord_fields (p : Processor) :
    p.statusWord.extractLsb' 0 2 = p.phase.code ∧ p.statusWord.getLsbD 2 = decide (p.phase = .params) ∧
      p.statusWord.getLsbD 3 = p.discarded ∧
      p.statusWord.extractLsb' 4 4 = (if p.phase = .result then BitVec.ofNat 4 p.results.length else 0) ∧
      p.statusWord.extractLsb' 8 8 = p.code ∧ p.statusWord.extractLsb' 16 4 = p.lastStatus ∧
      p.statusWord.extractLsb' 20 8 = p.lastCode ∧ p.statusWord.extractLsb' 28 4 = 0 := by
  refine ⟨?_, ?_, ?_, ?_, ?_, ?_, ?_, ?_⟩ <;>
    simp [Processor.statusWord, BitVec.extractLsb'_or, extractLsb'_fieldAt_self, extractLsb'_fieldAt_of_disjoint,
      extractLsb'_bitAt_of_disjoint, getElem_fieldAt_of_disjoint, getElem_bitAt]

theorem Ints.stateWord_fields (x : Ints) :
    x.stateWord.extractLsb' 0 8 = x.ip ∧ x.stateWord.extractLsb' 8 8 = x.ius ∧ x.stateWord.extractLsb' 16 8 = x.err ∧
      x.stateWord.extractLsb' 24 8 = x.alerted := by
  refine ⟨?_, ?_, ?_, ?_⟩ <;>
    simp [Ints.stateWord, BitVec.extractLsb'_or, extractLsb'_fieldAt_self, extractLsb'_fieldAt_of_disjoint]

theorem Bank.periodWord_eq (b : Bank) : b.periodWord = b.quota ++ b.jitter ++ b.period := by
  apply BitVec.eq_of_getLsbD_eq
  intro j hj
  rw [Bank.periodWord, BitVec.getLsbD_or, BitVec.getLsbD_or, getLsbD_fieldAt, getLsbD_fieldAt, getLsbD_fieldAt,
    BitVec.getLsbD_append, BitVec.getLsbD_append]
  by_cases hlow : j < 24
  · simp [hj, hlow, Nat.not_le.mpr hlow, show ¬28 ≤ j by omega]
  · by_cases hmid : j < 28
    · simp [hj, hlow, Nat.le_of_not_lt hlow, Nat.not_le.mpr hmid, show j - 24 < 4 by omega]
    · have hjitter : b.jitter.getLsbD (j - 24) = false := BitVec.getLsbD_of_ge _ _ (by omega)
      simp [hj, hlow, Nat.le_of_not_lt hlow, Nat.le_of_not_lt hmid, show ¬j - 24 < 4 by omega,
        show j - 24 - 4 = j - 28 by omega, hjitter]

theorem Bank.latfiltWord_fields (b : Bank) :
    b.latfiltWord.extractLsb' 0 16 = b.thresh ∧ b.latfiltWord.getLsbD 16 = decide (b.sel = .total) ∧
      b.latfiltWord.getLsbD 17 = b.inv ∧ b.latfiltWord.extractLsb' 18 14 = 0 := by
  refine ⟨?_, ?_, ?_, ?_⟩ <;>
    simp [Bank.latfiltWord, BitVec.extractLsb'_or, extractLsb'_fieldAt_self, extractLsb'_fieldAt_of_disjoint,
      extractLsb'_bitAt_of_disjoint, getElem_fieldAt_of_disjoint, getElem_bitAt]

theorem Bank.ctrlWord_fields (b : Bank) :
    b.ctrlWord.getLsbD 0 = b.window ∧ b.ctrlWord.getLsbD 1 = decide (b.notify = .each) ∧
      b.ctrlWord.extractLsb' 2 30 = 0 := by
  refine ⟨?_, ?_, ?_⟩ <;>
    simp [Bank.ctrlWord, BitVec.extractLsb'_or, extractLsb'_bitAt_of_disjoint, getElem_bitAt]

theorem Ring.policyWord_fields (g : Ring) :
    g.policyWord.getLsbD 0 = decide (g.policy = .drop) ∧ g.policyWord.extractLsb' 1 7 = 0 ∧
      g.policyWord.extractLsb' 8 8 = g.backoff ∧ g.policyWord.extractLsb' 16 16 = 0 := by
  refine ⟨?_, ?_, ?_, ?_⟩ <;>
    simp [Ring.policyWord, BitVec.extractLsb'_or, extractLsb'_fieldAt_self, extractLsb'_fieldAt_of_disjoint,
      extractLsb'_bitAt_of_disjoint, getElem_fieldAt_of_disjoint, getElem_bitAt]

theorem RingFaultReg.word_fields (f : RingFaultReg) :
    f.word.extractLsb' 0 3 = (f.cause.map RingCause.code).getD 0 ∧ f.word.getLsbD 3 = f.isWriteback ∧
      f.word.extractLsb' 4 4 = f.remoteCode ∧ f.word.extractLsb' 8 3 = BitVec.ofNat 3 f.tag.val ∧
      f.word.getLsbD 11 = false ∧ f.word.extractLsb' 12 17 = f.position ∧ f.word.extractLsb' 29 3 = 0 := by
  refine ⟨?_, ?_, ?_, ?_, ?_, ?_, ?_⟩ <;>
    simp [RingFaultReg.word, BitVec.extractLsb'_or, extractLsb'_fieldAt_self, extractLsb'_fieldAt_of_disjoint,
      extractLsb'_bitAt_of_disjoint, getElem_fieldAt_of_disjoint, getElem_bitAt]

theorem Ints.mieWord_fields (x : Ints) :
    x.mieWord.getLsbD 0 = x.mie ∧ x.mieWord.extractLsb' 1 7 = 0 ∧ x.mieWord.extractLsb' 8 8 = x.ie ∧
      x.mieWord.extractLsb' 16 16 = 0 := by
  refine ⟨?_, ?_, ?_, ?_⟩ <;>
    simp [Ints.mieWord, BitVec.extractLsb'_or, extractLsb'_fieldAt_self, extractLsb'_fieldAt_of_disjoint,
      extractLsb'_bitAt_of_disjoint, getElem_fieldAt_of_disjoint, getElem_bitAt]

theorem Ints.alertNodeWord_fields (x : Ints) :
    x.alertNodeWord.extractLsb' 0 4 = nodeBits x.alertNode ∧ x.alertNodeWord.getLsbD 4 = x.alertEnable ∧
      x.alertNodeWord.extractLsb' 5 3 = 0 ∧ x.alertNodeWord.extractLsb' 8 8 = x.alertCount ∧
      x.alertNodeWord.extractLsb' 16 16 = 0 := by
  refine ⟨?_, ?_, ?_, ?_, ?_⟩ <;>
    simp [Ints.alertNodeWord, BitVec.extractLsb'_or, extractLsb'_fieldAt_self, extractLsb'_fieldAt_of_disjoint,
      extractLsb'_bitAt_of_disjoint, getElem_fieldAt_of_disjoint, getElem_bitAt]

/-- A node's number, as a register holds it. -/
theorem fieldAt_zero_nodeBits (n : Node) : (fieldAt 0 (nodeBits n) : Word) = BitVec.ofNat 32 n.val := by
  revert n
  decide

/-! ### Settled -/

/-- Settles O24: the answer to an open read, then the words register by register. -/
theorem openReadsReturnTheRegister : Obligations.OpenReadsReturnTheRegister := by
  unfold Obligations.OpenReadsReturnTheRegister
  refine ⟨⟨fun r off g s hl hg hd hr hq ha => exec_openRead hl hg hd hr hq ha, fun s => ?_⟩,
    fun s => ⟨gstatusWord_fields s, chStateWord_fields s s.bank, s.cmd.statusWord_fields, s.ints.stateWord_fields⟩,
    fun s => ⟨?_, ?_, ?_, s.ints.mieWord_fields, s.ints.alertNodeWord_fields, ?_, rfl, fun c => rfl⟩⟩
  · refine ⟨rfl, fieldAt_zero _, fieldAt_zero _, fieldAt_zero _, ?_, fieldAt_zero _, fieldAt_zero _, rfl, rfl,
      identWord_eq _⟩
    show ownerWord s.owner = _
    cases s.owner with
    | none => rfl
    | some n => exact fieldAt_zero_nodeBits n
  · exact ⟨fieldAt_zero _, fieldAt_zero _, fieldAt_zero _, rfl, rfl, (s.chan s.bank).bank.periodWord_eq,
      fieldAt_or_fieldAt 32 _ _ rfl, (s.chan s.bank).bank.latfiltWord_fields, (s.chan s.bank).bank.ctrlWord_fields⟩
  · exact ⟨fieldAt_zero_nodeBits _, rfl, fieldAt_zero _, s.ring.policyWord_fields, fieldAt_zero _, fieldAt_zero _, rfl⟩
  · have hword := s.ring.fault.word_fields
    cases hc : s.ring.fault.cause with
    | none =>
      rw [hc] at hword
      exact hword
    | some c =>
      rw [hc] at hword
      cases c <;> exact hword
  · exact ⟨fieldAt_zero _, rfl, rfl, rfl, fieldAt_zero _⟩

end Sys2Proof.Machine
end

