-- ==== Sys2Proof/Proofs/Ports.lean ====
section
/-! PROOF. The ports of the window: MARKER, the result queue's read port, CONSUMER, RESULT_PORT and CMD_CANCEL. -/

namespace Sys2Proof.Machine

/-! ### MARKER (R111–R113) -/

/-- A marker write meets only the check that the observer is OBSERVING (R111). -/
theorem execMarker_cases (w : Writer) (v : Word) (s : State) (hl : s.live = true) :
    execMarker w v s =
      if s.tb.obs = .paused then afterEvent (s.refusedWrite w 7)
      else afterEvent (writeMarker (writerBeat w .marker v s.ownId) (s.arrived w.initiator)) := by
  rw [execMarker, writeEvent_cases w .marker v s hl (by simp [Reg.hasRow])]
  have hcheck : checkReg (s.arrived w.initiator) (writerBeat w .marker v s.ownId) .marker =
      if s.tb.obs = .paused then some .markerClosed else none := by
    simp [checkReg, wrongDirection, Reg.direction, ownerRefused, phaseRefused, lockRefused, Reg.isBank,
      Reg.isRingConfig, valueOk, markerClosed_iff, State.arrived]
  rw [hcheck]
  by_cases hobs : s.tb.obs = .paused
  · rw [if_pos hobs, if_pos hobs]
    rfl
  · rw [if_neg hobs, if_neg hobs]
    rfl

theorem State.markerBlocked_iff (s : State) :
    s.markerBlocked = true ↔ s.closeQueue ≠ [] ∨ 8 ≤ s.path.staging.length := by
  rw [State.markerBlocked, Bool.or_eq_true, Bool.not_eq_true', List.isEmpty_eq_false_iff, decide_eq_true_iff]
  rfl

theorem composeMarker_eq (n : Node) (v time : Word) (seq : BitVec 16) :
    composeMarker n v time seq = sealWords (2 + 4096 * BitVec.ofNat 32 n.val) (seq.setWidth 32) v time 0 0 0 := by
  rw [composeMarker, ← fieldAt_nodeBits, fieldAt_zero]

/-- Settles O28: closed while PAUSED; else by whether there is room. -/
theorem markerIsStagedBouncedOrClosed : Obligations.MarkerIsStagedBouncedOrClosed := by
  unfold Obligations.MarkerIsStagedBouncedOrClosed
  refine fun w v s hl => ⟨fun hobs hqueue hroom => ?_, fun hobs hblocked => ?_, fun hobs => ?_⟩
  · refine (execMarker_cases w v s hl).trans ((if_neg (by simp [hobs])).trans (congrArg afterEvent ?_))
    have hfree : ¬(s.arrived w.initiator).markerBlocked = true := by
      rw [State.markerBlocked_iff]
      show ¬(s.closeQueue ≠ [] ∨ 8 ≤ s.path.staging.length)
      simp [hqueue, hroom]
    rw [writeMarker, if_neg hfree, writtenWord_writerBeat, answer_write, acceptMarker, composeMarker_eq]
    rfl
  · refine (execMarker_cases w v s hl).trans ((if_neg (by simp [hobs])).trans (congrArg afterEvent ?_))
    have hfull : (s.arrived w.initiator).markerBlocked = true :=
      (State.markerBlocked_iff _).mpr hblocked
    rw [writeMarker, if_pos hfull]
    unfold refuseMarker answer writerBeat
    cases w.posted <;> rfl
  · exact (execMarker_cases w v s hl).trans (if_pos hobs)

/-! ### Ports that the owner reads -/

/-- A read of RESULT_PORT or QUEUE_DATA: refused to all but the owner, and by the phase; else answered, with its effect
(R24, R154). -/
theorem readEvent_port {g : Reg} (hg : g = .resultPort ∨ g = .queueData) (r : Reader) (s : State) (hl : s.live = true) :
    readEvent r g s =
      if s.owner ≠ some r.initiator then afterEvent (s.refusedRead r 2)
      else if g = .resultPort ∧ s.cmd.phase ≠ .result then afterEvent (s.refusedRead r 4)
      else afterEvent (readEffect g (s.readAs r (readReg (s.arrived r.initiator) g))) := by
  have hrow : g.hasRow := by
    rcases hg with rfl | rfl <;> simp [Reg.hasRow]
  have hcheck : checkReg (s.arrived r.initiator) (readerBeat r g s.ownId) g =
      if s.owner ≠ some r.initiator then some .notOwner
      else if g = .resultPort ∧ s.cmd.phase ≠ .result then some .phase else none := by
    have hread : readsOnly (readerBeat r g s.ownId) = true := rfl
    have hi : (readerBeat r g s.ownId).initiator = r.initiator := rfl
    rcases hg with rfl | rfl <;>
      simp only [checkReg, wrongDirection, Reg.direction, ownerRefused, phaseRefused_iff, lockRefused, markerClosed,
        hread, hi, State.arrived] <;>
      simp
  rw [readEvent_cases r g s hl hrow, hcheck]
  split_ifs <;> rfl

/-- A write that only the owner may make, by another node (R24). -/
theorem writeEvent_of_not_owner {g : Reg} (hg : g.hasRow) (hd : g.direction ≠ .readOnly) (hm : g ≠ .marker)
    (hc : g ≠ .claim) (w : Writer) (v : Word) (s : State) (hl : s.live = true) (ho : s.owner ≠ some w.initiator) :
    writeEvent w g v s = afterEvent (s.refusedWrite w 2) := by
  have hread : (writerBeat w g v s.ownId).kind ≠ .read := by
    unfold writerBeat
    cases w.posted <;> simp
  have hdir : ¬wrongDirection (writerBeat w g v s.ownId) g = true := by
    rw [wrongDirection_iff, if_neg hread]
    exact hd
  have hown : ownerRefused (s.arrived w.initiator) (writerBeat w g v s.ownId) g = true := by
    rw [ownerRefused_iff hdir, if_neg hread]
    exact ⟨ho, hm, fun h => absurd h hc⟩
  rw [writeEvent_cases w g v s hl hg, checkReg, if_neg hdir, if_pos hown]
  rfl

/-- The owner's write row of a register that may be read and written. -/
theorem writeEvent_owner {g : Reg} (hrow : g.hasRow) (hd : g.direction = .readWrite) (w : Writer) (v : Word) (s : State)
    (hs : s.ownedBy w.initiator) (hlock : ¬s.locks g) :
    writeEvent w g v s =
      if valueOk s g v then afterEvent (writeReg w.initiator g v (s.written w))
      else afterEvent (s.refusedWrite w 9) := by
  rw [← exec_registerWrite_writerAccess]
  exact exec_ownerWrite (ofOffset_offset g hrow) hd hs hlock

/-! ### The result queue -/

theorem Record.word_eq_getD (x : Record) (i : Fin 8) :
    x.word i = [x.w0, x.w1, x.w2, x.w3, x.w4, x.w5, x.w6, x.w7].getD i.val 0 := by
  fin_cases i <;> rfl

theorem execQueuePtr_cases (w : Writer) (v : Word) (s : State) (hl : s.live = true) :
    execQueuePtr w v s =
      if s.owner = some w.initiator then afterEvent { s.written w with path := { s.path with ptr := 0 } }
      else afterEvent (s.refusedWrite w 2) := by
  by_cases ho : s.owner = some w.initiator
  · rw [if_pos ho, execQueuePtr,
      writeEvent_owner (by simp [Reg.hasRow]) rfl w v s ⟨hl, ho⟩ (State.not_locks (by simp) rfl rfl), if_pos (by rfl)]
    rfl
  · rw [if_neg ho, execQueuePtr, writeEvent_of_not_owner (by simp [Reg.hasRow]) (by simp [Reg.direction]) (by simp)
      (by simp) w v s hl ho]

/-- Settles O29: the read by the queue's head and QUEUE_PTR, and the write of QUEUE_PTR. -/
theorem queueReadsWordByWord : Obligations.QueueReadsWordByWord := by
  unfold Obligations.QueueReadsWordByWord
  intro r w v s hl
  have hport := readEvent_port (g := .queueData) (.inr rfl) r s hl
  refine ⟨fun ho => ⟨fun hempty => ?_, fun x rest hx => ⟨fun hptr => ?_, fun hptr => ?_⟩⟩, fun ho => ?_, fun ho => ?_,
    fun ho => ?_⟩
  · refine hport.trans ((if_neg (by simp [ho])).trans ((if_neg nofun).trans (congrArg afterEvent ?_)))
    have hvalue : readReg (s.arrived r.initiator) .queueData = 0 := by
      show s.path.dataWord = 0
      rw [Path.dataWord, hempty]
    rw [hvalue]
    show readQueue (s.readAs r 0) = _
    rw [readQueue, show (s.readAs r 0).path.results = [] from hempty]
  · refine hport.trans ((if_neg (by simp [ho])).trans ((if_neg nofun).trans (congrArg afterEvent ?_)))
    have hvalue : readReg (s.arrived r.initiator) .queueData =
        [x.w0, x.w1, x.w2, x.w3, x.w4, x.w5, x.w6, x.w7].getD s.path.ptr.val 0 := by
      show s.path.dataWord = _
      rw [Path.dataWord, hx]
      exact x.word_eq_getD s.path.ptr
    rw [hvalue]
    show readQueue (s.readAs r _) = _
    rw [readQueue, show (s.readAs r _).path.results = x :: rest from hx]
    exact if_neg hptr
  · refine hport.trans ((if_neg (by simp [ho])).trans ((if_neg nofun).trans (congrArg afterEvent ?_)))
    have hvalue : readReg (s.arrived r.initiator) .queueData = x.w7 := by
      show s.path.dataWord = _
      rw [Path.dataWord, hx]
      show x.word s.path.ptr = x.w7
      rw [hptr]
      rfl
    rw [hvalue]
    show readQueue (s.readAs r _) = _
    rw [readQueue, show (s.readAs r _).path.results = x :: rest from hx]
    exact if_pos hptr
  · exact hport.trans (if_pos ho)
  · exact (execQueuePtr_cases w v s hl).trans (if_pos ho)
  · exact (execQueuePtr_cases w v s hl).trans (if_neg ho)

/-! ### CONSUMER (R126, R127) -/

/-- The admitted values of CONSUMER, over the integers. -/
theorem Ring.consumerOk_iff (g : Ring) (x : BitVec 17) :
    g.consumerOk x = true ↔
      (x.toNat : Int) < 2 * g.size.toNat ∧
        ((x.toNat : Int) - g.consumer.toNat) % (2 * g.size.toNat) ≤
          ((g.producer.toNat : Int) - g.consumer.toNat) % (2 * g.size.toNat) := by
  simp only [Ring.consumerOk, Bool.and_eq_true, decide_eq_true_iff]
  unfold Ring.n
  by_cases hn : g.size.toNat = 0
  · simp [hn]
  · have hpos : 0 < 2 * g.size.toNat := by omega
    have hby : ((g.consumeBy x : Nat) : Int) = ((x.toNat : Int) - g.consumer.toNat) % ((2 * g.size.toNat : Nat) : Int) :=
      subMod_eq_emod _ _ _ hpos
    have hfill : ((g.fill : Nat) : Int) =
        ((g.producer.toNat : Int) - g.consumer.toNat) % ((2 * g.size.toNat : Nat) : Int) :=
      subMod_eq_emod _ _ _ hpos
    push_cast at hby hfill
    rw [← hby, ← hfill]
    norm_cast

/-- The advance of an admitted value is 0 over the integers exactly when it is 0. -/
theorem Ring.consumeBy_eq_zero_iff (g : Ring) (x : BitVec 17) (h : 0 < g.size.toNat) :
    g.consumeBy x = 0 ↔ ((x.toNat : Int) - g.consumer.toNat) % (2 * g.size.toNat) = 0 := by
  have hby : ((g.consumeBy x : Nat) : Int) = ((x.toNat : Int) - g.consumer.toNat) % ((2 * g.size.toNat : Nat) : Int) :=
    subMod_eq_emod _ _ _ (by simp only [Ring.n]; omega)
  push_cast at hby
  rw [← hby]
  omega

/-- Settles O30: an admitted value is written, with the advance on a RUNNING ring whose fill it lowers. -/
theorem consumerNeverPassesTheProducer : Obligations.ConsumerNeverPassesTheProducer := by
  unfold Obligations.ConsumerNeverPassesTheProducer
  intro w v s hl
  refine ⟨fun ho => ?_, fun ho => writeEvent_of_not_owner (by simp [Reg.hasRow]) (by simp [Reg.direction]) (by simp)
    (by simp) w v s hl ho⟩
  have hwrite : exec (.consumer w v) s =
      if s.ring.consumerOk (v.extractLsb' 0 17) then afterEvent (writeReg w.initiator .consumer v (s.written w))
      else afterEvent (s.refusedWrite w 9) := by
    show writeEvent w .consumer v s = _
    rw [writeEvent_owner (by simp [Reg.hasRow]) rfl w v s ⟨hl, ho⟩ (State.not_locks (by simp) rfl rfl), valueOk]
  rw [hwrite]
  have hok := s.ring.consumerOk_iff (v.extractLsb' 0 17)
  refine ⟨fun hlt hle => ?_, fun hbad => if_neg (mt hok.mp hbad)⟩
  have hsize : 0 < s.ring.size.toNat := by omega
  refine (if_pos (hok.mpr ⟨hlt, hle⟩)).trans (congrArg afterEvent ?_)
  show (if s.ring.state = .running ∧ s.ring.consumeBy (v.extractLsb' 0 17) ≠ 0 then _ else _) = _
  simp only [ne_eq, s.ring.consumeBy_eq_zero_iff _ hsize]
  rfl

/-! ### RESULT_PORT and CMD_CANCEL (R154, R155) -/

theorem Processor.takeWord_cons {p : Processor} {x : Word} {rest : List Word} (h : p.results = x :: rest) :
    p.takeWord =
      if rest = [] then { p with results := [], phase := .idle, code := 0 } else { p with results := rest } := by
  cases rest with
  | nil => simp [Processor.takeWord, h]
  | cons y ys => simp [Processor.takeWord, h]

theorem cancelCommand_cases (s : State) :
    cancelCommand s =
      match s.cmd.phase with
      | .idle => s
      | .params => { s with cmd := { s.cmd with phase := .idle, code := 0 } }
      | .executing => endWith .cancelled 0 [] s
      | .result =>
        { s with
          cmd :=
            { s.cmd with
              phase := .idle, code := 0, results := []
              discarded := s.cmd.discarded || decide (s.cmd.results ≠ []) } } := by
  unfold cancelCommand
  cases hp : s.cmd.phase with
  | idle => rfl
  | params => rfl
  | executing => rfl
  | result => cases hr : s.cmd.results <;> simp [State.setCmd]

theorem execCmdCancel_cases (w : Writer) (v : Word) (s : State) (hl : s.live = true) :
    execCmdCancel w v s =
      if s.owner = some w.initiator then afterEvent (cancelCommand (s.written w))
      else afterEvent (s.refusedWrite w 2) := by
  rw [execCmdCancel, writeEvent_of_ownerDecides (by simp [Reg.ownerDecides]) w v s hl]
  have hown : ownerRefused (s.arrived w.initiator) (writerBeat w .cmdCancel v s.ownId) .cmdCancel = true ↔
      s.owner ≠ some w.initiator := by
    simp only [ownerRefused, readsOnly_writerBeat, Bool.not_false, Bool.true_and, decide_eq_true_iff]
    rfl
  by_cases ho : s.owner = some w.initiator
  · rw [if_pos ho, if_neg (by rw [hown]; simp [ho])]
    rfl
  · rw [if_neg ho, if_pos (hown.mpr ho)]

/-- Settles O34: the port by owner and phase, and the cancellation by phase. -/
theorem resultPortAndCancelActByPhase : Obligations.ResultPortAndCancelActByPhase := by
  unfold Obligations.ResultPortAndCancelActByPhase
  refine ⟨fun r s hl => ?_, fun w r v s hl => ⟨fun ho => ?_, fun ho => ?_, ?_⟩⟩
  · have hport := readEvent_port (g := .resultPort) (.inl rfl) r s hl
    refine ⟨fun ho hp x rest hx => ?_, fun ho hp => ?_, fun ho => hport.trans (if_pos ho)⟩
    · refine hport.trans ((if_neg (by simp [ho])).trans ((if_neg (by simp [hp])).trans (congrArg afterEvent ?_)))
      have hvalue : readReg (s.arrived r.initiator) .resultPort = x := by
        show s.cmd.results.headD 0 = x
        rw [hx]
        rfl
      rw [hvalue, ← Processor.takeWord_cons hx]
      rfl
    · exact hport.trans ((if_neg (by simp [ho])).trans (if_pos ⟨rfl, hp⟩))
  · refine (execCmdCancel_cases w v s hl).trans ((if_pos ho).trans (congrArg afterEvent ?_))
    exact cancelCommand_cases (s.written w)
  · exact (execCmdCancel_cases w v s hl).trans (if_neg ho)
  · exact (exec_registerWrite_readerAccess r .cmdCancel s).trans
      (readEvent_of_writeOnly (by simp [Reg.hasRow]) rfl r s hl)

end Sys2Proof.Machine
end

