-- ==== Sys2Proof/Proofs/PortCommands.lean ====
section
/-! PROOF. The words of the command port, and the commands whose work is a single update: opening words, refused parameters, START,
SET_TIME, ARM, RELEASE, the two commands that only report, and the ring's commands. -/

namespace Sys2Proof.Machine

/-! ### Command rows are writes to CMD_PORT (R151, R152) -/

theorem exec_portWord {i : Instr} {w : Writer} {v : Word} (h : i.portWord = some (w, v)) (s : State) :
    exec i s = writeEvent w .cmdPort v s := by
  cases i <;> cases h <;> rfl

theorem Command.ofCode_eq_none {code : BitVec 8} (h : ∀ d : Command, d.code ≠ code) : Command.ofCode code = none := by
  cases hc : Command.ofCode code with
  | none => rfl
  | some d =>
    have hd := List.find?_some hc
    exact absurd (by simpa using hd) (h d)

/-- Settles O32: the two opening words in IDLE, then the refusals by ownership and by phase. -/
theorem commandPortTakesWordsByPhase : Obligations.CommandPortTakesWordsByPhase := by
  unfold Obligations.CommandPortTakesWordsByPhase
  refine ⟨fun w c high v s h => ⟨fun hparam => ?_, fun hcode => ?_⟩, fun i w v s hi hl => ⟨fun ho => ?_, fun ho hp => ?_⟩⟩
  · refine (cmdPort_opening w _ s h).trans (congrArg afterEvent ?_)
    simp only [openCommand, openingWord_code, Command.ofCode_code, hparam, if_true, Processor.opened]
    rfl
  · refine (cmdPort_opening w v s h).trans (congrArg afterEvent ?_)
    rw [openCommand, Command.ofCode_eq_none hcode]
    rfl
  · rw [exec_portWord hi, cmdPort_cases w v s hl, if_pos ho]
  · rw [exec_portWord hi, cmdPort_cases w v s hl, if_neg (by simp [ho]), if_pos hp]

/-! ### Parameters (R152, R158) -/

theorem chanParam_of_le {p : Word} (h : 4 ≤ p.toNat) : chanParam p = none := dif_neg (Nat.not_lt.mpr h)

theorem chanParam_eq {p : Word} {c : ChanId} (h : p.toNat = c.val) : chanParam p = some c := by
  have hlt : p.toNat < 4 := h ▸ c.isLt
  rw [chanParam, dif_pos hlt]
  exact congrArg some (Fin.ext h)

theorem slotParam_eq {p : Word} {i : SlotId} (h : p.toNat = i.val) : slotParam p = some i := by
  have hlt : p.toNat < 8 := h ▸ i.isLt
  rw [slotParam, dif_pos hlt]
  exact congrArg some (Fin.ext h)

theorem purgeScope_of_le {p : Word} (h : 4 ≤ p.toNat) (h15 : p.toNat ≠ 15) : purgeScope p = none := by
  have hne : p ≠ 0xF := by
    rintro rfl
    exact h15 rfl
  rw [purgeScope, if_neg hne, chanParam_of_le h]
  rfl

theorem flagParam_of_le {p : Word} (h : 2 ≤ p.toNat) : flagParam p = none := by
  have h0 : p ≠ 0 := by
    rintro rfl
    exact absurd h (by decide)
  have h1 : p ≠ 1 := by
    rintro rfl
    exact absurd h (by decide)
  rw [flagParam, if_neg h0, if_neg h1]

theorem flagParam_bool (b : Bool) : flagParam (if b then 1 else 0) = some b := by
  cases b <;> rfl

/-- A mask with a bit above 3 is no RESET mask, whatever other bits a row names (R165). -/
theorem maskOk_withBit {p : Word} {k : Nat} (h : 16 ≤ p.toNat) : maskOk (withBit p k) = false := by
  have hle : p.toNat ≤ (withBit p k).toNat := by
    rw [withBit, BitVec.toNat_or]
    exact Nat.left_le_or
  simp only [maskOk, Bool.and_eq_false_iff, decide_eq_false_iff_not]
  omega

/-- Settles O33: each parameter reader answers none, and RESET's mask is refused. -/
theorem badParametersEndTheCommand : Obligations.BadParametersEndTheCommand := by
  unfold Obligations.BadParametersEndTheCommand
  intro w v s
  refine ⟨fun h hv => ?_, fun h hv => ?_, fun h hv => ?_, fun h hv h15 => ?_, fun h hv => ?_, fun h hv => ?_,
    fun h hv => ?_, fun h hv => ?_, fun h hv => ?_⟩
  · refine (cmdPort_param w v .arm s h).trans (congrArg afterEvent ?_)
    rw [runCommand, cmdArm, chanParam_of_le hv]
    rfl
  · refine (cmdPort_param w v .disarm s h).trans (congrArg afterEvent ?_)
    rw [runCommand, cmdDisarm, chanParam_of_le hv]
    rfl
  · refine (cmdPort_param w v .release s h).trans (congrArg afterEvent ?_)
    rw [runCommand, cmdRelease, chanParam_of_le hv]
    rfl
  · refine (cmdPort_param w v .purge s h).trans (congrArg afterEvent ?_)
    rw [runCommand, cmdPurge, purgeScope_of_le hv h15]
    rfl
  · refine (cmdPort_param w v .snapshot s h).trans (congrArg afterEvent ?_)
    rw [runCommand, cmdSnapshot, chanParam_of_le hv]
    rfl
  · refine (cmdPort_param w v .readWatch s h).trans (congrArg afterEvent ?_)
    rw [runCommand, cmdReadWatch, slotParam, dif_neg (Nat.not_lt.mpr hv)]
    rfl
  · refine (cmdPort_param w v .ringStart s h).trans (congrArg afterEvent ?_)
    rw [runCommand, cmdRingStart, flagParam_of_le hv]
    rfl
  · refine (cmdPort_param w v .selectOutput s h).trans (congrArg afterEvent ?_)
    rw [runCommand, cmdSelectOutput, flagParam_of_le hv]
    rfl
  · have hreset (k : Nat) :
        writeEvent w .cmdPort (withBit v k) s = afterEvent (endWith .badParam 0 [] (s.executing w)) := by
      refine (cmdPort_param w _ .reset s h).trans (congrArg afterEvent ?_)
      rw [runCommand, cmdReset, maskOk_withBit hv]
      rfl
    exact ⟨hreset 0, hreset 1, hreset 2, hreset 3⟩

/-! ### ARM (R62) -/

theorem windowCrossed_iff (b : Bank) : windowCrossed b = true ↔ b.window = true ∧ b.whi.toNat < b.wlo.toNat := by
  simp [windowCrossed]

theorem lfsrStep_eq (l : BitVec 16) :
    lfsrStep l = BitVec.ofBool (l.getLsbD 0 ^^ l.getLsbD 2 ^^ l.getLsbD 3 ^^ l.getLsbD 5) ++ l.extractLsb' 1 15 := by
  apply BitVec.eq_of_getLsbD_eq
  intro j hj
  rw [lfsrStep, BitVec.getLsbD_or, getLsbD_bitAt, BitVec.getLsbD_append]
  by_cases h15 : j < 15
  · have hne : 15 ≠ j := by omega
    simp [h15, hj, hne]
  · have heq : j = 15 := by omega
    subst heq
    simp [has]

theorem reloadValue_eq (b : Bank) (l : BitVec 16) :
    reloadValue b l =
      if b.jitter = 0 then b.period else BitVec.ofNat 24 (max 1 (b.period.toNat - l.toNat % 2 ^ b.jitter.toNat)) :=
  reloadValue_eq_reloadFrom b l

theorem State.setChan_setChan (s : State) (c : ChanId) (x y : Channel) : (s.setChan c x).setChan c y = s.setChan c y := by
  simp [State.setChan]

/-- ARM's effect (R62): the reload, and LFSR's step if it was jittered. -/
theorem armChannel_eq (c : ChanId) (s : State) :
    armChannel c s =
      (s.setChan c
          { s.chan c with run := .counting, loss := false, count := reloadValue (s.chan c).bank s.tb.lfsr }).setTb
        { s.tb with lfsr := if (s.chan c).bank.jitter = 0 then s.tb.lfsr else lfsrStep s.tb.lfsr } := by
  have hchan : (reload c s).chan c = { s.chan c with count := reloadValue (s.chan c).bank s.tb.lfsr } := by
    rw [reload_chan, if_pos rfl]
  rw [armChannel, hchan, reload]
  by_cases hj : (s.chan c).bank.jitter = 0
  · rw [if_pos hj, if_pos hj, State.setChan_setChan]
    rfl
  · rw [if_neg hj, if_neg hj]
    exact congrArg (fun t : State => t.setTb { s.tb with lfsr := lfsrStep s.tb.lfsr }) (State.setChan_setChan s c _ _)

/-- Settles O36: the two refusals, and the reload of an admitted ARM. -/
theorem armLoadsTheCountdown : Obligations.ArmLoadsTheCountdown := by
  unfold Obligations.ArmLoadsTheCountdown
  intro w v c s h hv
  have hrun : exec (.arm w v) s = afterEvent (cmdArm v (s.executing w)) := cmdPort_param w v .arm s h
  refine ⟨fun hr => ?_, fun hr hx => ?_, fun hr hx => ?_⟩
  · rw [hrun, cmdArm, chanParam_eq hv]
    exact congrArg afterEvent (if_pos hr)
  · rw [hrun, cmdArm, chanParam_eq hv]
    exact congrArg afterEvent ((if_neg (not_not_intro hr)).trans (if_pos ((windowCrossed_iff _).mpr hx)))
  · rw [hrun, cmdArm, chanParam_eq hv]
    refine congrArg afterEvent ((if_neg (not_not_intro hr)).trans ((if_neg (mt (windowCrossed_iff _).mp hx)).trans ?_))
    refine congrArg (endWith .ok 0 []) ?_
    rw [← reloadValue_eq, ← lfsrStep_eq]
    exact armChannel_eq c (s.executing w)

/-! ### SNAPSHOT and READ_WATCH (R159, R160) -/

theorem snapshotDetail_eq (s : State) (c : ChanId) :
    snapshotDetail s c = BitVec.ofNat 16 ((if (s.chan c).run = .armed then 1 else 0) + 16 * s.watching c) := by
  have hword : ∀ (b : Bool) (n : Fin 16), (bitAt 0 b ||| fieldAt 4 (BitVec.ofNat 4 n.val) : BitVec 16) =
      BitVec.ofNat 16 ((if b then 1 else 0) + 16 * n.val) := by decide
  have hlt : s.watching c < 16 := Nat.lt_of_le_of_lt List.countP_le_length (by decide)
  have h := hword (decide ((s.chan c).run = .armed)) ⟨s.watching c, hlt⟩
  rw [snapshotDetail]
  simpa only [decide_eq_true_eq] using h

theorem watchWords_of_reserved {x : Slot} (h : x.state = .reserved) :
    watchWords x = [1 + 16 * BitVec.ofNat 32 x.channel.val, 0, 0, 0, 0, 0] := by
  have hword : ∀ c : ChanId, (fieldAt 0 SlotState.reserved.code ||| fieldAt 4 (BitVec.ofNat 2 c.val) : Word) =
      1 + 16 * BitVec.ofNat 32 c.val := by decide
  simp only [watchWords, h, hword]

/-- Settles O39: the statistics with the detail field, the slot's words, and their fields. -/
theorem snapshotAndReadWatchOnlyReport : Obligations.SnapshotAndReadWatchOnlyReport := by
  unfold Obligations.SnapshotAndReadWatchOnlyReport
  refine ⟨fun w v c s h hv => ?_, fun w v i s h hv => ?_, fun x hx => by simp only [watchWords, hx],
    fun x hx => watchWords_of_reserved hx, fun x hf hr => ?_⟩
  · refine (cmdPort_param w v .snapshot s h).trans (congrArg afterEvent ?_)
    rw [runCommand, cmdSnapshot, chanParam_eq hv]
    refine (congrArg (fun d => endWith .ok d _ _) (snapshotDetail_eq (s.executing w) c)).trans ?_
    rfl
  · refine (cmdPort_param w v .readWatch s h).trans (congrArg afterEvent ?_)
    rw [runCommand, cmdReadWatch, slotParam_eq hv]
    rfl
  · have hwords : watchWords x =
        [ fieldAt 0 x.state.code ||| fieldAt 4 (BitVec.ofNat 2 x.channel.val) |||
            fieldAt 8 ((x.outcome.map Ending.code).getD 0) ||| bitAt 11 x.outcome.isSome |||
            fieldAt 12 (x.faultCode.getD 0),
          fieldAt 0 (nodeBits x.initiator) ||| fieldAt 4 ((x.target.map nodeBits).getD 0) |||
            fieldAt 8 (nodeBits x.tag) ||| fieldAt 12 (kindCode x.kind) ||| fieldAt 16 (lengthCode x.length) |||
            bitAt 24 x.reissued ||| bitAt 25 x.anomaly,
          x.address, x.issueTime,
          fieldAt 0 x.age ||| fieldAt 16 x.bounces ||| bitAt 20 x.wait.isSome ||| bitAt 21 x.total.isSome,
          x.total.getD 0 ++ x.wait.getD 0 ] := by
      have hlatency : (fieldAt 0 (x.wait.getD 0) ||| fieldAt 16 (x.total.getD 0) : Word) =
          x.total.getD 0 ++ x.wait.getD 0 := fieldAt_or_fieldAt 32 _ _ rfl
      rw [← hlatency]
      unfold watchWords
      cases hs : x.state with
      | free => exact absurd hs hf
      | reserved => exact absurd hs hr
      | opened => rfl
      | bounced => rfl
      | closing => rfl
    refine ⟨_, _, _, hwords, ?_, ?_, ?_⟩
    · refine ⟨?_, ?_, ?_, ?_, ?_, ?_, ?_, ?_⟩ <;>
        simp [BitVec.extractLsb'_or, extractLsb'_fieldAt_self, extractLsb'_fieldAt_of_disjoint,
          extractLsb'_bitAt_of_disjoint, getElem_fieldAt_of_disjoint, getElem_bitAt]
    · refine ⟨?_, ?_, ?_, ?_, ?_, ?_, ?_, ?_, ?_, ?_⟩ <;>
        simp [BitVec.extractLsb'_or, extractLsb'_fieldAt_self, extractLsb'_fieldAt_of_disjoint, lengthCode,
          extractLsb'_bitAt_of_disjoint, getElem_fieldAt_of_disjoint, getElem_bitAt]
    · refine ⟨?_, ?_, ?_, ?_, ?_⟩ <;>
        simp [BitVec.extractLsb'_or, extractLsb'_fieldAt_self, extractLsb'_fieldAt_of_disjoint,
          extractLsb'_bitAt_of_disjoint, getElem_fieldAt_of_disjoint, getElem_bitAt]

/-! ### The ring's commands (R116, R143–R145, R161–R163) -/

theorem State.startAllowed_iff (s : State) :
    s.startAllowed = true ↔ s.path.mode = .ring ∧ (s.ring.state = .idle ∨ s.ring.state = .faulted) ∧
      ∀ u : WTag, (s.tag u).state ≠ .orphaned := by
  have horphan : s.ring.hasOrphan = false ↔ ∀ u : WTag, (s.tag u).state ≠ .orphaned := by
    rw [← Bool.not_eq_true, Ring.hasOrphan_iff]
    exact not_exists
  simp only [State.startAllowed, Bool.and_eq_true, Bool.or_eq_true, decide_eq_true_eq, Bool.not_eq_true', horphan, and_assoc]

theorem State.ringConsistent_iff (s : State) (resume : Bool) :
    s.ringConsistent resume = true ↔
      s.ring.node ≠ s.ownId ∧ has s.present s.ring.node = true ∧ s.ring.threshold.toNat ≤ s.ring.size.toNat ∧
        s.ring.base.toNat + 32 * s.ring.size.toNat - 1 ≤ 0xFFFFFFFF ∧
        (s.ring.wbAddr = 0 ∨ s.ring.wbAddr.toNat < s.ring.base.toNat ∨
          s.ring.base.toNat + 32 * s.ring.size.toNat - 1 < s.ring.wbAddr.toNat) ∧
        (resume = true → s.ring.producer.toNat < 2 * s.ring.size.toNat ∧ s.ring.consumer.toNat < 2 * s.ring.size.toNat ∧
          ((s.ring.producer.toNat : Int) - s.ring.consumer.toNat) % (2 * s.ring.size.toNat : Int) ≤ s.ring.size.toNat) := by
  have hfill : s.ring.producer.toNat < 2 * s.ring.size.toNat → (s.ring.fill ≤ s.ring.n ↔
      ((s.ring.producer.toNat : Int) - s.ring.consumer.toNat) % (2 * s.ring.size.toNat : Int) ≤ s.ring.size.toNat) := by
    intro hp
    have hpos : 0 < s.ring.n := by
      unfold Ring.n
      omega
    have h := Ring.fill_eq s.ring hpos
    unfold Ring.fillInt at h
    rw [← h]
    exact Int.ofNat_le.symm
  simp only [State.ringConsistent, Ring.writebackOk, Ring.indexesFit, Bool.and_eq_true, Bool.or_eq_true, decide_eq_true_iff,
    Bool.not_eq_true', and_assoc, or_assoc]
  unfold Ring.lastByte
  unfold Ring.n at hfill ⊢
  cases resume
  · simp
  · simp only [reduceCtorEq, false_or, true_implies]
    tauto

theorem startRing_eq (resume : Bool) (s : State) :
    startRing resume s = advance (writebackIfDue
      { s with
        ring :=
          { s.ring with
            producer := if resume then s.ring.producer else 0
            consumer := if resume then s.ring.consumer else 0
            fault := RingFaultReg.cleared
            state := .running } }) := by
  cases resume <;> rfl

/-- Settles O40: the two conditions in their order, then the start. -/
theorem ringStartChecksAndRuns : Obligations.RingStartChecksAndRuns := by
  unfold Obligations.RingStartChecksAndRuns
  intro w v resume s h hv
  have hrun : exec (.ringStart w v) s = afterEvent (cmdRingStart v (s.executing w)) := cmdPort_param w v .ringStart s h
  have hallowed := (s.executing w).startAllowed_iff
  have hcons := (s.executing w).ringConsistent_iff resume
  rw [hrun, cmdRingStart, hv, flagParam_bool]
  refine ⟨fun ha => ?_, fun ha hc => ?_, fun ha hc => ?_⟩
  · have hno : (s.executing w).startAllowed = false := by
      rw [← Bool.not_eq_true]
      exact mt hallowed.mp ha
    simp only [hno]
    rfl
  · have hno : (s.executing w).ringConsistent resume = false := by
      rw [← Bool.not_eq_true]
      exact mt hcons.mp hc
    simp only [hallowed.mpr ha, hno]
    rfl
  · simp only [hallowed.mpr ha, hcons.mpr hc, startRing_eq]
    rfl

/-- RING_STOP of a RUNNING ring, by whether a tag is busy (R145, R162). -/
theorem stopRing_eq (s : State) (h : s.cmd.isExecuting .ringStop = true) :
    stopRing s =
      if ∀ u : WTag, (s.tag u).state = .free then
        endWith .ok 0 [s.ring.producer.setWidth 32] { s with ring := { s.ring with state := .idle } }
      else { s with ring := { s.ring with state := .stopping } } := by
  have hfree : ({ s.ring with state := .stopping } : Ring).tagsFree = true ↔ ∀ u : WTag, (s.tag u).state = .free :=
    Ring.tagsFree_iff _
  have hexec : (s.setRing { s.ring with state := .stopping }).cmd.isExecuting .ringStop = true := h
  unfold stopRing stopTest
  by_cases hall : ∀ u : WTag, (s.tag u).state = .free
  · rw [if_pos hall]
    have htest : (decide ((s.setRing { s.ring with state := .stopping }).ring.state = .stopping) &&
        (s.setRing { s.ring with state := .stopping }).ring.tagsFree) = true := by
      rw [Bool.and_eq_true, decide_eq_true_iff]
      exact ⟨rfl, hfree.mpr hall⟩
    rw [if_pos htest]
    exact if_pos hexec
  · rw [if_neg hall]
    have htest : ¬(decide ((s.setRing { s.ring with state := .stopping }).ring.state = .stopping) &&
        (s.setRing { s.ring with state := .stopping }).ring.tagsFree) = true := by
      rw [Bool.and_eq_true, decide_eq_true_iff]
      exact fun hb => hall (hfree.mp hb.2)
    rw [if_neg htest]
    rfl

/-- Settles O41: RING_STOP by the tags, SELECT_OUTPUT by what is still on the path, DRAIN by its condition. -/
theorem stopSelectAndDrainStart : Obligations.StopSelectAndDrainStart := by
  unfold Obligations.StopSelectAndDrainStart
  refine ⟨fun w high v s => ⟨fun h => ?_, fun h hv => ?_⟩, fun w v s h => ?_⟩
  · refine (cmdPort_immediate w .ringStop high s h rfl).trans (congrArg afterEvent ?_)
    rw [runCommand, cmdRingStop]
    by_cases hr : s.ring.state = .running
    · rw [if_neg (not_not_intro hr)]
      exact (if_pos hr).trans (stopRing_eq (s.opening w .ringStop) (by simp [Processor.isExecuting, State.opening]))
    · rw [if_pos hr]
      exact if_neg hr
  · refine (cmdPort_param w v .selectOutput s h).trans (congrArg afterEvent ?_)
    have hflag : flagParam v = some (decide (v = 1)) := by
      by_cases h1 : v = 1
      · rw [h1]
        rfl
      · have hne : v.toNat ≠ 1 := fun hn => h1 (BitVec.eq_of_toNat_eq hn)
        have h0 : v = 0 := BitVec.eq_of_toNat_eq (show v.toNat = 0 by omega)
        rw [h0]
        rfl
    rw [runCommand, cmdSelectOutput, hflag]
    have hempty : ((s.executing w).path.staging.isEmpty && (s.executing w).path.results.isEmpty &&
        decide ((s.executing w).ring.state = .idle)) = true ↔
        s.path.staging = [] ∧ s.path.results = [] ∧ s.ring.state = .idle := by
      rw [Bool.and_eq_true, Bool.and_eq_true, List.isEmpty_iff, List.isEmpty_iff, decide_eq_true_iff, and_assoc]
      rfl
    by_cases he : s.path.staging = [] ∧ s.path.results = [] ∧ s.ring.state = .idle
    · rw [if_pos he]
      refine (if_pos (hempty.mpr he)).trans ?_
      simp only [decide_eq_true_eq]
      rfl
    · rw [if_neg he]
      exact if_neg (mt hempty.mp he)
  · refine (cmdPort_param w v .drain s h).trans (congrArg afterEvent ?_)
    rw [runCommand, cmdDrain]
    by_cases hmet : (∀ i : SlotId, (s.slot i).state = .free ∨ (s.slot i).state = .reserved) ∧ s.path.staging = [] ∧
        (s.path.mode = .ring → ∀ u : WTag, (s.tag u).state = .free)
    · rw [if_pos hmet]
      exact if_pos ((s.executing w).drained_iff.mpr hmet)
    rw [if_neg hmet]
    refine (if_neg (mt (s.executing w).drained_iff.mp hmet)).trans ?_
    by_cases hwait : s.path.mode = .queue ∨ s.ring.state = .running
    · rw [if_pos hwait]
      exact if_pos hwait
    rw [if_neg hwait]
    refine (if_neg hwait).trans ?_
    by_cases hfault : s.ring.state = .faulted
    · rw [if_pos hfault]
      exact if_pos hfault
    · rw [if_neg hfault]
      exact if_neg hfault

end Sys2Proof.Machine
end

