-- ==== Sys2Proof/Proofs/Freeing.lean ====
section
/-! PROOF. Armings ended one after another, and slots freed without a record: what such a run leaves, channel by channel and slot
by slot. PAUSE, DISARM, PURGE and the SAMPLING scope are instances. -/

namespace Sys2Proof.Machine

/-! ### Ending armings (R46, R61) -/

/-- Channel c's arming is sound (R53): it is ARMED exactly when a slot is RESERVED for it, and then by one slot only. -/
def State.armingOk (s : State) (c : ChanId) : Prop :=
  ((s.chan c).run = .armed ↔ ∃ i, (s.slot i).state = .reserved ∧ (s.slot i).channel = c) ∧
    ∀ i j, (s.slot i).state = .reserved → (s.slot i).channel = c → (s.slot j).state = .reserved → (s.slot j).channel = c →
      i = j

theorem State.poolOk.armingOk {s : State} (h : s.poolOk) (c : ChanId) : s.armingOk c := by
  obtain ⟨-, -, harmed, hone, -⟩ := h
  exact ⟨harmed c, fun i j hi hic hj hjc => hone i j hi hj (hic.trans hjc.symm)⟩

/-- t is s with f applied to the channels of l, and the slots that were RESERVED for them FREE. -/
structure EndsArmings (f : Channel → Channel) (l : List ChanId) (s t : State) : Prop where
  rest : t = { s with slots := t.slots, chans := t.chans }
  chan : ∀ c, t.chan c = if c ∈ l then f (s.chan c) else s.chan c
  slot : ∀ i, t.slot i = if (s.slot i).state = .reserved ∧ (s.slot i).channel ∈ l then Slot.cleared else s.slot i

namespace EndsArmings

variable {f : Channel → Channel} {l : List ChanId} {s t u : State} {c d : ChanId}

theorem refl (f : Channel → Channel) (s : State) : EndsArmings f [] s s :=
  ⟨rfl, fun c => by simp, fun i => by simp⟩

/-- The slots RESERVED for a channel outside l are the ones they were. -/
theorem reserved_iff (h : EndsArmings f l s t) (hd : d ∉ l) (i : SlotId) :
    (t.slot i).state = .reserved ∧ (t.slot i).channel = d ↔ (s.slot i).state = .reserved ∧ (s.slot i).channel = d := by
  rw [h.slot i]
  split_ifs with hi
  · constructor
    · rintro ⟨h0, -⟩
      cases h0
    · rintro ⟨-, rfl⟩
      exact absurd hi.2 hd
  · exact Iff.rfl

theorem armingOk (h : EndsArmings f l s t) (hd : d ∉ l) (hs : s.armingOk d) : t.armingOk d := by
  obtain ⟨hiff, hone⟩ := hs
  have hr := h.reserved_iff hd
  refine ⟨?_, fun i j hi hic hj hjc => ?_⟩
  · rw [h.chan d, if_neg hd, hiff]
    simp only [hr]
  · obtain ⟨hi', hic'⟩ := (hr i).mp ⟨hi, hic⟩
    obtain ⟨hj', hjc'⟩ := (hr j).mp ⟨hj, hjc⟩
    exact hone i j hi' hic' hj' hjc'

/-- One more channel. -/
theorem snoc (h1 : EndsArmings f l s t) (h2 : EndsArmings f [c] t u) (hc : c ∉ l) : EndsArmings f (l ++ [c]) s u where
  rest := by
    rw [h2.rest, h1.rest]
  chan d := by
    rw [h2.chan d, h1.chan d]
    by_cases hdl : d ∈ l
    · have hdc : d ≠ c := fun e => hc (e ▸ hdl)
      simp [hdl, hdc]
    · by_cases hdc : d = c <;> simp [hdl, hdc, hc]
  slot i := by
    rw [h2.slot i, h1.slot i]
    by_cases hr : (s.slot i).state = .reserved
    · by_cases hl : (s.slot i).channel ∈ l
      · simp [hr, hl, Slot.cleared]
      · by_cases he : (s.slot i).channel = c <;> simp [hr, hl, he, hc]
    · simp [hr]

/-- A visit that ends one channel's arming ends those of all channels it visits. -/
theorem foldl {visit : State → ChanId → State}
    (hvisit : ∀ (s : State) (c : ChanId), s.armingOk c → EndsArmings f [c] s (visit s c)) (s : State)
    (hs : ∀ c, s.armingOk c) (l : List ChanId) (hl : l.Nodup) : EndsArmings f l s (l.foldl visit s) := by
  induction l using List.reverseRecOn with
  | nil => exact EndsArmings.refl f s
  | append_singleton l c ih =>
    rw [List.nodup_append] at hl
    obtain ⟨hnodup, -, hne⟩ := hl
    have hc : c ∉ l := fun hm => hne c hm c (List.mem_singleton_self c) rfl
    have h := ih hnodup
    rw [List.foldl_append]
    exact h.snoc (hvisit _ c (h.armingOk hc (hs c))) hc

end EndsArmings

/-- The channel whose arming, if it has one, is cancelled with one collision (R61). -/
def Channel.cancelled (next : RunState) (x : Channel) : Channel :=
  if x.run = .armed then { x with run := next, stats := { x.stats with collisions := x.stats.collisions + 1 } } else x

theorem cancelIfArmed_ends (next : RunState) (s : State) (c : ChanId) (h : s.armingOk c) :
    EndsArmings (Channel.cancelled next) [c] s (cancelIfArmed next s c) := by
  obtain ⟨hiff, hone⟩ := h
  by_cases ha : (s.chan c).run = .armed
  · obtain ⟨i, hi, hic⟩ := hiff.mp ha
    have hslot : s.reservedSlot c = some i := by
      rw [State.reservedSlot_eq_some]
      refine ⟨⟨hi, hic⟩, fun j hj hjr => ?_⟩
      exact absurd (hone j i hjr.1 hjr.2 hi hic) (ne_of_lt hj)
    have hcancel : cancelIfArmed next s c = cancelAt c i next s := by
      rw [cancelIfArmed, if_pos ha, cancelArming, hslot]
    rw [hcancel]
    refine ⟨rfl, fun d => ?_, fun j => ?_⟩
    · rw [cancelAt_chan]
      by_cases hd : d = c
      · subst hd
        simp [Channel.cancelled, ha]
      · simp [hd]
    · rw [cancelAt_slot]
      have : j = i ↔ (s.slot j).state = .reserved ∧ (s.slot j).channel ∈ [c] := by
        rw [List.mem_singleton]
        exact ⟨fun e => e ▸ ⟨hi, hic⟩, fun hj => hone j i hj.1 hj.2 hi hic⟩
      simp only [this]
  · rw [cancelIfArmed_of_ne next s c ha]
    refine ⟨rfl, fun d => ?_, fun j => ?_⟩
    · by_cases hd : d = c
      · subst hd
        simp [Channel.cancelled, ha]
      · simp [hd]
    · rw [if_neg]
      rintro ⟨hj, hjc⟩
      exact ha (hiff.mpr ⟨j, hj, List.mem_singleton.mp hjc⟩)

/-- A further change of the channel whose arming has ended. -/
theorem EndsArmings.setChan {f g : Channel → Channel} {s t : State} {c : ChanId} (h : EndsArmings f [c] s t) :
    EndsArmings (g ∘ f) [c] s (t.setChan c (g (t.chan c))) where
  rest := by
    rw [State.setChan, h.rest]
  chan d := by
    rw [State.chan_setChan]
    by_cases hd : d = c
    · subst hd
      simp [h.chan]
    · simp [hd, h.chan]
  slot i := h.slot i

/-- PAUSE's effect (R46). -/
theorem cancelArmings_ends (next : RunState) (s : State) (h : ∀ c, s.armingOk c) :
    EndsArmings (Channel.cancelled next) chanIds s (cancelArmings next s) :=
  EndsArmings.foldl (cancelIfArmed_ends next) s h chanIds (by decide)

/-- The channel after DISARM (R63). -/
def Channel.disarm (x : Channel) : Channel := { Channel.cancelled .disarmed x with run := .disarmed, count := 0 }

theorem disarmChannel_ends (s : State) (c : ChanId) (h : s.armingOk c) :
    EndsArmings Channel.disarm [c] s (disarmChannel s c) :=
  (cancelIfArmed_ends .disarmed s c h).setChan (g := fun x => { x with run := .disarmed, count := 0 })

theorem resetChannel_ends (s : State) (c : ChanId) (h : s.armingOk c) :
    EndsArmings (fun x => { Channel.disarm x with loss := false }) [c] s (resetChannel s c) :=
  (disarmChannel_ends s c h).setChan (g := fun x => { x with loss := false })

/-! ### Freeing without a record (R89) -/

/-- The slots of l that are RESERVED for channel c. -/
def State.reservedIn (s : State) (l : List SlotId) (c : ChanId) : Nat :=
  l.countP fun i => decide ((s.slot i).state = .reserved) && decide ((s.slot i).channel = c)

/-- The slots of l in OPEN, BOUNCED or CLOSING that channel c owns. -/
def State.watchingIn (s : State) (l : List SlotId) (c : ChanId) : Nat :=
  l.countP fun i => (s.slot i).isWatching && decide ((s.slot i).channel = c)

/-- The channel after r cancelled armings and d discarded slots. -/
def Channel.freed (next : RunState) (r d : Nat) (x : Channel) : Channel :=
  { x with
    run := if r = 0 then x.run else next
    stats :=
      { x.stats with
        collisions := x.stats.collisions + BitVec.ofNat 32 r
        discarded := x.stats.discarded + BitVec.ofNat 32 d } }

/-- t is s with the slots of l that the channels in scope own freed without a record. -/
structure FreesSlots (scope : ChanId → Bool) (next : RunState) (l : List SlotId) (s t : State) : Prop where
  rest : t = { s with slots := t.slots, closeQueue := t.closeQueue, chans := t.chans, dev := t.dev }
  slot : ∀ i, t.slot i = if i ∈ l ∧ scope (s.slot i).channel = true ∧ (s.slot i).state ≠ .free then Slot.cleared
    else s.slot i
  closeQueue : t.closeQueue =
    s.closeQueue.filter fun i => !(decide (i ∈ l) && scope (s.slot i).channel && (s.slot i).isWatching)
  chan : ∀ c, t.chan c =
    if scope c then (s.chan c).freed next (s.reservedIn l c) (s.watchingIn l c) else s.chan c
  dev : t.dev =
    { s.dev with
      purged := s.dev.purged +
        BitVec.ofNat 32 (l.countP fun i => scope (s.slot i).channel && (s.slot i).isWatching) }

theorem Channel.freed_zero (next : RunState) (x : Channel) : x.freed next 0 0 = x := by
  simp [Channel.freed]

theorem Channel.freed_freed (next : RunState) (r d r' d' : Nat) (x : Channel) :
    (x.freed next r d).freed next r' d' = x.freed next (r + r') (d + d') := by
  by_cases hr : r = 0 <;> by_cases hr' : r' = 0 <;> simp [Channel.freed, hr, hr', BitVec.add_assoc, BitVec.ofNat_add]

theorem cancelAt_frees {scope : ChanId → Bool} (next : RunState) {s : State} {i : SlotId}
    (hsc : scope (s.slot i).channel = true) (hr : (s.slot i).state = .reserved) :
    FreesSlots scope next [i] s (cancelAt (s.slot i).channel i next s) where
  rest := rfl
  slot j := by
    rw [cancelAt_slot]
    by_cases hj : j = i
    · subst hj
      simp [hsc, hr]
    · simp [hj]
  closeQueue := by
    have hw : (s.slot i).isWatching = false := by simp [Slot.isWatching, Slot.isLive, hr]
    refine (List.filter_eq_self.mpr fun j hj => ?_).symm
    by_cases hji : j = i
    · subst hji
      simp [hw]
    · simp [hji]
  chan c := by
    have hw : (s.slot i).isWatching = false := by simp [Slot.isWatching, Slot.isLive, hr]
    rw [cancelAt_chan]
    by_cases hc : c = (s.slot i).channel
    · subst hc
      simp [hsc, Channel.freed, State.reservedIn, State.watchingIn, hr, hw]
    · have hc' : (s.slot i).channel ≠ c := fun e => hc e.symm
      simp [hc, hc', State.reservedIn, State.watchingIn, Channel.freed_zero]
  dev := by
    have hw : (s.slot i).isWatching = false := by simp [Slot.isWatching, Slot.isLive, hr]
    simp [cancelAt, collide, hw]

theorem discardSlot_frees {scope : ChanId → Bool} (next : RunState) {s : State} {i : SlotId}
    (hsc : scope (s.slot i).channel = true) (hw : (s.slot i).isWatching = true) :
    FreesSlots scope next [i] s (discardSlot i s) where
  rest := rfl
  slot j := by
    have hf := ((s.slot i).isWatching_iff.mp hw).1
    simp only [discardSlot, State.setCloseQueue_slot, State.setDev_slot, State.modStats_slot, State.slot_setSlot]
    by_cases hj : j = i
    · subst hj
      simp [hsc, hf]
    · simp [hj]
  closeQueue := by
    show s.closeQueue.filter (fun j => decide (j ≠ i)) = _
    refine List.filter_congr fun j hj => ?_
    by_cases hji : j = i
    · subst hji
      simp [hsc, hw]
    · simp [hji]
  chan c := by
    have hr : (s.slot i).state ≠ .reserved := ((s.slot i).isWatching_iff.mp hw).2
    simp only [discardSlot, State.setCloseQueue_chan, State.setDev_chan, State.chan_modStats, State.setSlot_chan]
    by_cases hc : c = (s.slot i).channel
    · subst hc
      simp [hsc, Channel.freed, State.reservedIn, State.watchingIn, hr, hw]
    · have hc' : (s.slot i).channel ≠ c := fun e => hc e.symm
      simp [hc, hc', State.reservedIn, State.watchingIn, Channel.freed_zero]
  dev := by
    simp [discardSlot, hsc, hw]

/-- A slot that is FREE or outside the scope is passed over. -/
theorem FreesSlots.skip {scope : ChanId → Bool} (next : RunState) {s : State} {i : SlotId}
    (h : scope (s.slot i).channel = false ∨ (s.slot i).state = .free) : FreesSlots scope next [i] s s := by
  have hw : (scope (s.slot i).channel && (s.slot i).isWatching) = false := by
    rcases h with h | h <;> simp [h, Slot.isWatching, Slot.isLive]
  refine ⟨rfl, fun j => ?_, ?_, fun c => ?_, ?_⟩
  · rw [if_neg]
    rintro ⟨hj, hsc, hf⟩
    rw [List.mem_singleton] at hj
    subst hj
    rcases h with h | h
    · rw [h] at hsc
      cases hsc
    · exact hf h
  · refine (List.filter_eq_self.mpr fun j hj => ?_).symm
    by_cases hji : j = i
    · subst hji
      simp [hw]
    · simp [hji]
  · split_ifs with hc
    · have hnone : (s.slot i).channel = c → (s.slot i).state = .free := by
        rintro rfl
        rcases h with h | h
        · rw [h] at hc
          cases hc
        · exact h
      have hres : s.reservedIn [i] c = 0 := by
        simp only [State.reservedIn, List.countP_eq_zero, List.mem_singleton, forall_eq, Bool.and_eq_true, decide_eq_true_eq]
        rintro ⟨hr, hi⟩
        rw [hnone hi] at hr
        cases hr
      have hwat : s.watchingIn [i] c = 0 := by
        simp only [State.watchingIn, List.countP_eq_zero, List.mem_singleton, forall_eq, Bool.and_eq_true, decide_eq_true_eq]
        rintro ⟨hr, hi⟩
        exact ((s.slot i).isWatching_iff.mp hr).1 (hnone hi)
      rw [hres, hwat, Channel.freed_zero]
    · rfl
  · simp [hw]

theorem freeVisit_frees (scope : ChanId → Bool) (next : RunState) (s : State) (i : SlotId) :
    FreesSlots scope next [i] s (freeVisit scope next s i) := by
  unfold freeVisit
  dsimp only
  split_ifs with hsc
  · cases hx : (s.slot i).state with
    | free => exact FreesSlots.skip next (.inr hx)
    | reserved => exact cancelAt_frees next hsc hx
    | opened => exact discardSlot_frees next hsc (by simp [Slot.isWatching_iff, hx])
    | bounced => exact discardSlot_frees next hsc (by simp [Slot.isWatching_iff, hx])
    | closing => exact discardSlot_frees next hsc (by simp [Slot.isWatching_iff, hx])
  · exact FreesSlots.skip next (.inl (by simpa using hsc))

/-- One more slot. -/
theorem FreesSlots.snoc {scope : ChanId → Bool} {next : RunState} {l : List SlotId} {s t u : State} {i : SlotId}
    (h1 : FreesSlots scope next l s t) (h2 : FreesSlots scope next [i] t u) (hi : i ∉ l) :
    FreesSlots scope next (l ++ [i]) s u := by
  have hsame : t.slot i = s.slot i := by
    rw [h1.slot i, if_neg fun h => hi h.1]
  refine ⟨?_, fun j => ?_, ?_, fun c => ?_, ?_⟩
  · rw [h2.rest, h1.rest]
  · rw [h2.slot j]
    by_cases hj : j = i
    · subst hj
      simp [hsame, hi]
    · rw [if_neg (by simp [hj]), h1.slot j]
      simp [hj]
  · rw [h2.closeQueue, h1.closeQueue, List.filter_filter]
    refine List.filter_congr fun j hj => ?_
    by_cases hji : j = i
    · subst hji
      simp [hsame, hi]
    · simp [hji]
  · rw [h2.chan c, h1.chan c]
    split_ifs with hc
    · rw [Channel.freed_freed]
      have hres : t.reservedIn [i] c = s.reservedIn [i] c := by simp [State.reservedIn, hsame]
      have hwat : t.watchingIn [i] c = s.watchingIn [i] c := by simp [State.watchingIn, hsame]
      rw [hres, hwat]
      simp only [State.reservedIn, State.watchingIn, List.countP_append]
    · rfl
  · rw [h2.dev, h1.dev]
    simp [hsame, List.countP_append, BitVec.ofNat_add, BitVec.add_assoc]

theorem freeVisits_frees (scope : ChanId → Bool) (next : RunState) (s : State) (l : List SlotId) (hl : l.Nodup) :
    FreesSlots scope next l s (l.foldl (freeVisit scope next) s) := by
  induction l using List.reverseRecOn with
  | nil =>
    refine ⟨rfl, fun i => by simp, ?_, fun c => ?_, ?_⟩
    · simp
    · simp [State.reservedIn, State.watchingIn, Channel.freed_zero]
    · simp
  | append_singleton l i ih =>
    rw [List.nodup_append] at hl
    obtain ⟨hnodup, -, hne⟩ := hl
    rw [List.foldl_append]
    exact (ih hnodup).snoc (freeVisit_frees scope next _ i) fun hm => hne i hm i (List.mem_singleton_self i) rfl

theorem freeSlots_frees (scope : ChanId → Bool) (next : RunState) (s : State) :
    FreesSlots scope next slotIds s (freeSlots scope next s) :=
  freeVisits_frees scope next s slotIds (by decide)

/-! ### Counts over all slots -/

theorem State.watchingIn_slotIds (s : State) (c : ChanId) : s.watchingIn slotIds c = s.watching c := rfl

/-- The slots RESERVED for a channel: one while it is ARMED, else none (R53). -/
theorem State.reservedIn_slotIds {s : State} {c : ChanId} (h : s.armingOk c) :
    s.reservedIn slotIds c = if (s.chan c).run = .armed then 1 else 0 := by
  obtain ⟨hiff, hone⟩ := h
  unfold State.reservedIn
  split_ifs with ha
  · obtain ⟨i, hi, hic⟩ := hiff.mp ha
    have hcount : (slotIds.countP fun j => decide ((s.slot j).state = .reserved) && decide ((s.slot j).channel = c)) =
        slotIds.count i := by
      rw [List.count_eq_countP]
      refine List.countP_congr fun j hj => ?_
      simp only [Bool.and_eq_true, decide_eq_true_eq, beq_iff_eq]
      exact ⟨fun h => hone j i h.1 h.2 hi hic, fun h => h ▸ ⟨hi, hic⟩⟩
    rw [hcount]
    exact List.count_eq_one_of_mem (by decide) (mem_slotIds i)
  · rw [List.countP_eq_zero]
    intro i hi
    simp only [Bool.and_eq_true, decide_eq_true_eq]
    exact fun h => ha (hiff.mpr ⟨i, h.1, h.2⟩)

end Sys2Proof.Machine
end

