-- ==== Sys2Proof/Proofs/Freed.lean ====
section
/-! PROOF. START, SET_TIME, PAUSE, DISARM, RELEASE and PURGE: the rows whose effect on the channels and slots is an arming ended,
slots freed, or a field set. -/

namespace Sys2Proof.Machine

/-! ### What the end of a command leaves (R153) -/

/-- t is u after its command ended with these result words, the interrupts and the outbox apart. -/
structure Ended (words : List Word) (u t : State) : Prop where
  chan : ∀ c, t.chan c = u.chan c
  slot : ∀ i, t.slot i = u.slot i
  closeQueue : t.closeQueue = u.closeQueue
  tb : t.tb = u.tb
  path : t.path = u.path
  ring : t.ring = u.ring
  dev : t.dev = u.dev
  owner : t.owner = u.owner
  bank : t.bank = u.bank
  watchLimit : t.watchLimit = u.watchLimit
  phase : t.cmd.phase = .result
  results : t.cmd.results = words

theorem leadsTo_ended {words : List Word} {u : State} {P : State → Prop}
    (h : ∀ t, Ended (statusWord .ok u.cmd.code 0 :: words) u t → P t) : leadsTo (afterEvent (endWith .ok 0 words u)) P := by
  refine ⟨_, rfl, h _ ⟨fun c => ?_, fun i => ?_, ?_, ?_, ?_, ?_, ?_, ?_, ?_, ?_, ?_, ?_⟩⟩
  · simp [State.chan]
  · simp [State.slot]
  all_goals simp [endWith, Processor.finish]

/-! ### START, SET_TIME and PAUSE (R45, R46, R157) -/

/-- Settles O35: START and SET_TIME set their field; PAUSE ends every arming. -/
theorem startPauseAndSetTime : Obligations.StartPauseAndSetTime := by
  unfold Obligations.StartPauseAndSetTime
  refine ⟨fun w high v s => ⟨fun h => ?_, fun h => ?_⟩, fun w high s h => ⟨fun hobs hpool => ?_, fun hobs => ?_⟩⟩
  · refine (cmdPort_immediate w .start high s h rfl).trans (congrArg afterEvent ?_)
    rw [runCommand, cmdStart]
    rfl
  · exact cmdPort_param w v .setTime s h
  · have hrun : exec (.pause w high) s = afterEvent (cmdPause (s.opening w .pause)) :=
      cmdPort_immediate w .pause high s h rfl
    rw [hrun, cmdPause, if_pos (show (s.opening w .pause).tb.obs = .observing from hobs)]
    have hends : EndsArmings (Channel.cancelled .counting) chanIds
        ((s.opening w .pause).setTb { s.tb with obs := .paused }) (pauseObserving (s.opening w .pause)) :=
      cancelArmings_ends .counting _ fun c => hpool.armingOk c
    generalize pauseObserving (s.opening w .pause) = u at hends
    have hrest := hends.rest
    refine leadsTo_ended fun t ht => ⟨?_, fun c => ?_, fun i => ?_, ?_, ?_, ?_, ?_, ?_, ?_, ?_, ht.phase, ?_⟩
    · exact ht.tb.trans (congrArg State.tb hrest :)
    · rw [ht.chan c, hends.chan c, if_pos (mem_chanIds c)]
      rfl
    · rw [ht.slot i, hends.slot i]
      simp only [mem_chanIds, and_true]
      rfl
    · exact ht.closeQueue.trans (congrArg State.closeQueue hrest :)
    · exact ht.path.trans (congrArg State.path hrest :)
    · exact ht.ring.trans (congrArg State.ring hrest :)
    · exact ht.dev.trans (congrArg State.dev hrest :)
    · exact ht.owner.trans (congrArg State.owner hrest :)
    · exact ht.bank.trans (congrArg State.bank hrest :)
    · exact ht.watchLimit.trans (congrArg State.watchLimit hrest :)
    · rw [ht.results, hrest]
      show [statusWord .ok Command.pause.code 0] = _
      decide
  · refine (cmdPort_immediate w .pause high s h rfl).trans (congrArg afterEvent ?_)
    rw [runCommand, cmdPause]
    exact if_neg (by simp [State.opening, State.written, hobs])

/-! ### DISARM and RELEASE (R63, R64) -/

theorem Channel.disarm_eq (x : Channel) :
    x.disarm =
      { x with
        run := .disarmed
        count := 0
        stats := { x.stats with collisions := x.stats.collisions + (if x.run = .armed then 1 else 0) } } := by
  by_cases h : x.run = .armed <;> simp [Channel.disarm, Channel.cancelled, h]

/-- Settles O37: DISARM ends the channel's arming; RELEASE acts on a HELD channel only. -/
theorem disarmAndReleaseChangeTheRunState : Obligations.DisarmAndReleaseChangeTheRunState := by
  unfold Obligations.DisarmAndReleaseChangeTheRunState
  refine ⟨fun w v c s h hv hpool => ?_, fun w v c s h hv => ?_⟩
  · have hrun : exec (.disarm w v) s = afterEvent (cmdDisarm v (s.executing w)) := cmdPort_param w v .disarm s h
    rw [hrun, cmdDisarm, chanParam_eq hv]
    have hends : EndsArmings Channel.disarm [c] (s.executing w) (disarmChannel (s.executing w) c) :=
      disarmChannel_ends (s.executing w) c (hpool.armingOk c)
    show leadsTo (afterEvent (endWith .ok 0 [] (disarmChannel (s.executing w) c))) _
    generalize disarmChannel (s.executing w) c = u at hends
    have hrest := hends.rest
    have hcode : s.cmd.code = Command.disarm.code := h.2.2
    refine leadsTo_ended fun t ht => ⟨?_, fun d hd => ?_, fun i => ?_, ?_, ?_, ?_, ?_, ?_, ?_, ?_, ?_, ht.phase, ?_⟩
    · rw [ht.chan c, hends.chan c, if_pos (List.mem_singleton_self c)]
      exact (s.chan c).disarm_eq
    · rw [ht.chan d, hends.chan d, if_neg (by simpa using hd)]
      rfl
    · rw [ht.slot i, hends.slot i]
      simp only [List.mem_singleton]
      rfl
    · exact ht.closeQueue.trans (congrArg State.closeQueue hrest :)
    · exact ht.tb.trans (congrArg State.tb hrest :)
    · exact ht.path.trans (congrArg State.path hrest :)
    · exact ht.ring.trans (congrArg State.ring hrest :)
    · exact ht.dev.trans (congrArg State.dev hrest :)
    · exact ht.owner.trans (congrArg State.owner hrest :)
    · exact ht.bank.trans (congrArg State.bank hrest :)
    · exact ht.watchLimit.trans (congrArg State.watchLimit hrest :)
    · rw [ht.results, hrest]
      show [statusWord .ok s.cmd.code 0] = _
      rw [hcode]
      decide
  · have hrun : exec (.release w v) s = afterEvent (cmdRelease v (s.executing w)) := cmdPort_param w v .release s h
    rw [hrun, cmdRelease, chanParam_eq hv]
    rfl

/-! ### PURGE (R89, R90) -/

/-- The scope that PURGE's parameter names, at a channel. -/
theorem purgeScope_eq {p : Word} {scope : ChanId → Bool}
    (h : (p.toNat = 15 ∧ ∀ c, scope c = true) ∨ ∀ c, scope c = decide (p.toNat = c.val)) (hsome : ∃ c, scope c = true) :
    purgeScope p = some scope := by
  rcases h with ⟨hp, hall⟩ | hone
  · have hall' : scope = fun _ => true := funext hall
    rw [purgeScope, if_pos (BitVec.eq_of_toNat_eq hp), hall']
  · obtain ⟨c, hc⟩ := hsome
    rw [hone c, decide_eq_true_iff] at hc
    have hne : p ≠ 0xF := by
      rintro rfl
      have : (15 : Nat) = c.val := hc
      omega
    rw [purgeScope, if_neg hne, chanParam_eq hc]
    refine congrArg some (funext fun d => ?_)
    rw [hone d, hc]
    exact decide_eq_decide.mpr ⟨fun e => e ▸ rfl, fun e => Fin.ext e.symm⟩

/-- The channel after its slots were all freed: one collision for its arming, and its discarded slots (R89). -/
theorem Channel.freed_slotIds (s : State) (c : ChanId) (next : RunState) (h : s.armingOk c) :
    (s.chan c).freed next (s.reservedIn slotIds c) (s.watchingIn slotIds c) =
      { s.chan c with
        run := if (s.chan c).run = .armed then next else (s.chan c).run
        stats :=
          { (s.chan c).stats with
            collisions := (s.chan c).stats.collisions + (s.chan c).armedTerm
            discarded := (s.chan c).stats.discarded + BitVec.ofNat 32 (s.watching c) } } := by
  rw [State.reservedIn_slotIds h, State.watchingIn_slotIds]
  by_cases ha : (s.chan c).run = .armed <;> simp [Channel.freed, Channel.armedTerm, ha]

/-- Settles O38: the slots in the scope, freed one by one. -/
theorem purgeFreesWithoutRecords : Obligations.PurgeFreesWithoutRecords := by
  unfold Obligations.PurgeFreesWithoutRecords
  intro w v scope s h hpool hv hsome n
  have hrun : exec (.purge w v) s = afterEvent (cmdPurge v (s.executing w)) := cmdPort_param w v .purge s h
  rw [hrun, cmdPurge, purgeScope_eq hv hsome]
  have hfrees := freeSlots_frees scope .counting (s.executing w)
  show leadsTo (afterEvent (endWith .ok 0 [BitVec.ofNat 32 n] (freeSlots scope .counting (s.executing w)))) _
  generalize freeSlots scope .counting (s.executing w) = u at hfrees
  have hrest := hfrees.rest
  have hcode : s.cmd.code = Command.purge.code := h.2.2
  refine leadsTo_ended fun t ht => ⟨fun i => ?_, ?_, fun c => ?_, ?_, ?_, ?_, ?_, ?_, ?_, ?_, ht.phase, ?_⟩
  · rw [ht.slot i, hfrees.slot i]
    simp only [mem_slotIds, true_and]
    rfl
  · rw [ht.closeQueue, hfrees.closeQueue]
    refine List.filter_congr fun i hi => ?_
    have hclosing : (s.slot i).state = .closing := (hpool.2.1 i).mp hi
    have hw : ((s.executing w).slot i).isWatching = true := by
      show (s.slot i).isWatching = true
      simp [Slot.isWatching_iff, hclosing]
    simp only [mem_slotIds, decide_true, Bool.true_and, hw, Bool.and_true]
    rfl
  · rw [ht.chan c, hfrees.chan c]
    by_cases hc : scope c = true
    · rw [if_pos hc, if_pos hc]
      exact Channel.freed_slotIds (s.executing w) c .counting (hpool.armingOk c)
    · rw [if_neg hc, if_neg hc]
      rfl
  · rw [ht.dev, hfrees.dev]
    rfl
  · exact ht.tb.trans (congrArg State.tb hrest :)
  · exact ht.path.trans (congrArg State.path hrest :)
  · exact ht.ring.trans (congrArg State.ring hrest :)
  · exact ht.owner.trans (congrArg State.owner hrest :)
  · exact ht.bank.trans (congrArg State.bank hrest :)
  · exact ht.watchLimit.trans (congrArg State.watchLimit hrest :)
  · rw [ht.results, hrest]
    show [statusWord .ok s.cmd.code 0, _] = _
    rw [hcode, show statusWord .ok Command.purge.code 0 = 0x1300#32 by decide]
    rfl

end Sys2Proof.Machine
end

