-- ==== Sys2Proof/Proofs/Settling.lean ====
section
/-! PROOF. Records that settle one after another, the events they raise, and the four scopes of RESET. -/

namespace Sys2Proof.Machine

/-! ### Events on the interrupt sources (R169) -/

theorem ip_add (p : Bool) (m n : Nat) :
    (p || decide (m ≠ 0) || decide (n ≠ 0)) = (p || decide (m + n ≠ 0)) := by
  rw [Bool.or_assoc, ← Bool.decide_or]
  exact congrArg (p || ·) (decide_eq_decide.mpr (by omega))

theorem err_add (p e : Bool) (m n : Nat) :
    (e || decide (2 ≤ m + if p = true then 1 else 0) ||
        decide (2 ≤ n + if (p || decide (m ≠ 0)) = true then 1 else 0)) =
      (e || decide (2 ≤ m + n + if p = true then 1 else 0)) := by
  rw [Bool.or_assoc, ← Bool.decide_or]
  refine congrArg (e || ·) (decide_eq_decide.mpr ?_)
  cases p
  · by_cases hm : m = 0
    · simp [hm]
    · simp only [Bool.false_eq_true, if_false, Bool.false_or, decide_eq_true_eq, if_pos hm]
      omega
  · simp only [Bool.true_or, if_true]
    omega

namespace Ints.afterEvents

variable {x y z : Ints} {m n : Source → Nat}

theorem refl (x : Ints) : Ints.afterEvents x x fun _ => 0 := by
  refine ⟨rfl, fun k => ⟨by simp, ?_⟩⟩
  cases has x.ip k <;> simp

theorem trans (h1 : Ints.afterEvents x y m) (h2 : Ints.afterEvents y z n) :
    Ints.afterEvents x z fun k => m k + n k := by
  obtain ⟨hy, h1⟩ := h1
  obtain ⟨hz, h2⟩ := h2
  refine ⟨?_, fun k => ?_⟩
  · rw [hz, hy]
  · obtain ⟨hip1, herr1⟩ := h1 k
    obtain ⟨hip2, herr2⟩ := h2 k
    rw [herr2, herr1, hip2, hip1]
    exact ⟨ip_add _ _ _, err_add _ _ _ _⟩

theorem congr {m' : Source → Nat} (h : Ints.afterEvents x y m) (hm : ∀ k, m k = m' k) : Ints.afterEvents x y m' := by
  rwa [← funext hm]

end Ints.afterEvents

/-- One event is one event on its source. -/
theorem Ints.event_afterEvents (x : Ints) (j : Source) :
    Ints.afterEvents x (x.event j) fun k => if k = j then 1 else 0 := by
  refine ⟨rfl, fun k => ?_⟩
  have hk : (k : Nat) < 8 := k.isLt
  have hjk : (j : Nat) = k ↔ k = j := by rw [Fin.ext_iff, eq_comm]
  by_cases h : k = j
  · subst h
    cases hp : has x.ip k <;> simp [Ints.event, has_withBit, hp]
  · have hne : ¬(j : Nat) = k := mt hjk.mp h
    cases hp : has x.ip j <;> cases hq : has x.ip k <;> simp [Ints.event, has_withBit, hp, hq, h, hne]

/-! ### Records that settle lost (R122) -/

/-- Record r is a SAMPLE of channel c. -/
def Record.isSampleOf (r : Record) (c : ChanId) : Bool := r.isSample && decide (r.channel = c)

/-- t is s after the records l settled lost. -/
structure SettlesLost (l : List Record) (s t : State) : Prop where
  rest : t = { s with chans := t.chans, ints := t.ints }
  chan : ∀ c, t.chan c = { s.chan c with loss := (s.chan c).loss || l.any (·.isSampleOf c) }
  ints : Ints.afterEvents s.ints t.ints fun k => l.countP fun r =>
    r.isSample && decide ((s.chan r.channel).bank.notify = .each) && decide (srcChan r.channel = k)

theorem SettlesLost.refl (s : State) : SettlesLost [] s s :=
  ⟨rfl, fun c => by simp, Ints.afterEvents.refl s.ints⟩

theorem settle_lost (r : Record) (s : State) :
    settle true r s =
      if r.isSample then
        if (s.chan r.channel).bank.notify = .each then
          (s.setChan r.channel { s.chan r.channel with loss := true }).raise (srcChan r.channel)
        else s.setChan r.channel { s.chan r.channel with loss := true }
      else s := rfl

theorem setLoss_chan (r : Record) (s : State) (hsample : r.isSample = true) (c : ChanId) :
    (s.setChan r.channel { s.chan r.channel with loss := true }).chan c =
      { s.chan c with loss := (s.chan c).loss || [r].any (·.isSampleOf c) } := by
  rw [State.chan_setChan]
  by_cases hc : c = r.channel
  · subst hc
    simp [Record.isSampleOf, hsample]
  · have hc' : r.channel ≠ c := fun e => hc e.symm
    simp [hc, hc', Record.isSampleOf]

theorem settle_settlesLost (r : Record) (s : State) : SettlesLost [r] s (settle true r s) := by
  rw [settle_lost]
  by_cases hsample : r.isSample = true
  · rw [if_pos hsample]
    by_cases heach : (s.chan r.channel).bank.notify = .each
    · rw [if_pos heach]
      refine ⟨rfl, setLoss_chan r s hsample, ?_⟩
      refine (Ints.event_afterEvents s.ints (srcChan r.channel)).congr fun k => ?_
      simp [List.countP_cons, hsample, heach, eq_comm]
    · rw [if_neg heach]
      refine ⟨rfl, setLoss_chan r s hsample, ?_⟩
      refine (Ints.afterEvents.refl s.ints).congr fun k => ?_
      simp [heach]
  · rw [if_neg hsample]
    refine ⟨rfl, fun c => ?_, (Ints.afterEvents.refl s.ints).congr fun k => ?_⟩
    · simp [Record.isSampleOf, hsample]
    · simp [hsample]

theorem SettlesLost.append {l1 l2 : List Record} {s t u : State} (h1 : SettlesLost l1 s t) (h2 : SettlesLost l2 t u) :
    SettlesLost (l1 ++ l2) s u where
  rest := by
    rw [h2.rest, h1.rest]
  chan c := by
    rw [h2.chan c, h1.chan c, List.any_append]
    simp [Bool.or_assoc]
  ints := by
    refine (h1.ints.trans h2.ints).congr fun k => ?_
    rw [List.countP_append]
    simp only [h1.chan]

theorem foldl_settlesLost (l : List Record) (s : State) :
    SettlesLost l s (l.foldl (fun st r => settle true r st) s) := by
  induction l generalizing s with
  | nil => exact SettlesLost.refl s
  | cons r l ih => exact (settle_settlesLost r s).append (ih (settle true r s))

/-! ### The SAMPLING scope (R72, R91) -/

/-- Every arming ended, then every slot freed without a record: the pool is empty, and each slot that followed a transaction is
counted (R89). -/
theorem EndsArmings.freeAll {f : Channel → Channel} {next : RunState} {s u t : State}
    (hclosing : ∀ i ∈ s.closeQueue, (s.slot i).state = .closing) (hends : EndsArmings f chanIds s u)
    (hfrees : FreesSlots (fun _ => true) next slotIds u t) :
    (∀ i : SlotId, (t.slot i).state = .free) ∧ t.closeQueue = [] ∧
      (∀ c : ChanId, t.chan c = (f (s.chan c)).freed next 0 (s.watching c)) ∧
      t = { s with slots := t.slots, closeQueue := [], chans := t.chans, dev := t.dev } ∧
      t.dev =
        { s.dev with purged := s.dev.purged + BitVec.ofNat 32 (slotIds.countP fun i => (s.slot i).isWatching) } := by
  have hslot (i : SlotId) : u.slot i = if (s.slot i).state = .reserved then Slot.cleared else s.slot i := by
    rw [hends.slot i]
    simp
  have hwatching (i : SlotId) : (u.slot i).isWatching = (s.slot i).isWatching := by
    rw [hslot i]
    split_ifs with hr
    · simp [Slot.isWatching, Slot.isLive, hr, Slot.cleared]
    · rfl
  have hqueue : t.closeQueue = [] := by
    rw [hfrees.closeQueue, List.filter_eq_nil_iff, hends.rest]
    intro i hi
    have hw : (u.slot i).isWatching = true := by simp [hwatching, Slot.isWatching_iff, hclosing i hi]
    rw [hends.rest] at hw
    simp [hw]
  refine ⟨fun i => ?_, hqueue, fun c => ?_, ?_, ?_⟩
  · rw [hfrees.slot i]
    split_ifs with hi
    · rfl
    · simpa using hi
  · have hres : u.reservedIn slotIds c = 0 := by
      rw [State.reservedIn, List.countP_eq_zero]
      intro i hi
      rw [hslot i]
      split_ifs with hr
      · simp [Slot.cleared]
      · simp [hr]
    have hwat : u.watchingIn slotIds c = s.watching c := by
      unfold State.watchingIn State.watching
      refine List.countP_congr fun i hi => ?_
      rw [hwatching i, hslot i]
      by_cases hr : (s.slot i).state = .reserved
      · have hw : (s.slot i).isWatching = false := by simp [Slot.isWatching, Slot.isLive, hr]
        simp [hw]
      · simp [hr]
    rw [hfrees.chan c, if_pos rfl, hres, hwat, hends.chan c, if_pos (mem_chanIds c)]
  · rw [hfrees.rest, hqueue, hends.rest]
  · rw [hfrees.dev, hends.rest]
    simp only [Bool.true_and]
    rw [← hends.rest]
    simp only [hwatching]

/-- The SAMPLING scope: every arming ended, then every slot freed. -/
theorem scopeSampling_eq {s : State} (hpool : s.poolOk) :
    let t := scopeSampling s
    (∀ i : SlotId, (t.slot i).state = .free) ∧ t.closeQueue = [] ∧
      (∀ c : ChanId, t.chan c =
        { s.chan c with
          run := .disarmed
          count := 0
          loss := false
          stats :=
            { (s.chan c).stats with
              collisions := (s.chan c).stats.collisions + (s.chan c).armedTerm
              discarded := (s.chan c).stats.discarded + BitVec.ofNat 32 (s.watching c) } }) ∧
      t = { s with slots := t.slots, closeQueue := [], chans := t.chans, dev := t.dev } ∧
      t.dev =
        { s.dev with purged := s.dev.purged + BitVec.ofNat 32 (slotIds.countP fun i => (s.slot i).isWatching) } := by
  intro t
  have hends : EndsArmings (fun x => { Channel.disarm x with loss := false }) chanIds s (chanIds.foldl resetChannel s) :=
    EndsArmings.foldl resetChannel_ends s hpool.armingOk chanIds (by decide)
  have hfrees : FreesSlots (fun _ => true) .disarmed slotIds (chanIds.foldl resetChannel s) t :=
    freeSlots_frees (fun _ => true) .disarmed _
  obtain ⟨hfree, hqueue, hchan, hrest, hdev⟩ := hends.freeAll (fun i hi => (hpool.2.1 i).mp hi) hfrees
  refine ⟨hfree, hqueue, fun c => ?_, hrest, hdev⟩
  rw [hchan c, Channel.disarm_eq]
  by_cases ha : (s.chan c).run = .armed <;> simp [Channel.freed, Channel.armedTerm, ha]

/-! ### The OUTPUT scope (R123, R148) -/

theorem settle_setPath (lost : Bool) (r : Record) (s : State) (p : Path) :
    settle lost r (s.setPath p) = (settle lost r s).setPath p := by
  unfold settle
  have hchan : (s.setPath p).chan = s.chan := rfl
  rw [hchan]
  dsimp only
  split_ifs <;> rfl

/-- The records of staging, discarded one by one, settle lost. -/
theorem foldl_discardStaged (l : List Record) (s : State) :
    l.foldl discardStaged s =
      (l.foldl (fun st r => settle true r st) s).setPath
        { s.path with staging := s.path.staging.drop l.length } := by
  induction l generalizing s with
  | nil => rfl
  | cons r l ih =>
    have hpath : (settle true r s).path = s.path := by simp
    have hfold : ∀ (l : List Record) (u : State) (p : Path),
        l.foldl (fun st r => settle true r st) (u.setPath p) =
          (l.foldl (fun st r => settle true r st) u).setPath p := by
      intro l
      induction l with
      | nil => exact fun u p => rfl
      | cons r l ih =>
        intro u p
        rw [List.foldl_cons, List.foldl_cons, settle_setPath, ih]
    rw [List.foldl_cons, ih, discardStaged, settle_setPath, hfold]
    simp [State.setPath]

theorem issueStep_of_waits {s : State} (h : s.issueWaits) : issueStep s = s := by
  unfold issueStep
  split_ifs
  · rw [issueLoop, (issueOnce_eq_none s).mpr h]
  · rfl

/-- With nothing staged or closed the advance does nothing. -/
theorem advance_of_empty {s : State} (hq : s.closeQueue = []) (hs : s.path.staging = []) : advance s = s := by
  have hdest : destinationStep s = s := by
    unfold destinationStep
    cases s.path.mode with
    | queue =>
      rw [hs]
      rfl
    | ring => exact issueStep_of_waits (.inl hs)
  rw [advance, hq]
  show advancePass s = s
  rw [advancePass, hdest, entryStep, hq]
  rfl

/-- The state that the OUTPUT scope leaves to its output advance. -/
def outputCleared (s : State) : State :=
  let s1 := s.setPath { s.path with results := [] }
  let s2 := s.path.staging.foldl discardStaged s1
  let s3 := s2.setPath { s2.path with ptr := 0, seq := 0 }
  s3.setRing s3.ring.resetOutput

theorem scopeOutput_eq (s : State) : scopeOutput s = advance (outputCleared s) := rfl

/-- The path and ring are reset; the discarded records settle lost. -/
theorem outputCleared_eq (s : State) :
    outputCleared s =
        { s with
          path := { s.path with staging := [], results := [], ptr := 0, seq := 0 }
          ring :=
            { s.ring with
              producer := 0, consumer := 0, lostPending := 0, firstLost := 0, state := .idle
              fault := RingFaultReg.cleared }
          chans := (outputCleared s).chans
          ints := (outputCleared s).ints } ∧
      (∀ c : ChanId, (outputCleared s).chan c =
        { s.chan c with
          loss := (s.chan c).loss || s.path.staging.any fun r => r.isSample && decide (r.channel = c) }) ∧
      Ints.afterEvents s.ints (outputCleared s).ints fun k => s.path.staging.countP fun r =>
        r.isSample && decide ((s.chan r.channel).bank.notify = .each) && decide (srcChan r.channel = k) := by
  have hlost := foldl_settlesLost s.path.staging (s.setPath { s.path with results := [] })
  unfold outputCleared
  dsimp only
  rw [foldl_discardStaged]
  generalize s.path.staging.foldl (fun st r => settle true r st) (s.setPath { s.path with results := [] }) = t at hlost
  refine ⟨?_, hlost.chan, hlost.ints⟩
  rw [hlost.rest]
  simp [State.setPath, State.setRing, Ring.resetOutput]

/-! ### The STATISTICS scope (R71) -/

theorem foldl_zeroStats_chan (l : List ChanId) (s : State) (c : ChanId) :
    (l.foldl zeroStats s).chan c = if c ∈ l then { s.chan c with stats := ChanStats.zero } else s.chan c := by
  induction l generalizing s with
  | nil => simp
  | cons d l ih =>
    rw [List.foldl_cons, ih, zeroStats, State.chan_modStats]
    by_cases hl : c ∈ l <;> by_cases hd : c = d <;> simp [hl, hd]

/-! ### The masks (R165) -/

theorem Ring.outputAllowed_iff (g : Ring) :
    g.outputAllowed = true ↔ g.state = .idle ∨ (g.state = .faulted ∧ ∀ u : WTag, (g.tag u).state ≠ .orphaned) := by
  have horphan : g.hasOrphan = false ↔ ∀ u : WTag, (g.tag u).state ≠ .orphaned := by
    rw [← Bool.not_eq_true, Ring.hasOrphan_iff]
    exact not_exists
  simp only [Ring.outputAllowed, Bool.or_eq_true, Bool.and_eq_true, decide_eq_true_eq, Bool.not_eq_true', horphan]

/-- A mask below 16 with one of its four bits set is admitted. -/
theorem maskOk_of_lt {others : Word} (h : others.toNat < 16) (k : Fin 4) : maskOk (withBit others k.val) = true := by
  have hall : ∀ (n : Fin 16) (k : Fin 4), maskOk (withBit (BitVec.ofNat 32 n.val) k.val) = true := by decide
  have := hall ⟨others.toNat, h⟩ k
  rwa [BitVec.ofNat_toNat, BitVec.setWidth_eq] at this

/-- An admitted mask: refused where it names OUTPUT on a ring that does not allow it, else applied. -/
theorem cmdReset_cases {m : Word} (hm : maskOk m = true) (s : State) :
    cmdReset m s =
      if m.getLsbD 1 = true ∧ ¬(s.ring.state = .idle ∨ (s.ring.state = .faulted ∧ ∀ u : WTag, (s.tag u).state ≠ .orphaned))
      then endWith .wrongState 0 [] s
      else endWith .ok 0 [] (applyScopes m s) := by
  have hallowed : (has m 1 && !s.ring.outputAllowed) = true ↔
      m.getLsbD 1 = true ∧ ¬(s.ring.state = .idle ∨ (s.ring.state = .faulted ∧ ∀ u : WTag, (s.tag u).state ≠ .orphaned)) := by
    rw [Bool.and_eq_true, Bool.not_eq_true', ← Bool.not_eq_true, Ring.outputAllowed_iff]
    rfl
  unfold cmdReset
  rw [hm]
  simp only [hallowed]
  rfl

/-- Settles O42: the admitted masks row by row, then the four scopes. -/
theorem resetAppliesItsScopes : Obligations.ResetAppliesItsScopes := by
  unfold Obligations.ResetAppliesItsScopes
  refine ⟨fun w others s h hlt p hp => ?_, fun s => ⟨scopeSampling_eq, ?_, rfl, fun c => ?_, rfl⟩⟩
  · have hrow (k : Fin 4) : writeEvent w .cmdPort (withBit others k.val) s =
        afterEvent (cmdReset (withBit others k.val) (s.executing w)) := cmdPort_param w _ .reset s h
    obtain ⟨k, rfl⟩ : ∃ k : Fin 4,
        p = (withBit others k.val, afterEvent (cmdReset (withBit others k.val) (s.executing w))) := by
      fin_cases hp
      exacts [⟨0, Prod.ext rfl (hrow 0)⟩, ⟨1, Prod.ext rfl (hrow 1)⟩, ⟨2, Prod.ext rfl (hrow 2)⟩, ⟨3, Prod.ext rfl (hrow 3)⟩]
    have hcases := cmdReset_cases (maskOk_of_lt hlt k) (s.executing w)
    refine ⟨fun hbit hno => congrArg afterEvent (hcases.trans (if_pos ⟨hbit, hno⟩)), fun hok => ?_⟩
    refine congrArg afterEvent (hcases.trans (if_neg ?_))
    rintro ⟨hbit, hno⟩
    rcases hok with hok | hok
    · rw [hbit] at hok
      cases hok
    · exact hno hok
  · obtain ⟨hrest, hchan, hints⟩ := outputCleared_eq s
    refine ⟨outputCleared s, rfl, fun hq => ?_, hrest, hchan, hints⟩
    rw [scopeOutput_eq]
    refine advance_of_empty ?_ ?_
    · rw [hrest]
      exact hq
    · rw [hrest]
  · rw [scopeStatistics, foldl_zeroStats_chan, if_pos (mem_chanIds c)]
    rfl

end Sys2Proof.Machine
end

