-- ==== Sys2Proof/Proofs/Beats.lean ====
section
/-! PROOF. The alert check, and the beats that meet one slot: uncounted requests, replies, and strays. -/

namespace Sys2Proof.Machine

/-! ### The alert check (R176, R177) -/

theorem alertWord_bytes (own : Node) (h : Source) (n : BitVec 8) :
    wordBytes (alertWord own h n) = [BitVec.ofNat 8 h.val, BitVec.ofNat 8 own.val, n, 0] := by
  have hown : (nodeBits own).setWidth 8 = BitVec.ofNat 8 own.val := by
    revert own
    decide
  have hnode : (fieldAt 8 (nodeBits own) : Word).extractLsb' 8 8 = BitVec.ofNat 8 own.val := by
    revert own
    decide
  simp [wordBytes, alertWord, BitVec.extractLsb'_or, extractLsb'_fieldAt_self, extractLsb'_fieldAt_of_disjoint, hnode]

theorem State.alertDue_eq_some (s : State) (h : Source) :
    s.alertDue = some h ↔ s.ints.alertEnable = true ∧ has s.present s.ints.alertNode = true ∧ s.ints.isHighest h ∧
      s.ints.alerted.getLsbD h.val = false := by
  unfold State.alertDue
  by_cases hen : (s.ints.alertEnable && has s.present s.ints.alertNode) = true
  · rw [if_pos hen, Option.filter_eq_some_iff, Ints.highest_eq_some]
    rw [Bool.and_eq_true] at hen
    rw [Bool.not_eq_true']
    exact ⟨fun h => ⟨hen.1, hen.2, h⟩, fun h => h.2.2⟩
  · rw [if_neg hen]
    rw [Bool.and_eq_true] at hen
    simp only [reduceCtorEq, false_iff]
    exact fun hall => hen ⟨hall.1, hall.2.1⟩

/-- Settles O46: the check sends where an alert is due, and else does nothing; every event ends with it. -/
theorem alertCheckSendsOneAlert : Obligations.AlertCheckSendsOneAlert := by
  unfold Obligations.AlertCheckSendsOneAlert
  intro s hl x
  have hexec : exec .alert s = .next (alertCheck s) := innerStep_of_live alertCheck s hl
  refine ⟨fun h hen hnode hhigh hal => ?_, fun hnot => ?_, hexec.symm⟩
  · rw [hexec, alertCheck, (s.alertDue_eq_some h).mpr ⟨hen, hnode, hhigh, hal⟩]
    simp only [alertBeat, alertWord_bytes]
    rfl
  · have hnone : s.alertDue = none := by
      rw [Option.eq_none_iff_forall_ne_some]
      intro k hk
      obtain ⟨hen, hnode, hhigh, hal⟩ := (s.alertDue_eq_some k).mp hk
      rcases hnot with h | h | h | ⟨h, hh, ha⟩
      · exact absurd (hen.symm.trans h) (by simp)
      · exact absurd (hnode.symm.trans h) (by simp)
      · exact h k hhigh.1
      · have hkh : h = k := by
          rcases lt_trichotomy h k with hlt | heq | hgt
          · exact absurd hh.1 (hhigh.2 h hlt)
          · exact heq
          · exact absurd hhigh.1 (hh.2 k hgt)
        rw [hkh] at ha
        exact absurd (hal.symm.trans ha) (by simp)
    rw [hexec, alertCheck, hnone]

/-! ### What a closing leaves of the channels' counting -/

/-- t has the time base of s, the banks and the counts of its channels, and the same of them DISARMED. -/
structure SameCounting (s t : State) : Prop where
  tb : t.tb = s.tb
  ownId : t.ownId = s.ownId
  bank : ∀ c, (t.chan c).bank = (s.chan c).bank
  count : ∀ c, (t.chan c).count = (s.chan c).count
  counted : ∀ c, (t.chan c).stats.counted = (s.chan c).stats.counted
  fires : ∀ c, (t.chan c).stats.fires = (s.chan c).stats.fires
  disarmed : ∀ c, (t.chan c).run = .disarmed ↔ (s.chan c).run = .disarmed

namespace SameCounting

variable {s t u : State}

theorem refl (s : State) : SameCounting s s := ⟨rfl, rfl, fun _ => rfl, fun _ => rfl, fun _ => rfl, fun _ => rfl, fun _ => Iff.rfl⟩

theorem trans (h1 : SameCounting s t) (h2 : SameCounting t u) : SameCounting s u :=
  ⟨h2.tb.trans h1.tb, h2.ownId.trans h1.ownId, fun c => (h2.bank c).trans (h1.bank c),
    fun c => (h2.count c).trans (h1.count c), fun c => (h2.counted c).trans (h1.counted c),
    fun c => (h2.fires c).trans (h1.fires c), fun c => (h2.disarmed c).trans (h1.disarmed c)⟩

theorem of_chans (htb : t.tb = s.tb) (hown : t.ownId = s.ownId) (hchans : t.chans = s.chans) : SameCounting s t := by
  have hchan : ∀ c, t.chan c = s.chan c := fun c => by simp [State.chan, hchans]
  refine ⟨htb, hown, ?_, ?_, ?_, ?_, ?_⟩ <;> simp [hchan]

theorem setChan (s : State) (c : ChanId) (x : Channel) (hb : x.bank = (s.chan c).bank) (hn : x.count = (s.chan c).count)
    (hc : x.stats.counted = (s.chan c).stats.counted) (hf : x.stats.fires = (s.chan c).stats.fires)
    (hr : x.run = .disarmed ↔ (s.chan c).run = .disarmed) : SameCounting s (s.setChan c x) := by
  refine ⟨rfl, rfl, fun d => ?_, fun d => ?_, fun d => ?_, fun d => ?_, fun d => ?_⟩ <;>
    rw [State.chan_setChan] <;> by_cases hd : d = c <;> simp_all

theorem counts_iff (h : SameCounting s t) (c : ChanId) (r : Request) : t.counts c r ↔ s.counts c r := by
  simp only [State.counts, h.tb, h.ownId, h.bank, ne_eq, h.disarmed]

end SameCounting

theorem endCommand_sameCounting (st : Status) (s : State) : SameCounting s (endCommand st s) :=
  SameCounting.of_chans (by simp) (by simp) (by simp)

theorem drainTest_sameCounting (s : State) : SameCounting s (drainTest s) := by
  unfold drainTest
  split_ifs
  · exact endCommand_sameCounting .ok s
  · exact SameCounting.refl s

theorem settle_sameCounting (lost : Bool) (x : Record) (s : State) : SameCounting s (settle lost x s) :=
  settle_keeps (P := SameCounting s)
    (fun t c h => h.trans (SameCounting.setChan t c _ rfl rfl rfl rfl Iff.rfl))
    (fun _ _ h => h.trans (SameCounting.of_chans rfl rfl rfl)) lost x s (SameCounting.refl s)

theorem heldEntry_sameCounting (c : ChanId) (s : State) : SameCounting s (heldEntry c s) := by
  unfold heldEntry
  split
  · split
    · next hr => exact SameCounting.setChan s c _ rfl rfl rfl rfl (by simp [hr])
    · next hr =>
      unfold cancelArming
      have hcollide : SameCounting s (collide c s) := SameCounting.setChan s c _ rfl rfl rfl rfl Iff.rfl
      have hrun : ((collide c s).chan c).run = .armed := by simp [collide, State.chan_modStats, hr]
      split
      · next i hi =>
        unfold cancelAt
        exact (hcollide.trans (SameCounting.of_chans (t := (collide c s).setSlot i Slot.cleared) rfl rfl rfl)).trans
          (SameCounting.setChan _ c _ rfl rfl rfl rfl (by simp [hrun]))
      · exact hcollide.trans (SameCounting.setChan _ c _ rfl rfl rfl rfl (by simp [hrun]))
    · exact SameCounting.refl s
    · exact SameCounting.refl s
  · exact SameCounting.refl s

theorem enterStaging_sameCounting (i : SlotId) (rest : List SlotId) (s : State) :
    SameCounting s (enterStaging i rest s) := by
  unfold enterStaging
  refine SameCounting.trans ?_ (heldEntry_sameCounting _ _)
  refine SameCounting.trans ?_ (SameCounting.setChan _ _ _ rfl rfl rfl rfl Iff.rfl)
  exact SameCounting.of_chans rfl rfl rfl

theorem advance_sameCounting (s : State) : SameCounting s (advance s) := by
  refine advance_keeps (P := SameCounting s) ?_ ?_ ?_ s (SameCounting.refl s)
  · intro t x rest _ _ _ h
    refine moveToQueue_keeps (P := SameCounting s) ?_ ?_ ?_ ?_ x rest t h
    · exact fun u p hu => hu.trans (SameCounting.of_chans rfl rfl rfl)
    · exact fun u c hu => hu.trans (SameCounting.setChan u c _ rfl rfl rfl rfl Iff.rfl)
    · exact fun u k hu => hu.trans (SameCounting.of_chans rfl rfl rfl)
    · exact fun u _ _ hu => hu.trans (endCommand_sameCounting .ok u)
  · intro t x rest hx h
    refine ⟨fun _ u _ => ⟨fun _ => ?_, fun _ => ?_⟩, fun _ _ => ?_⟩
    · exact h.trans (SameCounting.of_chans rfl rfl rfl)
    · exact h.trans (SameCounting.of_chans rfl rfl rfl)
    · refine h.trans (SameCounting.trans (SameCounting.trans ?_ (settle_sameCounting true x _))
        (drainTest_sameCounting _))
      exact SameCounting.of_chans rfl rfl rfl
  · exact fun t i rest _ _ h => h.trans (enterStaging_sameCounting i rest t)

/-- A closing counts, fires and reloads nothing (R87). -/
theorem closeSlot_sameCounting (i : SlotId) (e : Ending) (s : State) : SameCounting s (closeSlot i e s) := by
  unfold closeSlot
  dsimp only
  split
  · refine SameCounting.trans ?_ (advance_sameCounting _)
    exact SameCounting.of_chans rfl rfl rfl
  · refine SameCounting.trans ?_ (drainTest_sameCounting _)
    refine SameCounting.trans ?_ (SameCounting.setChan _ _ _ rfl rfl rfl rfl Iff.rfl)
    exact SameCounting.of_chans rfl rfl rfl

theorem watchMatch_sameCounting (r : Request) (s : State) : SameCounting s (watchMatch r s) := by
  unfold watchMatch
  split
  · exact SameCounting.refl s
  · split
    · split
      · exact SameCounting.of_chans rfl rfl rfl
      · exact SameCounting.refl s
    · unfold supersede
      split
      · refine SameCounting.trans ?_ (closeSlot_sameCounting _ _ _)
        exact SameCounting.of_chans rfl rfl rfl
      · exact closeSlot_sameCounting _ _ s

/-! ### Requests that qualify for no channel (R82, R83) -/

/-- A request that qualifies for no channel is matched against the watched pairs, and nothing else (R58). -/
theorem snoopRequest_of_not_counts {r : Request} {s : State} (h : ∀ c, ¬s.counts c r) :
    snoopRequest r s = watchMatch r s := by
  have hafter : ∀ c, ¬(watchMatch r s).counts c r := fun c => mt ((watchMatch_sameCounting r s).counts_iff c r).mp (h c)
  rw [snoopRequest, visitChannels_of_not_counts r _ hafter]
  rfl

/-- Settles O49: such a request passes the channels by, and meets the slot on its pair. -/
theorem uncountedRequestsOnlyMeetTheirPair : Obligations.UncountedRequestsOnlyMeetTheirPair := by
  unfold Obligations.UncountedRequestsOnlyMeetTheirPair
  intro r s hl hw hs hcounts a
  have hexec : exec (.snoopedRequest r) s = afterEvent (watchMatch r a) :=
    (requestEvent_snooped r s hl hw hs).trans (congrArg afterEvent (snoopRequest_of_not_counts hcounts))
  refine ⟨fun hun => ?_, fun i hi => ?_⟩
  · rw [hexec, watchMatch, (a.matchPair_eq_none _ _).mpr hun]
  · have hmatch : watchMatch r a =
        if r.reissue then (if (a.slot i).state = .bounced then reopen i a else a) else supersede i a := by
      rw [watchMatch, (a.matchPair_eq_some _ _ i).mpr hi]
    have hslot : a.slot i = s.slot i := rfl
    rw [hexec, hmatch, hslot]
    refine ⟨fun hr hb => ?_, fun hr ho => ?_, fun hr hb => ?_, fun hr ho => ?_⟩
    · rw [if_pos hr, if_pos hb]
      rfl
    · rw [if_pos hr, if_neg (by simp [ho])]
    · rw [if_neg (by simp [hr]), supersede, if_neg (by simp [hslot, hb])]
    · rw [if_neg (by simp [hr]), supersede, if_pos (by simp [hslot, ho])]
      rfl

/-! ### Replies to watched transactions (R77–R81) -/

theorem exec_finalReply (responder n : Node) (tag : Tag) (k : FinalKind) (s : State) (hl : s.live = true)
    (hk : k.body.wf = true) (hn : n ≠ s.ownId) :
    exec (.finalReply responder n tag k) s =
      afterEvent (snoopReply { responder := responder, initiator := n, tag := tag, body := k.body } s) := by
  have h := replyEvent_of_live { responder := responder, initiator := n, tag := tag, body := k.body } s hl
    (by simpa [Reply.wf] using hk)
  refine h.trans (congrArg afterEvent ?_)
  rw [replyBeat, if_neg hn]

theorem snoopReply_of_follows {r : Reply} {i : SlotId} {s : State} (h : s.follows i r.initiator r.tag) :
    snoopReply r s = replyToSlot i r.body s := by
  rw [snoopReply, (s.matchPair_eq_some _ _ i).mpr h]

theorem replyToSlot_of_bounced {i : SlotId} {b : ReplyBody} {s : State} (h : (s.slot i).state = .bounced) :
    replyToSlot i b s = countStray s := by
  cases b <;> exact if_pos h

section Opened

variable {i : SlotId} {s : State} (h : (s.slot i).state = .opened)

include h

theorem not_bounced_of_opened : ¬(s.slot i).state = .bounced := by simp [h]

theorem replyToSlot_data (p : List Byte) : replyToSlot i (.data p) s = completeSlot i (.data p) s :=
  if_neg (not_bounced_of_opened h)

theorem replyToSlot_done : replyToSlot i .done s = completeSlot i .done s := if_neg (not_bounced_of_opened h)

theorem replyToSlot_fault (code : BitVec 4) : replyToSlot i (.fault code) s = faultSlot i code s :=
  if_neg (not_bounced_of_opened h)

theorem replyToSlot_bounce : replyToSlot i .bounce s = bounceSlot i s := if_neg (not_bounced_of_opened h)

end Opened

/-- Settles O50: the slot's new latencies, and the closing that the reply's kind decides. -/
theorem repliesMoveTheOpenSlot : Obligations.RepliesMoveTheOpenSlot := by
  unfold Obligations.RepliesMoveTheOpenSlot
  refine ⟨fun responder n tag p code i s hl hn hf ho => ?_, fun responder n tag i s hl hn hf ho => ?_⟩
  · intro x closed anomalous
    have hreply (k : FinalKind) (hk : k.body.wf = true) :
        exec (.finalReply responder n tag k) s = afterEvent (replyToSlot i k.body s) := by
      rw [exec_finalReply responder n tag k s hl hk hn, snoopReply_of_follows hf]
    refine ⟨?_, ?_, fun hc => ?_⟩
    · refine (hreply (.data p) rfl).trans ((congrArg afterEvent (replyToSlot_data ho p)).trans ?_)
      have hfits : fits x.kind (.data p) = true ↔ x.kind = .read ∨ x.kind = .swap := by simp [fits]
      by_cases hx : x.kind = .read ∨ x.kind = .swap
      · rw [if_pos hx]
        exact congrArg afterEvent (if_pos (hfits.mpr hx))
      · rw [if_neg hx]
        exact congrArg afterEvent (if_neg (mt hfits.mp hx))
    · refine (hreply .done rfl).trans ((congrArg afterEvent (replyToSlot_done ho)).trans ?_)
      have hfits : fits x.kind .done = true ↔ x.kind = .write := by simp [fits]
      by_cases hx : x.kind = .write
      · rw [if_pos hx]
        exact congrArg afterEvent (if_pos (hfits.mpr hx))
      · rw [if_neg hx]
        exact congrArg afterEvent (if_neg (mt hfits.mp hx))
    · refine (hreply (.fault code) (by simpa [FinalKind.body, ReplyBody.wf] using hc)).trans (congrArg afterEvent ?_)
      exact replyToSlot_fault ho code
  · have h := replyEvent_of_live { responder := responder, initiator := n, tag := tag, body := .bounce } s hl rfl
    refine h.trans (congrArg afterEvent ?_)
    rw [replyBeat, if_neg hn, snoopReply_of_follows hf]
    have hcount : satInc ((s.slot i).withWait).bounces =
        if (s.slot i).bounces = 15 then 15 else (s.slot i).bounces + 1 := by
      rw [satInc]
      by_cases h15 : (s.slot i).bounces = 15
      · rw [if_pos h15]
        exact (if_pos h15).trans h15
      · rw [if_neg h15]
        exact if_neg h15
    rw [← hcount]
    exact replyToSlot_bounce ho

/-! ### Strays (R16, R78) -/

/-- Settles O51: each of the four kinds of stray. -/
theorem strayRepliesAreOnlyCounted : Obligations.StrayRepliesAreOnlyCounted := by
  unfold Obligations.StrayRepliesAreOnlyCounted
  intro r s hl hw hr
  refine (replyEvent_of_live r s hl hw).trans (congrArg afterEvent ?_)
  rw [replyBeat]
  rcases hr with ⟨hn, hun | ⟨i, hf, hb⟩⟩ | ⟨hn, htag⟩
  · rw [if_neg hn, snoopReply, (s.matchPair_eq_none _ _).mpr hun]
    rfl
  · rw [if_neg hn, snoopReply_of_follows hf, replyToSlot_of_bounced hb]
    rfl
  · rw [if_pos hn, ownReply]
    rcases htag with h5 | ⟨u, hu, hni, hno⟩
    · exact dif_neg (Nat.not_lt.mpr h5)
    · have hlt : r.tag.val < 5 := hu ▸ u.isLt
      have huu : u = ⟨r.tag.val, hlt⟩ := Fin.ext hu
      rw [dif_pos hlt, ← huu, replyToTag]
      cases hst : (s.tag u).state with
      | issued => exact absurd hst hni
      | orphaned => exact absurd hst hno
      | free => rfl
      | backoff => rfl
      | done => rfl

end Sys2Proof.Machine
end

