-- ==== Sys2Proof/Proofs/SingleSteps.lean ====
section
/-! PROOF. The rows that run one step of a reaction by itself (log entry 3), and the replies to the observer's own writes. -/

namespace Sys2Proof.Machine

/-! ### The five tests of a tick (R85, R134, R135, R138, R164) -/

theorem State.expiryDue_iff (s : State) (i : SlotId) :
    s.expiryDue i = true ↔ (s.slot i).isLive = true ∧ s.watchLimit ≠ 0 ∧ s.watchLimit.toNat ≤ (s.slot i).age.toNat := by
  simp only [State.expiryDue, Bool.and_eq_true, decide_eq_true_eq, and_assoc]

theorem tagBeat_eq (own : Node) (g : Ring) (u : WTag) (x : WriteTag) (b : Bool) :
    tagBeat own g u x b = .request
      { initiator := own, target := some x.dest, tag := Fin.ofNat 16 u.val, kind := .write, reissue := b,
        address := if u = 4 then g.wbAddr else g.base + BitVec.ofNat 32 (32 * (x.position.toNat % g.size.toNat)),
        length := if u = 4 then 4 else 32,
        payload := if u = 4 then wordBytes (x.value.setWidth 32) else x.record.bytes } := by
  unfold tagBeat
  by_cases hu : u = wbTag
  · have hu4 : u = 4 := hu
    subst hu4
    rfl
  · have hu4 : ¬u = 4 := hu
    simp only [if_neg hu, if_neg hu4]
    rfl

theorem drainTimeoutTest_iff (s : State) :
    (s.cmd.isExecuting .drain && decide (s.cmd.drainTimeout ≠ 0) &&
        decide (s.cmd.drainTimeout.toNat ≤ s.cmd.drainTicks.toNat)) = true ↔
      s.cmd.phase = .executing ∧ s.cmd.code = Command.drain.code ∧ s.cmd.drainTimeout ≠ 0 ∧
        s.cmd.drainTimeout.toNat ≤ s.cmd.drainTicks.toNat := by
  simp only [Bool.and_eq_true, Processor.isExecuting_iff, decide_eq_true_eq, and_assoc]

/-- Settles O22: each test by its own condition. -/
theorem tickTestsActOneAtATime : Obligations.TickTestsActOneAtATime := by
  unfold Obligations.TickTestsActOneAtATime
  refine ⟨fun i s hl => ⟨fun hlive h0 hage => ?_, fun hno => ?_⟩,
    fun u s hl => ⟨fun hb h0 => ?_, fun hi hlim => ?_, fun ho hlim => ?_, fun hp hc h0 ht => ?_, fun hno => ?_, fun hno => ?_,
      fun hno => ?_, fun hno => ?_⟩⟩
  · refine (innerStep_of_live _ s hl).trans (congrArg Host.Outcome.next ?_)
    exact if_pos ((s.expiryDue_iff i).mpr ⟨hlive, h0, hage⟩)
  · refine (innerStep_of_live _ s hl).trans (congrArg Host.Outcome.next ?_)
    exact if_neg (mt (s.expiryDue_iff i).mp hno)
  · refine (innerStep_of_live _ s hl).trans (congrArg Host.Outcome.next ?_)
    refine (if_pos ⟨hb, h0⟩).trans ?_
    dsimp only
    rw [tagBeat_eq]
  · refine (innerStep_of_live _ s hl).trans (congrArg Host.Outcome.next ?_)
    exact if_pos ⟨hi, decide_eq_true hlim⟩
  · refine (innerStep_of_live _ s hl).trans (congrArg Host.Outcome.next ?_)
    exact if_pos ⟨ho, decide_eq_true hlim⟩
  · refine (innerStep_of_live _ s hl).trans (congrArg Host.Outcome.next ?_)
    exact if_pos ((drainTimeoutTest_iff s).mpr ⟨hp, hc, h0, ht⟩)
  · refine (innerStep_of_live _ s hl).trans (congrArg Host.Outcome.next ?_)
    exact if_neg hno
  · refine (innerStep_of_live _ s hl).trans (congrArg Host.Outcome.next ?_)
    exact if_neg fun h => hno ⟨h.1, of_decide_eq_true h.2⟩
  · refine (innerStep_of_live _ s hl).trans (congrArg Host.Outcome.next ?_)
    exact if_neg fun h => hno ⟨h.1, of_decide_eq_true h.2⟩
  · refine (innerStep_of_live _ s hl).trans (congrArg Host.Outcome.next ?_)
    exact if_neg (mt (drainTimeoutTest_iff s).mp hno)

/-! ### The stop test and the drain test (R145, R164) -/

theorem stopTest_iff (s : State) :
    (decide (s.ring.state = .stopping) && s.ring.tagsFree) = true ↔
      s.ring.state = .stopping ∧ ∀ u : WTag, (s.tag u).state = .free := by
  rw [Bool.and_eq_true, decide_eq_true_iff, Ring.tagsFree_iff]
  rfl

theorem stopTest_of_not {s : State} (h : ¬(s.ring.state = .stopping ∧ ∀ u : WTag, (s.tag u).state = .free)) :
    stopTest s = s :=
  if_neg (mt (stopTest_iff s).mp h)

theorem stopTest_of {s : State} (h : s.ring.state = .stopping ∧ ∀ u : WTag, (s.tag u).state = .free) :
    stopTest s =
      if s.cmd.isExecuting .ringStop then
        endWith .ok 0 [s.ring.producer.setWidth 32] { s with ring := { s.ring with state := .idle } }
      else { s with ring := { s.ring with state := .idle } } :=
  if_pos ((stopTest_iff s).mpr h)

/-- Settles O60: the two tests by their conditions. -/
theorem stopAndDrainComplete : Obligations.StopAndDrainComplete := by
  unfold Obligations.StopAndDrainComplete
  intro s hl free met
  refine ⟨fun hs hf => ?_, fun hno => ?_, ?_⟩
  · refine (innerStep_of_live _ s hl).trans (congrArg Host.Outcome.next ((stopTest_of ⟨hs, hf⟩).trans ?_))
    simp only [Processor.isExecuting_iff]
    rfl
  · exact (innerStep_of_live _ s hl).trans (congrArg Host.Outcome.next (stopTest_of_not hno))
  · refine (innerStep_of_live _ s hl).trans (congrArg Host.Outcome.next ?_)
    have hiff : (s.cmd.isExecuting .drain && s.drained) = true ↔
        (s.cmd.phase = .executing ∧ s.cmd.code = 0x42) ∧ met := by
      rw [Bool.and_eq_true, Processor.isExecuting_iff, State.drained_iff]
      rfl
    unfold drainTest
    simp only [hiff]
    rfl

/-! ### The two queues (R65, R109, R117, R120, R122) -/

theorem settle_of_not_sample {x : Record} (h : x.isSample = false) (lost : Bool) (s : State) : settle lost x s = s := by
  rw [settle, h]
  rfl

/-- A SAMPLE settles: LOSS where it is lost, and the channel's event under NOTIFY EACH. -/
theorem settle_of_sample {x : Record} (h : x.isSample = true) (lost : Bool) (s : State) :
    settle lost x s =
      if (s.chan x.channel).bank.notify = .each then
        (s.setChan x.channel { s.chan x.channel with loss := (s.chan x.channel).loss || lost }).raise (srcChan x.channel)
      else s.setChan x.channel { s.chan x.channel with loss := (s.chan x.channel).loss || lost } := by
  have hsame : s.setChan x.channel { s.chan x.channel with loss := (s.chan x.channel).loss } = s := by
    have hchans : (s.setChan x.channel (s.chan x.channel)).chans = s.chans := by
      refine State.chans_ext fun c => ?_
      rw [State.chan_setChan]
      split_ifs with hc
      · rw [hc]
      · rfl
    show { s with chans := (s.setChan x.channel (s.chan x.channel)).chans } = s
    rw [hchans]
  unfold settle
  rw [h]
  cases lost
  · simp only [Bool.or_false, hsame]
    rfl
  · simp only [Bool.or_true]
    rfl

theorem crosses_iff (a b n : Nat) : crosses a b n = true ↔ a < n ∧ n ≤ b := by
  simp [crosses]

/-- Settles O54: the entry and the move where there is room, the HELD entry by run state, and settling by record type. -/
theorem recordsMoveDownTheOutputPath : Obligations.RecordsMoveDownTheOutputPath := by
  unfold Obligations.RecordsMoveDownTheOutputPath
  refine ⟨⟨fun s hl => ⟨fun i rest hq hroom => ?_, fun hno => ?_⟩, fun c s => ⟨fun h => ?_, fun hn hr => ?_, fun hn hr i hi hic hlow => ?_⟩⟩,
    fun s hl => ⟨fun x rest hx hmode hroom => ?_, fun hno => ?_⟩, fun lost x s => ⟨fun h => ?_, fun h hn => ?_, fun h hn => ?_⟩⟩
  · have hentry := (entryOnce_eq_some s _).mpr ⟨i, rest, hq, hroom, rfl⟩
    refine (innerStep_of_live _ s hl).trans (congrArg Host.Outcome.next ?_)
    rw [hentry]
    rfl
  · have hentry : entryOnce s = none := by
      rw [Option.eq_none_iff_forall_ne_some]
      intro t ht
      obtain ⟨i, rest, hq, hroom, -⟩ := (entryOnce_eq_some s t).mp ht
      rcases hno with h | h
      · rw [h] at hq
        cases hq
      · omega
    refine (innerStep_of_live _ s hl).trans (congrArg Host.Outcome.next ?_)
    rw [hentry]
    rfl
  · unfold heldEntry
    rcases h with h | h | h
    · rw [if_neg (by simp [h])]
    · rw [h]
      split_ifs <;> rfl
    · rw [h]
      split_ifs <;> rfl
  · rw [heldEntry, if_pos hn, hr]
    rfl
  · have hslot := (s.reservedSlot_eq_some c i).mpr ⟨⟨hi, hic⟩, hlow⟩
    rw [heldEntry, if_pos hn, hr]
    show cancelArming c .held s = _
    rw [cancelArming, hslot]
    show (((s.setSlot i Slot.cleared).setChan c _).setChan c _) = _
    rw [State.setChan_setChan]
    simp [collide, State.chan_modStats]
  · have hmove := (queueOnce_eq_some s _).mpr ⟨x, rest, hx, hmode, hroom, rfl⟩
    refine (innerStep_of_live _ s hl).trans (congrArg Host.Outcome.next ?_)
    rw [hmove]
    show moveToQueue x rest s = _
    have hlen : (s.setPath { s.path with staging := rest, results := s.path.results ++ [x] }).path.results.length =
        s.path.results.length + 1 := by simp
    unfold moveToQueue raiseIfCrossed
    dsimp only
    rw [hlen]
    simp only [crosses_iff]
    rfl
  · have hmove : queueOnce s = none := by
      rw [Option.eq_none_iff_forall_ne_some]
      intro t ht
      obtain ⟨x, rest, hx, hmode, hroom, -⟩ := (queueOnce_eq_some s t).mp ht
      rcases hno with h | h | h
      · rw [h] at hx
        cases hx
      · rw [h] at hmode
        cases hmode
      · omega
    refine (innerStep_of_live _ s hl).trans (congrArg Host.Outcome.next ?_)
    rw [hmove]
    rfl
  · exact settle_of_not_sample (decide_eq_false h) lost s
  · rw [settle_of_sample (decide_eq_true h), if_neg (by simp [hn])]
  · rw [settle_of_sample (decide_eq_true h), if_pos hn]

/-! ### Issue (R130–R132) -/

theorem ringSize_pos {n : Nat} (h : ringSizeOk n = true) : 0 < n := by
  obtain ⟨k, -, -, rfl⟩ := (ringSizeOk_iff n).mp h
  positivity

theorem Ring.hasSpace_iff (g : Ring) (h : 0 < g.n) :
    g.hasSpace = true ↔ g.fillInt + g.inFlight < (g.size.toNat : Int) := by
  have hfill := Ring.fill_eq g h
  rw [Ring.hasSpace, decide_eq_true_iff, ← hfill]
  unfold Ring.n
  omega

theorem satAdd_one (a : Word) : satAdd a 1 = if a = 0xFFFFFFFF then 0xFFFFFFFF else a + 1 := by
  have hmax : a = 0xFFFFFFFF ↔ a.toNat = 2 ^ 32 - 1 := by
    constructor
    · rintro rfl
      rfl
    · exact fun h => BitVec.eq_of_toNat_eq h
  have hlt := a.isLt
  unfold satAdd
  by_cases ha : a = 0xFFFFFFFF
  · have h := hmax.mp ha
    rw [if_neg (by omega), if_pos ha]
    decide
  · have h := mt hmax.mpr ha
    rw [if_pos (by omega), if_neg ha]
    apply BitVec.eq_of_toNat_eq
    simp

theorem issueOne_eq {s : State} (hrun : s.engineRuns = true) (hgap : s.gapNext = false) :
    issueOne s = (issueOnce s).getD s := by
  rw [issueOne, hrun, hgap]
  rfl

theorem gapOne_eq {s : State} (hrun : s.engineRuns = true) (hgap : s.gapNext = true) :
    gapOne s = (issueOnce s).getD s := by
  rw [gapOne, hrun, hgap]
  rfl

theorem issueOne_of_gapNext {s : State} (hgap : s.gapNext = true) : issueOne s = s := by
  rw [issueOne, hgap]
  simp

theorem gapOne_of_not_gapNext {s : State} (hgap : s.gapNext = false) : gapOne s = s := by
  rw [gapOne, hgap]
  simp

/-- Settles O56: what the issue step does with the head of staging, by space, tag and pending loss. -/
theorem issueWritesGapsAndDrops : Obligations.IssueWritesGapsAndDrops := by
  unfold Obligations.IssueWritesGapsAndDrops
  refine ⟨fun s hl h => ?_, fun x rest s hl hmode hstate hx hsize => ?_⟩
  · have hissue : exec .issue s = .next (issueOne s) := innerStep_of_live issueOne s hl
    have hgap : exec .gapIssue s = .next (gapOne s) := innerStep_of_live gapOne s hl
    rw [hissue, hgap]
    rcases h with h | h | h
    · have hnone : issueOnce s = none := (issueOnce_eq_none s).mpr (.inl h)
      unfold issueOne gapOne
      rw [hnone]
      simp
    · have hruns : s.engineRuns = false := by simp [State.engineRuns, h]
      simp [issueOne, gapOne, hruns]
    · have hruns : s.engineRuns = false := by simp [State.engineRuns, h]
      simp [issueOne, gapOne, hruns]
  intro g k space position beat issued gap
  have hissue : exec .issue s = .next (issueOne s) := innerStep_of_live issueOne s hl
  have hgapIssue : exec .gapIssue s = .next (gapOne s) := innerStep_of_live gapOne s hl
  have hruns : s.engineRuns = true := by simp [State.engineRuns, hmode, hstate]
  have hspace : s.ring.hasSpace = true ↔ space := s.ring.hasSpace_iff (ringSize_pos hsize)
  have hgapNext : s.gapNext = true ↔ space ∧ g.lostPending ≠ 0 := by
    rw [State.gapNext, Bool.and_eq_true, hspace, decide_eq_true_iff]
  have hwaits (h : s.issueWaits) : issueOnce s = none := (issueOnce_eq_none s).mpr h
  rw [hissue, hgapIssue]
  refine ⟨fun u hu hfree hlow hsp => ?_, fun hbusy hsp => ?_, fun hsp hlost => ?_, fun hno => ?_, fun hsp hpol => ?_,
    fun hsp hpol => ?_⟩
  · have htag : s.ring.freeRecTag = some u := (s.ring.freeRecTag_eq_some u).mpr ⟨hu, hfree, hlow⟩
    refine ⟨fun hlost => ?_, fun hlost => ?_⟩
    · have hno : s.gapNext = false := by
        rw [← Bool.not_eq_true, hgapNext]
        exact fun h => h.2 hlost
      have honce : issueOnce s = some (issueHead u x rest s) := by
        rw [issueOnce, hx]
        simp only [hspace.mpr hsp, htag, if_true]
        exact if_neg (not_not_intro hlost)
      rw [issueOne_eq hruns hno, honce]
      rfl
    · have honce : issueOnce s = some (issueGap u s) := by
        rw [issueOnce, hx]
        simp only [hspace.mpr hsp, htag, if_true]
        exact if_pos hlost
      rw [gapOne_eq hruns (hgapNext.mpr ⟨hsp, hlost⟩), honce]
      rfl
  · have hnone := hwaits (.inr (.inl ⟨hspace.mpr hsp, fun t ht => hbusy t ((mem_recTags t).mp ht)⟩))
    unfold issueOne gapOne
    rw [hnone]
    simp
  · rw [issueOne_of_gapNext (hgapNext.mpr ⟨hsp, hlost⟩)]
  · have hnot : s.gapNext = false := by
      rw [← Bool.not_eq_true, hgapNext]
      tauto
    rw [gapOne_of_not_gapNext hnot]
  · have hfull : s.ring.hasSpace = false := by
      rw [← Bool.not_eq_true]
      exact mt hspace.mp hsp
    have hnone := hwaits (.inr (.inr ⟨hfull, hpol⟩))
    unfold issueOne
    rw [hnone]
    simp
  · have hfull : s.ring.hasSpace = false := by
      rw [← Bool.not_eq_true]
      exact mt hspace.mp hsp
    have hno : s.gapNext = false := by simp [State.gapNext, hfull]
    have honce : issueOnce s = some (dropHead x rest s) := by
      rw [issueOnce, hx]
      have hpol' : s.ring.policy = .drop := hpol
      simp only [hfull, hpol', Bool.false_eq_true, if_false]
    rw [issueOne_eq hruns hno, honce]
    show Host.Outcome.next (dropHead x rest s) = _
    rw [← satAdd_one]
    rfl

/-! ### The writes and their replies (R134, R135, R138, R140, R141) -/

theorem writebackIfDue_iff (s : State) :
    (decide (s.ring.wbAddr ≠ 0) && decide ((s.tag wbTag).state = .free) && s.ring.active) = true ↔
      s.ring.wbAddr ≠ 0 ∧ (s.tag 4).state = .free ∧ (s.ring.state = .running ∨ s.ring.state = .stopping) := by
  rw [Bool.and_eq_true, Bool.and_eq_true, decide_eq_true_iff, decide_eq_true_iff, Ring.active_iff, and_assoc]
  rfl

/-- A reply of the observer's own for an ISSUED tag (R15). -/
theorem ownReplyEvent_issued (responder : Node) (u : WTag) (b : ReplyBody) (s : State) (hl : s.live = true)
    (hb : b.wf = true) (hu : (s.tag u).state = .issued) :
    ownReplyEvent responder (u.castLE (by decide)) b s = afterEvent (replyToIssued u b s) := by
  rw [ownReplyEvent_tag responder u b s hl hb, replyToTag, hu]

/-- Settles O58: the writeback decision, and the replies by tag state. -/
theorem writesAndTheirReplies : Obligations.WritesAndTheirReplies := by
  unfold Obligations.WritesAndTheirReplies
  refine ⟨fun responder p s hl => ?_, fun responder u code b s hl => ?_⟩
  · have hrow : exec .writeback s = .next (writebackIfDue s) := innerStep_of_live writebackIfDue s hl
    refine ⟨fun hdue => ?_, fun hno => ?_, fun hu => ⟨?_, ?_⟩⟩
    · rw [hrow]
      exact congrArg Host.Outcome.next (if_pos ((writebackIfDue_iff s).mpr hdue))
    · rw [hrow]
      exact congrArg Host.Outcome.next (if_neg (mt (writebackIfDue_iff s).mp hno))
    · exact ownReplyEvent_issued responder 4 .done s hl rfl hu
    · exact ownReplyEvent_issued responder 4 (.data p) s hl rfl hu
  · refine ⟨fun hu hn => ?_, fun hu hn => ?_, fun hu hc => ?_, fun hu hb => ?_⟩
    · refine (ownReplyEvent_issued responder u .bounce s hl rfl hu).trans (congrArg afterEvent ?_)
      exact if_neg (Nat.not_le.mpr hn)
    · refine (ownReplyEvent_issued responder u .bounce s hl rfl hu).trans (congrArg afterEvent ?_)
      exact if_pos hn
    · exact ownReplyEvent_issued responder u (.fault code) s hl (by simpa [ReplyBody.wf] using hc) hu
    · refine (ownReplyEvent_tag responder u b s hl hb).trans (congrArg afterEvent ?_)
      rw [replyToTag, hu]
      rfl

end Sys2Proof.Machine
end

