-- ==== Sys2Proof/Proofs/Advance.lean ====
section
/-! PROOF. The output advance as a sequence of single moves, and where it ends: with nothing left that could move. -/

namespace Sys2Proof.Machine

/-! ### The single moves (R109, R117, R130, R131) -/

/-- One move of the output advance, with the condition under which it happens. -/
inductive PathMove (s : State) : State → Prop
  | toQueue (x : Record) (rest : List Record) : s.path.staging = x :: rest → s.path.mode = .queue →
      s.path.results.length < 16 → PathMove s (moveToQueue x rest s)
  | gap (u : WTag) : s.path.staging ≠ [] → s.path.mode = .ring → s.ring.state = .running → s.ring.hasSpace = true →
      s.ring.freeRecTag = some u → s.ring.lostPending ≠ 0 → PathMove s (issueGap u s)
  | head (u : WTag) (x : Record) (rest : List Record) : s.path.staging = x :: rest → s.path.mode = .ring →
      s.ring.state = .running → s.ring.hasSpace = true → s.ring.freeRecTag = some u → s.ring.lostPending = 0 →
      PathMove s (issueHead u x rest s)
  | drop (x : Record) (rest : List Record) : s.path.staging = x :: rest → s.path.mode = .ring → s.ring.state = .running →
      s.ring.hasSpace = false → s.ring.policy = .drop → PathMove s (dropHead x rest s)
  | enter (i : SlotId) (rest : List SlotId) : s.closeQueue = i :: rest → s.path.staging.length < 8 →
      PathMove s (enterStaging i rest s)

/-- Any number of moves of the output advance. -/
abbrev PathMoves : State → State → Prop := Relation.ReflTransGen PathMove

section Moves

variable {s t : State}

theorem pathMove_of_issueOnce (hmode : s.path.mode = .ring) (hrun : s.ring.state = .running)
    (h : issueOnce s = some t) : PathMove s t := by
  obtain ⟨x, rest, hx, ⟨hspace, u, hu, ⟨hlost, rfl⟩ | ⟨hlost, rfl⟩⟩ | ⟨hspace, hpol, rfl⟩⟩ := issueOnce_cases s t h
  · exact .gap u (by simp [hx]) hmode hrun hspace hu hlost
  · exact .head u x rest hx hmode hrun hspace hu hlost
  · exact .drop x rest hx hmode hrun hspace hpol

/-- A repetition of the issue step leaves the output mode and the ring's state. -/
theorem issueOnce_mode_state (h : issueOnce s = some t) : t.path.mode = s.path.mode ∧ t.ring.state = s.ring.state := by
  obtain ⟨x, rest, hx, ⟨hspace, u, hu, ⟨hlost, rfl⟩ | ⟨hlost, rfl⟩⟩ | ⟨hspace, hpol, rfl⟩⟩ := issueOnce_cases s t h
  · exact ⟨rfl, rfl⟩
  · exact ⟨rfl, rfl⟩
  · rw [dropHead_path, dropHead_ring]
    exact ⟨rfl, rfl⟩

theorem issueLoop_mode_state (k : Nat) (s : State) :
    (issueLoop k s).path.mode = s.path.mode ∧ (issueLoop k s).ring.state = s.ring.state := by
  induction k generalizing s with
  | zero => exact ⟨rfl, rfl⟩
  | succ k ih =>
    rw [issueLoop]
    cases h : issueOnce s with
    | none => exact ⟨rfl, rfl⟩
    | some t =>
      obtain ⟨hm, hr⟩ := issueOnce_mode_state h
      exact ⟨(ih t).1.trans hm, (ih t).2.trans hr⟩

theorem issueLoop_pathMoves (k : Nat) (s : State) (hmode : s.path.mode = .ring) (hrun : s.ring.state = .running) :
    PathMoves s (issueLoop k s) := by
  induction k generalizing s with
  | zero => exact .refl
  | succ k ih =>
    rw [issueLoop]
    cases h : issueOnce s with
    | none => exact .refl
    | some t =>
      obtain ⟨hm, hr⟩ := issueOnce_mode_state h
      exact .head (pathMove_of_issueOnce hmode hrun h) (ih t (hm.trans hmode) (hr.trans hrun))

theorem queueLoop_pathMoves (k : Nat) (s : State) : PathMoves s (queueLoop k s) := by
  induction k generalizing s with
  | zero => exact .refl
  | succ k ih =>
    rw [queueLoop]
    cases h : queueOnce s with
    | none => exact .refl
    | some t =>
      obtain ⟨x, rest, hx, hmode, hroom, rfl⟩ := (queueOnce_eq_some s t).mp h
      exact .head (.toQueue x rest hx hmode hroom) (ih _)

theorem entryLoop_pathMoves (k : Nat) (s : State) : PathMoves s (entryLoop k s) := by
  induction k generalizing s with
  | zero => exact .refl
  | succ k ih =>
    rw [entryLoop]
    cases h : entryOnce s with
    | none => exact .refl
    | some t =>
      obtain ⟨i, rest, hi, hroom, rfl⟩ := (entryOnce_eq_some s t).mp h
      exact .head (.enter i rest hi hroom) (ih _)

theorem destinationStep_pathMoves (s : State) : PathMoves s (destinationStep s) := by
  unfold destinationStep
  cases hmode : s.path.mode with
  | queue => exact queueLoop_pathMoves _ s
  | ring =>
    show PathMoves s (issueStep s)
    unfold issueStep
    split_ifs with hrun
    · exact issueLoop_pathMoves _ s hmode hrun
    · exact .refl

theorem advanceLoop_pathMoves (k : Nat) (s : State) : PathMoves s (advanceLoop k s) := by
  induction k generalizing s with
  | zero => exact .refl
  | succ k ih =>
    exact ((destinationStep_pathMoves s).trans (entryLoop_pathMoves _ _)).trans (ih _)

/-- The output advance is a sequence of moves (R110). -/
theorem advance_pathMoves (s : State) : PathMoves s (advance s) := advanceLoop_pathMoves _ s

/-- What every move keeps, a sequence of moves keeps. -/
theorem PathMoves.keeps {P : State → Prop} (hstep : ∀ s t, PathMove s t → P s → P t) (h : PathMoves s t) (hs : P s) :
    P t := by
  induction h with
  | refl => exact hs
  | tail _ hmove ih => exact hstep _ _ hmove ih

end Moves

/-! ### Where the advance ends -/

/-- The destination takes no more: the result queue is full, or the ring's issue step waits. -/
def State.destinationWaits (s : State) : Prop :=
  (s.path.mode = .queue → s.path.staging ≠ [] → 16 ≤ s.path.results.length) ∧
    (s.path.mode = .ring → s.ring.state = .running → s.issueWaits)

/-- Nothing on the output path could move: the close queue waits only for a full staging FIFO, and staging for its
destination. -/
def State.pathWaits (s : State) : Prop := (s.closeQueue ≠ [] → 8 ≤ s.path.staging.length) ∧ s.destinationWaits

theorem moveToQueue_path (x : Record) (rest : List Record) (s : State) :
    (moveToQueue x rest s).path = { s.path with staging := rest, results := s.path.results ++ [x] } := by
  unfold moveToQueue
  simp

theorem enterStaging_path (i : SlotId) (rest : List SlotId) (s : State) :
    (enterStaging i rest s).path =
      { s.path with
        staging := s.path.staging ++ [composeSample (s.slot i) i s.path.seq], seq := s.path.seq + 1 } := by
  unfold enterStaging
  simp

theorem enterStaging_closeQueue (i : SlotId) (rest : List SlotId) (s : State) :
    (enterStaging i rest s).closeQueue = rest := by
  unfold enterStaging
  simp

theorem queueOnce_eq_none (s : State) :
    queueOnce s = none ↔ (s.path.mode = .queue → s.path.staging ≠ [] → 16 ≤ s.path.results.length) := by
  rw [Option.eq_none_iff_forall_ne_some]
  constructor
  · intro h hmode hne
    obtain ⟨x, rest, hx⟩ := List.exists_cons_of_ne_nil hne
    by_contra hroom
    exact h _ ((queueOnce_eq_some s _).mpr ⟨x, rest, hx, hmode, by omega, rfl⟩)
  · intro h t ht
    obtain ⟨x, rest, hx, hmode, hroom, -⟩ := (queueOnce_eq_some s t).mp ht
    have := h hmode (by simp [hx])
    omega

theorem entryOnce_eq_none (s : State) : entryOnce s = none ↔ (s.closeQueue ≠ [] → 8 ≤ s.path.staging.length) := by
  rw [Option.eq_none_iff_forall_ne_some]
  constructor
  · intro h hne
    obtain ⟨i, rest, hi⟩ := List.exists_cons_of_ne_nil hne
    by_contra hroom
    exact h _ ((entryOnce_eq_some s _).mpr ⟨i, rest, hi, by omega, rfl⟩)
  · intro h t ht
    obtain ⟨i, rest, hi, hroom, -⟩ := (entryOnce_eq_some s t).mp ht
    have := h (by simp [hi])
    omega

theorem queueLoop_none (k : Nat) (s : State) (hk : s.path.staging.length ≤ k) : queueOnce (queueLoop k s) = none := by
  induction k generalizing s with
  | zero =>
    have hnil : s.path.staging = [] := List.length_eq_zero_iff.mp (Nat.le_zero.mp hk)
    exact (queueOnce_eq_none s).mpr fun _ hne => absurd hnil hne
  | succ k ih =>
    rw [queueLoop]
    cases h : queueOnce s with
    | none => exact h
    | some t =>
      obtain ⟨x, rest, hx, -, -, rfl⟩ := (queueOnce_eq_some s t).mp h
      refine ih _ ?_
      rw [moveToQueue_path]
      rw [hx] at hk
      simpa using hk

theorem destinationStep_waits (s : State) : (destinationStep s).destinationWaits := by
  unfold destinationStep
  cases hmode : s.path.mode with
  | queue =>
    have hkeep : (queueLoop s.path.staging.length s).path.mode = .queue :=
      queueLoop_keeps (P := fun t => t.path.mode = .queue) (fun t x rest _ _ _ h => by rw [moveToQueue_path]; exact h) _ s hmode
    refine ⟨(queueOnce_eq_none _).mp (queueLoop_none _ s le_rfl), fun h => ?_⟩
    exact absurd (hkeep.symm.trans h) (by simp)
  | ring =>
    show (issueStep s).destinationWaits
    have hkeep : (issueStep s).path.mode = .ring ∧ (issueStep s).ring.state = s.ring.state := by
      unfold issueStep
      split_ifs
      · exact ⟨(issueLoop_mode_state _ s).1.trans hmode, (issueLoop_mode_state _ s).2⟩
      · exact ⟨hmode, rfl⟩
    refine ⟨fun h => absurd (hkeep.1.symm.trans h) (by simp), fun _ hrun => ?_⟩
    exact issueStep_waits s (hkeep.2.symm.trans hrun)

theorem destinationStep_of_waits {s : State} (h : s.destinationWaits) : destinationStep s = s := by
  unfold destinationStep
  cases hmode : s.path.mode with
  | queue =>
    show queueLoop s.path.staging.length s = s
    cases hlen : s.path.staging.length with
    | zero => rfl
    | succ k => rw [queueLoop, (queueOnce_eq_none s).mpr h.1]
  | ring =>
    show issueStep s = s
    by_cases hrun : s.ring.state = .running
    · exact issueStep_of_waits (h.2 hmode hrun)
    · exact if_neg hrun

/-- An entry step does nothing, or shortens the close queue. -/
theorem entryStep_cases (s : State) :
    (entryStep s = s ∧ (s.closeQueue ≠ [] → 8 ≤ s.path.staging.length)) ∨
      (entryStep s).closeQueue.length < s.closeQueue.length := by
  have hle : ∀ (k : Nat) (t : State), (entryLoop k t).closeQueue.length ≤ t.closeQueue.length := by
    intro k
    induction k with
    | zero => exact fun t => le_rfl
    | succ k ih =>
      intro t
      rw [entryLoop]
      cases h : entryOnce t with
      | none => exact le_rfl
      | some u =>
        obtain ⟨i, rest, hi, -, rfl⟩ := (entryOnce_eq_some t u).mp h
        refine (ih _).trans ?_
        rw [enterStaging_closeQueue, hi]
        simp
  unfold entryStep
  cases hlen : s.closeQueue.length with
  | zero =>
    have hnil : s.closeQueue = [] := List.length_eq_zero_iff.mp hlen
    exact .inl ⟨rfl, fun h => absurd hnil h⟩
  | succ k =>
    rw [entryLoop]
    cases h : entryOnce s with
    | none => exact .inl ⟨rfl, (entryOnce_eq_none s).mp h⟩
    | some u =>
      obtain ⟨i, rest, hi, -, rfl⟩ := (entryOnce_eq_some s u).mp h
      refine .inr ((hle k _).trans_lt ?_)
      rw [enterStaging_closeQueue]
      rw [hi, List.length_cons] at hlen
      omega

theorem advanceLoop_of_waits {s : State} (h : s.pathWaits) (k : Nat) : advanceLoop k s = s := by
  have hpass : advancePass s = s := by
    rw [advancePass, destinationStep_of_waits h.2]
    unfold entryStep
    cases hlen : s.closeQueue.length with
    | zero => rfl
    | succ k => rw [entryLoop, (entryOnce_eq_none s).mpr h.1]
  induction k with
  | zero => rfl
  | succ k ih => rw [advanceLoop, hpass, ih]

theorem advanceLoop_waits (k : Nat) (s : State) (hk : s.closeQueue.length < k) : (advanceLoop k s).pathWaits := by
  induction k generalizing s with
  | zero => omega
  | succ k ih =>
    have hdest := destinationStep_waits s
    have hqueue : (destinationStep s).closeQueue = s.closeQueue := by simp
    rw [advanceLoop, advancePass]
    obtain ⟨hsame, hfull⟩ | hshort := entryStep_cases (destinationStep s)
    · rw [hsame]
      have hwaits : (destinationStep s).pathWaits := ⟨hfull, hdest⟩
      rw [advanceLoop_of_waits hwaits]
      exact hwaits
    · refine ih _ ?_
      rw [hqueue] at hshort
      omega

/-- The advance ends where nothing can move (R110, R114, R131). -/
theorem advance_waits (s : State) : (advance s).pathWaits := advanceLoop_waits _ s (Nat.lt_succ_self _)

/-! ### In queue mode no record is lost or reordered (R106) -/

theorem composeSample_seq (x : Slot) (i : SlotId) (seq : BitVec 16) : (composeSample x i seq).seq = seq := by
  simp [Record.seq, composeSample, sealWords, BitVec.extractLsb'_or, extractLsb'_fieldAt_self,
    extractLsb'_fieldAt_of_disjoint]

/-- The path of t is the path of s with a record for each slot of `left`, which have left the head of the close queue. -/
def Passed (s t : State) : Prop :=
  t.path.mode = .queue ∧ ∃ (left : List SlotId) (new : List Record), s.closeQueue = left ++ t.closeQueue ∧
    new.length = left.length ∧ t.path.results ++ t.path.staging = s.path.results ++ s.path.staging ++ new ∧
    t.path.seq = s.path.seq + BitVec.ofNat 16 left.length ∧
    ∀ k < new.length, (new.getD k Record.zero).seq = s.path.seq + BitVec.ofNat 16 k

theorem passed_step {s t u : State} (hmove : PathMove t u) (h : Passed s t) : Passed s u := by
  obtain ⟨hmode, left, new, hqueue, hlen, hpath, hseq, hnew⟩ := h
  cases hmove with
  | toQueue x rest hx _ _ =>
    refine ⟨by rw [moveToQueue_path]; exact hmode, left, new, by simpa using hqueue, hlen, ?_, ?_, hnew⟩
    · rw [moveToQueue_path, ← hpath, hx]
      simp
    · rw [moveToQueue_path]
      exact hseq
  | gap u _ hring => exact absurd (hmode.symm.trans hring) (by simp)
  | head u x rest _ hring => exact absurd (hmode.symm.trans hring) (by simp)
  | drop x rest _ hring => exact absurd (hmode.symm.trans hring) (by simp)
  | enter i rest hi _ =>
    refine ⟨by rw [enterStaging_path]; exact hmode, left ++ [i], new ++ [composeSample (t.slot i) i t.path.seq], ?_, ?_, ?_, ?_, ?_⟩
    · rw [enterStaging_closeQueue, hqueue, hi]
      simp
    · simp [hlen]
    · rw [enterStaging_path, ← List.append_assoc, hpath]
      simp
    · rw [enterStaging_path]
      simp [hseq, BitVec.ofNat_add, BitVec.add_assoc]
    · intro k hk
      rw [List.length_append, List.length_singleton] at hk
      by_cases hkn : k < new.length
      · rw [List.getD_append _ _ _ _ hkn]
        exact hnew k hkn
      · have hkeq : k = new.length := by omega
        rw [List.getD_append_right _ _ _ _ (by omega), hkeq]
        simp [composeSample_seq, hseq, hlen]

/-- Settles O55: where the advance ends, and what each of its moves does to the records in queue mode. -/
theorem advanceMovesEverythingInOrder : Obligations.AdvanceMovesEverythingInOrder := by
  unfold Obligations.AdvanceMovesEverythingInOrder
  intro s t
  have hwaits := advance_waits s
  have hpassed (hmode : s.path.mode = .queue) : Passed s t :=
    (advance_pathMoves s).keeps (fun _ _ => passed_step) ⟨hmode, [], [], by simp, rfl, by simp, by simp, by simp⟩
  exact ⟨hwaits.1, fun hmode => hwaits.2.1 (hpassed hmode).1, fun hmode => (hpassed hmode).2⟩

end Sys2Proof.Machine
end

