-- ==== Sys2Proof/Proofs/Faults.lean ====
section
/-! PROOF. Differences of positions modulo 2N, and what a ring fault leaves: the ring, the voided records, the losses and the
events. -/

namespace Sys2Proof.Machine

/-! ### Differences modulo 2N (R126) -/

theorem subMod_of_lt {a b m : Nat} (ha : a < m) (hb : b < m) : subMod a b m = if b ≤ a then a - b else a + m - b := by
  unfold subMod
  rw [Nat.mod_eq_of_lt ha, Nat.mod_eq_of_lt hb]
  split_ifs with h
  · rw [show a + (m - b) = a - b + m by omega, Nat.add_mod_right, Nat.mod_eq_of_lt (by omega)]
  · rw [Nat.mod_eq_of_lt (by omega)]
    omega

theorem add_mod_of_lt {a k m : Nat} (ha : a < m) (hk : k < m) : (a + k) % m = if a + k < m then a + k else a + k - m := by
  split_ifs with h
  · exact Nat.mod_eq_of_lt h
  · rw [Nat.mod_eq_sub_mod (by omega), Nat.mod_eq_of_lt (by omega)]

theorem subMod_eq_iff {a b k m : Nat} (ha : a < m) (hb : b < m) (hk : k < m) : subMod a b m = k ↔ a = (b + k) % m := by
  rw [subMod_of_lt ha hb, add_mod_of_lt hb hk]
  split_ifs <;> omega

/-! ### The voided records (R137) -/

theorem Record.isSample_eq (r : Record) : r.isSample = decide (r.w0.extractLsb' 0 4 = 1) := rfl

theorem Record.isGap_eq (r : Record) : r.isGap = decide (r.w0.extractLsb' 0 4 = 3) := rfl

/-- The record tags in flight. -/
def Ring.flying (g : Ring) : List WTag := recTags.filter fun u => (g.tag u).inFlight

theorem Ring.voided_perm (g : Ring) : g.voided.Perm (g.flying.map fun u => (g.tag u).record) :=
  (List.perm_insertionSort _ _).map _

theorem Ring.voided_eq_nil (g : Ring) : g.voided = [] ↔ g.flying = [] := by
  rw [← List.length_eq_zero_iff, g.voided_perm.length_eq, List.length_map, List.length_eq_zero_iff]

/-- The first voided record stands at PRODUCER, where one does and every other stands elsewhere within the ring. -/
theorem Ring.voided_head {g : Ring} {u : WTag} (hu : u ∈ g.flying) (hpos : (g.tag u).position = g.producer)
    (hlt : g.producer.toNat < 2 * g.n)
    (hrest : ∀ v ∈ g.flying, v ≠ u → (g.tag v).position.toNat < 2 * g.n ∧ (g.tag v).position ≠ g.producer) :
    ∃ l, g.voided = (g.tag u).record :: l := by
  let before : WTag → WTag → Prop := fun a b =>
    g.offsetFromProducer (g.tag a).position ≤ g.offsetFromProducer (g.tag b).position
  have : Std.Total before := ⟨fun a b => Nat.le_total _ _⟩
  have : IsTrans WTag before := ⟨fun a b c => Nat.le_trans⟩
  have hsorted : (g.flying.insertionSort before).Pairwise before := List.pairwise_insertionSort before g.flying
  have hmem (v : WTag) : v ∈ g.flying.insertionSort before ↔ v ∈ g.flying := (List.perm_insertionSort before g.flying).mem_iff
  have hvoided : g.voided = (g.flying.insertionSort before).map fun v => (g.tag v).record := rfl
  rw [hvoided]
  cases hl : g.flying.insertionSort before with
  | nil => exact absurd ((hmem u).mpr hu) (by simp [hl])
  | cons a l =>
    rw [hl] at hsorted hmem
    have hau : a = u := by
      by_contra hne
      obtain ⟨halt, hane⟩ := hrest a ((hmem a).mp List.mem_cons_self) hne
      have hul : u ∈ l := (List.mem_cons.mp ((hmem u).mpr hu)).resolve_left fun e => hne e.symm
      have hle : before a u := (List.pairwise_cons.mp hsorted).1 u hul
      have hzero : g.offsetFromProducer (g.tag u).position = 0 := by
        rw [Ring.offsetFromProducer, hpos, subMod_self _ _ (by omega)]
      have ha0 : subMod (g.tag a).position.toNat g.producer.toNat (2 * g.n) = 0 :=
        Nat.le_zero.mp (hzero ▸ (hle : g.offsetFromProducer _ ≤ g.offsetFromProducer _))
      rw [subMod_eq_iff halt hlt (by omega), Nat.add_zero, Nat.mod_eq_of_lt hlt] at ha0
      exact hane (BitVec.eq_of_toNat_eq ha0)
    exact ⟨l.map fun v => (g.tag v).record, by rw [hau, List.map_cons]⟩

theorem voided_countP (g : Ring) (p : Record → Bool) :
    g.voided.countP p = g.flying.countP fun u => p (g.tag u).record := by
  rw [g.voided_perm.countP_eq, List.countP_map]
  rfl

theorem samplesInFlight_eq (s : State) (c : ChanId) : s.samplesInFlight c = s.ring.voided.countP (·.isSampleOf c) := by
  rw [voided_countP, Ring.flying, List.countP_filter]
  refine List.countP_congr fun u _ => ?_
  rw [Bool.and_eq_true, Bool.and_eq_true, Bool.and_eq_true, Record.isSampleOf, Bool.and_eq_true, Record.isSample_eq]
  exact ⟨fun h => ⟨⟨h.1.2, h.2⟩, h.1.1⟩, fun h => ⟨⟨h.2, h.1.1⟩, h.1.2⟩⟩

theorem voided_any (s : State) (c : ChanId) :
    s.ring.voided.any (·.isSampleOf c) = decide (s.samplesInFlight c ≠ 0) := by
  rw [samplesInFlight_eq, Bool.eq_iff_iff, List.any_eq_true, decide_eq_true_iff, ← Nat.pos_iff_ne_zero, List.countP_pos_iff]

/-- Records counted by the source of their channel are counted channel by channel. -/
theorem countP_by_channel (l : List Record) (each : ChanId → Bool) (k : Source) :
    (l.countP fun r => r.isSample && each r.channel && decide (srcChan r.channel = k)) =
      (chanIds.map fun c => if srcChan c = k ∧ each c = true then l.countP (·.isSampleOf c) else 0).sum := by
  induction l with
  | nil => simp
  | cons r l ih =>
    have hone : (if (r.isSample && each r.channel && decide (srcChan r.channel = k)) = true then 1 else 0) =
        (chanIds.map fun c => if srcChan c = k ∧ each c = true then (if r.isSampleOf c = true then 1 else 0) else 0).sum := by
      have hsum (f : ChanId → Nat) : (chanIds.map fun c => if r.channel = c then f c else 0).sum = f r.channel := by
        generalize r.channel = d
        fin_cases d <;> simp [chanIds]
      rw [← hsum fun c => if (r.isSample && each c && decide (srcChan c = k)) = true then 1 else 0]
      refine congrArg List.sum (List.map_congr_left fun c _ => ?_)
      by_cases hc : r.channel = c
      · by_cases hs : r.isSample = true <;> by_cases he : each c = true <;> by_cases hk : srcChan c = k <;>
          simp [Record.isSampleOf, hc, hs, he, hk]
      · simp [Record.isSampleOf, hc]
    rw [List.countP_cons, ih, hone, ← List.sum_map_add]
    refine congrArg List.sum (List.map_congr_left fun c _ => ?_)
    by_cases hc : srcChan c = k ∧ each c = true
    · simp only [if_pos hc, List.countP_cons]
    · simp only [if_neg hc]

theorem lostEvents_eq (s : State) (k : Source) :
    s.lostEvents k = s.ring.voided.countP fun r =>
      r.isSample && decide ((s.chan r.channel).bank.notify = .each) && decide (srcChan r.channel = k) := by
  rw [countP_by_channel _ (fun c => decide ((s.chan c).bank.notify = .each)) k]
  refine congrArg List.sum (List.map_congr_left fun c _ => ?_)
  simp only [decide_eq_true_eq, samplesInFlight_eq]

/-! ### The ring after a fault (R136) -/

theorem Ring.toFaulted_rest (g : Ring) (cause : RingCause) (code : BitVec 4) (tag : Option WTag) :
    g.toFaulted cause code tag =
      { g with state := .faulted, fault := faultReg g cause code tag, tags := (g.toFaulted cause code tag).tags } := rfl

theorem Ring.countVoided_rest (g : Ring) (l : List Record) :
    g.countVoided l = { g with lostPending := (g.countVoided l).lostPending, firstLost := (g.countVoided l).firstLost } := by
  cases l <;> rfl

theorem satAdd_toNat (a : Word) (k : Nat) : (satAdd a k).toNat = min (2 ^ 32 - 1) (a.toNat + k) := by
  unfold satAdd
  split_ifs with h
  · rw [BitVec.toNat_ofNat, Nat.mod_eq_of_lt h]
    omega
  · rw [BitVec.toNat_allOnes]
    omega

theorem Ring.countVoided_lost (g : Ring) (l : List Record) :
    (g.countVoided l).lostPending.toNat = min (2 ^ 32 - 1) (g.lostPending.toNat + (l.map Record.lossWeight).sum) := by
  cases l with
  | nil =>
    have := g.lostPending.isLt
    simp only [Ring.countVoided, List.map_nil, List.sum_nil]
    omega
  | cons r l => exact satAdd_toNat _ _

theorem faultReg_eq (g : Ring) (cause : RingCause) (code : BitVec 4) (tag : Option WTag) :
    faultReg g cause code tag =
      { cause := some cause, isWriteback := decide (tag = some 4), remoteCode := code, tag := tag.getD 0
        position := match tag with
          | none => 0
          | some u => if u = 4 then 0 else (g.tag u).position } := by
  cases tag with
  | none => rfl
  | some u =>
    rw [faultReg]
    simp only [Option.some.injEq, Option.getD_some]
    rfl

theorem disposeTag_state (cause : RingCause) (isCause : Bool) (x : WriteTag) :
    (disposeTag cause isCause x).state =
      if cause = .targetGone ∨ cause = .backplaneReset then .free
      else if isCause then (if cause = .timeout then .orphaned else .free)
      else if x.state = .issued ∨ x.state = .orphaned then .orphaned else .free := by
  cases cause <;> cases isCause <;> cases hx : x.state <;> simp [disposeTag, RingCause.freesAll, WriteTag.cleared, hx]

/-- s with the ring faulted and the voided records counted, none settled yet. -/
def State.voiding (s : State) (cause : RingCause) (code : BitVec 4) (tag : Option WTag) : State :=
  { s with
    ring := (s.ring.toFaulted cause code tag).countVoided s.ring.voided
    dev :=
      { s.dev with
        recordsLost := s.dev.recordsLost + BitVec.ofNat 32 (s.ring.voided.countP fun r => !r.isGap) } }

/-- A fault between its two ends: t is s with the ring faulted, its records in flight lost, and source 0 raised; only the end of
a command may still follow. -/
structure Faulting (cause : RingCause) (code : BitVec 4) (tag : Option WTag) (s t : State) : Prop where
  rest : t = { s.voiding cause code tag with chans := t.chans, ints := t.ints }
  chan : ∀ c, t.chan c = { s.chan c with loss := (s.chan c).loss || decide (s.samplesInFlight c ≠ 0) }
  ints : Ints.afterEvents s.ints t.ints fun k => s.lostEvents k + if k = 0 then 1 else 0

theorem faulting_of_settlesLost {cause : RingCause} {code : BitVec 4} {tag : Option WTag} {s t : State}
    (h : SettlesLost s.ring.voided (s.voiding cause code tag) t) : Faulting cause code tag s (t.raise srcRingFault) := by
  refine ⟨?_, fun c => ?_, ?_⟩
  · exact congrArg (fun x : State => { x with ints := (t.raise srcRingFault).ints }) h.rest
  · rw [State.raise_chan, h.chan c, voided_any]
    rfl
  · have hevents := h.ints.trans (Ints.event_afterEvents t.ints srcRingFault)
    exact hevents.congr fun k => congrArg (· + _) (lostEvents_eq s k).symm

theorem voidRecords_eq (cause : RingCause) (code : BitVec 4) (tag : Option WTag) (s : State) :
    voidRecords s.ring.voided (s.setRing (s.ring.toFaulted cause code tag)) =
      s.ring.voided.foldl (fun st r => settle true r st) (s.voiding cause code tag) := by
  refine congrArg (List.foldl (fun st r => settle true r st) · s.ring.voided) ?_
  simp only [State.setRing, State.setDev, State.voiding]

theorem ringFault_eq (cause : RingCause) (code : BitVec 4) (tag : Option WTag) (s : State) :
    ∃ u, Faulting cause code tag s u ∧ ringFault cause code tag s = endOnFault u :=
  ⟨_, faulting_of_settlesLost (foldl_settlesLost s.ring.voided (s.voiding cause code tag)), by
    rw [ringFault, voidRecords_eq]⟩

/-- An EXECUTING RING_STOP or DRAIN (R136 step 6). -/
abbrev State.endsOnFault (s : State) : Prop :=
  s.cmd.phase = .executing ∧ (s.cmd.code = Command.ringStop.code ∨ s.cmd.code = Command.drain.code)

theorem endOnFault_of {s : State} (h : s.endsOnFault) : endOnFault s = endCommand .ringFaulted s := by
  obtain ⟨hp, hc⟩ := h
  refine if_pos ?_
  rw [Bool.or_eq_true, Processor.isExecuting_iff, Processor.isExecuting_iff]
  exact hc.imp (⟨hp, ·⟩) (⟨hp, ·⟩)

theorem endOnFault_of_not {s : State} (h : ¬s.endsOnFault) : endOnFault s = s := by
  refine if_neg ?_
  rw [Bool.or_eq_true, Processor.isExecuting_iff, Processor.isExecuting_iff]
  rintro (⟨hp, hc⟩ | ⟨hp, hc⟩)
  · exact h ⟨hp, .inl hc⟩
  · exact h ⟨hp, .inr hc⟩

/-- Settles O59: the fault's own share, then the command's end. -/
theorem ringFaultDisposesOfTheWrites : Obligations.RingFaultDisposesOfTheWrites := by
  unfold Obligations.RingFaultDisposesOfTheWrites
  intro cause code tag s g t lost total
  obtain ⟨u, hu, ht⟩ := ringFault_eq cause code tag s
  have htu : t = endOnFault u := ht
  have hring : t.ring = (g.toFaulted cause code tag).countVoided g.voided := ringFault_ring cause code tag s
  have hrest := hu.rest
  have hcmd : u.cmd = s.cmd := (congrArg State.cmd hrest :)
  have hlost : lost = g.flying := rfl
  have htag (v : WTag) : (t.tag v).state = (disposeTag cause (decide (tag = some v)) (s.tag v)).state :=
    congrArg WriteTag.state (ringFault_tag cause code tag s v)
  have hip : has u.ints.ip 0 = true := by
    refine (hu.ints.2 0).1.trans ?_
    simp
  refine ⟨?_, ?_, fun v => ?_, ?_, fun hnil => ?_, fun v hv hpos hlt hother => ?_, ?_, ?_, ?_, ?_, ?_, ?_, ?_, ?_, ?_, fun c => ?_, ?_⟩
  · rw [hring, Ring.countVoided_rest, Ring.toFaulted_rest]
  · rw [hring, Ring.countVoided_rest, Ring.toFaulted_rest]
    exact faultReg_eq g cause code tag
  · rw [htag v, disposeTag_state]
    simp only [decide_eq_true_eq]
  · have hweights : (g.voided.map Record.lossWeight).sum = total := by
      rw [(g.voided_perm.map Record.lossWeight).sum_eq, List.map_map]
      refine congrArg List.sum (List.map_congr_left fun v _ => ?_)
      rw [Function.comp, Record.lossWeight, Record.isGap_eq]
      exact if_congr (decide_eq_true_iff (p := _)) rfl rfl
    rw [hring, Ring.countVoided_lost, Ring.toFaulted_rest, hweights]
  · rw [hring, (g.voided_eq_nil).mpr (hlost ▸ hnil)]
    rfl
  · obtain ⟨l, hl⟩ := Ring.voided_head (g := g) hv hpos hlt hother
    rw [hring, hl]
    rfl
  · have hcount : (g.voided.countP fun r => !r.isGap) =
        lost.countP fun v => decide ((s.tag v).record.w0.extractLsb' 0 4 ≠ 3) := by
      rw [voided_countP]
      refine List.countP_congr fun v _ => ?_
      rw [Record.isGap_eq, ← decide_not]
      rfl
    rw [← hcount]
    exact (by rw [htu]; simp : t.dev = u.dev).trans (congrArg State.dev hrest :)
  · rw [htu]
    by_cases he : u.endsOnFault
    · rw [endOnFault_of he]
      simp [endCommand, endWith, State.raise, Ints.event, has_withBit, hip]
    · rwa [endOnFault_of_not he]
  · rw [htu]
    split_ifs with he
    · have he' : u.endsOnFault := by rwa [State.endsOnFault, hcmd]
      rw [endOnFault_of he']
      simp [endCommand, endWith, Processor.finish, Status.code, hcmd]
    · have he' : ¬u.endsOnFault := by rwa [State.endsOnFault, hcmd]
      rw [endOnFault_of_not he', hcmd]
  · exact (by rw [htu]; simp : t.path = u.path).trans (congrArg State.path hrest :)
  · exact (by rw [htu]; simp : t.slots = u.slots).trans (congrArg State.slots hrest :)
  · exact (by rw [htu]; simp : t.closeQueue = u.closeQueue).trans (congrArg State.closeQueue hrest :)
  · exact (by rw [htu]; simp : t.tb = u.tb).trans (congrArg State.tb hrest :)
  · exact (by rw [htu]; simp : t.owner = u.owner).trans (congrArg State.owner hrest :)
  · exact (by rw [htu]; simp : t.outbox = u.outbox).trans (congrArg State.outbox hrest :)
  · rw [← hu.chan c]
    exact (by rw [htu]; simp [State.chan] : t.chan c = u.chan c)
  · by_cases he : u.endsOnFault
    · have hints : t.ints = u.ints.event 1 := by
        rw [htu, endOnFault_of he]
        rfl
      rw [hints]
      have he' : s.endsOnFault := by rwa [State.endsOnFault, ← hcmd]
      refine (hu.ints.trans (Ints.event_afterEvents u.ints 1)).congr fun k => ?_
      simp only [he'.1, he'.2, and_true]
      rw [Nat.add_comm (s.lostEvents k)]
    · have hints : t.ints = u.ints := by rw [htu, endOnFault_of_not he]
      rw [hints]
      have he' : ¬s.endsOnFault := by rwa [State.endsOnFault, ← hcmd]
      refine hu.ints.congr fun k => ?_
      have hno : ¬(k = 1 ∧ s.endsOnFault) := fun h => he' h.2
      rw [if_neg hno, Nat.add_comm (s.lostEvents k), Nat.add_zero]

end Sys2Proof.Machine
end

