-- ==== Sys2Proof/Proofs/Release.lean ====
section
/-! PROOF. The release of the backplane reset line: the pool emptied, the ring faulted, and what the alert check that ends an
event leaves. -/

namespace Sys2Proof.Machine

/-! ### The alert check (R176, R177) -/

/-- The alert check changes the alert count, the announced sources and, by one beat at most, the outbox. -/
theorem alertCheck_rest (s : State) :
    (alertCheck s).ints = { s.ints with alertCount := (alertCheck s).ints.alertCount, alerted := (alertCheck s).ints.alerted } ∧
      (alertCheck s).outbox.length ≤ s.outbox.length + 1 := by
  unfold alertCheck
  cases s.alertDue with
  | none => exact ⟨rfl, Nat.le_succ _⟩
  | some h => exact ⟨rfl, by simp⟩

/-! ### The command processor at a loss of ownership (R156) -/

theorem Processor.abort_eq (p : Processor) (hidle : p.phase = .idle → p.code = 0)
    (hresults : p.phase ≠ .result → p.results = []) :
    p.abort.phase = .idle ∧ p.abort.code = 0 ∧ p.abort.results = [] ∧
      (if p.phase = .executing then p.abort.lastStatus = 8 ∧ p.abort.lastCode = p.code ∧ p.abort.discarded = true
       else p.abort.lastStatus = p.lastStatus ∧ p.abort.lastCode = p.lastCode) ∧
      (if p.phase = .executing then True
       else p.abort.discarded = (p.discarded || (decide (p.phase = .result) && decide (p.results ≠ [])))) := by
  unfold Processor.abort
  cases hp : p.phase with
  | idle => simp [hp, hidle hp, hresults]
  | params => simp [hresults, hp]
  | executing => simp [Status.code]
  | result => cases hr : p.results <;> simp

theorem State.processorOk.results {s : State} (h : s.processorOk) (hp : s.cmd.phase ≠ .result) : s.cmd.results = [] := by
  have hlen := h.2.2.2.2
  rwa [if_neg hp] at hlen

/-! ### The channels and slots (R182 steps 3 and 4) -/

/-- Step 3 of a backplane reset, whether it finds PAUSED or OBSERVING. -/
theorem resetObserving_ends {s : State} (h : s.poolOk) :
    EndsArmings (Channel.cancelled .counting) chanIds (s.setTb { s.tb with obs := .paused }) (resetObserving s) := by
  unfold resetObserving
  cases hobs : s.tb.obs with
  | observing =>
    rw [if_pos rfl]
    exact cancelArmings_ends .counting _ fun c => h.armingOk c
  | paused =>
    rw [if_neg nofun]
    obtain ⟨-, -, harmed, -, hpaused⟩ := h
    have hsame : s.setTb { s.tb with obs := .paused } = s := by
      rw [← hobs]
      rfl
    rw [hsame]
    refine ⟨rfl, fun c => ?_, fun i => (if_neg ?_).symm⟩
    · rw [if_pos (mem_chanIds c), Channel.cancelled, if_neg (hpaused hobs c)]
    · exact fun hi => hpaused hobs _ ((harmed _).mpr ⟨i, hi.1, rfl⟩)

theorem Channel.cancelled_freed (d : Nat) (x : Channel) :
    (Channel.cancelled .counting x).freed .counting 0 d =
      { x with
        run := if x.run = .armed then .counting else x.run
        stats :=
          { x.stats with
            collisions := x.stats.collisions + x.armedTerm, discarded := x.stats.discarded + BitVec.ofNat 32 d } } := by
  by_cases h : x.run = .armed <;> simp [Channel.cancelled, Channel.freed, Channel.armedTerm, h]

/-- The pool after steps 3 and 4, and all that they leave. -/
theorem resetPool_eq {s : State} (h : s.poolOk) :
    let t := freeSlots (fun _ => true) .counting (resetObserving s)
    (∀ i : SlotId, (t.slot i).state = .free) ∧
      (∀ c : ChanId, t.chan c =
        { s.chan c with
          run := if (s.chan c).run = .armed then .counting else (s.chan c).run
          stats :=
            { (s.chan c).stats with
              collisions := (s.chan c).stats.collisions + (s.chan c).armedTerm
              discarded := (s.chan c).stats.discarded + BitVec.ofNat 32 (s.watching c) } }) ∧
      t = { s with
            tb := { s.tb with obs := .paused }, slots := t.slots, closeQueue := [], chans := t.chans
            dev := { s.dev with
                     purged := s.dev.purged + BitVec.ofNat 32 (slotIds.countP fun i => (s.slot i).isWatching) } } := by
  intro t
  have hfrees : FreesSlots (fun _ => true) .counting slotIds (resetObserving s) t := freeSlots_frees _ .counting _
  obtain ⟨hfree, -, hchan, hrest, hdev⟩ :=
    (resetObserving_ends h).freeAll (s := s.setTb { s.tb with obs := .paused }) (fun i hi => (h.2.1 i).mp hi) hfrees
  clear_value t
  refine ⟨hfree, fun c => ?_, hrest.trans ?_⟩
  · rw [hchan c, Channel.cancelled_freed]
    rfl
  · rw [hdev]
    rfl

/-! ### The release -/

/-- The reset event after steps 1 and 2: presence and ownership. -/
def State.resetStart (s : State) : State :=
  { s with
    pins := { s.pins with backplaneReset := false }, outbox := [], present := s.pins.lines ||| lineOf s.ownId
    owner := none, cmd := s.cmd.abort }

/-- The reset event up to the ring's part. -/
def State.resetBase (s : State) : State :=
  let s2 := freeSlots (fun _ => true) .counting (resetObserving s.resetStart)
  s2.setInts s2.ints.clearService

theorem exec_backplaneReset {s : State} (hdevice : s.pins.deviceReset = false) :
    exec .backplaneReset s =
      afterEvent ((ringBackplaneReset s.resetBase).setTb (ringBackplaneReset s.resetBase).tb.restart) := by
  show releaseBackplaneReset s = _
  unfold releaseBackplaneReset
  dsimp only
  rw [if_neg (by simp [hdevice])]
  rfl

/-- s as the ring's part finds it. -/
theorem State.resetBase_eq {s : State} (h : s.poolOk) :
    (∀ i : SlotId, (s.resetBase.slot i).state = .free) ∧
      (∀ c : ChanId, s.resetBase.chan c =
        { s.chan c with
          run := if (s.chan c).run = .armed then .counting else (s.chan c).run
          stats :=
            { (s.chan c).stats with
              collisions := (s.chan c).stats.collisions + (s.chan c).armedTerm
              discarded := (s.chan c).stats.discarded + BitVec.ofNat 32 (s.watching c) } }) ∧
      s.resetBase =
        { s with
          pins := { s.pins with backplaneReset := false }, outbox := [], present := s.pins.lines ||| lineOf s.ownId
          owner := none, cmd := s.cmd.abort, ints := s.ints.clearService
          tb := { s.tb with obs := .paused }, slots := s.resetBase.slots, closeQueue := [], chans := s.resetBase.chans
          dev := { s.dev with
                   purged := s.dev.purged + BitVec.ofNat 32 (slotIds.countP fun i => (s.slot i).isWatching) } } := by
  obtain ⟨hslot, hchan, hrest⟩ := resetPool_eq (s := s.resetStart) h
  have hbase : s.resetBase =
      { freeSlots (fun _ => true) .counting (resetObserving s.resetStart) with
        ints := (freeSlots (fun _ => true) .counting (resetObserving s.resetStart)).ints.clearService } := rfl
  rw [hbase]
  generalize freeSlots (fun _ => true) .counting (resetObserving s.resetStart) = u at *
  have hints : u.ints = s.ints := (congrArg State.ints hrest :)
  refine ⟨hslot, hchan, ?_⟩
  rw [hints]
  exact congrArg (fun x : State => { x with ints := s.ints.clearService }) hrest

/-- The ring's part (R147): nothing in IDLE, else the fault of O59, which finds no command EXECUTING. -/
theorem ringBackplaneReset_eq {s : State} (hidle : s.cmd.phase = .idle) :
    let t := ringBackplaneReset s
    t.cmd = s.cmd ∧
      (if s.ring.state = .idle then t.ring = s.ring
       else t.ring.state = .faulted ∧ (∀ u : WTag, (t.tag u).state = .free) ∧
         t.ring.fault = { RingFaultReg.cleared with cause := some .backplaneReset } ∧
         t.ring.producer = s.ring.producer ∧ t.ring.consumer = s.ring.consumer ∧ has t.ints.ip 0 = true) ∧
      t.dev =
        { s.dev with
          recordsLost := s.dev.recordsLost + BitVec.ofNat 32 (recTags.countP fun u =>
            decide (s.ring.state ≠ .idle) && (s.tag u).inFlight && decide ((s.tag u).record.w0.extractLsb' 0 4 ≠ 3)) } ∧
      (∀ c : ChanId, t.chan c =
        { s.chan c with
          loss := (s.chan c).loss || (decide (s.ring.state ≠ .idle) && decide (s.samplesInFlight c ≠ 0)) }) ∧
      Ints.afterEvents s.ints t.ints fun k =>
        if s.ring.state = .idle then 0 else (if k = 0 then 1 else 0) + s.lostEvents k := by
  intro t
  by_cases hring : s.ring.state = .idle
  · have ht : t = s := if_pos hring
    rw [ht]
    refine ⟨rfl, ?_, ?_, fun c => ?_, ?_⟩
    · rw [if_pos hring]
    · simp [hring]
    · simp [hring]
    · simpa [hring] using Ints.afterEvents.refl s.ints
  · have ht : t = ringFault .backplaneReset 0 none s := if_neg hring
    have hno : ¬(s.cmd.phase = .executing ∧ (s.cmd.code = Command.ringStop.code ∨ s.cmd.code = Command.drain.code)) := by
      simp [hidle]
    obtain ⟨hrest, hfault, htags, -, -, -, hdev, hip, hcmd, -, -, -, -, -, -, hchan, hints⟩ :=
      ringFaultDisposesOfTheWrites .backplaneReset 0 none s
    rw [← ht] at hrest hfault htags hdev hip hcmd hchan hints
    rw [if_neg hno] at hcmd
    refine ⟨hcmd, ?_, ?_, fun c => ?_, hints.congr fun k => ?_⟩
    · rw [if_neg hring]
      refine ⟨by rw [hrest], fun u => ?_, hfault, by rw [hrest], by rw [hrest], hip⟩
      rw [htags u]
      simp
    · rw [hdev, List.countP_filter]
      simp only [hring, ne_eq, not_false_eq_true, decide_true, Bool.true_and, Bool.and_comm]
    · rw [hchan c]
      simp [hring]
    · have hno1 : ¬(k = 1 ∧ s.cmd.phase = .executing ∧
          (s.cmd.code = Command.ringStop.code ∨ s.cmd.code = Command.drain.code)) := fun h => hno h.2
      rw [if_neg hring, if_neg hno1, Nat.add_zero]

/-- Settles O18: the pool emptied, then the ring's part. -/
theorem backplaneResetRelease : Obligations.BackplaneResetRelease := by
  unfold Obligations.BackplaneResetRelease
  intro s hdevice hgood
  obtain ⟨-, -, hproc, hpool, -⟩ := hgood
  obtain ⟨hslot, hchan, hrest⟩ := s.resetBase_eq hpool
  obtain ⟨hphase, hcode, hresults, hlast, hdiscarded⟩ := s.cmd.abort_eq hproc.2.1 hproc.results
  rw [exec_backplaneReset hdevice]
  generalize s.resetBase = b at *
  have hcmd : b.cmd = s.cmd.abort := (congrArg State.cmd hrest :)
  have hints : b.ints = s.ints.clearService := (congrArg State.ints hrest :)
  have hring : b.ring = s.ring := (congrArg State.ring hrest :)
  have hdev := congrArg State.dev hrest
  obtain ⟨hrcmd, hrring, hrdev, hrchan, hrints⟩ := ringBackplaneReset_eq (s := b) (by rw [hcmd, hphase])
  obtain ⟨hpins, -, hpresent, houtbox, howner, hbank, htb, hslots, hqueue, hlimit, hpath, -⟩ := ringBackplaneReset_frame b
  generalize ringBackplaneReset b = v at *
  let w := v.setTb v.tb.restart
  obtain ⟨hai, hao⟩ := alertCheck_rest w
  obtain ⟨hapins, -, hapresent, haowner, habank, hadev, hatb, hachans, haslots, haqueue, halimit, hapath, haring, hacmd, -⟩ :=
    alertCheck_frame w
  have hachan (c : ChanId) : (alertCheck w).chan c = v.chan c := congrArg (fun x => x[c.val]) hachans
  have hsamples (c : ChanId) : b.samplesInFlight c = s.samplesInFlight c := by
    unfold State.samplesInFlight State.tag
    rw [hring]
  have hlost (k : Source) : b.lostEvents k = s.lostEvents k := by
    unfold State.lostEvents
    refine congrArg List.sum (List.map_congr_left fun c _ => ?_)
    rw [hsamples c, hchan c]
  have hacmd' : (alertCheck w).cmd = s.cmd.abort := hacmd.trans (hrcmd.trans hcmd)
  refine ⟨alertCheck w, rfl, ⟨?_, ?_⟩, ?_, ?_, fun i => ?_, ?_, fun c => ?_, ?_, ?_, ?_, ?_, ?_, ?_, fun c => ?_, w, rfl, ?_, ?_⟩
  · exact hapins.trans (hpins.trans (congrArg State.pins hrest :))
  · exact hapresent.trans (hpresent.trans (congrArg State.present hrest :))
  · rw [hacmd']
    exact ⟨haowner.trans (howner.trans (congrArg State.owner hrest :)), hphase, hcode, hresults, hlast⟩
  · have htb' : v.tb = { s.tb with obs := .paused } := htb.trans (congrArg State.tb hrest :)
    rw [hatb]
    show v.tb.restart = _
    rw [htb']
    rfl
  · have hi : (alertCheck w).slot i = b.slot i := congrArg (fun x => x[i.val]) (haslots.trans hslots)
    rw [hi]
    exact hslot i
  · exact haqueue.trans (hqueue.trans (congrArg State.closeQueue hrest :))
  · rw [hachan c, hrchan c, hchan c]
    exact ⟨rfl, rfl, rfl, rfl⟩
  · exact ⟨hapath.trans (hpath.trans (congrArg State.path hrest :)), habank.trans (hbank.trans (congrArg State.bank hrest :)),
      halimit.trans (hlimit.trans (congrArg State.watchLimit hrest :))⟩
  · rw [hai]
    show v.ints.ius = 0 ∧ v.ints.ie = s.ints.ie ∧ v.ints.mie = s.ints.mie
    rw [hrints.1, hints]
    exact ⟨rfl, rfl, rfl⟩
  · rw [haring, hai]
    unfold State.tag
    rw [haring]
    rw [hring] at hrring
    exact hrring
  · refine hao.trans ?_
    show v.outbox.length + 1 ≤ 1
    rw [houtbox, hrest]
    rfl
  · rwa [hacmd']
  · rw [hadev]
    show v.dev = _
    rw [hrdev]
    unfold State.tag
    rw [hring, hdev]
  · rw [hachan c, hrchan c, hchan c, hsamples c, hring]
  · exact houtbox.trans (congrArg State.outbox hrest :)
  · rw [hints] at hrints
    refine hrints.congr fun k => ?_
    rw [hring, hlost k]

end Sys2Proof.Machine
end

