-- ==== Sys2Proof/Proofs/Moves.lean ====
section
/-! PROOF. Every reaction as a sequence of few kinds of move on the sampling side: the channels, the slot pool and the alerts'
conditions. What each kind of move keeps, every step keeps; the invariants of the sampling side are proved that way. -/

namespace Sys2Proof.Machine

/-! ### Changes outside the sampling side -/

/-- What the alert invariant needs of a change (R9, R175, R178). -/
structure AlertKeep (s t : State) : Prop where
  ownId : t.ownId = s.ownId
  present : has s.present s.ownId = true → has t.present s.ownId = true
  mie : t.ints.mie = s.ints.mie
  enable : t.ints.alertEnable = s.ints.alertEnable
  node : t.ints.alertNode = s.ints.alertNode
  announced : s.ints.alerted &&& ~~~s.ints.ip = 0 → t.ints.alerted &&& ~~~t.ints.ip = 0

/-- t differs from s in nothing that the channels, their LOSS apart, and the slots show. -/
structure Unsampled (s t : State) : Prop extends AlertKeep s t where
  chan : ∀ c, t.chan c = { s.chan c with loss := (t.chan c).loss }
  slots : t.slots = s.slots
  closeQueue : t.closeQueue = s.closeQueue
  obs : t.tb.obs = s.tb.obs

section Relations

variable {s t u : State}

theorem AlertKeep.of_eq (hown : t.ownId = s.ownId := by simp) (hpresent : t.present = s.present := by simp)
    (hints : t.ints = s.ints := by simp) : AlertKeep s t := by
  refine ⟨hown, ?_, ?_, ?_, ?_, ?_⟩
  · rw [hpresent]
    exact id
  all_goals rw [hints]
  exact id

theorem AlertKeep.trans (h1 : AlertKeep s t) (h2 : AlertKeep t u) : AlertKeep s u where
  ownId := h2.ownId.trans h1.ownId
  present h := by
    have := h2.present
    rw [h1.ownId] at this
    exact this (h1.present h)
  mie := h2.mie.trans h1.mie
  enable := h2.enable.trans h1.enable
  node := h2.node.trans h1.node
  announced h := h2.announced (h1.announced h)

theorem AlertKeep.alertsOk (h : AlertKeep s t) (hs : s.alertsOk) : t.alertsOk := by
  obtain ⟨hpresent, hnode, hannounced⟩ := hs
  refine ⟨?_, ?_, h.announced hannounced⟩
  · rw [h.ownId]
    exact h.present hpresent
  · rw [h.ownId, h.enable, h.node]
    exact hnode

theorem Unsampled.of_keep (h : AlertKeep s t) (hchans : t.chans = s.chans := by simp)
    (hslots : t.slots = s.slots := by simp) (hqueue : t.closeQueue = s.closeQueue := by simp)
    (hobs : t.tb.obs = s.tb.obs := by simp) : Unsampled s t := by
  refine ⟨h, fun c => ?_, hslots, hqueue, hobs⟩
  have hc : t.chan c = s.chan c := congrArg (fun x => x[c.val]) hchans
  rw [hc]

theorem Unsampled.of_eq (hown : t.ownId = s.ownId := by simp) (hpresent : t.present = s.present := by simp)
    (hints : t.ints = s.ints := by simp) (hchans : t.chans = s.chans := by simp)
    (hslots : t.slots = s.slots := by simp) (hqueue : t.closeQueue = s.closeQueue := by simp)
    (hobs : t.tb.obs = s.tb.obs := by simp) : Unsampled s t :=
  .of_keep (.of_eq hown hpresent hints) hchans hslots hqueue hobs

theorem Unsampled.refl (s : State) : Unsampled s s := .of_eq rfl rfl rfl rfl rfl rfl rfl

theorem Unsampled.trans (h1 : Unsampled s t) (h2 : Unsampled t u) : Unsampled s u where
  toAlertKeep := h1.toAlertKeep.trans h2.toAlertKeep
  chan c := by
    rw [h2.chan c, h1.chan c]
  slots := h2.slots.trans h1.slots
  closeQueue := h2.closeQueue.trans h1.closeQueue
  obs := h2.obs.trans h1.obs

theorem Unsampled.slot (h : Unsampled s t) (i : SlotId) : t.slot i = s.slot i := congrArg (fun x => x[i.val]) h.slots

/-- What each visit does, all of them do. -/
theorem unsampled_foldl {α : Type} {f : State → α → State} (h : ∀ s x, Unsampled s (f s x)) (l : List α) (s : State) :
    Unsampled s (l.foldl f s) :=
  foldl_keeps (P := Unsampled s) f (fun t x ht => ht.trans (h t x)) l s (.refl s)

end Relations

section Updates

variable (s : State)

theorem unsampled_setPath (p : Path) : Unsampled s (s.setPath p) := .of_eq rfl rfl rfl rfl rfl rfl rfl

theorem unsampled_setRing (g : Ring) : Unsampled s (s.setRing g) := .of_eq rfl rfl rfl rfl rfl rfl rfl

theorem unsampled_setTag (u : WTag) (x : WriteTag) : Unsampled s (s.setTag u x) := .of_eq rfl rfl rfl rfl rfl rfl rfl

theorem unsampled_setCmd (c : Processor) : Unsampled s (s.setCmd c) := .of_eq rfl rfl rfl rfl rfl rfl rfl

theorem unsampled_setDev (d : DevStats) : Unsampled s (s.setDev d) := .of_eq rfl rfl rfl rfl rfl rfl rfl

theorem unsampled_setOwner (o : Option Node) : Unsampled s (s.setOwner o) := .of_eq rfl rfl rfl rfl rfl rfl rfl

theorem unsampled_emit (b : Beat) : Unsampled s (s.emit b) := .of_eq rfl rfl rfl rfl rfl rfl rfl

end Updates

/-! ### Interrupts and commands -/

theorem alerted_le_iff (x : Ints) :
    x.alerted &&& ~~~x.ip = 0 ↔ ∀ k : Source, has x.alerted k = true → has x.ip k = true := by
  unfold has
  constructor
  · intro h k ha
    have hk : (x.alerted &&& ~~~x.ip).getLsbD k.val = false := by rw [h]; simp
    by_contra hip
    rw [Bool.not_eq_true] at hip
    rw [BitVec.getLsbD_and, BitVec.getLsbD_not, ha, hip] at hk
    have hlt : k.val < 8 := k.isLt
    simp [hlt] at hk
  · intro h
    apply BitVec.eq_of_getLsbD_eq
    intro i hi
    have := h ⟨i, hi⟩
    cases ha : x.alerted.getLsbD i
    · simp [ha]
    · simp [ha, this ha]

theorem alertKeep_setInts {s : State} {x : Ints} (hmie : x.mie = s.ints.mie) (hen : x.alertEnable = s.ints.alertEnable)
    (hnode : x.alertNode = s.ints.alertNode)
    (h : (∀ k : Source, has s.ints.alerted k = true → has s.ints.ip k = true) →
      ∀ k : Source, has x.alerted k = true → has x.ip k = true) : AlertKeep s (s.setInts x) := by
  refine ⟨rfl, id, hmie, hen, hnode, ?_⟩
  rw [alerted_le_iff, alerted_le_iff]
  exact h

theorem unsampled_raise (s : State) (k : Source) : Unsampled s (s.raise k) := by
  refine .of_keep (alertKeep_setInts rfl rfl rfl fun h j hj => ?_)
  have := h j hj
  simp [Ints.event, has_withBit, this]

theorem unsampled_endWith (st : Status) (d : BitVec 16) (l : List Word) (s : State) : Unsampled s (endWith st d l s) :=
  (unsampled_setCmd s _).trans (unsampled_raise _ _)

theorem unsampled_endCommand (st : Status) (s : State) : Unsampled s (endCommand st s) := unsampled_endWith st 0 [] s

theorem unsampled_drainTest (s : State) : Unsampled s (drainTest s) :=
  drainTest_keeps (P := Unsampled s) (fun t _ _ ht => ht.trans (unsampled_endCommand .ok t)) s (.refl s)

theorem unsampled_stopTest (s : State) : Unsampled s (stopTest s) := by
  by_cases h : s.ring.state = .stopping ∧ ∀ u : WTag, (s.tag u).state = .free
  · rw [stopTest_of h]
    have hring : Unsampled s { s with ring := { s.ring with state := .idle } } := .of_eq rfl rfl rfl rfl rfl rfl rfl
    split_ifs
    · exact hring.trans (unsampled_endWith _ _ _ _)
    · exact hring
  · rw [stopTest_of_not h]
    exact .refl s

theorem unsampled_endOnFault (s : State) : Unsampled s (endOnFault s) := by
  by_cases h : s.endsOnFault
  · rw [endOnFault_of h]
    exact unsampled_endCommand _ s
  · rw [endOnFault_of_not h]
    exact .refl s

theorem unsampled_drainTimeoutTest (s : State) : Unsampled s (drainTimeoutTest s) := by
  unfold drainTimeoutTest
  split_ifs
  · exact unsampled_endCommand _ s
  · exact .refl s

theorem unsampled_tickDrain (s : State) : Unsampled s (tickDrain s) := by
  unfold tickDrain
  split_ifs
  · exact (unsampled_setCmd s _).trans (unsampled_drainTimeoutTest _)
  · exact .refl s

theorem unsampled_alertCheck (s : State) : Unsampled s (alertCheck s) := by
  unfold alertCheck
  cases hdue : s.alertDue with
  | none => exact .refl s
  | some h =>
    refine (unsampled_emit s _).trans (.of_keep (alertKeep_setInts rfl rfl rfl fun hle j hj => ?_))
    have hdeliver : s.ints.canDeliver h := (((s.alertDue_eq_some h).mp hdue).2.2.1).1
    by_cases hjh : j = h
    · subst hjh
      exact hdeliver.2.2.1
    · have hne : ¬h.val = j.val := fun e => hjh (Fin.ext e.symm)
      exact hle j (by simpa [has_withBit, hne] using hj)

/-! ### The output path and the ring -/

theorem unsampled_setLoss (s : State) (c : ChanId) : Unsampled s (s.setChan c { s.chan c with loss := true }) := by
  refine ⟨.of_eq rfl rfl rfl, fun d => ?_, rfl, rfl, rfl⟩
  rw [State.chan_setChan]
  split_ifs with hd
  · rw [hd]
  · rfl

theorem unsampled_settle (lost : Bool) (x : Record) (s : State) : Unsampled s (settle lost x s) :=
  settle_keeps (P := Unsampled s) (fun t c ht => ht.trans (unsampled_setLoss t c)) (fun t _ ht => ht.trans (unsampled_raise t _))
    lost x s (.refl s)

theorem unsampled_raiseIfCrossed (a b n : Nat) (s : State) : Unsampled s (raiseIfCrossed a b n s) := by
  unfold raiseIfCrossed
  split_ifs
  · exact unsampled_raise s _
  · exact .refl s

theorem unsampled_moveToQueue (x : Record) (rest : List Record) (s : State) : Unsampled s (moveToQueue x rest s) :=
  ((unsampled_setPath s _).trans (unsampled_settle false x _)).trans
    ((unsampled_raiseIfCrossed _ _ _ _).trans (unsampled_drainTest _))

theorem unsampled_issueHead (u : WTag) (x : Record) (rest : List Record) (s : State) : Unsampled s (issueHead u x rest s) :=
  .of_eq rfl rfl rfl rfl rfl rfl rfl

theorem unsampled_issueGap (u : WTag) (s : State) : Unsampled s (issueGap u s) := .of_eq rfl rfl rfl rfl rfl rfl rfl

theorem unsampled_dropHead (x : Record) (rest : List Record) (s : State) : Unsampled s (dropHead x rest s) := by
  unfold dropHead
  exact (((unsampled_setPath s _).trans (unsampled_setRing _ _)).trans (unsampled_setDev _ _)).trans
    ((unsampled_settle true x _).trans (unsampled_drainTest _))

theorem unsampled_issueOnce {s t : State} (h : issueOnce s = some t) : Unsampled s t := by
  obtain ⟨x, rest, -, ⟨-, u, -, ⟨-, rfl⟩ | ⟨-, rfl⟩⟩ | ⟨-, -, rfl⟩⟩ := issueOnce_cases s t h
  · exact unsampled_issueGap u s
  · exact unsampled_issueHead u x rest s
  · exact unsampled_dropHead x rest s

theorem unsampled_writebackIfDue (s : State) : Unsampled s (writebackIfDue s) := by
  unfold writebackIfDue
  split_ifs
  · exact .of_eq rfl rfl rfl rfl rfl rfl rfl
  · exact .refl s

theorem unsampled_commitTag (u : WTag) (s : State) : Unsampled s (commitTag u s) := by
  unfold commitTag
  exact (unsampled_setRing s _).trans
    ((unsampled_settle false _ _).trans (unsampled_raiseIfCrossed _ _ _ _))

theorem unsampled_voidRecords (l : List Record) (s : State) : Unsampled s (voidRecords l s) := by
  unfold voidRecords
  refine Unsampled.trans ?_ (unsampled_foldl (fun t x => unsampled_settle true x t) l _)
  exact (unsampled_setRing s _).trans (unsampled_setDev _ _)

theorem unsampled_ringFault (cause : RingCause) (code : BitVec 4) (tag : Option WTag) (s : State) :
    Unsampled s (ringFault cause code tag s) := by
  unfold ringFault
  refine Unsampled.trans ?_ (unsampled_endOnFault _)
  refine Unsampled.trans ?_ (unsampled_raise _ _)
  exact (unsampled_setRing s _).trans (unsampled_voidRecords _ _)

theorem unsampled_afterTagFree (s : State) : Unsampled s (afterTagFree s) :=
  (unsampled_stopTest s).trans (unsampled_drainTest _)

theorem unsampled_freeOrphan (u : WTag) (s : State) : Unsampled s (freeOrphan u s) := by
  refine Unsampled.trans ?_ (unsampled_afterTagFree _)
  exact unsampled_setTag s u _

theorem unsampled_completeWriteback (s : State) : Unsampled s (completeWriteback s) := by
  unfold completeWriteback
  have hfree : Unsampled s (s.setTag wbTag WriteTag.cleared) := unsampled_setTag s wbTag _
  dsimp only
  split_ifs
  · refine Unsampled.trans ?_ (unsampled_afterTagFree _)
    exact hfree
  · refine Unsampled.trans ?_ (unsampled_afterTagFree _)
    exact hfree.trans (unsampled_writebackIfDue _)

theorem unsampled_bounceTag (u : WTag) (s : State) : Unsampled s (bounceTag u s) := by
  unfold bounceTag
  dsimp only
  split_ifs
  · refine Unsampled.trans ?_ (unsampled_ringFault _ _ _ _)
    exact unsampled_setTag s u _
  · exact unsampled_setTag s u _

theorem unsampled_reissueTag (s : State) (u : WTag) : Unsampled s (reissueTag s u) := by
  unfold reissueTag
  split_ifs
  · refine Unsampled.trans ?_ (unsampled_emit _ _)
    exact unsampled_setTag s u _
  · exact .refl s

theorem unsampled_tickBackoff (s : State) (u : WTag) : Unsampled s (tickBackoff s u) := by
  unfold tickBackoff
  split_ifs
  · refine Unsampled.trans ?_ (unsampled_reissueTag _ u)
    exact unsampled_setTag s u _
  · exact .refl s

theorem unsampled_timeoutTag (u : WTag) (s : State) : Unsampled s (timeoutTag u s) := by
  unfold timeoutTag
  split_ifs
  · exact unsampled_ringFault _ _ _ s
  · exact .refl s

theorem unsampled_expireOrphan (u : WTag) (s : State) : Unsampled s (expireOrphan u s) := by
  unfold expireOrphan
  split_ifs
  · exact unsampled_freeOrphan u s
  · exact .refl s

theorem unsampled_limitTest (u : WTag) (s : State) : Unsampled s (limitTest u s) := by
  unfold limitTest
  cases (s.tag u).state with
  | issued => exact unsampled_timeoutTag u s
  | orphaned => exact unsampled_expireOrphan u s
  | free => exact .refl s
  | backoff => exact .refl s
  | done => exact .refl s

theorem unsampled_tickAge (g : Ring) (s : State) (u : WTag) : Unsampled s (tickAge g s u) := by
  unfold tickAge
  split_ifs
  · refine Unsampled.trans ?_ (unsampled_limitTest u _)
    exact unsampled_setTag s u _
  · exact .refl s

theorem unsampled_tickRing (g : Ring) (s : State) : Unsampled s (tickRing g s) :=
  (unsampled_foldl unsampled_tickBackoff allTags s).trans (unsampled_foldl (unsampled_tickAge g) allTags _)

theorem unsampled_ringWithdraw (n : Node) (s : State) : Unsampled s (ringWithdraw n s) := by
  have horphan (t : State) (u : WTag) : Unsampled t (freeOrphanOf n t u) := by
    unfold freeOrphanOf
    split_ifs
    · exact unsampled_freeOrphan u t
    · exact .refl t
  have hfault : Unsampled s (if n = s.ring.node then ringFault .targetGone 0 none s else s) := by
    split_ifs
    · exact unsampled_ringFault _ _ _ s
    · exact .refl s
  unfold ringWithdraw
  cases s.ring.state with
  | idle => exact .refl s
  | running => exact hfault
  | stopping => exact hfault
  | faulted => exact unsampled_foldl horphan allTags s

theorem unsampled_ringBackplaneReset (s : State) : Unsampled s (ringBackplaneReset s) := by
  unfold ringBackplaneReset
  split_ifs
  · exact .refl s
  · exact unsampled_ringFault _ _ _ s

end Sys2Proof.Machine
end

