-- ==== Sys2Proof/Proofs/Traces.lean ====
section
/-! PROOF. The kinds of move on the sampling side, and every step as a sequence of them; a request that the channels see, a bank
write and a write to the alert registers stand by themselves. -/

namespace Sys2Proof.Machine

/-- A move on the sampling side. `z` says whether statistics may be zeroed. -/
inductive Move (z : Prop) (s : State) : State → Prop
  | other (t : State) : Unsampled s t → Move z s t
  | arm (c : ChanId) : (s.chan c).run = .disarmed → Move z s (armChannel c s)
  | release (c : ChanId) : (s.chan c).run = .held → Move z s (releaseChannel c s)
  | disarm (c : ChanId) : Move z s (disarmChannel s c)
  | start : Move z s (s.setTb { s.tb with obs := .observing })
  | pause : Move z s (pauseObserving s)
  | free (scope : ChanId → Bool) : Move z s (freeSlots scope .counting s)
  | sampling : Move z s (scopeSampling s)
  | touch (i : SlotId) (x : Slot) : (s.slot i).isLive = true → x.isLive = true → x.channel = (s.slot i).channel →
      x.initiator = (s.slot i).initiator → x.target = (s.slot i).target → x.tag = (s.slot i).tag →
      x.kind = (s.slot i).kind → Move z s (s.setSlot i x)
  | qualify (i : SlotId) (x : Slot) : (s.slot i).isLive = true → x.state = .closing → x.channel = (s.slot i).channel →
      Move z s ((s.setSlot i x).setCloseQueue (s.closeQueue ++ [i]))
  | filter (i : SlotId) : (s.slot i).isLive = true →
      Move z s ((s.setSlot i Slot.cleared).modStats (s.slot i).channel fun st => { st with filtered := st.filtered + 1 })
  | deliver (i : SlotId) (rest : List SlotId) : s.closeQueue = i :: rest →
      Move z s (((s.setCloseQueue rest).setSlot i Slot.cleared).modStats (s.slot i).channel fun st =>
        { st with delivered := st.delivered + 1 })
  | hold (c : ChanId) : (s.chan c).bank.notify = .each → (s.chan c).run = .counting → Move z s (s.setRun c .held)
  | holdArmed (c : ChanId) : (s.chan c).bank.notify = .each → Move z s (cancelIfArmed .held s c)
  | zero (c : ChanId) : z → Move z s (zeroStats s c)

/-- Any number of moves. -/
abbrev Moves (z : Prop) : State → State → Prop := Relation.ReflTransGen (Move z)

section Lift

variable {z : Prop} {s t u : State}

theorem Move.moves (h : Move z s t) : Moves z s t := .single h

theorem Unsampled.moves (h : Unsampled s t) : Moves z s t := .single (.other t h)

theorem Moves.then (h1 : Moves z s t) (h2 : Unsampled t u) : Moves z s u := h1.tail (.other u h2)

/-- What every move keeps, any number of moves keeps. -/
theorem Moves.keeps {P : State → Prop} (hmove : ∀ s t, Move z s t → P s → P t) (h : Moves z s t) (hs : P s) : P t := by
  induction h with
  | refl => exact hs
  | tail _ h ih => exact hmove _ _ h ih

end Lift

/-! ### The output path and the ring -/

section Operations

variable {z : Prop}

theorem heldEntry_moves (c : ChanId) (s : State) : Moves z s (heldEntry c s) := by
  unfold heldEntry
  by_cases hn : (s.chan c).bank.notify = .each
  · rw [if_pos hn]
    cases hr : (s.chan c).run with
    | counting => exact (.single (.hold c hn hr))
    | armed =>
      have hcancel : cancelIfArmed .held s c = cancelArming c .held s := if_pos hr
      show Moves z s (cancelArming c .held s)
      rw [← hcancel]
      exact (.single (.holdArmed c hn))
    | held => exact .refl
    | disarmed => exact .refl
  · rw [if_neg hn]

theorem enterStaging_moves {i : SlotId} {rest : List SlotId} {s : State} (h : s.closeQueue = i :: rest) :
    Moves z s (enterStaging i rest s) := by
  unfold enterStaging
  refine Relation.ReflTransGen.trans ?_ (heldEntry_moves _ _)
  refine Relation.ReflTransGen.tail (.single (.deliver i rest h)) (.other _ ?_)
  exact unsampled_setPath _ { s.path with
    staging := s.path.staging ++ [composeSample (s.slot i) i s.path.seq], seq := s.path.seq + 1 }

theorem pathMove_moves {s t : State} (h : PathMove s t) : Moves z s t := by
  cases h with
  | toQueue x rest => exact (unsampled_moveToQueue x rest s).moves
  | gap u => exact (unsampled_issueGap u s).moves
  | head u x rest => exact (unsampled_issueHead u x rest s).moves
  | drop x rest => exact (unsampled_dropHead x rest s).moves
  | enter i rest h => exact enterStaging_moves h

theorem advance_moves (s : State) : Moves z s (advance s) :=
  (advance_pathMoves s).keeps (P := Moves z s) (fun _ _ h hs => hs.trans (pathMove_moves h)) .refl

theorem commitRun_moves (s : State) : Moves z s (commitRun s) := by
  refine commitRun_keeps (P := Moves z s) (fun t u _ _ ht => ht.then (unsampled_commitTag u t)) (fun t ht => ?_) s .refl
  refine Relation.ReflTransGen.trans ?_ (advance_moves _)
  exact ht.then (((unsampled_writebackIfDue t).trans (unsampled_stopTest _)).trans (unsampled_drainTest _))

theorem completeTag_moves (u : WTag) (s : State) : Moves z s (completeTag u s) := by
  unfold completeTag
  split_ifs
  · exact (unsampled_completeWriteback s).moves
  · refine Relation.ReflTransGen.trans ?_ (commitRun_moves _)
    exact (unsampled_setTag s u _).moves

theorem replyToIssued_moves (u : WTag) (b : ReplyBody) (s : State) : Moves z s (replyToIssued u b s) := by
  cases b with
  | done => exact completeTag_moves u s
  | data p =>
    refine Relation.ReflTransGen.trans ?_ (completeTag_moves u _)
    exact (unsampled_setDev s _).moves
  | bounce => exact (unsampled_bounceTag u s).moves
  | fault code => exact (unsampled_ringFault _ _ _ s).moves

theorem ownReply_moves (r : Reply) (s : State) : Moves z s (ownReply r s) := by
  unfold ownReply replyToTag
  split_ifs with h
  · cases (s.tag ⟨r.tag.val, h⟩).state with
    | issued => exact replyToIssued_moves _ _ s
    | orphaned => exact (unsampled_freeOrphan _ s).moves
    | free => exact (unsampled_setDev s _).moves
    | backoff => exact (unsampled_setDev s _).moves
    | done => exact (unsampled_setDev s _).moves
  · exact (unsampled_setDev s _).moves

/-! ### The slots -/

theorem closeSlot_moves {i : SlotId} {s : State} (h : (s.slot i).isLive = true) (e : Ending) :
    Moves z s (closeSlot i e s) := by
  unfold closeSlot
  dsimp only
  split_ifs
  · refine Relation.ReflTransGen.trans ?_ (advance_moves _)
    exact (.single (.qualify i _ h rfl rfl))
  · exact Moves.then (.single (.filter i h)) (unsampled_drainTest _)

theorem closeSlot_setDev_moves {i : SlotId} {s : State} (h : (s.slot i).isLive = true) (e : Ending) (d : DevStats) :
    Moves z s (closeSlot i e (s.setDev d)) :=
  Relation.ReflTransGen.trans (unsampled_setDev s d).moves (closeSlot_moves (s := s.setDev d) h e)

/-- A live slot changes its latencies, counts or flags, and then closes. -/
theorem closeSlot_touch_moves {i : SlotId} {s : State} {x : Slot} (hx : Move z s (s.setSlot i x)) (hlive : x.isLive = true) (e : Ending) : Moves z s (closeSlot i e (s.setSlot i x)) :=
  Relation.ReflTransGen.trans hx.moves (closeSlot_moves (by rwa [State.slot_setSlot_self]) e)

theorem closeSlot_anomaly_moves {i : SlotId} {s : State} {x : Slot} (hx : Move z s (s.setSlot i x))
    (hlive : x.isLive = true) (e : Ending) : Moves z s (closeSlot i e (countAnomaly (s.setSlot i x))) :=
  Relation.ReflTransGen.trans hx.moves (closeSlot_setDev_moves (by rwa [State.slot_setSlot_self]) e _)

theorem supersede_moves {i : SlotId} {s : State} (h : (s.slot i).isLive = true) : Moves z s (supersede i s) := by
  unfold supersede
  split_ifs
  · exact closeSlot_anomaly_moves (x := { s.slot i with anomaly := true }) (.touch i _ h h rfl rfl rfl rfl rfl) h _
  · exact closeSlot_moves h _

theorem watchMatch_moves (r : Request) (s : State) : Moves z s (watchMatch r s) := by
  unfold watchMatch
  cases hm : s.matchPair r.initiator r.tag with
  | none => exact .refl
  | some i =>
    have hlive : (s.slot i).isLive = true := ((s.matchPair_eq_some _ _ i).mp hm).1.1
    show Moves z s (if r.reissue then (if (s.slot i).state = .bounced then reopen i s else s) else supersede i s)
    split_ifs
    · exact (.single (.touch i _ hlive rfl rfl rfl rfl rfl rfl))
    · exact .refl
    · exact supersede_moves hlive

theorem replyToSlot_moves {i : SlotId} {s : State} (h : (s.slot i).isLive = true) (b : ReplyBody) :
    Moves z s (replyToSlot i b s) := by
  have hstray : Moves z s (countStray s) := (unsampled_setDev s _).moves
  have hcomplete (b : ReplyBody) : Moves z s (completeSlot i b s) := by
    unfold completeSlot
    dsimp only
    split_ifs
    · exact closeSlot_touch_moves (x := (s.slot i).withFinal) (.touch i _ h h rfl rfl rfl rfl rfl) h _
    · exact closeSlot_anomaly_moves (x := { (s.slot i).withFinal with anomaly := true })
        (.touch i _ h h rfl rfl rfl rfl rfl) h _
  by_cases hb : (s.slot i).state = .bounced
  · rw [replyToSlot_of_bounced hb]
    exact hstray
  · have ho : (s.slot i).state = .opened := by
      unfold Slot.isLive at h
      simpa [hb] using h
    cases b with
    | bounce =>
      rw [replyToSlot_bounce ho]
      exact (.single (.touch i _ h rfl rfl rfl rfl rfl rfl))
    | fault code =>
      rw [replyToSlot_fault ho]
      exact closeSlot_touch_moves (x := { (s.slot i).withFinal with faultCode := some code })
        (.touch i _ h h rfl rfl rfl rfl rfl) h _
    | data p =>
      rw [replyToSlot_data ho]
      exact hcomplete _
    | done =>
      rw [replyToSlot_done ho]
      exact hcomplete _

theorem replyBeat_moves (r : Reply) (s : State) : Moves z s (replyBeat r s) := by
  unfold replyBeat
  split_ifs
  · exact ownReply_moves r s
  · unfold snoopReply
    cases hm : s.matchPair r.initiator r.tag with
    | none => exact (unsampled_setDev s _).moves
    | some i => exact replyToSlot_moves ((s.matchPair_eq_some _ _ i).mp hm).1.1 r.body

theorem foldl_moves {α : Type} {f : State → α → State} (h : ∀ s x, Moves z s (f s x)) (l : List α) (s : State) :
    Moves z s (l.foldl f s) :=
  foldl_keeps (P := Moves z s) f (fun t x ht => ht.trans (h t x)) l s .refl

theorem ageSlot_moves (s : State) (i : SlotId) : Moves z s (ageSlot s i) := by
  unfold ageSlot Slot.aged
  split_ifs with h
  · exact (.single (.touch i _ h h rfl rfl rfl rfl rfl))
  · rw [State.setSlot_slot]

theorem expireSlot_moves (s : State) (i : SlotId) : Moves z s (expireSlot s i) := by
  unfold expireSlot
  split_ifs with h
  · exact closeSlot_setDev_moves ((s.expiryDue_iff i).mp h).1 _ _
  · exact .refl

theorem tickBeat_moves (s : State) : Moves z s (tickBeat s) := by
  unfold tickBeat tickSlots
  refine Moves.then (Moves.then ?_ (unsampled_tickRing s.ring _)) (unsampled_tickDrain _)
  refine Relation.ReflTransGen.trans ?_ (foldl_moves expireSlot_moves slotIds _)
  refine Relation.ReflTransGen.trans ?_ (foldl_moves ageSlot_moves slotIds _)
  exact Relation.ReflTransGen.single (.other _ (.of_eq rfl rfl rfl rfl rfl rfl rfl))

theorem abandonNode_moves (n : Node) (s : State) : Moves z s (abandonNode n s) := by
  refine abandonNode_keeps (P := Moves z s) n (fun t i hi ht => ht.trans (closeSlot_moves ?_ _)) s .refl
  unfold Slot.involves at hi
  rw [Bool.and_eq_true] at hi
  exact hi.1

theorem unsampled_loseOwner (s : State) : Unsampled s (loseOwner s) := (unsampled_setOwner s none).trans (unsampled_setCmd _ _)

theorem withdraw_moves {n : Node} {s : State} (h : n ≠ s.ownId) : Moves z s (withdraw n s) := by
  unfold withdraw
  have hpresent : Unsampled s (s.setPresent (withoutBit s.present n)) := by
    refine .of_keep ⟨rfl, fun hp => ?_, rfl, rfl, rfl, id⟩ rfl rfl rfl rfl
    have hne : ¬n.val = s.ownId.val := fun e => h (Fin.ext e)
    show has (withoutBit s.present n) s.ownId = true
    rw [has_withoutBit _ _ _ s.ownId.isLt, hp, decide_eq_false hne]
    rfl
  dsimp only
  refine Moves.then ?_ (unsampled_ringWithdraw n _)
  have habandon : Moves z s (abandonNode n (s.setPresent (withoutBit s.present n))) :=
    hpresent.moves.trans (abandonNode_moves n _)
  split_ifs
  · exact habandon.then (unsampled_loseOwner _)
  · exact habandon

theorem backplaneResetBeat_moves (s : State) : Moves z s (backplaneResetBeat s) := by
  unfold backplaneResetBeat
  have hpresent : Unsampled s (s.setPresent (s.pins.lines ||| lineOf s.ownId)) := by
    refine .of_keep ⟨rfl, fun _ => ?_, rfl, rfl, rfl, id⟩ rfl rfl rfl rfl
    have hlt : s.ownId.val < 16 := s.ownId.isLt
    show has (s.pins.lines ||| lineOf s.ownId) s.ownId = true
    simp [has, lineOf, hlt]
  have hobserving (t : State) : Moves z t (resetObserving t) := by
    unfold resetObserving
    split_ifs
    · exact Move.pause.moves
    · exact .refl
  have hservice (t : State) : Unsampled t (t.setInts t.ints.clearService) := by
    refine .of_keep (alertKeep_setInts rfl rfl rfl fun _ k hk => ?_) rfl rfl rfl rfl
    simp [Ints.clearService, has] at hk
  have hrestart (t : State) : Unsampled t (t.setTb t.tb.restart) := .of_eq rfl rfl rfl rfl rfl rfl rfl
  dsimp only
  refine Moves.then (Moves.then (Moves.then ?_ (hservice _)) (unsampled_ringBackplaneReset _)) (hrestart _)
  refine Relation.ReflTransGen.tail ?_ (Move.free _)
  refine Relation.ReflTransGen.trans ?_ (hobserving _)
  exact (hpresent.trans (unsampled_loseOwner _)).moves

/-! ### Commands -/

theorem applyScopes_moves (hz : z) (p : Word) (s : State) : Moves z s (applyScopes p s) := by
  have hwhen (i : Nat) (f : State → State) (hf : ∀ t, Moves z t (f t)) (t : State) : Moves z t (whenScope p i f t) := by
    unfold whenScope
    split_ifs
    · exact hf t
    · exact .refl
  have houtput (t : State) : Moves z t (scopeOutput t) := by
    have hdiscard (u : State) (r : Record) : Unsampled u (discardStaged u r) :=
      (unsampled_setPath u _).trans (unsampled_settle true r _)
    unfold scopeOutput
    dsimp only
    refine Relation.ReflTransGen.trans ?_ (advance_moves _)
    refine Moves.then (Moves.then ?_ (unsampled_setPath _ _)) (unsampled_setRing _ _)
    exact ((unsampled_setPath t _).trans (unsampled_foldl hdiscard _ _)).moves
  have hstats (t : State) : Moves z t (scopeStatistics t) := by
    refine Relation.ReflTransGen.trans ?_ (foldl_moves (fun u c => (Move.zero c hz).moves) chanIds _)
    exact (unsampled_setDev t _).moves
  have hints (t : State) : Moves z t (scopeInterrupts t) := by
    refine .single (.other _ (.of_keep (alertKeep_setInts rfl rfl rfl fun _ k hk => ?_) rfl rfl rfl rfl))
    simp [Ints.clearFlags, has] at hk
  exact ((hwhen 0 _ (fun t => Move.sampling.moves) s).trans (hwhen 1 _ houtput _)).trans
    ((hwhen 2 _ hstats _).trans (hwhen 3 _ hints _))

theorem startRing_moves (resume : Bool) (s : State) : Moves z s (startRing resume s) := by
  unfold startRing
  dsimp only
  refine Relation.ReflTransGen.trans ?_ (advance_moves _)
  exact ((unsampled_setRing s _).trans (unsampled_writebackIfDue _)).moves

theorem runCommand_moves {c : Command} (hz : c = .reset → z) (p : Word) (s : State) : Moves z s (runCommand c p s) := by
  have hend (st : Status) : Moves z s (endCommand st s) := (unsampled_endCommand st s).moves
  cases c with
  | start =>
    show Moves _ s (cmdStart s)
    unfold cmdStart
    split_ifs
    · exact Move.start.moves.then (unsampled_endCommand _ _)
    · exact hend _
  | pause =>
    show Moves _ s (cmdPause s)
    unfold cmdPause
    split_ifs
    · exact Move.pause.moves.then (unsampled_endCommand _ _)
    · exact hend _
  | arm =>
    show Moves _ s (cmdArm p s)
    unfold cmdArm
    cases chanParam p with
    | none => exact hend _
    | some d =>
      dsimp only
      split_ifs with hr
      · exact hend _
      · exact hend _
      · exact (Move.arm d (not_not.mp hr)).moves.then (unsampled_endCommand _ _)
  | disarm =>
    show Moves _ s (cmdDisarm p s)
    unfold cmdDisarm
    cases chanParam p with
    | none => exact hend _
    | some d => exact (Move.disarm d).moves.then (unsampled_endCommand _ _)
  | release =>
    show Moves _ s (cmdRelease p s)
    unfold cmdRelease
    cases chanParam p with
    | none => exact hend _
    | some d =>
      dsimp only
      split_ifs with hr
      · exact (Move.release d hr).moves.then (unsampled_endCommand _ _)
      · exact hend _
  | purge =>
    show Moves _ s (cmdPurge p s)
    unfold cmdPurge
    cases purgeScope p with
    | none => exact hend _
    | some scope => exact (Move.free scope).moves.then (unsampled_endWith _ _ _ _)
  | snapshot =>
    show Moves _ s (cmdSnapshot p s)
    unfold cmdSnapshot
    cases chanParam p with
    | none => exact hend _
    | some d => exact (unsampled_endWith _ _ _ s).moves
  | readWatch =>
    show Moves _ s (cmdReadWatch p s)
    unfold cmdReadWatch
    cases slotParam p with
    | none => exact hend _
    | some i => exact (unsampled_endWith _ _ _ s).moves
  | setTime =>
    show Moves _ s (cmdSetTime p s)
    unfold cmdSetTime
    refine Moves.then ?_ (unsampled_endCommand _ _)
    exact Relation.ReflTransGen.single (.other _ (.of_eq rfl rfl rfl rfl rfl rfl rfl))
  | ringStart =>
    show Moves _ s (cmdRingStart p s)
    unfold cmdRingStart
    cases flagParam p with
    | none => exact hend _
    | some resume =>
      dsimp only
      split_ifs
      · exact hend _
      · exact hend _
      · exact (startRing_moves resume s).then (unsampled_endCommand _ _)
  | ringStop =>
    show Moves _ s (cmdRingStop s)
    unfold cmdRingStop
    split_ifs
    · refine Moves.then ?_ (unsampled_stopTest _)
      exact (unsampled_setRing s _).moves
    · exact hend _
  | drain =>
    show Moves _ s (cmdDrain p s)
    unfold cmdDrain
    split_ifs
    · exact hend _
    · exact (unsampled_setCmd s _).moves
    · exact hend _
    · exact hend _
  | selectOutput =>
    show Moves _ s (cmdSelectOutput p s)
    unfold cmdSelectOutput
    cases flagParam p with
    | none => exact hend _
    | some b =>
      by_cases hok : (s.path.staging.isEmpty && s.path.results.isEmpty && decide (s.ring.state = .idle)) = true
      · refine (congrArg (Moves z s) (if_pos hok)).mpr (Moves.then ?_ (unsampled_endCommand _ _))
        exact (unsampled_setPath s _).moves
      · exact (congrArg (Moves z s) (if_neg hok)).mpr (hend _)
  | reset =>
    show Moves _ s (cmdReset p s)
    unfold cmdReset
    split_ifs
    · exact hend _
    · exact hend _
    · exact (applyScopes_moves (hz rfl) p s).then (unsampled_endCommand _ _)

/-- RESET awaits its parameter word. -/
abbrev State.awaitsReset (s : State) : Prop := s.cmd.phase = .params ∧ s.cmd.code = Command.reset.code

theorem Command.eq_of_ofCode {code : BitVec 8} {c : Command} (h : Command.ofCode code = some c) : code = c.code := by
  have := List.find?_some h
  exact (of_decide_eq_true this).symm

theorem writeCmdPort_moves (v : Word) (s : State) : Moves s.awaitsReset s (writeCmdPort v s) := by
  unfold writeCmdPort
  cases hp : s.cmd.phase with
  | idle =>
    show Moves _ s (openCommand v s)
    unfold openCommand
    cases hc : Command.ofCode (v.extractLsb' 0 8) with
    | none => exact ((unsampled_setCmd s _).trans (unsampled_endCommand _ _)).moves
    | some c =>
      dsimp only
      split_ifs with hparam
      · exact (unsampled_setCmd s _).moves
      · refine Relation.ReflTransGen.trans (unsampled_setCmd s (s.cmd.opened c)).moves (runCommand_moves (fun hreset => ?_) 0 _)
        rw [hreset] at hparam
        exact absurd rfl hparam
  | params =>
    show Moves _ s (paramWord v s)
    unfold paramWord
    cases hc : Command.ofCode s.cmd.code with
    | none => exact .refl
    | some c =>
      refine Relation.ReflTransGen.trans (unsampled_setCmd s { s.cmd with phase := .executing }).moves
        (runCommand_moves (fun hreset => ⟨hp, ?_⟩) v _)
      rw [Command.eq_of_ofCode hc, hreset]
  | executing => exact .refl
  | result => exact .refl

theorem cancelCommand_moves (s : State) : Moves z s (cancelCommand s) := by
  unfold cancelCommand
  cases s.cmd.phase with
  | idle => exact .refl
  | params => exact (unsampled_setCmd s _).moves
  | executing => exact (unsampled_endCommand _ s).moves
  | result => exact (unsampled_setCmd s _).moves

/-! ### The window -/

theorem readQueue_moves (s : State) : Moves z s (readQueue s) := by
  unfold readQueue
  cases s.path.results with
  | nil => exact .refl
  | cons r rest =>
    dsimp only
    split_ifs
    · refine Relation.ReflTransGen.trans ?_ (advance_moves _)
      exact (unsampled_setPath s _).moves
    · exact (unsampled_setPath s _).moves

theorem acceptMarker_moves (n : Node) (v : Word) (s : State) : Moves z s (acceptMarker n v s) := by
  unfold acceptMarker
  dsimp only
  refine Relation.ReflTransGen.trans ?_ (advance_moves _)
  exact ((unsampled_setPath s _).trans (unsampled_setDev _ _)).moves

theorem writeConsumer_moves (v : BitVec 17) (s : State) : Moves z s (writeConsumer v s) := by
  unfold writeConsumer
  dsimp only
  split_ifs
  · refine Relation.ReflTransGen.trans ?_ (advance_moves _)
    exact (unsampled_setRing s _).moves
  · exact (unsampled_setRing s _).moves

theorem has_withBit_of_has {m : BitVec 8} {j : Source} (k : Nat) (h : has m j = true) : has (withBit m k) j = true := by
  rw [has_withBit _ _ _ j.isLt, h]
  rfl

theorem has_withoutBit_of_le {a m : BitVec 8} {j : Source} {k : Nat} (hle : has a j = true → has m j = true)
    (h : has (withoutBit a k) j = true) : has (withoutBit m k) j = true := by
  rw [has_withoutBit _ _ _ j.isLt, Bool.and_eq_true] at h ⊢
  exact ⟨hle h.1, h.2⟩

theorem act_announced (x : Ints) (k : Source) (a : IntAction)
    (h : ∀ j : Source, has x.alerted j = true → has x.ip j = true) (j : Source) (hj : has (x.act k a).alerted j = true) :
    has (x.act k a).ip j = true := by
  cases a with
  | setIp => exact has_withBit_of_has k (h j hj)
  | clearIp => exact has_withoutBit_of_le (h j) hj
  | clearAll => exact has_withoutBit_of_le (h j) hj
  | setIe => exact h j hj
  | clearIe => exact h j hj
  | setIus => exact h j hj
  | clearIus => exact h j hj
  | clearErr => exact h j hj

theorem acknowledge_announced (x : Ints) (h : ∀ j : Source, has x.alerted j = true → has x.ip j = true) (j : Source)
    (hj : has x.acknowledge.alerted j = true) : has x.acknowledge.ip j = true := by
  unfold Ints.acknowledge at hj ⊢
  cases hx : x.highest with
  | none =>
    rw [hx] at hj
    exact h j hj
  | some k =>
    rw [hx] at hj
    exact has_withoutBit_of_le (h j) hj

/-- The registers whose writes stand by themselves apart, a performance is moves. -/
inductive Performance (z : Prop) (s : State) : State → Prop
  | moves (t : State) : Moves z s t → Performance z s t
  | alerts (x : Ints) : (s.alertsOk → (s.setInts x).alertsOk) → Performance z s (s.setInts x)
  | bank (g : Reg) (v : Word) : g.isBank = true → valueOk s g v = true → (s.chan s.bank).run = .disarmed →
      s.owned s.bank = 0 → Performance z s (writeBank g v s)

theorem Performs.performance {s t : State} {n : Node} (h : Performs s n t) : Performance s.awaitsReset s t := by
  have hsame {u : State} (hown : u.ownId = s.ownId) (hpresent : u.present = s.present) (hints : u.ints = s.ints)
      (hchans : u.chans = s.chans) (hslots : u.slots = s.slots) (hqueue : u.closeQueue = s.closeQueue)
      (hobs : u.tb.obs = s.tb.obs) : Performance s.awaitsReset s u :=
    .moves u (Unsampled.of_eq hown hpresent hints hchans hslots hqueue hobs).moves
  have hsetInts {x : Ints} (hk : AlertKeep s (s.setInts x)) : Performance s.awaitsReset s (s.setInts x) :=
    .moves _ (Unsampled.of_keep hk rfl rfl rfl rfl).moves
  cases h with
  | nothing => exact .moves _ .refl
  | refusal d => exact .moves _ (unsampled_setDev s d).moves
  | resultPort => exact .moves _ (unsampled_setCmd s _).moves
  | queueData => exact .moves _ (readQueue_moves s)
  | ack =>
    refine hsetInts (alertKeep_setInts ?_ ?_ ?_ (acknowledge_announced s.ints))
    all_goals
      unfold Ints.acknowledge
      cases s.ints.highest <;> rfl
  | marker v => exact .moves _ (acceptMarker_moves n v s)
  | markerRefused => exact .moves _ ((unsampled_setDev s _).trans (unsampled_raise _ _)).moves
  | claim => exact .moves _ (unsampled_setOwner s _).moves
  | relinquish => exact .moves _ (unsampled_loseOwner s).moves
  | prescale v => exact hsame rfl rfl rfl rfl rfl rfl rfl
  | watchLimit v => exact hsame rfl rfl rfl rfl rfl rfl rfl
  | lfsr v => exact hsame rfl rfl rfl rfl rfl rfl rfl
  | cmdPort v => exact .moves _ (writeCmdPort_moves v s)
  | cmdCancel => exact .moves _ (cancelCommand_moves s)
  | bank c => exact hsame rfl rfl rfl rfl rfl rfl rfl
  | bankReg g v h1 h2 h3 h4 => exact .bank g v h1 h2 h3 h4
  | ringReg g v => exact .moves _ (unsampled_setRing s _).moves
  | consumer v => exact .moves _ (writeConsumer_moves v s)
  | queuePtr => exact .moves _ (unsampled_setPath s _).moves
  | queueThreshold v => exact .moves _ (unsampled_setPath s _).moves
  | intCtrl k a =>
    refine hsetInts (alertKeep_setInts ?_ ?_ ?_ (act_announced s.ints k a))
    all_goals cases a <;> rfl
  | endSvc =>
    refine hsetInts (alertKeep_setInts ?_ ?_ ?_ fun hle j hj => ?_)
    case refine_4 =>
      unfold Ints.endService at hj ⊢
      cases hx : s.ints.inService with
      | none =>
        rw [hx] at hj
        exact hle j hj
      | some k =>
        rw [hx] at hj
        exact hle j hj
    all_goals
      unfold Ints.endService
      cases s.ints.inService <;> rfl
  | mie b => exact .alerts _ id
  | alertNode m b hm => exact .alerts _ fun h => ⟨h.1, fun _ => hm, h.2.2⟩
  | alertAddr v => exact hsetInts (alertKeep_setInts rfl rfl rfl id)

/-! ### Steps -/

/-- What a step other than a power-on reset does on the sampling side. -/
inductive Trace (z : Prop) (s t : State) : Prop
  | moves : Moves z s t → Trace z s t
  | request (r : Request) (u : State) : r.kind = .broadcast ∨ r.target ≠ some u.ownId → Unsampled s u →
      Unsampled (closeUnreplied r (visitChannels r (watchMatch r u))) t → Trace z s t
  | alerts (x : Ints) (u : State) : Unsampled s u → (u.alertsOk → (u.setInts x).alertsOk) → Unsampled (u.setInts x) t →
      Trace z s t
  | bank (g : Reg) (v : Word) (u : State) : Unsampled s u → u.bank = s.bank → g.isBank = true → valueOk u g v = true →
      (u.chan u.bank).run = .disarmed → u.owned u.bank = 0 → Unsampled (writeBank g v u) t → Trace z s t

theorem unsampled_arrival (n : Node) (s : State) : Unsampled s (implicitArrival n s) := by
  refine .of_keep ⟨rfl, fun hp => ?_, rfl, rfl, rfl, id⟩ rfl rfl rfl rfl
  show has (withBit s.present n) s.ownId = true
  rw [has_withBit _ _ _ s.ownId.isLt, hp]
  rfl

theorem unsampled_setLine (n : Node) (b : Bool) (s : State) : Unsampled s (setLine n b s) := by
  unfold setLine
  split_ifs
  · exact .refl s
  · exact .of_eq rfl rfl rfl rfl rfl rfl rfl
  · exact .of_eq rfl rfl rfl rfl rfl rfl rfl

theorem requestBeat_trace (r : Request) (s : State) : Trace s.awaitsReset s (alertCheck (requestBeat r s)) := by
  have harrive := unsampled_arrival r.initiator s
  unfold requestBeat
  dsimp only
  by_cases htarget : isTargetAccess (implicitArrival r.initiator s) r = true
  · rw [if_pos htarget]
    obtain ⟨u, hu, hperforms⟩ := targetAccess_performs r (implicitArrival r.initiator s)
    have hsu : Unsampled s u ∧ u.bank = s.bank ∧ u.cmd = s.cmd := by
      obtain rfl | ⟨b, rfl⟩ := hu
      · exact ⟨harrive, rfl, rfl⟩
      · exact ⟨harrive.trans (unsampled_emit _ b), rfl, rfl⟩
    obtain ⟨hsu, hbank, hcmd⟩ := hsu
    have hperformance := hperforms.performance
    rw [State.awaitsReset, hcmd] at hperformance
    generalize targetAccess r (implicitArrival r.initiator s) = t at hperformance
    cases hperformance with
    | moves _ h => exact .moves (Moves.then (hsu.moves.trans h) (unsampled_alertCheck t))
    | alerts x h => exact .alerts x u hsu h (unsampled_alertCheck _)
    | bank g v h1 h2 h3 h4 => exact .bank g v u hsu hbank h1 h2 h3 h4 (unsampled_alertCheck _)
  · rw [if_neg htarget]
    refine .request r _ ?_ harrive (unsampled_alertCheck _)
    simp only [isTargetAccess, Bool.and_eq_true, decide_eq_true_eq] at htarget
    by_cases hk : r.kind = .broadcast
    · exact .inl hk
    · exact .inr fun h => htarget ⟨hk, h⟩

/-- Every effect is a trace, or a power-on reset. -/
theorem Effect.trace {s t : State} {i : Instr} (h : Effect s i t) :
    (∃ straps lines, i = .powerOnReset straps lines ∧ t = releaseDeviceReset straps lines s) ∨ Trace s.awaitsReset s t := by
  have hpins (p : Pins) (l : List Beat) : Unsampled s ((s.setPins p).setOutbox l) := .of_eq rfl rfl rfl rfl rfl rfl rfl
  cases h with
  | ignored => exact .inr <| .moves .refl
  | powerOn straps lines => exact .inl ⟨straps, lines, rfl, rfl⟩
  | pins _ p l => exact .inr <| .moves (hpins p l).moves
  | backplaneReset p =>
    exact .inr <| .moves (Moves.then ((hpins p []).moves.trans (backplaneResetBeat_moves _)) (unsampled_alertCheck _))
  | arrival n =>
    exact .inr <| .moves (((unsampled_setLine n true s).trans (unsampled_arrival n _)).trans (unsampled_alertCheck _)).moves
  | withdrawal n _ hn =>
    have hown : (setLine n false s).ownId = s.ownId := (unsampled_setLine n false s).ownId
    exact .inr <| .moves (Moves.then ((unsampled_setLine n false s).moves.trans (withdraw_moves (by rwa [hown])))
      (unsampled_alertCheck _))
  | tick => exact .inr <| .moves ((tickBeat_moves s).then (unsampled_alertCheck _))
  | request _ r => exact .inr (requestBeat_trace r s)
  | reply _ r => exact .inr <| .moves ((replyBeat_moves r s).then (unsampled_alertCheck _))
  | slotExpiry k => exact .inr <| .moves (expireSlot_moves s k)
  | backoffReissue u => exact .inr <| .moves (unsampled_reissueTag s u).moves
  | timeout u => exact .inr <| .moves (unsampled_timeoutTag u s).moves
  | orphanFree u => exact .inr <| .moves (unsampled_expireOrphan u s).moves
  | drainTimedOut => exact .inr <| .moves (unsampled_drainTimeoutTest s).moves
  | entry t he =>
    obtain ⟨i, rest, hq, -, rfl⟩ := (entryOnce_eq_some s t).mp he
    exact .inr <| .moves (enterStaging_moves hq)
  | move t hm =>
    obtain ⟨x, rest, -, -, -, rfl⟩ := (queueOnce_eq_some s t).mp hm
    exact .inr <| .moves (unsampled_moveToQueue x rest s).moves
  | issue _ t _ h => exact .inr <| .moves (unsampled_issueOnce h).moves
  | commit => exact .inr <| .moves (commitRun_moves s)
  | writeback => exact .inr <| .moves (unsampled_writebackIfDue s).moves
  | stopComplete => exact .inr <| .moves (unsampled_stopTest s).moves
  | drainComplete => exact .inr <| .moves (unsampled_drainTest s).moves
  | alert => exact .inr <| .moves (unsampled_alertCheck s).moves

/-- A clock with nothing commanded. -/
theorem clock_moves (s : State) : Moves z s (clock s) := by
  obtain h | ⟨d, h | h⟩ := clock_cases s
  · rw [h]
  · rw [h]
    exact Relation.ReflTransGen.single (.other _ (.of_eq rfl rfl rfl rfl rfl rfl rfl))
  · rw [h]
    refine Moves.then (Relation.ReflTransGen.trans ?_ (tickBeat_moves _)) (unsampled_alertCheck _)
    exact Relation.ReflTransGen.single (.other _ (.of_eq rfl rfl rfl rfl rfl rfl rfl))

end Operations

end Sys2Proof.Machine
end

