-- ==== Sys2Proof/Proofs/Alerts.lean ====
section
/-! PROOF. What the visit of a channel does to the channel and its slots, and the two invariants that the moves keep at once: the
alerts' conditions, and the banks. -/

namespace Sys2Proof.Machine

/-! ### Taking, reserving, colliding (R57, R59) -/

theorem takeInto_slot (c : ChanId) (i j : SlotId) (r : Request) (s : State) :
    (takeInto c i r s).slot j = if j = i then openedSlot c r s.tb.time else s.slot j := by
  unfold takeInto
  dsimp only
  by_cases ha : (s.chan c).run = .armed <;> simp [ha, State.slot_setSlot]

theorem takeInto_chan (c d : ChanId) (i : SlotId) (r : Request) (s : State) :
    (takeInto c i r s).chan d =
      if d = c then
        { s.chan c with
          run := if (s.chan c).run = .armed then .counting else (s.chan c).run
          stats := { (s.chan c).stats with selected := (s.chan c).stats.selected + 1 } }
      else s.chan d := by
  unfold takeInto
  dsimp only
  split_ifs with ha hd <;> simp [State.chan_setRun, State.chan_modStats, *]

theorem reserve_slot (c : ChanId) (i j : SlotId) (s : State) :
    (reserve c i s).slot j = if j = i then { Slot.cleared with state := .reserved, channel := c } else s.slot j := by
  simp [reserve, State.slot_setSlot]

theorem reserve_chan (c d : ChanId) (i : SlotId) (s : State) :
    (reserve c i s).chan d = if d = c then { s.chan c with run := .armed } else s.chan d := by
  simp [reserve, State.chan_setRun]

theorem collide_chan (c d : ChanId) (s : State) :
    (collide c s).chan d =
      if d = c then
        { s.chan c with stats := { (s.chan c).stats with collisions := (s.chan c).stats.collisions + 1 } }
      else s.chan d := by
  simp [collide, State.chan_modStats]

/-- A HELD channel holds a firing over (R59 row 1). -/
def holdover (c : ChanId) (s : State) : State := s.modStats c fun x => { x with heldover := x.heldover + 1 }

theorem holdover_chan (c d : ChanId) (s : State) :
    (holdover c s).chan d =
      if d = c then { s.chan c with stats := { (s.chan c).stats with heldover := (s.chan c).stats.heldover + 1 } }
      else s.chan d := by
  simp [holdover, State.chan_modStats]

/-! ### The visit of a channel (R58) -/

/-- One part of the visit of channel c, at a state and the slot that holds the request, if one does. -/
inductive VisitMove (r : Request) (c : ChanId) : State × Option SlotId → State × Option SlotId → Prop
  | count (s : State) (k : Option SlotId) : s.counts c r → VisitMove r c (s, k) (countRequest c s, k)
  | takeReserved (s : State) (i : SlotId) : (s.chan c).run = .armed → s.reservedSlot c = some i →
      r.initiator ≠ s.ownId ∧ r.target ≠ some s.ownId → VisitMove r c (s, none) (takeInto c i r s, some i)
  | takeFree (s : State) (i : SlotId) : (s.chan c).run = .counting → s.owned c < (s.chan c).bank.quota.toNat →
      s.freeSlot = some i → r.initiator ≠ s.ownId ∧ r.target ≠ some s.ownId → s.tb.obs = .observing →
      VisitMove r c (s, none) (takeInto c i r s, some i)
  | reserve (s : State) (i j : SlotId) : (s.chan c).run = .counting → s.owned c < (s.chan c).bank.quota.toNat →
      s.freeSlot = some i → s.tb.obs = .observing → VisitMove r c (s, some j) (Machine.reserve c i s, some j)
  | collide (s : State) (k : Option SlotId) : VisitMove r c (s, k) (Machine.collide c s, k)
  | holdover (s : State) (k : Option SlotId) : VisitMove r c (s, k) (Machine.holdover c s, k)

abbrev VisitMoves (r : Request) (c : ChanId) := Relation.ReflTransGen (VisitMove r c)

/-- The firing of a channel that is not DISARMED. -/
theorem handleFiring_visit (r : Request) (c : ChanId) (s : State) (k : Option SlotId) (hr : (s.chan c).run ≠ .disarmed)
    (hown : r.initiator ≠ s.ownId ∧ r.target ≠ some s.ownId) (hobs : s.tb.obs = .observing) :
    VisitMove r c (s, k) (handleFiring c r (s, k)) := by
  obtain ⟨-, h⟩ | ⟨-, -, h⟩ | ⟨hheld, harmed, hq, i, hi, ⟨rfl, h⟩ | ⟨j, rfl, h⟩⟩ := handleFiring_cases c r s k
  · rw [h]
    exact .holdover s k
  · rw [h]
    exact .collide s k
  · rw [h]
    have hc : (s.chan c).run = .counting := by cases hx : (s.chan c).run <;> simp_all
    exact .takeFree s i hc hq hi hown hobs
  · rw [h]
    have hc : (s.chan c).run = .counting := by cases hx : (s.chan c).run <;> simp_all
    exact .reserve s i j hc hq hi hobs

theorem countRequest_run (c d : ChanId) (s : State) : ((countRequest c s).chan d).run = (s.chan d).run := by
  rw [countRequest_chan]
  split_ifs with hd
  · rw [hd]
  · rw [hd]
  · rfl

theorem takeInto_run (c : ChanId) (i : SlotId) (r : Request) (s : State) (h : (s.chan c).run ≠ .disarmed) :
    ((takeInto c i r s).chan c).run ≠ .disarmed := by
  rw [takeInto_chan, if_pos rfl]
  show (if (s.chan c).run = .armed then RunState.counting else (s.chan c).run) ≠ .disarmed
  split_ifs
  · simp
  · exact h

theorem visitChannel_moves (r : Request) (c : ChanId) (s : State) (k : Option SlotId) :
    VisitMoves r c (s, k) (visitChannel r (s, k) c) := by
  by_cases hcounts : s.counts c r
  · have hq : qualifies s c r = true := (qualifies_iff s c r).mpr hcounts
    have ⟨hobs, hrun, hown, _⟩ := hcounts
    have hrun1 : ((countRequest c s).chan c).run ≠ .disarmed := by rwa [countRequest_run]
    have hown1 : r.initiator ≠ (countRequest c s).ownId ∧ r.target ≠ some (countRequest c s).ownId := by simpa using hown
    have hobs1 : (countRequest c s).tb.obs = .observing := by
      rw [countRequest_tb]
      split_ifs <;> exact hobs
    have hres : VisitMoves r c (countRequest c s, k) (useReservation c r (countRequest c s, k)) ∧
        (((useReservation c r (countRequest c s, k)).1).chan c).run ≠ .disarmed := by
      obtain ⟨i, ha, hi, rfl, h⟩ | ⟨-, h⟩ := useReservation_cases c r (countRequest c s) k
      · rw [h]
        exact ⟨.single (.takeReserved _ i ha hi hown1), takeInto_run c i r _ hrun1⟩
      · rw [h]
        exact ⟨.refl, hrun1⟩
    obtain ⟨hmoves, hrun2⟩ := hres
    have hown2 : r.initiator ≠ (useReservation c r (countRequest c s, k)).1.ownId ∧
        r.target ≠ some (useReservation c r (countRequest c s, k)).1.ownId := by simpa using hown
    have hobs2 : (useReservation c r (countRequest c s, k)).1.tb.obs = .observing := by simpa using hobs1
    have hvisit : visitChannel r (s, k) c =
        if firesNow s c then handleFiring c r (useReservation c r (countRequest c s, k))
        else useReservation c r (countRequest c s, k) := if_pos hq
    rw [hvisit]
    generalize useReservation c r (countRequest c s, k) = p at *
    have hcount : VisitMoves r c (s, k) p := .head (.count s k hcounts) hmoves
    split_ifs
    · exact hcount.tail (handleFiring_visit r c p.1 p.2 hrun2 hown2 hobs2)
    · exact hcount
  · rw [visitChannel_of_not_counts r s k c hcounts]

/-- What every part of a visit keeps, the visits of all channels keep. -/
theorem visitChannels_keeps {P : State × Option SlotId → Prop} {r : Request}
    (h : ∀ c p q, VisitMove r c p q → P p → P q) {s : State} (hs : P (s, none)) : P (visitChannels r s) := by
  have hvisit (c : ChanId) (p : State × Option SlotId) (hp : P p) : P (visitChannel r p c) := by
    have hmoves := visitChannel_moves r c p.1 p.2
    generalize visitChannel r (p.1, p.2) c = q at hmoves
    induction hmoves with
    | refl => exact hp
    | tail _ hmove ih => exact h c _ _ hmove ih
  unfold visitChannels
  have hfold (l : List ChanId) (p : State × Option SlotId) (hp : P p) : P (l.foldl (visitChannel r) p) := by
    induction l generalizing p with
    | nil => exact hp
    | cons c l ih => exact ih _ (hvisit c p hp)
  exact hfold chanIds _ hs

/-- The slot that has taken the request is OPEN and holds its kind. -/
theorem visitChannels_taken (r : Request) (s : State) {i : SlotId} (h : (visitChannels r s).2 = some i) :
    ((visitChannels r s).1.slot i).state = .opened ∧ ((visitChannels r s).1.slot i).kind = r.kind := by
  refine visitChannels_keeps (r := r) (s := s)
    (P := fun p => ∀ j, p.2 = some j → (p.1.slot j).state = .opened ∧ (p.1.slot j).kind = r.kind) ?_ nofun i h
  intro c p q hmove hp j hj
  cases hmove with
  | count s k => simpa [State.slot] using hp j hj
  | takeReserved s m =>
    obtain rfl : m = j := Option.some.inj hj
    rw [takeInto_slot, if_pos rfl]
    exact ⟨rfl, rfl⟩
  | takeFree s m =>
    obtain rfl : m = j := Option.some.inj hj
    rw [takeInto_slot, if_pos rfl]
    exact ⟨rfl, rfl⟩
  | reserve s m l _ _ hfree =>
    have hj' := hp j hj
    have hne : j ≠ m := by
      rintro rfl
      have hf := ((s.freeSlot_eq_some j).mp hfree).1
      rw [hf] at hj'
      exact absurd hj'.1 (by simp)
    rw [reserve_slot, if_neg hne]
    exact hj'
  | collide s k => simpa [collide, State.slot] using hp j hj
  | holdover s k => simpa [holdover, State.slot] using hp j hj

/-- The closing of a POSTED or BROADCAST request, if it was taken (R84). -/
theorem closeUnreplied_moves {z : Prop} (r : Request) (s : State) :
    Moves z (visitChannels r s).1 (closeUnreplied r (visitChannels r s)) := by
  unfold closeUnreplied
  cases hk : (visitChannels r s).2 with
  | none => exact .refl
  | some i =>
    dsimp only
    split_ifs
    · refine closeSlot_moves ?_ _
      simp [Slot.isLive, (visitChannels_taken r s hk).1]
    · exact .refl

/-! ### Alerts (R9, R175, R178) -/

theorem Move.alertKeep {z : Prop} {s t : State} (h : Move z s t) : AlertKeep s t := by
  cases h with
  | other _ h => exact h.toAlertKeep
  | arm c => exact .of_eq
  | release c => exact .of_eq
  | disarm c => exact .of_eq
  | start => exact .of_eq
  | pause => exact .of_eq
  | free scope => exact .of_eq
  | sampling => exact .of_eq
  | touch i x => exact .of_eq
  | qualify i x => exact .of_eq
  | filter i => exact .of_eq
  | deliver i rest => exact .of_eq
  | hold c => exact .of_eq
  | holdArmed c => exact .of_eq
  | zero c => exact .of_eq rfl rfl rfl

theorem Moves.alertsOk {z : Prop} {s t : State} (h : Moves z s t) (hs : s.alertsOk) : t.alertsOk :=
  h.keeps (fun _ _ hmove => hmove.alertKeep.alertsOk) hs

theorem Trace.alertsOk {z : Prop} {s t : State} (h : Trace z s t) (hs : s.alertsOk) : t.alertsOk := by
  cases h with
  | moves h => exact h.alertsOk hs
  | request r u _ hsu hut =>
    have hu := (watchMatch_moves (z := z) r u).alertsOk (hsu.alertsOk hs)
    have hvisit : AlertKeep (watchMatch r u) (visitChannels r (watchMatch r u)).1 := by
      obtain ⟨-, hown, hpresent, -, -, -, -, -, -, -, -, -, hints, -⟩ := visitChannels_frame r (watchMatch r u)
      exact .of_eq hown hpresent hints
    exact hut.alertsOk ((closeUnreplied_moves (z := z) r _).alertsOk (hvisit.alertsOk hu))
  | alerts x u hsu hx hut => exact hut.alertsOk (hx (hsu.alertsOk hs))
  | bank g v u hsu _ _ _ _ _ hut =>
    have hwrite : AlertKeep u (writeBank g v u) := .of_eq rfl rfl rfl
    exact hut.alertsOk (hwrite.alertsOk (hsu.alertsOk hs))

/-- A step loads the power-on values, or does what a trace does from the state that its command finds. -/
theorem step_trace {s t : State} (h : step s = .next t) :
    t.good ∨ ∃ queue, Trace s.awaitsReset { s with pending := queue } t := by
  obtain rfl | ⟨i, rest, heffect⟩ := step_cases h
  · exact .inr ⟨s.pending, .moves (clock_moves s)⟩
  · obtain ⟨straps, lines, -, rfl⟩ | htrace := heffect.trace
    · exact .inl (State.powerOn_good _ _ _ _)
    · exact .inr ⟨rest, htrace⟩

theorem exec_trace {i : Instr} {s t : State} (h : exec i s = .next t)
    (hi : ∀ straps lines, i ≠ .powerOnReset straps lines) : Trace s.awaitsReset s t := by
  obtain ⟨straps, lines, hpower, -⟩ | htrace := (effect_of_exec h).trace
  · exact absurd hpower (hi straps lines)
  · exact htrace

/-- Settles O9: every move keeps the alerts' conditions. -/
theorem alertsStayConsistent : Obligations.AlertsStayConsistent := by
  unfold Obligations.AlertsStayConsistent
  intro s t hs h
  obtain hgood | ⟨queue, htrace⟩ := step_trace h
  · exact hgood.2.1
  · exact htrace.alertsOk hs

end Sys2Proof.Machine
end

