-- ==== Sys2Proof/Proofs/Pool.lean ====
section
/-! PROOF. The slot pool (R47, R53, R75, R88): every move keeps its conditions, and the watched pairs. -/

namespace Sys2Proof.Machine

/-! ### The conditions one by one -/

/-- The close queue holds exactly the CLOSING slots, each once (R88). -/
def State.queueExact (s : State) : Prop := s.closeQueue.Nodup ∧ ∀ i : SlotId, i ∈ s.closeQueue ↔ (s.slot i).state = .closing

theorem poolOk_iff (s : State) :
    s.poolOk ↔ s.queueExact ∧ (∀ c, s.armingOk c) ∧ (s.tb.obs = .paused → ∀ c : ChanId, (s.chan c).run ≠ .armed) := by
  constructor
  · exact fun h => ⟨⟨h.1, h.2.1⟩, h.armingOk, h.2.2.2.2⟩
  · rintro ⟨⟨hnodup, hmem⟩, harming, hpaused⟩
    refine ⟨hnodup, hmem, fun c => (harming c).1, fun i j hi hj hij => ?_, hpaused⟩
    exact (harming (s.slot i).channel).2 i j hi rfl hj hij.symm

section Congruence

variable {s t : State}

theorem queueExact_congr (hqueue : t.closeQueue = s.closeQueue)
    (hslot : ∀ i, (t.slot i).state = .closing ↔ (s.slot i).state = .closing) (h : s.queueExact) : t.queueExact := by
  obtain ⟨hnodup, hmem⟩ := h
  refine ⟨hqueue ▸ hnodup, fun i => ?_⟩
  rw [hqueue, hslot i]
  exact hmem i

theorem armingOk_congr {c : ChanId} (hrun : (t.chan c).run = .armed ↔ (s.chan c).run = .armed)
    (hslot : ∀ i, (t.slot i).state = .reserved ∧ (t.slot i).channel = c ↔ (s.slot i).state = .reserved ∧ (s.slot i).channel = c)
    (h : s.armingOk c) : t.armingOk c := by
  obtain ⟨hiff, hone⟩ := h
  refine ⟨?_, fun i j hi hic hj hjc => ?_⟩
  · simp only [hrun, hiff, hslot]
  · obtain ⟨hi', hic'⟩ := (hslot i).mp ⟨hi, hic⟩
    obtain ⟨hj', hjc'⟩ := (hslot j).mp ⟨hj, hjc⟩
    exact hone i j hi' hic' hj' hjc'

theorem armingOk_of_none {c : ChanId} (hrun : (s.chan c).run ≠ .armed)
    (hslot : ∀ i, ¬((s.slot i).state = .reserved ∧ (s.slot i).channel = c)) : s.armingOk c :=
  ⟨⟨fun h => absurd h hrun, fun ⟨i, hi⟩ => absurd hi (hslot i)⟩, fun i _ hi hic => absurd ⟨hi, hic⟩ (hslot i)⟩

/-- Slots that keep their states, as far as CLOSING and RESERVED go, and channels that keep being ARMED or not. -/
theorem poolOk_congr (hqueue : t.closeQueue = s.closeQueue)
    (hclosing : ∀ i, (t.slot i).state = .closing ↔ (s.slot i).state = .closing)
    (hreserved : ∀ c i, (t.slot i).state = .reserved ∧ (t.slot i).channel = c ↔
      (s.slot i).state = .reserved ∧ (s.slot i).channel = c)
    (hrun : ∀ c, (t.chan c).run = .armed ↔ (s.chan c).run = .armed) (hobs : t.tb.obs = .paused → s.tb.obs = .paused)
    (h : s.poolOk) : t.poolOk := by
  rw [poolOk_iff] at h ⊢
  obtain ⟨hexact, harming, hpaused⟩ := h
  refine ⟨queueExact_congr hqueue hclosing hexact, fun c => armingOk_congr (hrun c) (hreserved c) (harming c), fun hp c => ?_⟩
  exact mt (hrun c).mp (hpaused (hobs hp) c)

/-- The same, where the slots stay as they are. -/
theorem poolOk_of_slots (hqueue : t.closeQueue = s.closeQueue) (hslot : ∀ i, t.slot i = s.slot i)
    (hrun : ∀ c, (t.chan c).run = .armed ↔ (s.chan c).run = .armed) (hobs : t.tb.obs = .paused → s.tb.obs = .paused)
    (h : s.poolOk) : t.poolOk :=
  poolOk_congr hqueue (fun i => by rw [hslot i]) (fun c i => by rw [hslot i]) hrun hobs h

end Congruence

/-! ### Armings ended, slots freed -/

section Freed

variable {s t : State}

theorem EndsArmings.pool {f : Channel → Channel} {l : List ChanId} (h : EndsArmings f l s t)
    (hf : ∀ x, (f x).run ≠ .armed) (hexact : s.queueExact) (harming : ∀ c, s.armingOk c) :
    t.queueExact ∧ (∀ c, t.armingOk c) ∧ ∀ c ∈ l, (t.chan c).run ≠ .armed := by
  have hrun (c : ChanId) (hc : c ∈ l) : (t.chan c).run ≠ .armed := by
    rw [h.chan c, if_pos hc]
    exact hf _
  refine ⟨queueExact_congr (by rw [h.rest]) (fun i => ?_) hexact, fun c => ?_, hrun⟩
  · rw [h.slot i]
    split_ifs with hi
    · simp [Slot.cleared, hi.1]
    · rfl
  · by_cases hc : c ∈ l
    · refine armingOk_of_none (hrun c hc) fun i => ?_
      rw [h.slot i]
      split_ifs with hi
      · simp [Slot.cleared]
      · rintro ⟨hr, rfl⟩
        exact hi ⟨hr, hc⟩
    · exact h.armingOk hc (harming c)

theorem EndsArmings.poolOk {f : Channel → Channel} {l : List ChanId} (h : EndsArmings f l s t)
    (hf : ∀ x, (f x).run ≠ .armed) (hs : s.poolOk) : t.poolOk := by
  rw [poolOk_iff] at hs ⊢
  obtain ⟨hexact, harming, hpaused⟩ := hs
  obtain ⟨hexact', harming', hrun⟩ := h.pool hf hexact harming
  refine ⟨hexact', harming', fun hp c => ?_⟩
  by_cases hc : c ∈ l
  · exact hrun c hc
  · rw [h.chan c, if_neg hc]
    rw [h.rest] at hp
    exact hpaused hp c

theorem FreesSlots.poolOk {scope : ChanId → Bool} {next : RunState} (h : FreesSlots scope next slotIds s t)
    (hnext : next ≠ .armed) (hs : s.poolOk) : t.poolOk := by
  rw [poolOk_iff] at hs ⊢
  obtain ⟨⟨hnodup, hmem⟩, harming, hpaused⟩ := hs
  have hslot (i : SlotId) : t.slot i = if scope (s.slot i).channel = true ∧ (s.slot i).state ≠ .free then Slot.cleared
      else s.slot i := by
    rw [h.slot i]
    simp
  have hrun (c : ChanId) (hc : scope c = true) : (t.chan c).run ≠ .armed := by
    rw [h.chan c, if_pos hc, Channel.freed_slotIds s c next (harming c)]
    show (if (s.chan c).run = .armed then next else (s.chan c).run) ≠ .armed
    split_ifs with ha
    · exact hnext
    · exact ha
  have hsame (c : ChanId) (hc : ¬scope c = true) : t.chan c = s.chan c := by rw [h.chan c, if_neg hc]
  refine ⟨⟨?_, fun i => ?_⟩, fun c => ?_, fun hp c => ?_⟩
  · rw [h.closeQueue]
    exact hnodup.filter _
  · rw [h.closeQueue, List.mem_filter, hmem, hslot i]
    by_cases hcl : (s.slot i).state = .closing
    · have hw : (s.slot i).isWatching = true := by simp [Slot.isWatching_iff, hcl]
      by_cases hsc : scope (s.slot i).channel = true
      · simp [hcl, hw, hsc, Slot.cleared]
      · simp [hcl, hsc]
    · split_ifs
      · simp [hcl, Slot.cleared]
      · simp [hcl]
  · by_cases hc : scope c = true
    · refine armingOk_of_none (hrun c hc) fun i => ?_
      rw [hslot i]
      split_ifs with hi
      · simp [Slot.cleared]
      · rintro ⟨hr, rfl⟩
        exact hi ⟨hc, by simp [hr]⟩
    · refine armingOk_congr (by rw [hsame c hc]) (fun i => ?_) (harming c)
      rw [hslot i]
      split_ifs with hi
      · constructor
        · rintro ⟨hr, -⟩
          cases hr
        · rintro ⟨-, rfl⟩
          exact absurd hi.1 hc
      · rfl
  · by_cases hc : scope c = true
    · exact hrun c hc
    · rw [hsame c hc]
      rw [h.rest] at hp
      exact hpaused hp c

end Freed

/-! ### The moves -/

theorem Slot.isLive_iff (x : Slot) : x.isLive = true ↔ x.state = .opened ∨ x.state = .bounced := by
  simp [Slot.isLive]

theorem Slot.not_closing_of_live {x : Slot} (h : x.isLive = true) : x.state ≠ .closing ∧ x.state ≠ .reserved := by
  obtain h | h := x.isLive_iff.mp h <;> simp [h]

theorem Channel.cancelled_run {next : RunState} (hnext : next ≠ .armed) (x : Channel) :
    (Channel.cancelled next x).run ≠ .armed := by
  unfold Channel.cancelled
  split_ifs with h
  · exact hnext
  · exact h

theorem disarm_run (x : Channel) : x.disarm.run = .disarmed := rfl

/-- A channel changed elsewhere than in being ARMED. -/
theorem poolOk_setChan {s t : State} {c : ChanId} {x : Channel} (hslots : t.slots = s.slots)
    (hqueue : t.closeQueue = s.closeQueue) (hobs : t.tb.obs = s.tb.obs)
    (hchan : ∀ d, t.chan d = if d = c then x else s.chan d) (hx : x.run = .armed ↔ (s.chan c).run = .armed)
    (h : s.poolOk) : t.poolOk := by
  refine poolOk_of_slots hqueue (fun i => congrArg (fun v => v[i.val]) hslots) (fun d => ?_) (fun hp => hobs ▸ hp) h
  rw [hchan d]
  split_ifs with hd
  · rw [hd]
    exact hx
  · rfl

theorem Move.poolOk {z : Prop} {s t : State} (h : Move z s t) (hs : s.poolOk) : t.poolOk := by
  have hexact := ((poolOk_iff s).mp hs).1
  cases h with
  | other _ h =>
    refine poolOk_of_slots h.closeQueue h.slot (fun c => ?_) (fun hp => h.obs ▸ hp) hs
    rw [h.chan c]
  | arm c hr =>
    rw [armChannel_eq]
    refine poolOk_setChan (s := s) (c := c) rfl rfl rfl (fun d => State.chan_setChan s c d _) ?_ hs
    simp [hr]
  | release c hr =>
    refine poolOk_setChan (s := s) (c := c) rfl rfl rfl (fun d => State.chan_setChan s c d _) ?_ hs
    simp [hr]
  | disarm c => exact (disarmChannel_ends s c (hs.armingOk c)).poolOk (fun x => by simp [disarm_run]) hs
  | start => exact poolOk_of_slots (s := s) rfl (fun _ => rfl) (fun _ => Iff.rfl) nofun hs
  | pause =>
    have hends := cancelArmings_ends .counting (s.setTb { s.tb with obs := .paused }) hs.armingOk
    obtain ⟨hexact', harming, hrun⟩ := hends.pool (Channel.cancelled_run nofun) hexact hs.armingOk
    exact (poolOk_iff _).mpr ⟨hexact', harming, fun _ c => hrun c (mem_chanIds c)⟩
  | free scope => exact (freeSlots_frees scope .counting s).poolOk nofun hs
  | sampling =>
    have hends := EndsArmings.foldl resetChannel_ends s hs.armingOk chanIds (by decide)
    have hfrees : FreesSlots (fun _ => true) .disarmed slotIds (chanIds.foldl resetChannel s) (scopeSampling s) :=
      freeSlots_frees (fun _ => true) .disarmed _
    exact hfrees.poolOk nofun (hends.poolOk (fun x => by simp [disarm_run]) hs)
  | touch i x hlive hx =>
    have hold := Slot.not_closing_of_live hlive
    have hnew := Slot.not_closing_of_live hx
    refine poolOk_congr (s := s) rfl (fun j => ?_) (fun c j => ?_) (fun _ => Iff.rfl) id hs
    · rw [State.slot_setSlot]
      split_ifs with hj
      · simp [hj, hold.1, hnew.1]
      · rfl
    · rw [State.slot_setSlot]
      split_ifs with hj
      · simp [hj, hold.2, hnew.2]
      · rfl
  | qualify i x hlive hx =>
    have hold := Slot.not_closing_of_live hlive
    obtain ⟨hnodup, hmem⟩ := hexact
    have hi : i ∉ s.closeQueue := fun h => hold.1 ((hmem i).mp h)
    rw [poolOk_iff]
    refine ⟨⟨List.nodup_append.mpr ⟨hnodup, List.nodup_singleton i, ?_⟩, fun j => ?_⟩, fun c => ?_, ?_⟩
    · rintro a ha b hb rfl
      exact hi (List.mem_singleton.mp hb ▸ ha)
    · show j ∈ s.closeQueue ++ [i] ↔ ((s.setSlot i x).slot j).state = .closing
      rw [List.mem_append, List.mem_singleton, hmem, State.slot_setSlot]
      split_ifs with hj
      · simp [hj, hx]
      · simp [hj]
    · refine armingOk_congr (s := s) Iff.rfl (fun j => ?_) (hs.armingOk c)
      show ((s.setSlot i x).slot j).state = .reserved ∧ ((s.setSlot i x).slot j).channel = c ↔ _
      rw [State.slot_setSlot]
      split_ifs with hj
      · simp [hj, hold.2, hx]
      · rfl
    · exact hs.2.2.2.2
  | filter i hlive =>
    have hold := Slot.not_closing_of_live hlive
    refine poolOk_congr (s := s) rfl (fun j => ?_) (fun c j => ?_) (fun c => ?_) id hs
    · show ((s.setSlot i Slot.cleared).slot j).state = .closing ↔ _
      rw [State.slot_setSlot]
      split_ifs with hj
      · simp [hj, hold.1, Slot.cleared]
      · rfl
    · show ((s.setSlot i Slot.cleared).slot j).state = .reserved ∧ ((s.setSlot i Slot.cleared).slot j).channel = c ↔ _
      rw [State.slot_setSlot]
      split_ifs with hj
      · simp [hj, hold.2, Slot.cleared]
      · rfl
    · rw [State.chan_modStats]
      split_ifs with hc
      · rw [hc]
        rfl
      · rfl
  | deliver i rest hq =>
    obtain ⟨hnodup, hmem⟩ := hexact
    have hcl : (s.slot i).state = .closing := (hmem i).mp (by simp [hq])
    rw [hq, List.nodup_cons] at hnodup
    rw [poolOk_iff]
    refine ⟨⟨hnodup.2, fun j => ?_⟩, fun c => ?_, fun hp c => ?_⟩
    · show j ∈ rest ↔ ((s.setSlot i Slot.cleared).slot j).state = .closing
      rw [State.slot_setSlot]
      split_ifs with hj
      · simp [hj, hnodup.1, Slot.cleared]
      · rw [← hmem j, hq, List.mem_cons]
        simp [hj]
    · refine armingOk_congr (s := s) ?_ (fun j => ?_) (hs.armingOk c)
      · rw [State.chan_modStats]
        split_ifs with hc
        · rw [hc]
          rfl
        · rfl
      · show ((s.setSlot i Slot.cleared).slot j).state = .reserved ∧ ((s.setSlot i Slot.cleared).slot j).channel = c ↔ _
        rw [State.slot_setSlot]
        split_ifs with hj
        · simp [hj, hcl, Slot.cleared]
        · rfl
    · have hr := hs.2.2.2.2 hp c
      rw [State.chan_modStats]
      split_ifs with hc
      · rw [hc] at hr
        exact hr
      · exact hr
  | hold c _ hr =>
    refine poolOk_setChan (s := s) (c := c) rfl rfl rfl (fun d => State.chan_setChan s c d _) ?_ hs
    simp [hr]
  | holdArmed c =>
    exact (cancelIfArmed_ends .held s c (hs.armingOk c)).poolOk (Channel.cancelled_run nofun) hs
  | zero c => exact poolOk_setChan (s := s) (c := c) rfl rfl rfl (fun d => State.chan_setChan s c d _) Iff.rfl hs

/-- A part of a visit keeps the pool (R53, R57, R59). -/
theorem VisitMove.poolOk {r : Request} {c : ChanId} {p q : State × Option SlotId} (h : VisitMove r c p q)
    (hs : p.1.poolOk) : q.1.poolOk := by
  cases h with
  | count s k =>
    refine poolOk_of_slots (by simp) (fun i => by simp [State.slot]) (fun d => by rw [countRequest_run]) (fun hp => ?_) hs
    rw [countRequest_tb] at hp
    split_ifs at hp <;> exact hp
  | takeReserved s i ha hi hown =>
    obtain ⟨⟨hres, hic⟩, -⟩ := (s.reservedSlot_eq_some c i).mp hi
    rw [poolOk_iff] at hs ⊢
    obtain ⟨hexact, harming, hpaused⟩ := hs
    refine ⟨queueExact_congr (by simp) (fun j => ?_) hexact, fun d => ?_, fun hp d => ?_⟩
    · rw [takeInto_slot]
      split_ifs with hj
      · simp [hj, hres, openedSlot]
      · rfl
    · by_cases hd : d = c
      · subst hd
        refine armingOk_of_none ?_ fun j => ?_
        · rw [takeInto_chan, if_pos rfl]
          simp [ha]
        · rw [takeInto_slot]
          split_ifs with hj
          · simp [openedSlot]
          · exact fun hjr => hj ((harming d).2 j i hjr.1 hjr.2 hres hic)
      · refine armingOk_congr (s := s) ?_ (fun j => ?_) (harming d)
        · rw [takeInto_chan, if_neg hd]
        · rw [takeInto_slot]
          split_ifs with hj
          · have hdc : c ≠ d := fun e => hd e.symm
            simp [hj, hres, hic, openedSlot, hdc]
          · rfl
    · exact absurd ha (hpaused (by simpa using hp) c)
  | takeFree s i hr _ hi hown hobs =>
    have hfree := ((s.freeSlot_eq_some i).mp hi).1
    refine poolOk_congr (s := s) (by simp) (fun j => ?_) (fun d j => ?_) (fun d => ?_) (fun hp => by simpa using hp) hs
    · rw [takeInto_slot]
      split_ifs with hj
      · simp [hj, hfree, openedSlot]
      · rfl
    · rw [takeInto_slot]
      split_ifs with hj
      · simp [hj, hfree, openedSlot]
      · rfl
    · rw [takeInto_chan]
      by_cases hd : d = c
      · simp [hd, hr]
      · simp [hd]
  | reserve s i j hr _ hi hobs =>
    have hfree := ((s.freeSlot_eq_some i).mp hi).1
    rw [poolOk_iff] at hs ⊢
    obtain ⟨hexact, harming, hpaused⟩ := hs
    have hnone (m : SlotId) : ¬((s.slot m).state = .reserved ∧ (s.slot m).channel = c) := fun hm => by
      have := (harming c).1.mpr ⟨m, hm⟩
      rw [hr] at this
      cases this
    refine ⟨queueExact_congr (by simp) (fun m => ?_) hexact, fun d => ?_, fun hp d => ?_⟩
    · rw [reserve_slot]
      split_ifs with hm
      · simp [hm, hfree]
      · rfl
    · by_cases hd : d = c
      · subst hd
        have hiff (m : SlotId) : ((Machine.reserve d i s).slot m).state = .reserved ∧ ((Machine.reserve d i s).slot m).channel = d ↔ m = i := by
          rw [reserve_slot]
          split_ifs with hm
          · simp [hm]
          · simp [hm, hnone m]
        refine ⟨?_, fun m n hm hmc hn hnc => ?_⟩
        · rw [reserve_chan, if_pos rfl]
          simp [hiff]
        · rw [(hiff m).mp ⟨hm, hmc⟩, (hiff n).mp ⟨hn, hnc⟩]
      · have hdc : c ≠ d := fun e => hd e.symm
        refine armingOk_congr (s := s) ?_ (fun m => ?_) (harming d)
        · rw [reserve_chan, if_neg hd]
        · rw [reserve_slot]
          split_ifs with hm
          · simp [hm, hfree, hdc]
          · rfl
    · have hp' : s.tb.obs = .paused := by simpa using hp
      rw [hobs] at hp'
      cases hp'
  | collide s k =>
    exact poolOk_setChan (s := s) (c := c) (x := _) (by simp) (by simp) (by simp) (fun d => collide_chan c d s) Iff.rfl hs
  | holdover s k =>
    exact poolOk_setChan (s := s) (c := c) (x := _) rfl rfl rfl (fun d => holdover_chan c d s) Iff.rfl hs

end Sys2Proof.Machine
end

