-- ==== Sys2Proof/Proofs/Pairs.lean ====
section
/-! PROOF. The watched pairs (R75): a live slot comes only from a taken request, and keeps its pair while it is live. -/

namespace Sys2Proof.Machine

/-! ### Live slots keep their pairs -/

/-- Every live slot of t was live in s, with the same pair, target and kind. -/
def LiveFrom (s t : State) : Prop :=
  ∀ j, (t.slot j).isLive = true → (s.slot j).isLive = true ∧ (t.slot j).initiator = (s.slot j).initiator ∧
    (t.slot j).target = (s.slot j).target ∧ (t.slot j).tag = (s.slot j).tag ∧ (t.slot j).kind = (s.slot j).kind

section LiveFrom

variable {s t u : State}

theorem LiveFrom.of_slots (h : ∀ j, t.slot j = s.slot j ∨ (t.slot j).isLive = false) : LiveFrom s t := by
  intro j hj
  obtain hs | hn := h j
  · rw [hs] at hj ⊢
    exact ⟨hj, rfl, rfl, rfl, rfl⟩
  · rw [hn] at hj
    cases hj

theorem LiveFrom.refl (s : State) : LiveFrom s s := .of_slots fun _ => .inl rfl

theorem LiveFrom.trans (h1 : LiveFrom s t) (h2 : LiveFrom t u) : LiveFrom s u := by
  intro j hj
  obtain ⟨hlive, hi, ht, hg, hk⟩ := h2 j hj
  obtain ⟨hlive', hi', ht', hg', hk'⟩ := h1 j hlive
  exact ⟨hlive', hi.trans hi', ht.trans ht', hg.trans hg', hk.trans hk'⟩

theorem LiveFrom.not_live (h : LiveFrom s t) {i : SlotId} (hi : (s.slot i).isLive = false) : (t.slot i).isLive = false := by
  by_contra hlive
  rw [(h i (by simpa using hlive)).1] at hi
  cases hi

theorem LiveFrom.setSlot (s : State) (i : SlotId) (x : Slot) (hx : x.isLive = false) : LiveFrom s (s.setSlot i x) := by
  refine .of_slots fun j => ?_
  rw [State.slot_setSlot]
  split_ifs
  · exact .inr hx
  · exact .inl rfl

theorem EndsArmings.liveFrom {f : Channel → Channel} {l : List ChanId} (h : EndsArmings f l s t) : LiveFrom s t := by
  refine .of_slots fun j => ?_
  rw [h.slot j]
  split_ifs
  · exact .inr rfl
  · exact .inl rfl

theorem FreesSlots.liveFrom {scope : ChanId → Bool} {next : RunState} {l : List SlotId}
    (h : FreesSlots scope next l s t) : LiveFrom s t := by
  refine .of_slots fun j => ?_
  rw [h.slot j]
  split_ifs
  · exact .inr rfl
  · exact .inl rfl

end LiveFrom

theorem Move.liveFrom {z : Prop} {s t : State} (h : Move z s t) (hs : s.poolOk) : LiveFrom s t := by
  have hsame (u : State) (hu : u.slots = s.slots) : LiveFrom s u := .of_slots fun j => .inl (congrArg (fun v => v[j.val]) hu)
  cases h with
  | other _ h => exact hsame _ h.slots
  | arm c => exact hsame _ (by simp)
  | release c => exact hsame _ (by simp)
  | disarm c => exact (disarmChannel_ends s c (hs.armingOk c)).liveFrom
  | start => exact hsame _ rfl
  | pause => exact (cancelArmings_ends .counting (s.setTb { s.tb with obs := .paused }) hs.armingOk).liveFrom
  | free scope => exact (freeSlots_frees scope .counting s).liveFrom
  | sampling =>
    have hends := EndsArmings.foldl resetChannel_ends s hs.armingOk chanIds (by decide)
    have hfrees : FreesSlots (fun _ => true) .disarmed slotIds (chanIds.foldl resetChannel s) (scopeSampling s) :=
      freeSlots_frees (fun _ => true) .disarmed _
    exact hends.liveFrom.trans hfrees.liveFrom
  | touch i x hlive hx hc hi ht hg hk =>
    intro j hj
    rw [State.slot_setSlot] at hj ⊢
    split_ifs with hij
    · rw [hij]
      exact ⟨hlive, hi, ht, hg, hk⟩
    · rw [if_neg hij] at hj
      exact ⟨hj, rfl, rfl, rfl, rfl⟩
  | qualify i x hlive hx => exact LiveFrom.setSlot s i x (by simp [Slot.isLive, hx])
  | filter i => exact LiveFrom.setSlot s i _ rfl
  | deliver i rest => exact LiveFrom.setSlot s i _ rfl
  | hold c => exact hsame _ rfl
  | holdArmed c => exact (cancelIfArmed_ends .held s c (hs.armingOk c)).liveFrom
  | zero c => exact hsame _ rfl

/-- What any number of moves keep of the pool. -/
theorem Moves.pool {z : Prop} {s t : State} (h : Moves z s t) (hs : s.poolOk) :
    t.poolOk ∧ LiveFrom s t ∧ t.ownId = s.ownId :=
  h.keeps (P := fun t => t.poolOk ∧ LiveFrom s t ∧ t.ownId = s.ownId)
    (fun _ _ hmove hp => ⟨hmove.poolOk hp.1, hp.2.1.trans (hmove.liveFrom hp.1), hmove.alertKeep.ownId.trans hp.2.2⟩)
    ⟨hs, .refl s, rfl⟩

/-- A slot that has closed is not live. -/
theorem closeSlot_not_live {i : SlotId} {s : State} (hs : s.poolOk) (h : (s.slot i).isLive = true) (e : Ending) :
    ((closeSlot i e s).slot i).isLive = false := by
  unfold closeSlot
  dsimp only
  split_ifs
  · have hqualify := Move.qualify (z := False) i
      { s.slot i with outcome := some e, closeTime := some s.tb.time, state := .closing } h rfl rfl
    refine ((advance_moves (z := False) _).pool (hqualify.poolOk hs)).2.1.not_live ?_
    show ((s.setSlot i _).slot i).isLive = false
    rw [State.slot_setSlot_self]
    rfl
  · have hslot : (drainTest ((s.setSlot i Slot.cleared).modStats (s.slot i).channel fun st =>
        { st with filtered := st.filtered + 1 })).slot i = Slot.cleared := by
      simp [State.slot]
    exact (congrArg Slot.isLive hslot).trans rfl

/-! ### The pairs -/

/-- The watched pairs, with slot k excused from being owed a reply. -/
def State.pairsBut (k : Option SlotId) (s : State) : Prop :=
  (∀ i j : SlotId, (s.slot i).isLive = true → (s.slot j).isLive = true →
      (s.slot i).initiator = (s.slot j).initiator → (s.slot i).tag = (s.slot j).tag → i = j) ∧
    ∀ i : SlotId, (s.slot i).isLive = true →
      (some i ≠ k → (s.slot i).kind ≠ .posted ∧ (s.slot i).kind ≠ .broadcast) ∧ (s.slot i).initiator ≠ s.ownId ∧
        (s.slot i).target ≠ some s.ownId

section Pairs

variable {s t : State} {k : Option SlotId}

theorem State.pairsOk.but (h : s.pairsOk) (k : Option SlotId) : s.pairsBut k :=
  ⟨h.1, fun i hi => ⟨fun _ => ⟨(h.2 i hi).1, (h.2 i hi).2.1⟩, (h.2 i hi).2.2⟩⟩

theorem State.pairsBut.pairsOk (h : s.pairsBut k)
    (hk : ∀ i, k = some i → (s.slot i).isLive = true → (s.slot i).kind ≠ .posted ∧ (s.slot i).kind ≠ .broadcast) :
    s.pairsOk := by
  refine ⟨h.1, fun i hi => ?_⟩
  obtain ⟨howed, hown⟩ := h.2 i hi
  have hkind : (s.slot i).kind ≠ .posted ∧ (s.slot i).kind ≠ .broadcast := by
    by_cases hik : k = some i
    · exact hk i hik hi
    · exact howed fun e => hik e.symm
  exact ⟨hkind.1, hkind.2, hown⟩

theorem State.pairsBut.liveFrom (h : s.pairsBut k) (hlive : LiveFrom s t) (hown : t.ownId = s.ownId) : t.pairsBut k := by
  refine ⟨fun i j hi hj hinit htag => ?_, fun i hi => ?_⟩
  · obtain ⟨hi', hii, -, hit, -⟩ := hlive i hi
    obtain ⟨hj', hji, -, hjt, -⟩ := hlive j hj
    exact h.1 i j hi' hj' (hii.symm.trans (hinit.trans hji)) (hit.symm.trans (htag.trans hjt))
  · obtain ⟨hi', hinit, htarget, -, hkind⟩ := hlive i hi
    rw [hkind, hinit, htarget, hown]
    exact h.2 i hi'

theorem State.pairsOk.liveFrom (h : s.pairsOk) (hlive : LiveFrom s t) (hown : t.ownId = s.ownId) : t.pairsOk :=
  ((h.but none).liveFrom hlive hown).pairsOk fun _ hi => by cases hi

theorem unwatched_of_liveFrom {n : Node} {tag : Tag} (h : s.unwatched n tag) (hlive : LiveFrom s t) : t.unwatched n tag := by
  rintro j ⟨hj, hinit, htag⟩
  obtain ⟨hj', hi, -, ht, -⟩ := hlive j hj
  exact h j ⟨hj', hi.symm.trans hinit, ht.symm.trans htag⟩

end Pairs

/-- After the match of a request that is no reissue, no slot watches its pair (R83). -/
theorem watchMatch_unwatched {r : Request} {s : State} (hpool : s.poolOk) (hpairs : s.pairsOk) (hr : r.reissue = false) :
    (watchMatch r s).unwatched r.initiator r.tag := by
  have hlive := ((watchMatch_moves (z := False) r s).pool hpool).2.1
  cases hm : s.matchPair r.initiator r.tag with
  | none => exact unwatched_of_liveFrom ((s.matchPair_eq_none _ _).mp hm) hlive
  | some i =>
    obtain ⟨⟨hi, hinit, htag⟩, -⟩ := (s.matchPair_eq_some _ _ i).mp hm
    have hclosed : ((watchMatch r s).slot i).isLive = false := by
      have heq : watchMatch r s = supersede i s := by
        rw [watchMatch, hm]
        exact if_neg (by simp [hr])
      rw [heq, supersede]
      split_ifs
      · let u := s.setSlot i { s.slot i with anomaly := true }
        have hu : u.poolOk := (Move.touch (z := False) i { s.slot i with anomaly := true } hi hi rfl rfl rfl rfl rfl).poolOk hpool
        have hui : (u.slot i).isLive = true := by
          rw [State.slot_setSlot_self]
          exact hi
        exact closeSlot_not_live (s := countAnomaly u) hu hui _
      · exact closeSlot_not_live hpool hi _
    rintro j ⟨hj, hjinit, hjtag⟩
    obtain ⟨hj', hi', -, ht', -⟩ := hlive j hj
    have hij : j = i := hpairs.1 j i hj' hi (hi'.symm.trans (hjinit.trans hinit.symm)) (ht'.symm.trans (hjtag.trans htag.symm))
    rw [hij, hclosed] at hj
    cases hj

/-! ### The visits -/

/-- The pool while the channels are visited with request r: the slot that holds r, if one does, is excused; else no slot watches
r's pair. -/
def visitPool (r : Request) (p : State × Option SlotId) : Prop :=
  p.1.poolOk ∧ p.1.pairsBut p.2 ∧ (p.2 = none → p.1.unwatched r.initiator r.tag)

/-- The request is taken into a slot that is not live. -/
theorem pairsBut_take {r : Request} {c : ChanId} {i : SlotId} {s : State} (h : s.pairsBut none)
    (hpair : s.unwatched r.initiator r.tag) (hown : r.initiator ≠ s.ownId ∧ r.target ≠ some s.ownId) :
    (takeInto c i r s).pairsBut (some i) := by
  have hslot (j : SlotId) : (takeInto c i r s).slot j = if j = i then openedSlot c r s.tb.time else s.slot j :=
    takeInto_slot c i j r s
  have hframe : (takeInto c i r s).ownId = s.ownId := by simp
  refine ⟨fun j m hj hm hinit htag => ?_, fun j hj => ?_⟩
  · rw [hslot j] at hj hinit htag
    rw [hslot m] at hm hinit htag
    by_cases hji : j = i <;> by_cases hmi : m = i
    · rw [hji, hmi]
    · rw [if_pos hji, if_neg hmi] at hinit htag
      rw [if_neg hmi] at hm
      exact absurd ⟨hm, hinit.symm, htag.symm⟩ (hpair m)
    · rw [if_neg hji, if_pos hmi] at hinit htag
      rw [if_neg hji] at hj
      exact absurd ⟨hj, hinit, htag⟩ (hpair j)
    · rw [if_neg hji, if_neg hmi] at hinit htag
      rw [if_neg hji] at hj
      rw [if_neg hmi] at hm
      exact h.1 j m hj hm hinit htag
  · rw [hframe]
    rw [hslot j] at hj ⊢
    by_cases hji : j = i
    · rw [if_pos hji]
      exact ⟨fun hne => absurd (congrArg some hji) hne, hown⟩
    · rw [if_neg hji] at hj ⊢
      exact ⟨fun _ => (h.2 j hj).1 nofun, (h.2 j hj).2⟩

theorem VisitMove.visitPool {r : Request} {c : ChanId} {p q : State × Option SlotId} (h : VisitMove r c p q)
    (hp : visitPool r p) : visitPool r q := by
  obtain ⟨hpool, hpairs, hpair⟩ := hp
  have hpool' := h.poolOk hpool
  have hsame {s t : State} {k : Option SlotId} (hlive : LiveFrom s t) (hown : t.ownId = s.ownId) (hb : s.pairsBut k)
      (hu : k = none → s.unwatched r.initiator r.tag) : t.pairsBut k ∧ (k = none → t.unwatched r.initiator r.tag) :=
    ⟨hb.liveFrom hlive hown, fun hk => unwatched_of_liveFrom (hu hk) hlive⟩
  cases h with
  | count s k =>
    exact ⟨hpool', hsame (.of_slots fun j => .inl (by simp [State.slot])) (by simp) hpairs hpair⟩
  | takeReserved s i _ _ hown => exact ⟨hpool', pairsBut_take hpairs (hpair rfl) hown, nofun⟩
  | takeFree s i _ _ _ hown => exact ⟨hpool', pairsBut_take hpairs (hpair rfl) hown, nofun⟩
  | reserve s i j =>
    refine ⟨hpool', hsame (.of_slots fun m => ?_) (by simp) hpairs hpair⟩
    rw [reserve_slot]
    split_ifs
    · exact .inr rfl
    · exact .inl rfl
  | collide s k =>
    exact ⟨hpool', hsame (.of_slots fun j => .inl (by simp [State.slot])) (by simp) hpairs hpair⟩
  | holdover s k =>
    exact ⟨hpool', hsame (.of_slots fun j => .inl (by simp [Machine.holdover, State.slot])) rfl hpairs hpair⟩

/-- A request that passes the sampling path keeps the pool and the pairs. -/
theorem request_pool {r : Request} {s : State} (hpool : s.poolOk) (hpairs : s.pairsOk) :
    (closeUnreplied r (visitChannels r (watchMatch r s))).poolOk ∧
      (closeUnreplied r (visitChannels r (watchMatch r s))).pairsOk := by
  obtain ⟨hmpool, hmlive, hmown⟩ := (watchMatch_moves (z := False) r s).pool hpool
  have hmpairs := hpairs.liveFrom hmlive hmown
  by_cases hr : r.reissue = true
  · have hnot (c : ChanId) : ¬(watchMatch r s).counts c r := fun h => by
      have hf := h.2.2.2.1
      rw [hr] at hf
      cases hf
    rw [visitChannels_of_not_counts r _ hnot]
    exact ⟨hmpool, hmpairs⟩
  · have hunwatched := watchMatch_unwatched hpool hpairs (by simpa using hr)
    have hvisit : visitPool r (visitChannels r (watchMatch r s)) :=
      visitChannels_keeps (fun c p q hmove hp => hmove.visitPool hp) ⟨hmpool, hmpairs.but none, fun _ => hunwatched⟩
    have htaken := fun i => visitChannels_taken r (watchMatch r s) (i := i)
    generalize visitChannels r (watchMatch r s) = p at *
    obtain ⟨hvpool, hvpairs, -⟩ := hvisit
    unfold closeUnreplied
    cases hk : p.2 with
    | none =>
      rw [hk] at hvpairs
      exact ⟨hvpool, hvpairs.pairsOk fun _ hi => by cases hi⟩
    | some i =>
      obtain ⟨hopen, hkind⟩ := htaken i hk
      have hlive : (p.1.slot i).isLive = true := by simp [Slot.isLive, hopen]
      rw [hk] at hvpairs
      dsimp only
      split_ifs with hpost
      · obtain ⟨hcpool, hclive, hcown⟩ := (closeSlot_moves (z := False) hlive .unreplied).pool hvpool
        refine ⟨hcpool, (hvpairs.liveFrom hclive hcown).pairsOk fun j hj hjlive => ?_⟩
        obtain rfl : i = j := Option.some.inj hj
        rw [closeSlot_not_live hvpool hlive] at hjlive
        cases hjlive
      · refine ⟨hvpool, hvpairs.pairsOk fun j hj _ => ?_⟩
        obtain rfl : i = j := Option.some.inj hj
        rw [hkind]
        exact not_or.mp hpost

theorem Unsampled.pool {s t : State} (h : Unsampled s t) (hs : s.poolOk ∧ s.pairsOk) : t.poolOk ∧ t.pairsOk := by
  obtain ⟨hpool, hlive, hown⟩ := (h.moves (z := False)).pool hs.1
  exact ⟨hpool, hs.2.liveFrom hlive hown⟩

theorem Trace.pool {z : Prop} {s t : State} (h : Trace z s t) (hs : s.poolOk ∧ s.pairsOk) : t.poolOk ∧ t.pairsOk := by
  cases h with
  | moves h =>
    obtain ⟨hpool, hlive, hown⟩ := h.pool hs.1
    exact ⟨hpool, hs.2.liveFrom hlive hown⟩
  | request r u _ hsu hut =>
    obtain ⟨hpool, hpairs⟩ := hsu.pool hs
    exact hut.pool (request_pool hpool hpairs)
  | alerts x u hsu _ hut => exact hut.pool (hsu.pool hs)
  | bank g v u hsu _ _ _ _ _ hut =>
    obtain ⟨hpool, hpairs⟩ := hsu.pool hs
    refine hut.pool ⟨?_, hpairs⟩
    exact poolOk_setChan (s := u) (c := u.bank) rfl rfl rfl (fun d => State.chan_setChan u u.bank d _) Iff.rfl hpool

/-- Settles O11: every trace keeps the pool and the pairs. -/
theorem slotPoolStaysConsistent : Obligations.SlotPoolStaysConsistent := by
  unfold Obligations.SlotPoolStaysConsistent
  intro s t hs h
  obtain ⟨-, -, -, hpool, hpairs, -⟩ := hs
  obtain ⟨-, -, -, htpool, htpairs, -⟩ | ⟨queue, htrace⟩ := step_trace h
  · exact ⟨htpool, htpairs⟩
  · exact htrace.pool ⟨hpool, hpairs⟩

end Sys2Proof.Machine
end

