-- ==== Sys2Proof/Proofs/Channels.lean ====
section
/-! PROOF. The channels' conditions (R49, R53), and that no bank changes but by a write to an unlocked one (R30, R50, R51). -/

namespace Sys2Proof.Machine

/-! ### One channel -/

/-- A bank holds an admitted PERIOD, JITTER and QUOTA (R49). -/
def Bank.ok (b : Bank) : Prop :=
  b.period ≠ 0 ∧ b.jitter.toNat ≤ 8 ∧ 1 ≤ b.quota.toNat ∧ b.quota.toNat ≤ 8

/-- A channel's own conditions: bank, COUNT and HELD (R49, R53). -/
def Channel.ok (x : Channel) : Prop :=
  x.bank.ok ∧ (x.count = 0 ↔ x.run = .disarmed) ∧ x.count.toNat ≤ x.bank.period.toNat ∧
    (x.run = .held → x.bank.notify = .each)

theorem channelsOk_iff (s : State) :
    s.channelsOk ↔ ∀ c, (s.chan c).ok ∧ s.owned c ≤ (s.chan c).bank.quota.toNat :=
  ⟨fun h c => ⟨⟨(h c).1, (h c).2.1, (h c).2.2.1, (h c).2.2.2.2⟩, (h c).2.2.2.1⟩,
    fun h c => ⟨(h c).1.1, (h c).1.2.1, (h c).1.2.2.1, (h c).2, (h c).1.2.2.2⟩⟩

/-- A change of the run state alone. -/
theorem Channel.ok.setRun {x y : Channel} (h : x.ok) (hb : y.bank = x.bank) (hc : y.count = x.count)
    (hrun : y.run = .disarmed ↔ x.run = .disarmed) (hheld : y.run = .held → x.run = .held ∨ x.bank.notify = .each) :
    y.ok := by
  obtain ⟨hbank, hcount, hle, hnotify⟩ := h
  refine ⟨hb ▸ hbank, ?_, ?_, fun hr => ?_⟩
  · rw [hc, hrun]
    exact hcount
  · rw [hb, hc]
    exact hle
  · rw [hb]
    exact (hheld hr).elim hnotify id

theorem Channel.ok.same {x y : Channel} (h : x.ok) (hb : y.bank = x.bank) (hc : y.count = x.count) (hr : y.run = x.run) :
    y.ok :=
  h.setRun hb hc (by rw [hr]) fun hheld => .inl (hr ▸ hheld)

theorem reloadValue_ok {b : Bank} (h : b.ok) (l : BitVec 16) :
    reloadValue b l ≠ 0 ∧ (reloadValue b l).toNat ≤ b.period.toNat := by
  obtain ⟨hperiod, -⟩ := h
  have hpos : b.period.toNat ≠ 0 := fun e => hperiod (BitVec.eq_of_toNat_eq e)
  have hlt := b.period.isLt
  unfold reloadValue
  split_ifs with hj hle
  · exact ⟨hperiod, le_rfl⟩
  · exact ⟨by decide, Nat.one_le_iff_ne_zero.mpr hpos⟩
  · have hdiff : b.period.toNat - jitterAmount b l ≠ 0 ∧ b.period.toNat - jitterAmount b l < 2 ^ 24 := by omega
    have hval : (BitVec.ofNat 24 (b.period.toNat - jitterAmount b l)).toNat = b.period.toNat - jitterAmount b l := by
      rw [BitVec.toNat_ofNat, Nat.mod_eq_of_lt hdiff.2]
    exact ⟨fun e => hdiff.1 (hval.symm.trans (congrArg BitVec.toNat e)), hval.trans_le (Nat.sub_le _ _)⟩

/-- A channel reloaded and not DISARMED. -/
theorem Channel.ok.reloaded {x y : Channel} {l : BitVec 16} (h : x.ok) (hb : y.bank = x.bank)
    (hc : y.count = reloadValue x.bank l) (hr : y.run ≠ .disarmed) (hheld : y.run = .held → x.run = .held) : y.ok := by
  obtain ⟨hne, hle⟩ := reloadValue_ok h.1 l
  refine ⟨hb ▸ h.1, ⟨fun e => ?_, fun e => absurd e hr⟩, ?_, fun e => ?_⟩
  · exact absurd (hc.symm.trans e) hne
  · rw [hb, hc]
    exact hle
  · rw [hb]
    exact h.2.2.2 (hheld e)

theorem Channel.ok.disarm {x y : Channel} (h : x.ok) (hb : y.bank = x.bank) (hc : y.count = 0) (hr : y.run = .disarmed) :
    y.ok := by
  refine ⟨hb ▸ h.1, by simp [hc, hr], ?_, fun e => ?_⟩
  · rw [hc]
    exact Nat.zero_le _
  · rw [hr] at e
    cases e

theorem Channel.ok.cancelled {x : Channel} {next : RunState} (h : x.ok) (hd : next ≠ .disarmed)
    (hheld : next = .held → x.bank.notify = .each) : (Channel.cancelled next x).ok := by
  unfold Channel.cancelled
  split_ifs with ha
  · exact h.setRun rfl rfl (by simp [ha, hd]) fun hr => .inr (hheld hr)
  · exact h

/-! ### OWNED -/

theorem countP_le_add {α : Type} {p q r : α → Bool} (l : List α) (h : ∀ x ∈ l, p x = true → q x = true ∨ r x = true) :
    l.countP p ≤ l.countP q + l.countP r := by
  induction l with
  | nil => simp
  | cons x l ih =>
    have hx := h x List.mem_cons_self
    have hl := ih fun y hy => h y (List.mem_cons_of_mem x hy)
    simp only [List.countP_cons]
    cases hp : p x <;> cases hq : q x <;> cases hr : r x <;> simp_all <;> omega

/-- Every owned slot of t was owned by the same channel in s. -/
def OwnedFrom (s t : State) : Prop :=
  ∀ j, (t.slot j).state ≠ .free → (s.slot j).state ≠ .free ∧ (t.slot j).channel = (s.slot j).channel

theorem OwnedFrom.owned_le {s t : State} (h : OwnedFrom s t) (c : ChanId) : t.owned c ≤ s.owned c := by
  refine List.countP_mono_left fun j _ hj => ?_
  simp only [Slot.isOwned, Bool.and_eq_true, decide_eq_true_eq] at hj ⊢
  obtain ⟨hfree, hc⟩ := h j hj.1
  exact ⟨hfree, hc ▸ hj.2⟩

theorem OwnedFrom.of_slots {s t : State} (h : ∀ j, t.slot j = s.slot j ∨ (t.slot j).state = .free) : OwnedFrom s t := by
  intro j hj
  obtain hs | hf := h j
  · rw [hs] at hj ⊢
    exact ⟨hj, rfl⟩
  · exact absurd hf hj

theorem OwnedFrom.setSlot {s : State} {i : SlotId} {x : Slot}
    (h : x.state = .free ∨ ((s.slot i).state ≠ .free ∧ x.channel = (s.slot i).channel)) : OwnedFrom s (s.setSlot i x) := by
  intro j hj
  rw [State.slot_setSlot] at hj ⊢
  split_ifs at hj ⊢ with hji
  · rw [hji]
    exact h.resolve_left hj
  · exact ⟨hj, rfl⟩

theorem Slot.not_free_of_live {x : Slot} (h : x.isLive = true) : x.state ≠ .free := by
  obtain h | h := x.isLive_iff.mp h <;> simp [h]

/-! ### The moves -/

theorem EndsArmings.channelsOk {f : Channel → Channel} {l : List ChanId} {s t : State} (h : EndsArmings f l s t)
    (hf : ∀ c ∈ l, (s.chan c).ok → (f (s.chan c)).ok ∧ (f (s.chan c)).bank = (s.chan c).bank) (hs : s.channelsOk) :
    t.channelsOk := by
  have howned : OwnedFrom s t := .of_slots fun j => by
    rw [h.slot j]
    split_ifs
    · exact .inr rfl
    · exact .inl rfl
  rw [channelsOk_iff] at hs ⊢
  intro c
  obtain ⟨hok, hq⟩ := hs c
  have hle := (howned.owned_le c).trans hq
  rw [h.chan c]
  split_ifs with hc
  · obtain ⟨hok', hb⟩ := hf c hc hok
    exact ⟨hok', hb ▸ hle⟩
  · exact ⟨hok, hle⟩

/-- A change of one channel, and of slots that stay with their channels or become FREE. -/
theorem channelsOk_of_chan {s t : State} (howned : OwnedFrom s t)
    (hchan : ∀ c, (s.chan c).ok → (t.chan c).ok ∧ (t.chan c).bank = (s.chan c).bank) (hs : s.channelsOk) :
    t.channelsOk := by
  rw [channelsOk_iff] at hs ⊢
  intro c
  obtain ⟨hok, hq⟩ := hs c
  obtain ⟨hok', hb⟩ := hchan c hok
  exact ⟨hok', hb ▸ (howned.owned_le c).trans hq⟩

theorem channelsOk_setChan {s t : State} {c : ChanId} {x : Channel} (howned : OwnedFrom s t)
    (hchan : ∀ d, t.chan d = if d = c then x else s.chan d) (hb : x.bank = (s.chan c).bank)
    (hx : (s.chan c).ok → x.ok) (hs : s.channelsOk) : t.channelsOk := by
  refine channelsOk_of_chan howned (fun d hok => ?_) hs
  rw [hchan d]
  split_ifs with hd
  · rw [hd] at hok ⊢
    exact ⟨hx hok, hb⟩
  · exact ⟨hok, rfl⟩

theorem disarm_ok {x : Channel} (h : x.ok) : x.disarm.ok ∧ x.disarm.bank = x.bank := by
  rw [Channel.disarm_eq]
  exact ⟨h.disarm rfl rfl rfl, rfl⟩

theorem cancelled_bank (next : RunState) (x : Channel) : (Channel.cancelled next x).bank = x.bank := by
  unfold Channel.cancelled
  split_ifs <;> rfl

theorem Move.channelsOk {z : Prop} {s t : State} (h : Move z s t) (hpool : s.poolOk) (hs : s.channelsOk) :
    t.channelsOk := by
  have hslots (u : State) (hu : u.slots = s.slots) : OwnedFrom s u :=
    .of_slots fun j => .inl (congrArg (fun v => v[j.val]) hu)
  cases h with
  | other _ h =>
    refine channelsOk_of_chan (hslots _ h.slots) (fun c hok => ?_) hs
    rw [h.chan c]
    exact ⟨hok.same rfl rfl rfl, rfl⟩
  | arm c hr =>
    rw [armChannel_eq]
    refine channelsOk_setChan (s := s) (c := c) (hslots _ rfl) (fun d => State.chan_setChan s c d _) rfl (fun hok => ?_) hs
    exact hok.reloaded rfl rfl nofun nofun
  | release c hr =>
    refine channelsOk_setChan (s := s) (c := c) (hslots _ rfl) (fun d => State.chan_setChan s c d _) rfl (fun hok => ?_) hs
    exact hok.setRun rfl rfl (by simp [hr]) nofun
  | disarm c => exact (disarmChannel_ends s c (hpool.armingOk c)).channelsOk (fun _ _ hok => disarm_ok hok) hs
  | start => exact hs
  | pause =>
    exact EndsArmings.channelsOk (s := s.setTb { s.tb with obs := .paused }) (t := pauseObserving s)
      (cancelArmings_ends .counting _ hpool.armingOk)
      (fun d _ hok => ⟨hok.cancelled nofun nofun, cancelled_bank _ _⟩) hs
  | free scope =>
    have hfrees := freeSlots_frees scope .counting s
    refine channelsOk_of_chan (.of_slots fun j => ?_) (fun c hok => ?_) hs
    · rw [hfrees.slot j]
      split_ifs
      · exact .inr rfl
      · exact .inl rfl
    · rw [hfrees.chan c]
      split_ifs
      · rw [Channel.freed_slotIds s c .counting (hpool.armingOk c)]
        refine ⟨hok.setRun rfl rfl ?_ fun hr => ?_, rfl⟩
        · show (if (s.chan c).run = .armed then RunState.counting else (s.chan c).run) = .disarmed ↔ _
          split_ifs with ha <;> simp [ha]
        · have hr' : (if (s.chan c).run = .armed then RunState.counting else (s.chan c).run) = .held := hr
          split_ifs at hr'
          exact .inl hr'
      · exact ⟨hok, rfl⟩
  | sampling =>
    obtain ⟨hfree, -, hchan, -⟩ := scopeSampling_eq hpool
    refine channelsOk_of_chan (.of_slots fun j => .inr (hfree j)) (fun c hok => ?_) hs
    rw [hchan c]
    exact ⟨hok.disarm rfl rfl rfl, rfl⟩
  | touch i x hlive hx hc =>
    exact channelsOk_of_chan (s := s) (.setSlot (.inr ⟨Slot.not_free_of_live hlive, hc⟩)) (fun _ hok => ⟨hok, rfl⟩) hs
  | qualify i x hlive hx hc =>
    have howned : OwnedFrom s (s.setSlot i x) := .setSlot (.inr ⟨Slot.not_free_of_live hlive, hc⟩)
    exact channelsOk_of_chan (s := s) howned (fun _ hok => ⟨hok, rfl⟩) hs
  | filter i =>
    have howned : OwnedFrom s (s.setSlot i Slot.cleared) := .setSlot (.inl rfl)
    exact channelsOk_setChan (s := s) howned (fun d => State.chan_modStats _ _ d _) rfl (fun hok => hok.same rfl rfl rfl) hs
  | deliver i rest =>
    have howned : OwnedFrom s (s.setSlot i Slot.cleared) := .setSlot (.inl rfl)
    exact channelsOk_setChan (s := s) howned (fun d => State.chan_modStats _ _ d _) rfl (fun hok => hok.same rfl rfl rfl) hs
  | hold c hn hr =>
    refine channelsOk_setChan (s := s) (c := c) (hslots _ rfl) (fun d => State.chan_setChan s c d _) rfl (fun hok => ?_) hs
    exact hok.setRun rfl rfl (by simp [hr]) fun _ => .inr hn
  | holdArmed c hn =>
    refine (cancelIfArmed_ends .held s c (hpool.armingOk c)).channelsOk (fun d hd hok => ?_) hs
    rw [List.mem_singleton] at hd
    exact ⟨hok.cancelled nofun fun _ => hd ▸ hn, cancelled_bank _ _⟩
  | zero c =>
    exact channelsOk_setChan (s := s) (c := c) (hslots _ rfl) (fun d => State.chan_setChan s c d _) rfl
      (fun hok => hok.same rfl rfl rfl) hs

theorem Moves.channelsOk {z : Prop} {s t : State} (h : Moves z s t) (hpool : s.poolOk) (hs : s.channelsOk) :
    t.channelsOk :=
  (h.keeps (P := fun t => t.poolOk ∧ t.channelsOk)
    (fun _ _ hmove hp => ⟨hmove.poolOk hp.1, hmove.channelsOk hp.1 hp.2⟩) ⟨hpool, hs⟩).2

/-! ### The visits -/

theorem countP_eq_le_one : ∀ i : SlotId, slotIds.countP (fun j => decide (j = i)) ≤ 1 := by
  decide

/-- A FREE slot that becomes channel c's: c owns one more slot, and no other channel does. -/
theorem owned_of_taken {s t : State} {i : SlotId} {c : ChanId} (hi : (t.slot i).channel = c)
    (hslot : ∀ j, j ≠ i → t.slot j = s.slot j) (d : ChanId) :
    t.owned d ≤ s.owned d + if d = c then 1 else 0 := by
  refine (countP_le_add (q := fun j => (s.slot j).isOwned && decide ((s.slot j).channel = d))
    (r := fun j => decide (j = i) && decide (d = c)) slotIds fun j _ hj => ?_).trans (Nat.add_le_add_left ?_ _)
  · by_cases hji : j = i
    · rw [hji, hi] at hj
      simp only [Bool.and_eq_true, decide_eq_true_eq] at hj ⊢
      exact .inr ⟨hji, hj.2.symm⟩
    · rw [hslot j hji] at hj
      exact .inl hj
  · by_cases hd : d = c
    · simp only [hd, decide_true, Bool.and_true, if_true]
      exact countP_eq_le_one i
    · simp [hd]

/-- A channel below its quota is given a FREE slot. -/
theorem channelsOk_take {s t : State} {i : SlotId} {c : ChanId} {x : Channel} (hi : (t.slot i).channel = c)
    (hslot : ∀ j, j ≠ i → t.slot j = s.slot j) (hquota : s.owned c < (s.chan c).bank.quota.toNat)
    (hchan : ∀ d, t.chan d = if d = c then x else s.chan d) (hb : x.bank = (s.chan c).bank)
    (hx : (s.chan c).ok → x.ok) (hs : s.channelsOk) : t.channelsOk := by
  rw [channelsOk_iff] at hs ⊢
  intro d
  obtain ⟨hok, hq⟩ := hs d
  have hle := owned_of_taken hi hslot d
  rw [hchan d]
  split_ifs at hle ⊢ with hd
  · rw [hd] at hok hle ⊢
    rw [hb]
    exact ⟨hx hok, by omega⟩
  · exact ⟨hok, hle.trans hq⟩

theorem sub_one_of_counting {x : BitVec 24} (h0 : x ≠ 0) (h1 : x ≠ 1) : (x - 1).toNat ≤ x.toNat ∧ x - 1 ≠ 0 := by
  bv_omega

theorem VisitMove.channelsOk {r : Request} {c : ChanId} {p q : State × Option SlotId} (h : VisitMove r c p q)
    (hs : p.1.channelsOk) : q.1.channelsOk := by
  cases h with
  | count s k hcounts =>
    have hrun : (s.chan c).run ≠ .disarmed := hcounts.2.1
    refine channelsOk_of_chan (s := s) (.of_slots fun j => .inl (by simp [State.slot])) (fun d hok => ?_) hs
    rw [countRequest_chan]
    split_ifs with hd hone
    · rw [hd] at hok ⊢
      exact ⟨hok.reloaded rfl rfl hrun id, rfl⟩
    · rw [hd] at hok ⊢
      obtain ⟨hbank, hcount, hle, hheld⟩ := hok
      obtain ⟨hsub, hne⟩ := sub_one_of_counting (fun e => hrun (hcount.mp e)) hone
      exact ⟨⟨hbank, ⟨fun e => absurd e hne, fun e => absurd e hrun⟩, hsub.trans hle, hheld⟩, rfl⟩
    · exact ⟨hok, rfl⟩
  | takeReserved s i ha hi hown =>
    obtain ⟨⟨hres, hic⟩, -⟩ := (s.reservedSlot_eq_some c i).mp hi
    refine channelsOk_setChan (s := s) (c := c) (fun j hj => ?_) (fun d => takeInto_chan c d i r s) rfl (fun hok => ?_) hs
    · rw [takeInto_slot] at hj ⊢
      split_ifs at hj ⊢ with hji
      · rw [hji]
        exact ⟨by simp [hres], hic.symm⟩
      · exact ⟨hj, rfl⟩
    · exact hok.setRun rfl rfl (by simp [ha]) fun hr => by simp [ha] at hr
  | takeFree s i hr hq hi hown =>
    refine channelsOk_take (s := s) (i := i) (c := c) ?_ (fun j hj => ?_) hq (fun d => takeInto_chan c d i r s) rfl (fun hok => ?_) hs
    · rw [takeInto_slot, if_pos rfl]
      rfl
    · rw [takeInto_slot, if_neg hj]
    · exact hok.setRun rfl rfl (by simp [hr]) fun h => by simp [hr] at h
  | reserve s i j hr hq hi =>
    refine channelsOk_take (s := s) (i := i) (c := c) ?_ (fun j hj => ?_) hq (fun d => reserve_chan c d i s) rfl (fun hok => ?_) hs
    · rw [reserve_slot, if_pos rfl]
    · rw [reserve_slot, if_neg hj]
    · exact hok.setRun rfl rfl (by simp [hr]) nofun
  | collide s k =>
    exact channelsOk_setChan (s := s) (c := c) (.of_slots fun j => .inl (by simp [State.slot])) (fun d => collide_chan c d s)
      rfl (fun hok => hok.same rfl rfl rfl) hs
  | holdover s k =>
    exact channelsOk_setChan (s := s) (c := c) (.of_slots fun j => .inl rfl) (fun d => holdover_chan c d s)
      rfl (fun hok => hok.same rfl rfl rfl) hs

theorem request_channelsOk {r : Request} {s : State} (hpool : s.poolOk) (hs : s.channelsOk) :
    (closeUnreplied r (visitChannels r (watchMatch r s))).channelsOk := by
  have hmatch := watchMatch_moves (z := False) r s
  have hvisit : (visitChannels r (watchMatch r s)).1.poolOk ∧ (visitChannels r (watchMatch r s)).1.channelsOk :=
    visitChannels_keeps (P := fun p => p.1.poolOk ∧ p.1.channelsOk)
      (fun c p q hmove hp => ⟨hmove.poolOk hp.1, hmove.channelsOk hp.2⟩) ⟨(hmatch.pool hpool).1, hmatch.channelsOk hpool hs⟩
  exact (closeUnreplied_moves (z := False) r _).channelsOk hvisit.1 hvisit.2

/-! ### Bank writes -/

theorem Bank.ok.write {s : State} {b : Bank} {g : Reg} {v : Word} (hv : valueOk s g v = true) (h : b.ok) : (b.write g v).ok := by
  cases g with
  | chPeriod =>
    simp only [valueOk, Bool.and_eq_true, decide_eq_true_eq] at hv
    exact ⟨hv.1.1.1, hv.1.1.2, hv.1.2, hv.2⟩
  | _ => exact h

theorem writeBank_channelsOk {s : State} {g : Reg} {v : Word} (hv : valueOk s g v = true)
    (hr : (s.chan s.bank).run = .disarmed) (h0 : s.owned s.bank = 0) (hs : s.channelsOk) : (writeBank g v s).channelsOk := by
  rw [channelsOk_iff] at hs ⊢
  intro c
  obtain ⟨hok, hq⟩ := hs c
  have howned : (writeBank g v s).owned c = s.owned c := rfl
  have hchan : (writeBank g v s).chan c =
      if c = s.bank then { s.chan s.bank with bank := (s.chan s.bank).bank.write g v } else s.chan c :=
    State.chan_setChan s s.bank c _
  rw [howned, hchan]
  split_ifs with hc
  · rw [hc] at hok ⊢
    have hcount : (s.chan s.bank).count = 0 := hok.2.1.mpr hr
    refine ⟨⟨hok.1.write hv, hok.2.1, ?_, fun hheld => ?_⟩, ?_⟩
    · show (s.chan s.bank).count.toNat ≤ _
      rw [hcount]
      exact Nat.zero_le _
    · have hheld' : (s.chan s.bank).run = .held := hheld
      rw [hr] at hheld'
      cases hheld'
    · rw [h0]
      exact Nat.zero_le _
  · exact ⟨hok, hq⟩

theorem Trace.channelsOk {z : Prop} {s t : State} (h : Trace z s t) (hpool : s.poolOk) (hpairs : s.pairsOk)
    (hs : s.channelsOk) : t.channelsOk := by
  have hfrom {u : State} (hsu : Unsampled s u) : u.poolOk ∧ u.channelsOk :=
    ⟨(hsu.pool ⟨hpool, hpairs⟩).1, (hsu.moves (z := False)).channelsOk hpool hs⟩
  cases h with
  | moves h => exact h.channelsOk hpool hs
  | request r u _ hsu hut =>
    obtain ⟨hupool, huok⟩ := hfrom hsu
    have hpool' := (request_pool (r := r) hupool (hsu.pool ⟨hpool, hpairs⟩).2).1
    exact (hut.moves (z := False)).channelsOk hpool' (request_channelsOk hupool huok)
  | alerts x u hsu _ hut =>
    obtain ⟨hupool, huok⟩ := hfrom hsu
    exact (hut.moves (z := False)).channelsOk hupool huok
  | bank g v u hsu _ _ hv hr h0 hut =>
    obtain ⟨hupool, huok⟩ := hfrom hsu
    have hwpool : (writeBank g v u).poolOk :=
      poolOk_setChan (s := u) (c := u.bank) rfl rfl rfl (fun d => State.chan_setChan u u.bank d _) Iff.rfl hupool
    exact (hut.moves (z := False)).channelsOk hwpool (writeBank_channelsOk hv hr h0 huok)

/-- Settles O12: every trace keeps the channels' conditions. -/
theorem channelConditionsHold : Obligations.ChannelConditionsHold := by
  unfold Obligations.ChannelConditionsHold
  intro s t hs h
  obtain ⟨-, -, -, hpool, hpairs, hchannels, -⟩ := hs
  obtain ⟨-, -, -, -, -, htchannels, -⟩ | ⟨queue, htrace⟩ := step_trace h
  · exact htchannels
  · exact htrace.channelsOk hpool hpairs hchannels

end Sys2Proof.Machine
end

