-- ==== Sys2Proof/Proofs/Banks.lean ====
section
/-! PROOF. The banks: nothing but a register write to an unlocked bank, the one that BANK names, changes one (R30, R50, R51). -/

namespace Sys2Proof.Machine

/-- Every bank of t is the one of s. -/
def SameBanks (s t : State) : Prop := ∀ c, (t.chan c).bank = (s.chan c).bank

namespace SameBanks

variable {s t u : State}

theorem of_chans (h : t.chans = s.chans) : SameBanks s t := fun c => congrArg (fun v => v[c.val].bank) h

theorem trans (h1 : SameBanks s t) (h2 : SameBanks t u) : SameBanks s u := fun c => (h2 c).trans (h1 c)

/-- One channel changes, but not its bank. -/
theorem of_setChan {c : ChanId} {x : Channel} (h : ∀ d, t.chan d = if d = c then x else s.chan d)
    (hx : x.bank = (s.chan c).bank) : SameBanks s t := by
  intro d
  rw [h d]
  split_ifs with hd
  · rw [hx, hd]
  · rfl

theorem setChan (s : State) {c : ChanId} {x : Channel} (hx : x.bank = (s.chan c).bank) : SameBanks s (s.setChan c x) :=
  of_setChan (fun d => State.chan_setChan s c d x) hx

theorem modStats (s : State) (c : ChanId) (f : ChanStats → ChanStats) : SameBanks s (s.modStats c f) := setChan s rfl

theorem setRun (s : State) (c : ChanId) (r : RunState) : SameBanks s (s.setRun c r) := setChan s rfl

end SameBanks

theorem foldl_sameBanks {α : Type} {f : State → α → State} (h : ∀ s x, SameBanks s (f s x)) (l : List α) (s : State) :
    SameBanks s (l.foldl f s) :=
  foldl_keeps (P := SameBanks s) f (fun _ x hs => hs.trans (h _ x)) l s fun _ => rfl

theorem cancelIfArmed_sameBanks (next : RunState) (s : State) (c : ChanId) : SameBanks s (cancelIfArmed next s c) := by
  unfold cancelIfArmed cancelArming
  split_ifs
  · cases s.reservedSlot c with
    | none => exact (SameBanks.modStats s c _).trans (.setRun _ c next)
    | some i => exact .of_setChan (fun d => cancelAt_chan c d i next s) rfl
  · exact fun _ => rfl

theorem disarmChannel_sameBanks (s : State) (c : ChanId) : SameBanks s (disarmChannel s c) :=
  (cancelIfArmed_sameBanks .disarmed s c).trans (.setChan _ rfl)

theorem resetChannel_sameBanks (s : State) (c : ChanId) : SameBanks s (resetChannel s c) :=
  (disarmChannel_sameBanks s c).trans (.setChan _ rfl)

theorem freeSlots_sameBanks (scope : ChanId → Bool) (next : RunState) (s : State) :
    SameBanks s (freeSlots scope next s) := by
  intro c
  rw [(freeSlots_frees scope next s).chan c]
  split_ifs <;> rfl

theorem Move.sameBanks {z : Prop} {s t : State} (h : Move z s t) : SameBanks s t := by
  cases h with
  | other _ h => exact fun c => by rw [h.chan c]
  | arm c =>
    rw [armChannel_eq]
    exact .of_setChan (s := s) (c := c) (fun d => State.chan_setChan s c d _) rfl
  | release c => exact .setChan s rfl
  | disarm c => exact disarmChannel_sameBanks s c
  | start => exact .of_chans rfl
  | pause => exact foldl_sameBanks (cancelIfArmed_sameBanks .counting) chanIds (s.setTb { s.tb with obs := .paused })
  | free scope => exact freeSlots_sameBanks scope .counting s
  | sampling => exact (foldl_sameBanks resetChannel_sameBanks chanIds s).trans (freeSlots_sameBanks _ _ _)
  | touch i x => exact .of_chans rfl
  | qualify i x => exact .of_chans rfl
  | filter i => exact .modStats (s.setSlot i Slot.cleared) _ _
  | deliver i rest => exact .modStats ((s.setCloseQueue rest).setSlot i Slot.cleared) _ _
  | hold c => exact .setRun s c .held
  | holdArmed c => exact cancelIfArmed_sameBanks .held s c
  | zero c => exact .modStats s c _

theorem Moves.sameBanks {z : Prop} {s t : State} (h : Moves z s t) : SameBanks s t :=
  h.keeps (P := SameBanks s) (fun _ _ hmove hs => hs.trans hmove.sameBanks) fun _ => rfl

theorem VisitMove.sameBanks {r : Request} {c : ChanId} {p q : State × Option SlotId} (h : VisitMove r c p q) :
    SameBanks p.1 q.1 := by
  cases h with
  | count s k =>
    refine .of_setChan (fun d => countRequest_chan c d s) ?_
    split_ifs <;> rfl
  | takeReserved s i => exact .of_setChan (fun d => takeInto_chan c d i r s) rfl
  | takeFree s i => exact .of_setChan (fun d => takeInto_chan c d i r s) rfl
  | reserve s i j => exact .of_setChan (fun d => reserve_chan c d i s) rfl
  | collide s k => exact .of_setChan (fun d => collide_chan c d s) rfl
  | holdover s k => exact .of_setChan (fun d => holdover_chan c d s) rfl

theorem request_sameBanks (r : Request) (s : State) :
    SameBanks s (closeUnreplied r (visitChannels r (watchMatch r s))) := by
  have hvisit : SameBanks (watchMatch r s) (visitChannels r (watchMatch r s)).1 :=
    visitChannels_keeps (P := fun p => SameBanks (watchMatch r s) p.1) (fun _ _ _ hmove hp => hp.trans hmove.sameBanks)
      fun _ => rfl
  exact ((watchMatch_moves (z := False) r s).sameBanks.trans hvisit).trans (closeUnreplied_moves (z := False) r _).sameBanks

/-- A bank that BANK does not name, or that is locked, keeps its value (R51). -/
theorem Trace.bank_eq {z : Prop} {s t : State} (h : Trace z s t) {c : ChanId}
    (hc : c ≠ s.bank ∨ (s.chan c).run ≠ .disarmed ∨ s.owned c ≠ 0) : (t.chan c).bank = (s.chan c).bank := by
  have hother {u v : State} (h : Unsampled u v) : SameBanks u v := fun c => by rw [h.chan c]
  cases h with
  | moves h => exact h.sameBanks c
  | request r u _ hsu hut => exact (((hother hsu).trans (request_sameBanks r u)).trans (hother hut)) c
  | alerts x u hsu _ hut => exact ((hother hsu).trans (SameBanks.trans (t := u.setInts x) (.of_chans rfl) (hother hut))) c
  | bank g v u hsu hbank _ _ hr h0 hut =>
    have howned : u.owned c = s.owned c := by
      unfold State.owned State.slot
      rw [hsu.slots]
    have hrun : (u.chan c).run = (s.chan c).run := by rw [hsu.chan c]
    have hne : c ≠ u.bank := by
      intro hcu
      rw [hcu] at hc howned hrun
      obtain hb | hd | ho := hc
      · exact hb hbank
      · exact hd (hrun.symm.trans hr)
      · exact ho (howned.symm.trans h0)
    have hwrite : (writeBank g v u).chan c = u.chan c := State.chan_setChan_of_ne u _ hne
    rw [hother hut c, hwrite, hother hsu c]

/-- Settles O5: of all that a trace does, only a bank write changes a bank. -/
theorem banksKeepTheirValues : Obligations.BanksKeepTheirValues := by
  unfold Obligations.BanksKeepTheirValues
  intro i s t c h hi hc
  exact (exec_trace h hi).bank_eq hc

end Sys2Proof.Machine
end

