-- ==== Sys2Proof/Proofs/Balances.lean ====
section
/-! PROOF. The sums that the statistics keep: the firing balance and the selection balance of each channel (R69–R71). -/

namespace Sys2Proof.Machine

/-! ### The balances, by channel -/

/-- A channel's part of the firing balance (R69). -/
def Channel.firing (x : Channel) : Word :=
  x.stats.fires - (x.stats.selected + x.stats.collisions + x.stats.heldover + x.armedTerm)

/-- A channel's part of the selection balance (R70). -/
def Channel.selection (x : Channel) : Word :=
  x.stats.selected - (x.stats.filtered + x.stats.delivered + x.stats.discarded)

theorem State.firingBalance_eq (s : State) (c : ChanId) : s.firingBalance c = (s.chan c).firing := rfl

theorem State.selectionBalance_eq (s : State) (c : ChanId) :
    s.selectionBalance c = (s.chan c).selection - BitVec.ofNat 32 (s.watching c) :=
  sub_add_eq_sub_sub _ _ _

/-- The firing balance of c changes by n, and no other balance changes. -/
def Shifts (c : ChanId) (n : Word) (s t : State) : Prop :=
  ∀ d, t.firingBalance d = s.firingBalance d + (if d = c then n else 0) ∧ t.selectionBalance d = s.selectionBalance d

/-- No balance changes. -/
def Balanced (s t : State) : Prop :=
  ∀ c, t.firingBalance c = s.firingBalance c ∧ t.selectionBalance c = s.selectionBalance c

theorem Balanced.trans {s t u : State} (h1 : Balanced s t) (h2 : Balanced t u) : Balanced s u := fun c =>
  ⟨(h2 c).1.trans (h1 c).1, (h2 c).2.trans (h1 c).2⟩

theorem Shifts.trans {c : ChanId} {m n : Word} {s t u : State} (h1 : Shifts c m s t) (h2 : Shifts c n t u) :
    Shifts c (m + n) s u := by
  intro d
  obtain ⟨hf1, hs1⟩ := h1 d
  obtain ⟨hf2, hs2⟩ := h2 d
  refine ⟨?_, hs2.trans hs1⟩
  rw [hf2, hf1]
  split_ifs
  · exact BitVec.add_assoc _ _ _
  · simp

theorem Shifts.balanced {c : ChanId} {s t : State} (h : Shifts c 0 s t) : Balanced s t := fun d =>
  ⟨(h d).1.trans (by simp), (h d).2⟩

/-- The balances from the channels and the watched slots. -/
theorem balanced_of {s t : State} (hf : ∀ c, (t.chan c).firing = (s.chan c).firing)
    (hs : ∀ c, (t.chan c).selection - BitVec.ofNat 32 (t.watching c) =
      (s.chan c).selection - BitVec.ofNat 32 (s.watching c)) : Balanced s t := fun c =>
  ⟨hf c, by rw [t.selectionBalance_eq, hs c, s.selectionBalance_eq]⟩

theorem Balanced.of_same {s t : State} (hf : ∀ c, (t.chan c).firing = (s.chan c).firing)
    (hsel : ∀ c, (t.chan c).selection = (s.chan c).selection) (hw : ∀ c, t.watching c = s.watching c) : Balanced s t :=
  balanced_of hf fun c => by rw [hsel c, hw c]

/-- One channel changes, with the slots it watches. -/
theorem Shifts.of_chan {s t : State} {c : ChanId} {x : Channel} {n : Word}
    (hchan : ∀ d, t.chan d = if d = c then x else s.chan d) (hf : x.firing = (s.chan c).firing + n)
    (hsel : x.selection - BitVec.ofNat 32 (t.watching c) = (s.chan c).selection - BitVec.ofNat 32 (s.watching c))
    (hw : ∀ d, d ≠ c → t.watching d = s.watching d) : Shifts c n s t := by
  intro d
  rw [t.firingBalance_eq, t.selectionBalance_eq, s.firingBalance_eq, s.selectionBalance_eq, hchan d]
  split_ifs with hd
  · rw [hd]
    exact ⟨hf, hsel⟩
  · rw [hw d hd]
    exact ⟨(add_zero _).symm, rfl⟩

/-! ### The watched slots of a channel -/

/-- Slot x is one that channel c watches. -/
def Slot.watchedBy (c : ChanId) (x : Slot) : Bool := x.isWatching && decide (x.channel = c)

theorem State.watching_eq (s : State) (c : ChanId) : s.watching c = slotIds.countP fun i => (s.slot i).watchedBy c := rfl

theorem Slot.watchedBy_of_not {x : Slot} (h : x.isWatching = false) (c : ChanId) : x.watchedBy c = false := by
  simp [watchedBy, h]

theorem Slot.watchedBy_of {x : Slot} (h : x.isWatching = true) (c : ChanId) : x.watchedBy c = decide (x.channel = c) := by
  simp [watchedBy, h]

theorem watching_congr {s t : State} {c : ChanId} (h : ∀ i, (t.slot i).watchedBy c = (s.slot i).watchedBy c) :
    t.watching c = s.watching c := by
  rw [t.watching_eq, s.watching_eq]
  exact List.countP_congr fun i _ => by rw [h i]

/-- Two predicates that differ at most at i. -/
theorem countP_slotIds_at {p q : SlotId → Bool} (i : SlotId) (h : ∀ j, j ≠ i → p j = q j) :
    slotIds.countP p + (q i).toNat = slotIds.countP q + (p i).toNat := by
  have hperm : slotIds.Perm (i :: slotIds.erase i) := List.perm_cons_erase (mem_slotIds i)
  have hrest : (slotIds.erase i).countP p = (slotIds.erase i).countP q :=
    List.countP_congr fun j hj => by
      have hnodup : slotIds.Nodup := by decide
      rw [h j (hnodup.mem_erase_iff.mp hj).1]
  rw [hperm.countP_eq p, hperm.countP_eq q, List.countP_cons, List.countP_cons, hrest]
  cases p i <;> cases q i <;> simp

theorem watching_at {s t : State} {i : SlotId} (c : ChanId) (h : ∀ j, j ≠ i → t.slot j = s.slot j) :
    t.watching c + ((s.slot i).watchedBy c).toNat = s.watching c + ((t.slot i).watchedBy c).toNat := by
  rw [t.watching_eq, s.watching_eq]
  refine countP_slotIds_at (p := fun j => (t.slot j).watchedBy c) (q := fun j => (s.slot j).watchedBy c) i fun j hj => ?_
  rw [h j hj]

/-- A slot that stays watched, by the same channel, or unwatched. -/
theorem watching_of_slot {s t : State} {i : SlotId} {c : ChanId} (h : ∀ j, j ≠ i → t.slot j = s.slot j)
    (hi : (t.slot i).watchedBy c = (s.slot i).watchedBy c) : t.watching c = s.watching c := by
  have hat := watching_at c h
  rw [hi] at hat
  exact Nat.add_right_cancel hat

theorem Slot.isWatching_of_live {x : Slot} (h : x.isLive = true) : x.isWatching = true := by
  simp [isWatching, h]

theorem Slot.cleared_not_watching : Slot.cleared.isWatching = false := rfl

theorem setSlot_other (s : State) (i : SlotId) (x : Slot) : ∀ j, j ≠ i → (s.setSlot i x).slot j = s.slot j := fun j hj => by
  rw [State.slot_setSlot, if_neg hj]

/-! ### The moves -/

/-- Armings end, each with a collision. -/
theorem EndsArmings.balanced {f : Channel → Channel} {l : List ChanId} {s t : State} (h : EndsArmings f l s t)
    (hf : ∀ x, (f x).firing = x.firing) (hsel : ∀ x, (f x).selection = x.selection) : Balanced s t := by
  refine .of_same (fun c => ?_) (fun c => ?_) fun c => watching_congr fun i => ?_
  · rw [h.chan c]
    split_ifs
    · exact hf _
    · rfl
  · rw [h.chan c]
    split_ifs
    · exact hsel _
    · rfl
  · rw [h.slot i]
    split_ifs with hi
    · rw [Slot.watchedBy_of_not Slot.cleared_not_watching, Slot.watchedBy_of_not]
      simp [Slot.isWatching, Slot.isLive, hi.1]
    · rfl

theorem Channel.cancelled_firing {next : RunState} (hn : next ≠ .armed) (x : Channel) :
    (Channel.cancelled next x).firing = x.firing := by
  unfold Channel.cancelled
  split_ifs with ha
  · simp only [Channel.firing, Channel.armedTerm, if_pos ha, if_neg hn]
    ring
  · rfl

theorem Channel.cancelled_selection (next : RunState) (x : Channel) :
    (Channel.cancelled next x).selection = x.selection := by
  unfold Channel.cancelled
  split_ifs <;> rfl

theorem Channel.disarm_firing (x : Channel) : x.disarm.firing = x.firing := by
  rw [← Channel.cancelled_firing (next := .disarmed) nofun x]
  unfold Channel.disarm Channel.cancelled
  split_ifs with ha
  · rfl
  · simp [Channel.firing, Channel.armedTerm, ha]

theorem Channel.disarm_selection (x : Channel) : x.disarm.selection = x.selection :=
  Channel.cancelled_selection .disarmed x

/-- An arming that ends with a collision, and watched slots that go to DISCARDED. -/
theorem Channel.freed_balance {x y : Channel} {n : Nat} (hr : y.run ≠ .armed)
    (hy : y.stats = { x.stats with
      collisions := x.stats.collisions + x.armedTerm, discarded := x.stats.discarded + BitVec.ofNat 32 n }) :
    y.firing = x.firing ∧ y.selection = x.selection - BitVec.ofNat 32 n := by
  constructor
  · simp only [Channel.firing, hy]
    rw [show y.armedTerm = 0 from if_neg hr]
    ring
  · simp only [Channel.selection, hy]
    ring

theorem Channel.freed_not_armed (s : State) (c : ChanId) (h : s.armingOk c) :
    ((s.chan c).freed .counting (s.reservedIn slotIds c) (s.watchingIn slotIds c)).run ≠ .armed := by
  rw [Channel.freed_slotIds s c .counting h]
  show (if (s.chan c).run = .armed then RunState.counting else (s.chan c).run) ≠ .armed
  split_ifs with ha
  · simp
  · exact ha

/-- A channel in scope watches nothing when its slots are freed. -/
theorem FreesSlots.watching_in {scope : ChanId → Bool} {next : RunState} {s t : State}
    (h : FreesSlots scope next slotIds s t) {c : ChanId} (hc : scope c = true) : t.watching c = 0 := by
  rw [State.watching_eq, List.countP_eq_zero]
  intro i _
  rw [h.slot i]
  split_ifs with hi
  · simp [Slot.watchedBy_of_not Slot.cleared_not_watching]
  · simp only [mem_slotIds, true_and, not_and, not_not] at hi
    by_cases hic : (s.slot i).channel = c
    · simp [Slot.watchedBy, Slot.isWatching, Slot.isLive, hi (hic ▸ hc)]
    · simp [Slot.watchedBy, hic]

theorem FreesSlots.watching_out {scope : ChanId → Bool} {next : RunState} {s t : State}
    (h : FreesSlots scope next slotIds s t) {c : ChanId} (hc : ¬scope c = true) : t.watching c = s.watching c := by
  refine watching_congr fun i => ?_
  rw [h.slot i]
  split_ifs with hi
  · have hic : (s.slot i).channel ≠ c := fun e => hc (e ▸ hi.2.1)
    rw [Slot.watchedBy_of_not Slot.cleared_not_watching]
    simp [Slot.watchedBy, hic]
  · rfl

/-- A run state that changes between ones that are not ARMED. -/
theorem Channel.firing_of_run {x y : Channel} (hy : y.stats = x.stats) (hx : x.run ≠ .armed) (hr : y.run ≠ .armed) :
    y.firing = x.firing := by
  simp only [Channel.firing, hy, Channel.armedTerm, if_neg hx, if_neg hr]

theorem Channel.selection_of_stats {x y : Channel} (hy : y.stats = x.stats) : y.selection = x.selection := by
  simp only [Channel.selection, hy]

theorem Channel.selection_filtered (x : Channel) :
    ({ x with stats := { x.stats with filtered := x.stats.filtered + 1 } } : Channel).selection = x.selection - 1 := by
  simp only [Channel.selection]
  ring

theorem Channel.selection_delivered (x : Channel) :
    ({ x with stats := { x.stats with delivered := x.stats.delivered + 1 } } : Channel).selection = x.selection - 1 := by
  simp only [Channel.selection]
  ring

/-- One channel changes its run state between ones that are not ARMED. -/
theorem balanced_of_run {s t : State} {c : ChanId} {x : Channel} (hslots : t.slots = s.slots)
    (hchan : ∀ d, t.chan d = if d = c then x else s.chan d) (hstats : x.stats = (s.chan c).stats)
    (hold : (s.chan c).run ≠ .armed) (hnew : x.run ≠ .armed) : Balanced s t := by
  have hw (d : ChanId) : t.watching d = s.watching d := watching_congr fun i => by unfold State.slot; rw [hslots]
  refine (Shifts.of_chan hchan ?_ ?_ fun d _ => hw d).balanced
  · rw [Channel.firing_of_run hstats hold hnew, add_zero]
  · rw [hw c, Channel.selection_of_stats hstats]

/-- A watched slot leaves, and its channel counts it. -/
theorem balanced_of_leave {s : State} {i : SlotId} (hw : (s.slot i).isWatching = true) {t : State} {x : Channel}
    (hslot : ∀ j, t.slot j = if j = i then Slot.cleared else s.slot j)
    (hchan : ∀ d, t.chan d = if d = (s.slot i).channel then x else s.chan d)
    (hf : x.firing = (s.chan (s.slot i).channel).firing)
    (hsel : x.selection = (s.chan (s.slot i).channel).selection - 1) : Balanced s t := by
  have hat (c : ChanId) := watching_at (i := i) (s := s) (t := t) c fun j hj => by rw [hslot j, if_neg hj]
  simp only [hslot i, if_pos, Slot.watchedBy_of_not Slot.cleared_not_watching, Slot.watchedBy_of hw] at hat
  refine (Shifts.of_chan hchan (by rw [hf, add_zero]) ?_ fun d hd => ?_).balanced
  · have hone : t.watching (s.slot i).channel + 1 = s.watching (s.slot i).channel := by simpa using hat (s.slot i).channel
    rw [hsel, ← hone, BitVec.ofNat_add, show BitVec.ofNat 32 1 = (1 : Word) from rfl]
    ring
  · simpa [Ne.symm hd] using hat d

theorem Move.balanced {s t : State} (h : Move False s t) (hpool : s.poolOk) : Balanced s t := by
  cases h with
  | other _ h =>
    refine .of_same (fun c => ?_) (fun c => ?_) fun c => watching_congr fun i => ?_
    · rw [h.chan c]
      rfl
    · rw [h.chan c]
      rfl
    · unfold State.slot
      rw [h.slots]
  | arm c hr =>
    rw [armChannel_eq]
    exact balanced_of_run (c := c) rfl (fun d => State.chan_setChan s c d _) rfl (by simp [hr]) nofun
  | release c hr => exact balanced_of_run (c := c) rfl (fun d => State.chan_setChan s c d _) rfl (by simp [hr]) nofun
  | disarm c =>
    exact (disarmChannel_ends s c (hpool.armingOk c)).balanced Channel.disarm_firing Channel.disarm_selection
  | start => exact fun c => ⟨rfl, rfl⟩
  | pause =>
    exact EndsArmings.balanced (s := s.setTb { s.tb with obs := .paused }) (t := pauseObserving s)
      (cancelArmings_ends .counting _ hpool.armingOk) (Channel.cancelled_firing nofun) (Channel.cancelled_selection _)
  | free scope =>
    have hfrees := freeSlots_frees scope .counting s
    have hchan (c : ChanId) (hc : scope c = true) :=
      Channel.freed_balance (x := s.chan c) (y := (freeSlots scope .counting s).chan c) (n := s.watching c)
        (by rw [hfrees.chan c, if_pos hc]; exact Channel.freed_not_armed s c (hpool.armingOk c))
        (by rw [hfrees.chan c, if_pos hc, Channel.freed_slotIds s c .counting (hpool.armingOk c)])
    refine balanced_of (fun c => ?_) fun c => ?_
    · by_cases hc : scope c = true
      · exact (hchan c hc).1
      · rw [hfrees.chan c, if_neg hc]
    · by_cases hc : scope c = true
      · rw [(hchan c hc).2, hfrees.watching_in hc]
        exact sub_zero _
      · rw [hfrees.chan c, if_neg hc, hfrees.watching_out hc]
  | sampling =>
    obtain ⟨hfree, -, hchan, -⟩ := scopeSampling_eq hpool
    refine balanced_of (fun c => ?_) fun c => ?_
    · rw [hchan c]
      exact (Channel.freed_balance (by simp) rfl).1
    · rw [hchan c, (Channel.freed_balance (x := s.chan c) (n := s.watching c) (by simp) rfl).2]
      have h0 : (scopeSampling s).watching c = 0 := by
        rw [State.watching_eq, List.countP_eq_zero]
        intro i _
        simp [Slot.watchedBy, Slot.isWatching, Slot.isLive, hfree i]
      rw [h0]
      exact sub_zero _
  | touch i x hlive hx hc =>
    refine .of_same (fun c => rfl) (fun c => rfl) fun c => watching_of_slot (i := i) (setSlot_other s i x) ?_
    rw [State.slot_setSlot, if_pos rfl, Slot.watchedBy_of (Slot.isWatching_of_live hx),
      Slot.watchedBy_of (Slot.isWatching_of_live hlive), hc]
  | qualify i x hlive hx hc =>
    refine .of_same (fun c => rfl) (fun c => rfl) fun c => watching_of_slot (i := i) (setSlot_other s i x) ?_
    show ((s.setSlot i x).slot i).watchedBy c = _
    rw [State.slot_setSlot, if_pos rfl, Slot.watchedBy_of (by simp [Slot.isWatching, hx]),
      Slot.watchedBy_of (Slot.isWatching_of_live hlive), hc]
  | filter i hlive =>
    refine balanced_of_leave (Slot.isWatching_of_live hlive) (fun j => State.slot_setSlot s i j _)
      (fun d => State.chan_modStats (s.setSlot i Slot.cleared) _ d _) rfl ?_
    exact Channel.selection_filtered _
  | deliver i rest hq =>
    have hw : (s.slot i).isWatching = true := by
      have hclosing := (hpool.2.1 i).mp (by simp [hq])
      simp [Slot.isWatching, hclosing]
    refine balanced_of_leave hw (fun j => State.slot_setSlot s i j _)
      (fun d => State.chan_modStats ((s.setCloseQueue rest).setSlot i Slot.cleared) _ d _) rfl ?_
    exact Channel.selection_delivered _
  | hold c hn hr => exact balanced_of_run (c := c) rfl (fun d => State.chan_setChan s c d _) rfl (by simp [hr]) nofun
  | holdArmed c hn =>
    exact (cancelIfArmed_ends .held s c (hpool.armingOk c)).balanced (Channel.cancelled_firing nofun)
      (Channel.cancelled_selection _)
  | zero c h => exact h.elim

theorem Moves.balanced {s t : State} (h : Moves False s t) (hpool : s.poolOk) : Balanced s t :=
  (h.keeps (P := fun t => t.poolOk ∧ Balanced s t)
    (fun _ _ hmove hp => ⟨hmove.poolOk hp.1, hp.2.trans (hmove.balanced hp.1)⟩) ⟨hpool, fun _ => ⟨rfl, rfl⟩⟩).2

/-! ### The visits -/

theorem countRequest_shifts (c : ChanId) (s : State) :
    Shifts c (if firesNow s c then 1 else 0) s (countRequest c s) := by
  have hw (d : ChanId) : (countRequest c s).watching d = s.watching d := watching_congr fun i => by simp [State.slot]
  refine .of_chan (fun d => countRequest_chan c d s) ?_ ?_ fun d _ => hw d
  · simp only [firesNow, decide_eq_true_eq]
    split_ifs
    · simp only [Channel.firing, Channel.armedTerm]
      ring
    · exact (add_zero _).symm
  · rw [hw c]
    split_ifs <;> rfl

/-- A slot that c did not watch takes the request (R57). -/
theorem takeInto_shifts {c : ChanId} {i : SlotId} {r : Request} {s : State} (hi : (s.slot i).isWatching = false) :
    Shifts c (if (s.chan c).run = .armed then 0 else -1) s (takeInto c i r s) := by
  have hat (d : ChanId) := watching_at (i := i) (s := s) (t := takeInto c i r s) d fun j hj => by
    rw [takeInto_slot, if_neg hj]
  have hopen : (openedSlot c r s.tb.time).isWatching = true := rfl
  have hc : (openedSlot c r s.tb.time).channel = c := rfl
  simp only [takeInto_slot, if_pos, Slot.watchedBy_of_not hi, Slot.watchedBy_of hopen, hc] at hat
  refine .of_chan (fun d => takeInto_chan c d i r s) ?_ ?_ fun d hd => ?_
  · by_cases ha : (s.chan c).run = .armed
    · simp only [Channel.firing, Channel.armedTerm, ha]
      simp only [if_true, reduceCtorEq, if_false]
      ring
    · simp only [Channel.firing, Channel.armedTerm, ha, if_false]
      ring
  · have hone : (takeInto c i r s).watching c = s.watching c + 1 := by simpa using hat c
    rw [hone, BitVec.ofNat_add]
    show _ + 1 - _ - (_ + 1) = _ - _ - (_ : Word)
    ring
  · simpa [Ne.symm hd] using hat d

theorem useReservation_shifts (c : ChanId) (r : Request) (s : State) (k : Option SlotId) :
    Shifts c 0 s (useReservation c r (s, k)).1 := by
  obtain ⟨i, ha, hi, rfl, h⟩ | ⟨-, h⟩ := useReservation_cases c r s k
  · rw [h]
    have hres := ((s.reservedSlot_eq_some c i).mp hi).1.1
    have hshift := takeInto_shifts (c := c) (r := r) (s := s) (i := i) (by simp [Slot.isWatching, Slot.isLive, hres])
    rwa [if_pos ha] at hshift
  · rw [h]
    exact fun d => ⟨by simp, rfl⟩

theorem reserve_shifts {c : ChanId} {i : SlotId} {s : State} (hi : (s.slot i).isWatching = false)
    (hr : (s.chan c).run ≠ .armed) : Shifts c (-1) s (reserve c i s) := by
  have hw (d : ChanId) : (reserve c i s).watching d = s.watching d := by
    refine watching_of_slot (i := i) (fun j hj => by rw [reserve_slot, if_neg hj]) ?_
    rw [reserve_slot, if_pos rfl, Slot.watchedBy_of_not rfl, Slot.watchedBy_of_not hi]
  refine .of_chan (fun d => reserve_chan c d i s) ?_ ?_ fun d _ => hw d
  · simp only [Channel.firing, Channel.armedTerm, if_neg hr, if_true]
    ring
  · rw [hw c]
    rfl

/-- A firing is taken, reserved for, held over or a collision: one of the four (R59, R69). -/
theorem handleFiring_shifts (c : ChanId) (r : Request) (s : State) (k : Option SlotId) :
    Shifts c (-1) s (handleFiring c r (s, k)).1 := by
  have hfree (i : SlotId) (hi : s.freeSlot = some i) : (s.slot i).isWatching = false := by
    simp [Slot.isWatching, Slot.isLive, ((s.freeSlot_eq_some i).mp hi).1]
  obtain ⟨-, h⟩ | ⟨-, -, h⟩ | ⟨-, ha, -, i, hi, ⟨rfl, h⟩ | ⟨j, rfl, h⟩⟩ := handleFiring_cases c r s k
  · rw [h]
    refine .of_chan (fun d => holdover_chan c d s) ?_ rfl fun d _ => rfl
    simp only [Channel.firing, Channel.armedTerm]
    ring
  · rw [h]
    refine .of_chan (fun d => collide_chan c d s) ?_ rfl fun d _ => rfl
    simp only [Channel.firing, Channel.armedTerm]
    ring
  · rw [h]
    have hshift := takeInto_shifts (c := c) (r := r) (hfree i hi)
    rwa [if_neg ha] at hshift
  · rw [h]
    exact reserve_shifts (hfree i hi) ha

theorem visitChannel_balanced (r : Request) (c : ChanId) (s : State) (k : Option SlotId) :
    Balanced s (visitChannel r (s, k) c).1 := by
  by_cases hcounts : s.counts c r
  · have hvisit : visitChannel r (s, k) c =
        if firesNow s c then handleFiring c r (useReservation c r (countRequest c s, k))
        else useReservation c r (countRequest c s, k) := if_pos ((qualifies_iff s c r).mpr hcounts)
    have hshift := (countRequest_shifts c s).trans (useReservation_shifts c r (countRequest c s) k)
    rw [hvisit]
    generalize useReservation c r (countRequest c s, k) = p at *
    by_cases hf : firesNow s c = true
    · rw [if_pos hf] at hshift ⊢
      exact (hshift.trans (handleFiring_shifts c r p.1 p.2)).balanced
    · rw [if_neg hf] at hshift ⊢
      exact hshift.balanced
  · rw [visitChannel_of_not_counts r s k c hcounts]
    exact fun _ => ⟨rfl, rfl⟩

theorem visitChannels_balanced (r : Request) (s : State) : Balanced s (visitChannels r s).1 := by
  have hfold (l : List ChanId) (p : State × Option SlotId) : Balanced p.1 (l.foldl (visitChannel r) p).1 := by
    induction l generalizing p with
    | nil => exact fun _ => ⟨rfl, rfl⟩
    | cons c l ih => exact (visitChannel_balanced r c p.1 p.2).trans (ih _)
  exact hfold chanIds (s, none)

theorem Trace.balanced {s t : State} (h : Trace False s t) (hpool : s.poolOk) : Balanced s t := by
  have hother {u v : State} (h : Unsampled u v) (hp : u.poolOk) : v.poolOk ∧ Balanced u v :=
    ⟨(h.moves (z := False)).pool hp |>.1, (h.moves (z := False)).balanced hp⟩
  cases h with
  | moves h => exact h.balanced hpool
  | request r u _ hsu hut =>
    obtain ⟨hupool, hubal⟩ := hother hsu hpool
    have hmatch := watchMatch_moves (z := False) r u
    have hmpool := (hmatch.pool hupool).1
    have hvpool : (visitChannels r (watchMatch r u)).1.poolOk :=
      visitChannels_keeps (P := fun p => p.1.poolOk) (fun _ _ _ hmove hp => hmove.poolOk hp) hmpool
    have hclose := closeUnreplied_moves (z := False) r (watchMatch r u)
    have hbal := ((hmatch.balanced hupool).trans (visitChannels_balanced r _)).trans (hclose.balanced hvpool)
    exact (hubal.trans hbal).trans (hother hut (hclose.pool hvpool).1).2
  | alerts x u hsu _ hut =>
    obtain ⟨hupool, hubal⟩ := hother hsu hpool
    exact hubal.trans (Balanced.trans (t := u.setInts x) (fun _ => ⟨rfl, rfl⟩) (hother hut hupool).2)
  | bank g v u hsu _ _ _ hr _ hut =>
    obtain ⟨hupool, hubal⟩ := hother hsu hpool
    have hwpool : (writeBank g v u).poolOk :=
      poolOk_setChan (s := u) (c := u.bank) rfl rfl rfl (fun d => State.chan_setChan u u.bank d _) Iff.rfl hupool
    have hwrite : Balanced u (writeBank g v u) :=
      balanced_of_run (c := u.bank) rfl (fun d => State.chan_setChan u u.bank d _) rfl (by simp [hr])
        (by show (u.chan u.bank).run ≠ .armed; simp [hr])
    exact (hubal.trans hwrite).trans (hother hut hwpool).2

/-- Settles O6: every part of a trace keeps the two balances, since without a RESET command nothing zeroes the statistics. -/
theorem statisticsBalance : Obligations.StatisticsBalance := by
  unfold Obligations.StatisticsBalance
  intro i s t c hpool h hi hreset
  have htrace := exec_trace h hi
  rw [show s.awaitsReset = False from eq_false hreset] at htrace
  exact htrace.balanced hpool c

end Sys2Proof.Machine
end

