-- ==== Sys2Proof/Proofs/Timing.lean ====
section
/-! PROOF. The time base: what moves TIME, the observation state and LFSR (R37, R42, R44). -/

namespace Sys2Proof.Machine

/-! ### LFSR -/

theorem lfsrStep_ne_zero {v : BitVec 16} (h : v ≠ 0) : lfsrStep v ≠ 0 := by
  intro h0
  obtain ⟨hshift, hbit⟩ := BitVec.or_eq_zero_iff.mp h0
  have hnat : v.toNat / 2 = 0 := by
    have := congrArg BitVec.toNat hshift
    rwa [BitVec.toNat_ushiftRight, Nat.shiftRight_eq_div_pow] at this
  have hv : v.toNat ≠ 0 := fun e => h (BitVec.eq_of_toNat_eq e)
  have hone : v = 1 := BitVec.eq_of_toNat_eq (show v.toNat = 1 by omega)
  rw [hone] at h0
  exact absurd h0 (by decide)

/-- t has the TIME and the observation state of s, and a nonzero LFSR if s has one. -/
structure KeepsTime (s t : State) : Prop where
  time : t.tb.time = s.tb.time
  obs : t.tb.obs = s.tb.obs
  lfsr : s.lfsrOk → t.lfsrOk

namespace KeepsTime

variable {s t u : State}

theorem of_tb (h : t.tb = s.tb) : KeepsTime s t := ⟨by rw [h], by rw [h], by rw [State.lfsrOk, State.lfsrOk, h]; exact id⟩

theorem trans (h1 : KeepsTime s t) (h2 : KeepsTime t u) : KeepsTime s u :=
  ⟨h2.time.trans h1.time, h2.obs.trans h1.obs, fun h => h2.lfsr (h1.lfsr h)⟩

/-- LFSR may step. -/
theorem of_step {p : Prop} [Decidable p] (h : t.tb = if p then { s.tb with lfsr := lfsrStep s.tb.lfsr } else s.tb) :
    KeepsTime s t := by
  split_ifs at h with hp
  · exact ⟨by rw [h], by rw [h], fun hs => by rw [State.lfsrOk, h]; exact lfsrStep_ne_zero hs⟩
  · exact of_tb h

end KeepsTime

theorem armChannel_keepsTime (c : ChanId) (s : State) : KeepsTime s (armChannel c s) := by
  rw [armChannel_eq]
  by_cases hj : (s.chan c).bank.jitter = 0
  · rw [if_pos hj]
    exact .of_tb rfl
  · rw [if_neg hj]
    exact ⟨rfl, rfl, fun hs => lfsrStep_ne_zero hs⟩

theorem visitChannels_keepsTime (r : Request) (s : State) : KeepsTime s (visitChannels r s).1 := by
  refine visitChannels_keeps (P := fun p => KeepsTime s p.1) (fun c p q hmove hp => ?_) (.of_tb rfl)
  cases hmove with
  | count u k => exact hp.trans (.of_step (countRequest_tb c u))
  | takeReserved u i => exact hp.trans (.of_tb (by simp))
  | takeFree u i => exact hp.trans (.of_tb (by simp))
  | reserve u i j => exact hp.trans (.of_tb (by simp))
  | collide u k => exact hp.trans (.of_tb (by simp))
  | holdover u k => exact hp.trans (.of_tb rfl)

theorem snoopRequest_keepsTime (r : Request) (s : State) : KeepsTime s (snoopRequest r s) := by
  unfold snoopRequest closeUnreplied
  have hvisit : KeepsTime s (visitChannels r (watchMatch r s)).1 :=
    KeepsTime.trans (.of_tb (by simp)) (visitChannels_keepsTime r _)
  split
  · exact hvisit
  · split_ifs
    · exact hvisit.trans (.of_tb (by simp))
    · exact hvisit

/-! ### The commands -/

/-- SET_TIME awaits its parameter word. -/
abbrev State.awaitsTime (s : State) : Prop := s.cmd.phase = .params ∧ s.cmd.code = Command.setTime.code

/-- The processor has ended a START or PAUSE with OK, and the observation state is the one it asked for (R44). -/
def State.observes (t : State) : Prop :=
  t.cmd.phase = .result ∧ t.cmd.lastStatus = 0 ∧
    t.cmd.lastCode = if t.tb.obs = .observing then Command.start.code else Command.pause.code

/-- TIME moves only with SET_TIME, the observation state only with a START or PAUSE that ends with OK. -/
structure Timing (z : Prop) (s t : State) : Prop where
  time : ¬z → t.tb.time = s.tb.time
  obs : t.tb.obs ≠ s.tb.obs → t.observes
  lfsr : s.lfsrOk → t.lfsrOk

section Commands

variable {z : Prop} {s t u : State}

theorem KeepsTime.timing (h : KeepsTime s t) : Timing z s t := ⟨fun _ => h.time, fun hne => absurd h.obs hne, h.lfsr⟩

theorem Timing.of_tb (h : t.tb = s.tb) : Timing z s t := (KeepsTime.of_tb h).timing

theorem Timing.after (h2 : Timing z u t) (h1 : u.tb = s.tb) : Timing z s t := by
  obtain ⟨htime, hobs, hlfsr⟩ := h2
  rw [h1] at htime hobs
  rw [State.lfsrOk, h1] at hlfsr
  exact ⟨htime, hobs, hlfsr⟩

theorem Timing.alertCheck (h : Timing z s t) : Timing z s (alertCheck t) := by
  obtain ⟨htime, hobs, hlfsr⟩ := h
  refine ⟨?_, ?_, ?_⟩
  · simpa using htime
  · simpa [State.observes] using hobs
  · simpa using hlfsr

theorem endCommand_observes
    (h : s.cmd.code = if s.tb.obs = .observing then Command.start.code else Command.pause.code) :
    (endCommand .ok s).observes :=
  ⟨rfl, rfl, h⟩

theorem pauseObserving_tb (s : State) : (pauseObserving s).tb = { s.tb with obs := .paused } := by
  simp [pauseObserving]

/-- The two commands that change the observation state run on a processor that holds their code. -/
theorem runCommand_timing {c : Command} (hz : c = .setTime → z) (hcode : s.cmd.code = c.code) (p : Word) :
    Timing z s (runCommand c p s) := by
  cases c with
  | start =>
    show Timing z s (cmdStart s)
    unfold cmdStart
    split_ifs
    · exact ⟨fun _ => by simp, fun _ => endCommand_observes hcode, fun h => by simpa using h⟩
    · exact .of_tb (by simp)
  | pause =>
    show Timing z s (cmdPause s)
    unfold cmdPause
    split_ifs
    · have htb := pauseObserving_tb s
      refine ⟨fun _ => by simp [htb], fun _ => endCommand_observes ?_, fun h => by simpa [htb] using h⟩
      simp [htb, hcode]
    · exact .of_tb (by simp)
  | arm =>
    show Timing z s (cmdArm p s)
    unfold cmdArm
    cases chanParam p with
    | none => exact .of_tb (by simp)
    | some d =>
      dsimp only
      split_ifs
      · exact .of_tb (by simp)
      · exact .of_tb (by simp)
      · exact ((armChannel_keepsTime d s).trans (.of_tb (by simp))).timing
  | setTime => exact ⟨fun hne => absurd (hz rfl) hne, fun h => absurd (by simp [runCommand, cmdSetTime]) h, fun h => by simpa [runCommand, cmdSetTime] using h⟩
  | disarm =>
    show Timing z s (cmdDisarm p s)
    unfold cmdDisarm
    split <;> exact .of_tb (by simp)
  | release =>
    show Timing z s (cmdRelease p s)
    unfold cmdRelease
    repeat' split
    all_goals exact .of_tb (by simp)
  | purge =>
    show Timing z s (cmdPurge p s)
    unfold cmdPurge
    split <;> exact .of_tb (by simp)
  | snapshot =>
    show Timing z s (cmdSnapshot p s)
    unfold cmdSnapshot
    split <;> exact .of_tb (by simp)
  | readWatch =>
    show Timing z s (cmdReadWatch p s)
    unfold cmdReadWatch
    split <;> exact .of_tb (by simp)
  | ringStart =>
    show Timing z s (cmdRingStart p s)
    unfold cmdRingStart
    repeat' split
    all_goals exact .of_tb (by simp)
  | ringStop =>
    show Timing z s (cmdRingStop s)
    unfold cmdRingStop
    split <;> exact .of_tb (by simp)
  | drain =>
    show Timing z s (cmdDrain p s)
    unfold cmdDrain
    repeat' split
    all_goals exact .of_tb (by simp)
  | selectOutput =>
    show Timing z s (cmdSelectOutput p s)
    unfold cmdSelectOutput
    repeat' split
    all_goals exact .of_tb (by simp)
  | reset =>
    show Timing z s (cmdReset p s)
    unfold cmdReset
    repeat' split
    all_goals exact .of_tb (by simp)

theorem writeCmdPort_timing (v : Word) (s : State) : Timing s.awaitsTime s (writeCmdPort v s) := by
  unfold writeCmdPort
  cases hp : s.cmd.phase with
  | idle =>
    show Timing _ s (openCommand v s)
    unfold openCommand
    cases hc : Command.ofCode (v.extractLsb' 0 8) with
    | none => exact .of_tb (by simp [openInvalid])
    | some c =>
      dsimp only
      split_ifs with hparam
      · exact .of_tb rfl
      · have hz : c = .setTime → s.awaitsTime := fun htime => absurd rfl (htime ▸ hparam)
        have hrun := runCommand_timing (s := s.setCmd (s.cmd.opened c)) hz rfl 0
        exact hrun.after rfl
  | params =>
    show Timing _ s (paramWord v s)
    unfold paramWord
    cases hc : Command.ofCode s.cmd.code with
    | none => exact .of_tb rfl
    | some c =>
      have hcode := Command.eq_of_ofCode hc
      have hz : c = .setTime → s.awaitsTime := fun htime => ⟨hp, htime ▸ hcode⟩
      have hrun := runCommand_timing (s := s.setCmd { s.cmd with phase := .executing }) hz hcode v
      exact hrun.after rfl
  | executing => exact .of_tb rfl
  | result => exact .of_tb rfl

theorem Performs.timing {n : Node} (h : Performs s n t) : Timing s.awaitsTime s t := by
  cases h with
  | prescale => exact ⟨fun _ => rfl, fun h => absurd rfl h, id⟩
  | lfsr v hv => exact ⟨fun _ => rfl, fun h => absurd rfl h, fun _ => hv⟩
  | cmdPort v => exact writeCmdPort_timing v s
  | queueData => exact .of_tb (by simp)
  | marker v => exact .of_tb (by simp)
  | markerRefused => exact .of_tb (by simp [refuseMarker])
  | cmdCancel => exact .of_tb (by simp)
  | consumer v => exact .of_tb (by simp)
  | relinquish => exact .of_tb rfl
  | bankReg g v => exact .of_tb rfl
  | _ => exact .of_tb rfl

theorem requestBeat_timing (r : Request) (s : State) : Timing s.awaitsTime s (requestBeat r s) := by
  unfold requestBeat
  dsimp only
  split_ifs
  · have hsv : (implicitArrival r.initiator s).tb = s.tb ∧ (implicitArrival r.initiator s).cmd = s.cmd := ⟨rfl, rfl⟩
    generalize implicitArrival r.initiator s = v at hsv ⊢
    obtain ⟨u, hu, hperforms⟩ := targetAccess_performs r v
    have hsu : u.tb = s.tb ∧ u.cmd = s.cmd := by
      obtain rfl | ⟨b, rfl⟩ := hu
      · exact hsv
      · exact hsv
    have htiming := hperforms.timing
    rw [State.awaitsTime, hsu.2] at htiming
    exact htiming.after hsu.1
  · have hsnoop := (snoopRequest_keepsTime r (implicitArrival r.initiator s)).timing (z := s.awaitsTime)
    exact hsnoop.after rfl

end Commands

/-! ### Every command -/

theorem backplaneResetBeat_tb (s : State) :
    (backplaneResetBeat s).tb.time = s.tb.time ∧ (backplaneResetBeat s).tb.lfsr = s.tb.lfsr := by
  unfold backplaneResetBeat resetObserving
  dsimp only
  split <;> simp [loseOwner, Timebase.restart, pauseObserving_tb]

/-- A tick moves TIME alone, a backplane reset the observation state (R182), power-on reset everything. -/
theorem Effect.timing {s t : State} {i : Instr} (h : Effect s i t) :
    (∃ straps lines, i = .powerOnReset straps lines ∧ t = releaseDeviceReset straps lines s) ∨
      ((s.lfsrOk → t.lfsrOk) ∧ (i ≠ .tick → ¬s.awaitsTime → t.tb.time = s.tb.time) ∧
        (i ≠ .backplaneReset → t.tb.obs ≠ s.tb.obs → t.observes)) := by
  have hof (ht : Timing s.awaitsTime s t) : (s.lfsrOk → t.lfsrOk) ∧ (i ≠ .tick → ¬s.awaitsTime → t.tb.time = s.tb.time) ∧
      (i ≠ .backplaneReset → t.tb.obs ≠ s.tb.obs → t.observes) := ⟨ht.lfsr, fun _ => ht.time, fun _ => ht.obs⟩
  cases h with
  | powerOn straps lines => exact .inl ⟨straps, lines, rfl, rfl⟩
  | backplaneReset p =>
    obtain ⟨htime, hlfsr⟩ := backplaneResetBeat_tb ((s.setPins p).setOutbox [])
    refine .inr ⟨fun hs => ?_, fun _ _ => ?_, fun hne => absurd rfl hne⟩
    · simpa [State.lfsrOk, hlfsr] using hs
    · simpa using htime
  | tick =>
    exact .inr ⟨fun hs => by simpa using hs, fun hne => absurd rfl hne, fun _ hobs => absurd (by simp) hobs⟩
  | request _ r => exact .inr (hof (requestBeat_timing r s).alertCheck)
  | entry t he =>
    obtain ⟨j, rest, -, -, rfl⟩ := (entryOnce_eq_some s t).mp he
    exact .inr (hof (.of_tb (by simp)))
  | move t hm =>
    obtain ⟨x, rest, -, -, -, rfl⟩ := (queueOnce_eq_some s t).mp hm
    exact .inr (hof (.of_tb (by simp)))
  | issue _ t _ hissue =>
    obtain ⟨-, -, -, -, -, htb, -⟩ := issueOnce_frame t s hissue
    exact .inr (hof (.of_tb htb))
  | arrival n => exact .inr (hof (.of_tb (by simp [implicitArrival])))
  | _ => exact .inr (hof (.of_tb (by simp)))

/-- Settles O4. -/
theorem timeAndObservationChangeOnlyByTheirCommands : Obligations.TimeAndObservationChangeOnlyByTheirCommands := by
  unfold Obligations.TimeAndObservationChangeOnlyByTheirCommands
  constructor
  · intro i s t h htick hpower hset
    obtain ⟨straps, lines, hi, -⟩ | ⟨-, htime, -⟩ := (effect_of_exec h).timing
    · exact absurd hi (hpower straps lines)
    · exact htime htick hset
  · intro i s t h hreset hpower hobs
    obtain ⟨straps, lines, hi, -⟩ | ⟨-, -, hobserves⟩ := (effect_of_exec h).timing
    · exact absurd hi (hpower straps lines)
    · exact hobserves hreset hobs

/-- Settles O8: no command loads 0 into LFSR, and its step from a nonzero value is nonzero. -/
theorem lfsrStaysNonzero : Obligations.LfsrStaysNonzero := by
  unfold Obligations.LfsrStaysNonzero
  intro s t hs h
  obtain rfl | ⟨i, rest, heffect⟩ := step_cases h
  · obtain hc | ⟨d, hc | hc⟩ := clock_cases s <;> rw [hc]
    · exact hs
    · exact hs
    · simpa using hs
  · obtain ⟨straps, lines, -, rfl⟩ | ⟨hlfsr, -⟩ := heffect.timing
    · exact (State.powerOn_good _ _ _ _).1
    · exact hlfsr hs

end Sys2Proof.Machine
end

