-- ==== Sys2Proof/Proofs/Counts.lean ====
section
/-! PROOF. What a snooped request does to COUNT, COUNTED, FIRES and LFSR, over all channels (R43, R54–R56). -/

namespace Sys2Proof.Machine

/-! ### What of a visit counts -/

theorem takeInto_sameCounting (c : ChanId) (i : SlotId) (r : Request) (s : State) :
    SameCounting s (takeInto c i r s) := by
  refine ⟨by simp, by simp, fun d => ?_, fun d => ?_, fun d => ?_, fun d => ?_, fun d => ?_⟩ <;>
    rw [takeInto_chan] <;> by_cases hd : d = c
  all_goals simp only [hd, if_true, if_false]
  split_ifs with ha
  · simp [ha]
  · rfl

theorem reserve_sameCounting {c : ChanId} (i : SlotId) {s : State} (h : (s.chan c).run ≠ .disarmed) :
    SameCounting s (reserve c i s) := by
  refine ⟨by simp, by simp, fun d => ?_, fun d => ?_, fun d => ?_, fun d => ?_, fun d => ?_⟩ <;>
    rw [reserve_chan] <;> by_cases hd : d = c
  all_goals simp [hd, h]

theorem collide_sameCounting (c : ChanId) (s : State) : SameCounting s (collide c s) :=
  .setChan s c _ rfl rfl rfl rfl Iff.rfl

theorem holdover_sameCounting (c : ChanId) (s : State) : SameCounting s (holdover c s) :=
  .setChan s c _ rfl rfl rfl rfl Iff.rfl

theorem useReservation_sameCounting (c : ChanId) (r : Request) (s : State) (k : Option SlotId) :
    SameCounting s (useReservation c r (s, k)).1 := by
  obtain ⟨i, -, -, -, h⟩ | ⟨-, h⟩ := useReservation_cases c r s k
  · rw [h]
    exact takeInto_sameCounting c i r s
  · rw [h]
    exact .refl s

theorem handleFiring_sameCounting (c : ChanId) (r : Request) {s : State} (k : Option SlotId)
    (hr : (s.chan c).run ≠ .disarmed) : SameCounting s (handleFiring c r (s, k)).1 := by
  obtain ⟨-, h⟩ | ⟨-, -, h⟩ | ⟨-, -, -, i, -, ⟨rfl, h⟩ | ⟨j, rfl, h⟩⟩ := handleFiring_cases c r s k
  · rw [h]
    exact holdover_sameCounting c s
  · rw [h]
    exact collide_sameCounting c s
  · rw [h]
    exact takeInto_sameCounting c i r s
  · rw [h]
    exact reserve_sameCounting i hr

theorem visitChannel_of_counts {r : Request} {s : State} {c : ChanId} (h : s.counts c r) (k : Option SlotId) :
    visitChannel r (s, k) c =
      if (s.chan c).count = 1 then handleFiring c r (useReservation c r (countRequest c s, k))
      else useReservation c r (countRequest c s, k) := by
  have hvisit : visitChannel r (s, k) c =
      if firesNow s c then handleFiring c r (useReservation c r (countRequest c s, k))
      else useReservation c r (countRequest c s, k) := if_pos ((qualifies_iff s c r).mpr h)
  simpa [firesNow] using hvisit

/-- Of the visit of a channel that counts the request, only the counting touches the counts. -/
theorem visitChannel_sameCounting {r : Request} {s : State} {c : ChanId} (h : s.counts c r) (k : Option SlotId) :
    SameCounting (countRequest c s) (visitChannel r (s, k) c).1 := by
  have huse := useReservation_sameCounting c r (countRequest c s) k
  have hrun : (((useReservation c r (countRequest c s, k)).1).chan c).run ≠ .disarmed := by
    rw [ne_eq, huse.disarmed c, countRequest_run]
    exact h.2.1
  rw [visitChannel_of_counts h]
  split_ifs
  · exact huse.trans (handleFiring_sameCounting c r _ hrun)
  · exact huse

/-! ### The counts of one channel -/

/-- COUNTED, FIRES and COUNT. -/
def Channel.tally (x : Channel) : Word × Word × BitVec 24 := (x.stats.counted, x.stats.fires, x.count)

/-- The same after one qualifying request, with LFSR as its reload finds it (R55, R56). -/
def Channel.tallied (x : Channel) (l : BitVec 16) : Word × Word × BitVec 24 :=
  if x.count = 1 then (x.stats.counted + 1, x.stats.fires + 1, reloadValue x.bank l)
  else (x.stats.counted + 1, x.stats.fires, x.count - 1)

theorem countRequest_tally (c d : ChanId) (s : State) :
    ((countRequest c s).chan d).tally = if d = c then (s.chan c).tallied s.tb.lfsr else (s.chan d).tally := by
  rw [countRequest_chan]
  split_ifs with hd h1
  · exact (if_pos h1).symm
  · exact (if_neg h1).symm
  · rfl

theorem SameCounting.tally {s t : State} (h : SameCounting s t) (c : ChanId) : (t.chan c).tally = (s.chan c).tally := by
  simp only [Channel.tally, h.counted c, h.fires c, h.count c]

theorem tallied_congr {x y : Channel} (ht : y.tally = x.tally) (hb : y.bank = x.bank) (l : BitVec 16) :
    y.tallied l = x.tallied l := by
  simp only [Channel.tally, Prod.mk.injEq] at ht
  obtain ⟨hcounted, hfires, hcount⟩ := ht
  simp only [Channel.tallied, hcounted, hfires, hcount, hb]

/-! ### All channels -/

/-- Channel c fires on r and reloads with jitter (R43). -/
abbrev State.draws (s : State) (r : Request) (c : ChanId) : Prop :=
  s.counts c r ∧ (s.chan c).count = 1 ∧ (s.chan c).bank.jitter ≠ 0

/-- LFSR as the channels of l below c have left it. -/
def State.lfsrAt (s : State) (r : Request) (l : List ChanId) (c : ChanId) : BitVec 16 :=
  lfsrStep^[l.countP fun d => decide (d < c ∧ s.draws r d)] s.tb.lfsr

/-- t is s after the visits of the channels of l. -/
structure Visited (r : Request) (l : List ChanId) (s t : State) : Prop where
  tb : t.tb = { s.tb with lfsr := lfsrStep^[l.countP fun d => decide (s.draws r d)] s.tb.lfsr }
  ownId : t.ownId = s.ownId
  bank : ∀ c, (t.chan c).bank = (s.chan c).bank
  disarmed : ∀ c, (t.chan c).run = .disarmed ↔ (s.chan c).run = .disarmed
  tally : ∀ c, (t.chan c).tally =
    if c ∈ l ∧ s.counts c r then (s.chan c).tallied (s.lfsrAt r l c) else (s.chan c).tally

theorem Visited.counts_iff {r : Request} {l : List ChanId} {s t : State} (h : Visited r l s t) (c : ChanId) :
    t.counts c r ↔ s.counts c r := by
  simp only [State.counts, h.tb, h.ownId, h.bank, ne_eq, h.disarmed]

theorem Visited.of_same {r : Request} {l : List ChanId} {s t u : State} (h : Visited r l s t) (hu : SameCounting t u) :
    Visited r l s u :=
  ⟨hu.tb.trans h.tb, hu.ownId.trans h.ownId, fun c => (hu.bank c).trans (h.bank c),
    fun c => (hu.disarmed c).trans (h.disarmed c), fun c => (hu.tally c).trans (h.tally c)⟩

theorem countP_snoc (P : ChanId → Prop) [DecidablePred P] (l : List ChanId) (c : ChanId) :
    (l ++ [c]).countP (fun d => decide (P d)) = l.countP (fun d => decide (P d)) + if P c then 1 else 0 := by
  simp [List.countP_append, List.countP_singleton]

/-- The draws of the channels below the next one. -/
theorem lfsrAt_of_above {s : State} {r : Request} {l : List ChanId} {c : ChanId} (h : ∀ d ∈ l, d < c) :
    s.lfsrAt r (l ++ [c]) c = lfsrStep^[l.countP fun d => decide (s.draws r d)] s.tb.lfsr := by
  have hcount : (l.countP fun d => decide (d < c ∧ s.draws r d)) = l.countP fun d => decide (s.draws r d) :=
    List.countP_congr fun d hd => by simp [h d hd]
  rw [State.lfsrAt, List.countP_append, hcount]
  simp

theorem lfsrAt_of_below {s : State} {r : Request} {l : List ChanId} {c d : ChanId} (h : d < c) :
    s.lfsrAt r (l ++ [c]) d = s.lfsrAt r l d := by
  simp [State.lfsrAt, List.countP_append, not_lt_of_gt h]

/-- One more channel visits. -/
theorem Visited.visit {r : Request} {l : List ChanId} {c : ChanId} {s t : State} (h : Visited r l s t)
    (hl : ∀ d ∈ l, d < c) (k : Option SlotId) : Visited r (l ++ [c]) s (visitChannel r (t, k) c).1 := by
  have hc : c ∉ l := fun hmem => lt_irrefl c (hl c hmem)
  have htally : (t.chan c).tally = (s.chan c).tally := by rw [h.tally c, if_neg fun hx => hc hx.1]
  have hother (d : ChanId) (hd : d ≠ c) : (d ∈ l ++ [c] ∧ s.counts d r ↔ d ∈ l ∧ s.counts d r) ∧
      (d ∈ l → s.lfsrAt r (l ++ [c]) d = s.lfsrAt r l d) := by
    refine ⟨by simp [hd], fun hmem => lfsrAt_of_below (hl d hmem)⟩
  by_cases hcounts : s.counts c r
  · have hfires : (t.chan c).count = 1 ∧ (t.chan c).bank.jitter ≠ 0 ↔ s.draws r c := by
      simp only [Channel.tally, Prod.mk.injEq] at htally
      rw [htally.2.2, h.bank c]
      exact ⟨fun hx => ⟨hcounts, hx⟩, fun hx => hx.2⟩
    have htcounts := (h.counts_iff c).mpr hcounts
    refine Visited.of_same (t := countRequest c t) ⟨?_, ?_, fun d => ?_, fun d => ?_, fun d => ?_⟩
      (visitChannel_sameCounting htcounts k)
    · rw [countRequest_tb, h.tb, countP_snoc (s.draws r)]
      by_cases hdraw : s.draws r c
      · rw [if_pos (hfires.mpr hdraw), if_pos hdraw, Function.iterate_succ_apply']
      · rw [if_neg (mt hfires.mp hdraw), if_neg hdraw, Nat.add_zero]
    · simpa using h.ownId
    · rw [← h.bank d, countRequest_chan]
      split_ifs with hd <;> simp [hd]
    · rw [countRequest_run, h.disarmed d]
    · rw [countRequest_tally]
      by_cases hd : d = c
      · subst hd
        rw [if_pos rfl, if_pos ⟨by simp, hcounts⟩, tallied_congr htally (h.bank d), lfsrAt_of_above hl, h.tb]
      · obtain ⟨hiff, hat⟩ := hother d hd
        rw [if_neg hd, h.tally d]
        simp only [hiff]
        split_ifs with hx
        · rw [hat hx.1]
        · rfl
  · have hdraw : ¬s.draws r c := fun hx => hcounts hx.1
    rw [visitChannel_of_not_counts r t k c (mt (h.counts_iff c).mp hcounts)]
    refine ⟨?_, h.ownId, h.bank, h.disarmed, fun d => ?_⟩
    · rw [h.tb, countP_snoc (s.draws r), if_neg hdraw, Nat.add_zero]
    · by_cases hd : d = c
      · subst hd
        rw [htally, if_neg fun hx => hcounts hx.2]
      · obtain ⟨hiff, hat⟩ := hother d hd
        rw [h.tally d]
        simp only [hiff]
        split_ifs with hx
        · rw [hat hx.1]
        · rfl

theorem visits_visited (r : Request) (s : State) (l : List ChanId) (hl : l.Pairwise (· < ·)) :
    Visited r l s (l.foldl (visitChannel r) (s, none)).1 := by
  induction l using List.reverseRecOn with
  | nil => exact ⟨rfl, rfl, fun _ => rfl, fun _ => Iff.rfl, fun c => by simp⟩
  | append_singleton l c ih =>
    obtain ⟨hpl, -, hlt⟩ := List.pairwise_append.mp hl
    rw [List.foldl_append]
    exact (ih hpl).visit (fun d hd => hlt d hd c (by simp)) _

theorem closeUnreplied_sameCounting (r : Request) (p : State × Option SlotId) :
    SameCounting p.1 (closeUnreplied r p) := by
  unfold closeUnreplied
  split
  · exact .refl _
  · split_ifs
    · exact closeSlot_sameCounting _ _ _
    · exact .refl _

theorem snoopRequest_visited (r : Request) (s : State) : Visited r chanIds s (snoopRequest r s) := by
  have hmatch := watchMatch_sameCounting r s
  have hvisits : Visited r chanIds (watchMatch r s) (visitChannels r (watchMatch r s)).1 :=
    visits_visited r (watchMatch r s) chanIds (by decide)
  have hcounts := hmatch.counts_iff
  have hdraws (c : ChanId) : (watchMatch r s).draws r c ↔ s.draws r c := by
    rw [State.draws, hcounts c r, hmatch.count c, hmatch.bank c]
  have hlfsr (c : ChanId) : (watchMatch r s).lfsrAt r chanIds c = s.lfsrAt r chanIds c := by
    simp only [State.lfsrAt, hdraws, hmatch.tb]
  refine Visited.of_same (t := (visitChannels r (watchMatch r s)).1) ?_ (closeUnreplied_sameCounting r _)
  refine ⟨?_, hvisits.ownId.trans hmatch.ownId, fun c => (hvisits.bank c).trans (hmatch.bank c),
    fun c => (hvisits.disarmed c).trans (hmatch.disarmed c), fun c => ?_⟩
  · have htb := hvisits.tb
    simp only [hdraws, hmatch.tb] at htb
    exact htb
  · have htally := hvisits.tally c
    rw [hlfsr c, tallied_congr (hmatch.tally c) (hmatch.bank c), hmatch.tally c] at htally
    simpa only [hcounts c r] using htally

/-- Settles O47: the channels count in ascending number, each on LFSR as the lower ones have left it. -/
theorem requestsAreCountedPerChannel : Obligations.RequestsAreCountedPerChannel := by
  unfold Obligations.RequestsAreCountedPerChannel
  intro r s hl hw hs
  obtain ⟨htb, -, -, -, htally⟩ := snoopRequest_visited r (s.arrived r.initiator)
  refine ⟨_, requestEvent_snooped r s hl hw hs, fun c => ?_, by simp [State.arrived], ?_⟩
  · have hc : ((snoopRequest r (s.arrived r.initiator)).chan c).tally =
        if c ∈ chanIds ∧ s.counts c r then (s.chan c).tallied (lfsrStep^[s.drawsBefore c r] s.tb.lfsr)
        else (s.chan c).tally := htally c
    have hchan : (alertCheck (snoopRequest r (s.arrived r.initiator))).chan c =
        (snoopRequest r (s.arrived r.initiator)).chan c := by simp [State.chan]
    rw [hchan]
    by_cases hcounts : s.counts c r
    · rw [if_pos ⟨mem_chanIds c, hcounts⟩] at hc
      rw [if_pos hcounts]
      unfold Channel.tallied at hc
      split_ifs at hc ⊢ with h1
      all_goals simp only [Channel.tally, Prod.mk.injEq] at hc
      · rw [reloadValue_eq_reloadFrom] at hc
        exact hc
      · exact hc
    · rw [if_neg fun h => hcounts h.2] at hc
      rw [if_neg hcounts]
      simp only [Channel.tally, Prod.mk.injEq] at hc
      exact hc
  · have hcheck : (alertCheck (snoopRequest r (s.arrived r.initiator))).tb = (snoopRequest r (s.arrived r.initiator)).tb := by
      simp
    exact hcheck.trans htb

end Sys2Proof.Machine
end

