-- ==== Sys2Proof/Proofs/Takings.lean ====
section
/-! PROOF. What a channel that counts a request does with it: take it, reserve a slot, hold it over or collide (R57–R59, R84). -/

namespace Sys2Proof.Machine

/-! ### What counting leaves -/

@[simp] theorem countRequest_slot (c : ChanId) (i : SlotId) (s : State) : (countRequest c s).slot i = s.slot i := by
  simp [State.slot]

/-- Counting a request changes COUNT, COUNTED and FIRES only. -/
theorem countRequest_keeps (c d : ChanId) (s : State) :
    ((countRequest c s).chan d).bank = (s.chan d).bank ∧
      ((countRequest c s).chan d).stats.selected = (s.chan d).stats.selected ∧
      ((countRequest c s).chan d).stats.collisions = (s.chan d).stats.collisions ∧
      ((countRequest c s).chan d).stats.heldover = (s.chan d).stats.heldover := by
  rw [countRequest_chan]
  split_ifs with hd
  · simp [hd]
  · simp [hd]
  · simp

theorem countRequest_time (c : ChanId) (s : State) : (countRequest c s).tb.time = s.tb.time :=
  (KeepsTime.of_step (countRequest_tb c s)).time

theorem owned_of_slots {s t : State} (h : ∀ i, t.slot i = s.slot i) (c : ChanId) : t.owned c = s.owned c := by
  simp only [State.owned, h]

theorem freeSlot_of_slots {s t : State} (h : ∀ i, t.slot i = s.slot i) : t.freeSlot = s.freeSlot := by
  simp only [State.freeSlot, h]

theorem reservedSlot_of_slots {s t : State} (h : ∀ i, t.slot i = s.slot i) (c : ChanId) :
    t.reservedSlot c = s.reservedSlot c := by
  simp only [State.reservedSlot, h]

/-! ### The rows of R59 -/

/-- No reservation is used by a channel that is not ARMED, or once the request is taken. -/
theorem useReservation_of_not_armed {c : ChanId} {s : State} (h : (s.chan c).run ≠ .armed) (r : Request)
    (k : Option SlotId) : useReservation c r (s, k) = (s, k) := if_neg h

theorem useReservation_of_taken (c : ChanId) (r : Request) (s : State) (j : SlotId) :
    useReservation c r (s, some j) = (s, some j) := by
  obtain ⟨i, -, -, hk, -⟩ | ⟨-, h⟩ := useReservation_cases c r s (some j)
  · cases hk
  · exact h

theorem useReservation_of_armed {c : ChanId} {i : SlotId} {s : State} (h : (s.chan c).run = .armed)
    (hi : s.reservedSlot c = some i) (r : Request) : useReservation c r (s, none) = (takeInto c i r s, some i) := by
  unfold useReservation
  rw [if_pos h]
  dsimp only
  rw [hi]

/-- Channel c is at quota, or no slot is FREE. -/
def State.fullFor (s : State) (c : ChanId) : Prop := (s.chan c).bank.quota.toNat ≤ s.owned c ∨ s.freeSlot = none

theorem countRequest_fullFor {c : ChanId} {s : State} (hfull : s.fullFor c) : (countRequest c s).fullFor c := by
  obtain ⟨hbank, -⟩ := countRequest_keeps c c s
  have hslots (j : SlotId) := countRequest_slot c j s
  rw [State.fullFor, owned_of_slots hslots, freeSlot_of_slots hslots, hbank]
  exact hfull

section Firing

variable {c : ChanId} {i : SlotId} {s : State} (r : Request) (k : Option SlotId)

theorem handleFiring_held (h : (s.chan c).run = .held) : handleFiring c r (s, k) = (holdover c s, k) := if_pos h

theorem handleFiring_armed (h : (s.chan c).run = .armed) : handleFiring c r (s, k) = (collide c s, k) := by
  obtain ⟨hh, -⟩ | ⟨-, -, h'⟩ | ⟨-, ha, -⟩ := handleFiring_cases c r s k
  · rw [h] at hh
    cases hh
  · exact h'
  · exact absurd h ha

theorem handleFiring_full (h : (s.chan c).run = .counting) (hfull : s.fullFor c) :
    handleFiring c r (s, k) = (collide c s, k) := by
  obtain ⟨hh, -⟩ | ⟨-, -, h'⟩ | ⟨-, -, hq, j, hj, -⟩ := handleFiring_cases c r s k
  · rw [h] at hh
    cases hh
  · exact h'
  · obtain hfull | hfull := hfull
    · exact absurd hq (not_lt_of_ge hfull)
    · rw [hfull] at hj
      cases hj

theorem handleFiring_room (h : (s.chan c).run = .counting) (hq : s.owned c < (s.chan c).bank.quota.toNat)
    (hi : s.freeSlot = some i) :
    handleFiring c r (s, none) = (takeInto c i r s, some i) ∧
      ∀ j, handleFiring c r (s, some j) = (reserve c i s, some j) := by
  have htakes (k : Option SlotId) : (k = none ∧ handleFiring c r (s, k) = (takeInto c i r s, some i)) ∨
      ∃ j, k = some j ∧ handleFiring c r (s, k) = (reserve c i s, k) := by
    obtain ⟨hh, -⟩ | ⟨-, hx, -⟩ | ⟨-, -, -, m, hm, h'⟩ := handleFiring_cases c r s k
    · rw [h] at hh
      cases hh
    · obtain hx | hx | hx := hx
      · rw [h] at hx
        cases hx
      · exact absurd hq (not_lt_of_ge hx)
      · rw [hi] at hx
        cases hx
    · rw [hi, Option.some.injEq] at hm
      rwa [← hm] at h'
  refine ⟨?_, fun j => ?_⟩
  · obtain ⟨-, h'⟩ | ⟨j, hk, -⟩ := htakes none
    · exact h'
    · cases hk
  · obtain ⟨hk, -⟩ | ⟨m, -, h'⟩ := htakes (some j)
    · cases hk
    · exact h'

end Firing

/-! ### What the visits of other channels leave -/

/-- What the visits of the channels of l leave: the other channels, the slots that are neither FREE nor RESERVED for one of l,
and the slot that holds the request. -/
structure Leaves (l : List ChanId) (p q : State × Option SlotId) : Prop where
  chan : ∀ c, c ∉ l → q.1.chan c = p.1.chan c
  slot : ∀ j, (p.1.slot j).state ≠ .free → ¬((p.1.slot j).state = .reserved ∧ (p.1.slot j).channel ∈ l) →
    q.1.slot j = p.1.slot j
  taken : ∀ i, p.2 = some i → q.2 = some i
  obs : q.1.tb.obs = p.1.tb.obs
  time : q.1.tb.time = p.1.tb.time
  ownId : q.1.ownId = p.1.ownId

namespace Leaves

variable {l m : List ChanId} {p q u : State × Option SlotId}

theorem refl (l : List ChanId) (p : State × Option SlotId) : Leaves l p p :=
  ⟨fun _ _ => rfl, fun _ _ _ => rfl, fun _ => id, rfl, rfl, rfl⟩

theorem trans (h1 : Leaves l p q) (h2 : Leaves l q u) : Leaves l p u where
  chan c hc := (h2.chan c hc).trans (h1.chan c hc)
  slot j hf hr := by
    have h := h1.slot j hf hr
    rw [← h] at hf hr
    exact (h2.slot j hf hr).trans h
  taken i hi := h2.taken i (h1.taken i hi)
  obs := h2.obs.trans h1.obs
  time := h2.time.trans h1.time
  ownId := h2.ownId.trans h1.ownId

theorem mono (h : Leaves l p q) (hlm : l ⊆ m) : Leaves m p q :=
  ⟨fun c hc => h.chan c fun hcl => hc (hlm hcl), fun j hf hr => h.slot j hf fun ⟨hs, hcl⟩ => hr ⟨hs, hlm hcl⟩, h.taken,
    h.obs, h.time, h.ownId⟩

theorem counts_iff (h : Leaves l p q) {c : ChanId} (hc : c ∉ l) (r : Request) : q.1.counts c r ↔ p.1.counts c r := by
  simp only [State.counts, h.chan c hc, h.obs, h.ownId]

end Leaves

theorem VisitMove.leaves {r : Request} {c : ChanId} {p q : State × Option SlotId} (h : VisitMove r c p q) :
    Leaves [c] p q := by
  have hne {d : ChanId} (hd : d ∉ [c]) : d ≠ c := fun e => hd (by simp [e])
  cases h with
  | count s k =>
    refine ⟨fun d hd => ?_, fun j _ _ => countRequest_slot c j s, fun _ => id, (KeepsTime.of_step (countRequest_tb c s)).obs,
      countRequest_time c s, by simp⟩
    rw [countRequest_chan, if_neg (hne hd)]
  | takeReserved s i ha hi =>
    refine ⟨fun d hd => by rw [takeInto_chan, if_neg (hne hd)], fun j hf hr => ?_, nofun, by simp, by simp, by simp⟩
    rw [takeInto_slot, if_neg]
    rintro rfl
    obtain ⟨⟨hs, hc⟩, -⟩ := (s.reservedSlot_eq_some c j).mp hi
    exact hr ⟨hs, by simp [hc]⟩
  | takeFree s i _ _ hi =>
    refine ⟨fun d hd => by rw [takeInto_chan, if_neg (hne hd)], fun j hf hr => ?_, nofun, by simp, by simp, by simp⟩
    rw [takeInto_slot, if_neg]
    rintro rfl
    exact hf ((s.freeSlot_eq_some j).mp hi).1
  | reserve s i m _ _ hi =>
    refine ⟨fun d hd => by rw [reserve_chan, if_neg (hne hd)], fun j hf hr => ?_, fun _ => id, by simp, by simp, by simp⟩
    rw [reserve_slot, if_neg]
    rintro rfl
    exact hf ((s.freeSlot_eq_some j).mp hi).1
  | collide s k =>
    exact ⟨fun d hd => by rw [collide_chan, if_neg (hne hd)], fun _ _ _ => rfl, fun _ => id, rfl, rfl, rfl⟩
  | holdover s k =>
    exact ⟨fun d hd => by rw [holdover_chan, if_neg (hne hd)], fun _ _ _ => rfl, fun _ => id, rfl, rfl, rfl⟩

theorem visitChannel_leaves (r : Request) (c : ChanId) (p : State × Option SlotId) :
    Leaves [c] p (visitChannel r p c) := by
  have hmoves := visitChannel_moves r c p.1 p.2
  generalize visitChannel r p c = q at hmoves ⊢
  induction hmoves with
  | refl => exact .refl _ _
  | tail _ hmove ih => exact ih.trans hmove.leaves

theorem visits_leaves (r : Request) (l : List ChanId) (p : State × Option SlotId) :
    Leaves l p (l.foldl (visitChannel r) p) := by
  induction l generalizing p with
  | nil => exact .refl _ _
  | cons c l ih =>
    exact ((visitChannel_leaves r c p).mono (by simp)).trans ((ih _).mono (by simp))

/-- Channels that do not count the request pass it by. -/
theorem visits_of_not_counts {r : Request} {l : List ChanId} {p : State × Option SlotId}
    (h : ∀ c ∈ l, ¬p.1.counts c r) : l.foldl (visitChannel r) p = p := by
  induction l with
  | nil => rfl
  | cons c l ih =>
    have hvisit : visitChannel r p c = p := visitChannel_of_not_counts r p.1 p.2 c (h c (by simp))
    rw [List.foldl_cons, hvisit]
    exact ih fun d hd => h d (by simp [hd])

/-! ### The channels above c -/

/-- The channels that are visited after c. -/
def above (c : ChanId) : List ChanId := chanIds.filter fun d => decide (c < d)

/-- The channels that are visited between c and d. -/
def between (c d : ChanId) : List ChanId := chanIds.filter fun e => decide (c < e ∧ e < d)

theorem chanIds_split : ∀ c : ChanId, chanIds = chanIds.filter (fun d => decide (d < c)) ++ c :: above c := by decide

theorem above_split : ∀ c d : ChanId, c < d → above c = between c d ++ d :: above d := by decide

theorem not_mem_above : ∀ c : ChanId, c ∉ above c := by decide

theorem mem_between {c d e : ChanId} (h : e ∈ between c d) : c < e ∧ e < d := by
  simpa [between] using h

section FirstToCount

variable {r : Request} {c : ChanId} {s : State}

/-- Where no lower channel counts the request, the visits begin with channel c. -/
theorem visitChannels_from (hlow : ∀ d, d < c → ¬s.counts d r) :
    visitChannels r s = (above c).foldl (visitChannel r) (visitChannel r (s, none) c) := by
  unfold visitChannels
  have hbelow : (chanIds.filter fun d => decide (d < c)).foldl (visitChannel r) (s, none) = (s, none) :=
    visits_of_not_counts fun d hd => hlow d (by simpa using hd)
  rw [chanIds_split c, List.foldl_append, List.foldl_cons, hbelow]

/-- And they leave what its visit has done to channel c. -/
theorem visitChannels_leaves (hlow : ∀ d, d < c → ¬s.counts d r) :
    Leaves (above c) (visitChannel r (s, none) c) (visitChannels r s) := by
  rw [visitChannels_from hlow]
  exact visits_leaves r (above c) _

theorem visitChannels_chan (hlow : ∀ d, d < c → ¬s.counts d r) :
    (visitChannels r s).1.chan c = (visitChannel r (s, none) c).1.chan c :=
  (visitChannels_leaves hlow).chan c (not_mem_above c)

/-- A slot that c has opened, or reserved for itself, stays so. -/
theorem visitChannels_slot (hlow : ∀ d, d < c → ¬s.counts d r) {i : SlotId} {x : Slot}
    (hx : (visitChannel r (s, none) c).1.slot i = x) (hf : x.state ≠ .free) (hc : x.channel = c) :
    (visitChannels r s).1.slot i = x := by
  subst hx
  refine (visitChannels_leaves hlow).slot i hf fun ⟨_, hmem⟩ => ?_
  rw [hc] at hmem
  exact not_mem_above c hmem

/-! ### The visit of a channel that counts the request -/

section Visit

variable (hcounts : s.counts c r)

include hcounts

theorem visit_of_counting (hrun : (s.chan c).run = .counting) (hone : (s.chan c).count = 1) (k : Option SlotId) :
    visitChannel r (s, k) c = handleFiring c r (countRequest c s, k) := by
  rw [visitChannel_of_counts hcounts, if_pos hone, useReservation_of_not_armed]
  rw [countRequest_run, hrun]
  simp

/-- Below quota with a FREE slot (R59, last row). -/
theorem visit_room (hrun : (s.chan c).run = .counting) (hone : (s.chan c).count = 1)
    (hq : s.owned c < (s.chan c).bank.quota.toNat) {i : SlotId} (hi : s.freeSlot = some i) :
    visitChannel r (s, none) c = (takeInto c i r (countRequest c s), some i) ∧
      ∀ j, visitChannel r (s, some j) c = (reserve c i (countRequest c s), some j) := by
  obtain ⟨hbank, -⟩ := countRequest_keeps c c s
  have hslots (j : SlotId) := countRequest_slot c j s
  have hroom := handleFiring_room (c := c) (i := i) (s := countRequest c s) r ((countRequest_run c c s).trans hrun)
    (by rwa [owned_of_slots hslots, hbank]) ((freeSlot_of_slots hslots).trans hi)
  exact ⟨(visit_of_counting hcounts hrun hone none).trans hroom.1,
    fun j => (visit_of_counting hcounts hrun hone (some j)).trans (hroom.2 j)⟩

theorem visit_full (hrun : (s.chan c).run = .counting) (hone : (s.chan c).count = 1) (hfull : s.fullFor c)
    (k : Option SlotId) : visitChannel r (s, k) c = (collide c (countRequest c s), k) := by
  rw [visit_of_counting hcounts hrun hone]
  exact handleFiring_full r k ((countRequest_run c c s).trans hrun) (countRequest_fullFor hfull)

theorem visit_held (hrun : (s.chan c).run = .held) (hone : (s.chan c).count = 1) (k : Option SlotId) :
    visitChannel r (s, k) c = (holdover c (countRequest c s), k) := by
  have hrun' : ((countRequest c s).chan c).run = .held := (countRequest_run c c s).trans hrun
  rw [visitChannel_of_counts hcounts, if_pos hone, useReservation_of_not_armed (by simp [hrun'])]
  exact handleFiring_held r k hrun'

/-- ARMED, the request already taken (R59, the second row). -/
theorem visit_armed_taken (hrun : (s.chan c).run = .armed) (j : SlotId) :
    visitChannel r (s, some j) c =
      (if (s.chan c).count = 1 then collide c (countRequest c s) else countRequest c s, some j) := by
  rw [visitChannel_of_counts hcounts, useReservation_of_taken]
  split_ifs
  · exact handleFiring_armed r (some j) ((countRequest_run c c s).trans hrun)
  · rfl

/-- ARMED, the request not yet taken: it goes into the reservation. -/
theorem visit_armed (hrun : (s.chan c).run = .armed) {i : SlotId} (hi : s.reservedSlot c = some i) :
    visitChannel r (s, none) c =
      if (s.chan c).count = 1 then handleFiring c r (takeInto c i r (countRequest c s), some i)
      else (takeInto c i r (countRequest c s), some i) := by
  have huse := useReservation_of_armed (i := i) ((countRequest_run c c s).trans hrun)
    ((reservedSlot_of_slots (fun j => countRequest_slot c j s) c).trans hi) r
  rw [visitChannel_of_counts hcounts, huse]

end Visit

/-! ### The take (R57) -/

/-- The channel after it has taken the request on which it counts. -/
theorem taken_chan (c : ChanId) (i : SlotId) (r : Request) (s : State) :
    let y := (takeInto c i r (countRequest c s)).chan c
    y.run = (if (s.chan c).run = .armed then .counting else (s.chan c).run) ∧
      y.stats.selected = (s.chan c).stats.selected + 1 ∧ y.stats.collisions = (s.chan c).stats.collisions ∧
      y.bank = (s.chan c).bank := by
  obtain ⟨hbank, hsel, hcol, -⟩ := countRequest_keeps c c s
  rw [takeInto_chan, if_pos rfl]
  refine ⟨?_, ?_, hcol, hbank⟩
  · show (if ((countRequest c s).chan c).run = .armed then RunState.counting else ((countRequest c s).chan c).run) = _
    rw [countRequest_run]
  · rw [← hsel]

theorem taken_slot (c : ChanId) (i j : SlotId) (r : Request) (s : State) :
    (takeInto c i r (countRequest c s)).slot j = if j = i then openedSlot c r s.tb.time else s.slot j := by
  rw [takeInto_slot, countRequest_slot, countRequest_time]

/-- After a take into the reservation the channel is COUNTING, and it is at quota, or the slots are all taken, as before. -/
theorem taken_fullFor_iff {c : ChanId} {i : SlotId} (r : Request) {s : State}
    (hi : (s.slot i).state = .reserved ∧ (s.slot i).channel = c) :
    (takeInto c i r (countRequest c s)).owned c = s.owned c ∧
      (takeInto c i r (countRequest c s)).freeSlot = s.freeSlot := by
  have hslot (j : SlotId) := taken_slot c i j r s
  constructor
  · refine List.countP_congr fun j _ => ?_
    rw [hslot j]
    split_ifs with hj
    · rw [hj]
      simp [Slot.isOwned, openedSlot, hi]
    · rfl
  · unfold State.freeSlot
    congr 1
    funext j
    rw [hslot j]
    split_ifs with hj
    · rw [hj]
      simp [openedSlot, hi]
    · rfl

/-! ### The clauses, over the visits of all channels -/

/-- A later ARMED channel keeps its reservation, and its firing is a collision. -/
theorem armed_keeps (hlow : ∀ d, d < c → ¬s.counts d r) {i : SlotId} (htaken : (visitChannel r (s, none) c).2 = some i) {d : ChanId} (hcd : c < d)
    (hdcounts : s.counts d r) (hdrun : (s.chan d).run = .armed) :
    let u := (visitChannels r s).1
    (u.chan d).run = .armed ∧ (u.chan d).stats.selected = (s.chan d).stats.selected ∧
      (u.chan d).stats.collisions = (s.chan d).stats.collisions + (if (s.chan d).count = 1 then 1 else 0) ∧
      ∀ j, (s.slot j).state = .reserved → (s.slot j).channel = d → u.slot j = s.slot j := by
  have hne : d ≠ c := ne_of_gt hcd
  have hmid : d ∉ c :: between c d := by
    rw [List.mem_cons, not_or]
    exact ⟨hne, fun h => lt_irrefl d (mem_between h).2⟩
  have hbefore : Leaves (c :: between c d) (s, none) ((between c d).foldl (visitChannel r) (visitChannel r (s, none) c)) :=
    visits_leaves r (c :: between c d) (s, none)
  have hpassed := (visits_leaves r (between c d) (visitChannel r (s, none) c)).taken i htaken
  have hvisits : visitChannels r s = (above d).foldl (visitChannel r)
      (visitChannel r ((between c d).foldl (visitChannel r) (visitChannel r (s, none) c)) d) := by
    rw [visitChannels_from hlow, above_split c d hcd, List.foldl_append, List.foldl_cons]
  generalize (between c d).foldl (visitChannel r) (visitChannel r (s, none) c) = p at *
  obtain ⟨v, k⟩ := p
  obtain rfl : k = some i := hpassed
  have hchan : v.chan d = s.chan d := hbefore.chan d hmid
  have hdvisit := visit_armed_taken ((hbefore.counts_iff hmid r).mpr hdcounts) (by rw [hchan]; exact hdrun) i
  rw [hdvisit, hchan] at hvisits
  have hrest := visits_leaves r (above d) (if (s.chan d).count = 1 then collide d (countRequest d v) else countRequest d v, some i)
  rw [← hvisits] at hrest
  have hw : (if (s.chan d).count = 1 then collide d (countRequest d v) else countRequest d v).chan d =
      if (s.chan d).count = 1 then (collide d (countRequest d v)).chan d else (countRequest d v).chan d := by
    split_ifs <;> rfl
  obtain ⟨-, hsel, hcol, -⟩ := countRequest_keeps d d v
  rw [hchan] at hsel hcol
  have hr : ((countRequest d v).chan d).run = .armed := by rw [countRequest_run, hchan, hdrun]
  dsimp only
  rw [hrest.chan d (not_mem_above d)]
  dsimp only
  rw [hw, collide_chan, if_pos rfl]
  refine ⟨?_, ?_, ?_, fun j hj hjd => ?_⟩
  · split_ifs <;> exact hr
  · split_ifs <;> exact hsel
  · split_ifs
    · exact congrArg (· + 1) hcol
    · rw [hcol]
      exact (add_zero _).symm
  · have hv : v.slot j = s.slot j := hbefore.slot j (by simp [hj]) fun h => hmid (hjd ▸ h.2)
    have hd : (if (s.chan d).count = 1 then collide d (countRequest d v) else countRequest d v).slot j = s.slot j := by
      rw [← hv, ← countRequest_slot d j v]
      split_ifs <;> rfl
    refine (hrest.slot j ?_ fun h => ?_).trans hd
    · rw [hd, hj]
      simp
    · rw [hd, hjd] at h
      exact not_mem_above d h.2

section Clauses

variable (hlow : ∀ d, d < c → ¬s.counts d r) (hcounts : s.counts c r)

include hlow hcounts

/-- A firing channel below quota takes the request into the lowest FREE slot. -/
theorem firing_takes (hrun : (s.chan c).run = .counting) (hone : (s.chan c).count = 1)
    (hq : s.owned c < (s.chan c).bank.quota.toNat) {i : SlotId} (hi : s.freeSlot = some i) :
    let u := (visitChannels r s).1
    u.slot i = openedSlot c r s.tb.time ∧ (u.chan c).run = .counting ∧
      (u.chan c).stats.selected = (s.chan c).stats.selected + 1 ∧
      (u.chan c).stats.collisions = (s.chan c).stats.collisions := by
  have hvisit := (visit_room hcounts hrun hone hq hi).1
  obtain ⟨hr, hsel, hcol, -⟩ := taken_chan c i r s
  rw [hrun, if_neg (by simp)] at hr
  dsimp only
  rw [visitChannels_chan hlow, hvisit]
  refine ⟨visitChannels_slot hlow ?_ (by simp [openedSlot]) rfl, hr, hsel, hcol⟩
  rw [hvisit]
  exact (taken_slot c i i r s).trans (if_pos rfl)

/-- A second channel that fires reserves the next FREE slot. -/
theorem firing_reserves (hrun : (s.chan c).run = .counting) (hone : (s.chan c).count = 1)
    (hq : s.owned c < (s.chan c).bank.quota.toNat) {i : SlotId} (hi : s.freeSlot = some i) {d : ChanId} {j : SlotId}
    (hcd : c < d) (hdcounts : s.counts d r) (hdone : (s.chan d).count = 1) (hdrun : (s.chan d).run = .counting)
    (hdq : s.owned d < (s.chan d).bank.quota.toNat) (hnone : ∀ e, c < e → e < d → ¬s.counts e r)
    (hij : i < j) (hj : (s.slot j).state = .free) (hbelow : ∀ k, k < j → k ≠ i → (s.slot k).state ≠ .free) :
    let u := (visitChannels r s).1
    u.slot j = { Slot.cleared with state := .reserved, channel := d } ∧ (u.chan d).run = .armed ∧
      (u.chan d).stats.selected = (s.chan d).stats.selected := by
  have hfree := (s.freeSlot_eq_some i).mp hi
  have hvisit := (visit_room hcounts hrun hone hq hi).1
  have hleaves := visitChannel_leaves r c (s, none)
  rw [hvisit] at hleaves
  have hne : d ≠ c := ne_of_gt hcd
  have hdchan := hleaves.chan d (by simpa using hne)
  have hslot (k : SlotId) := taken_slot c i k r s
  have hpass : (between c d).foldl (visitChannel r) (takeInto c i r (countRequest c s), some i) =
      (takeInto c i r (countRequest c s), some i) := by
    refine visits_of_not_counts fun e he => ?_
    obtain ⟨hce, hed⟩ := mem_between he
    exact mt (hleaves.counts_iff (by simpa using ne_of_gt hce) r).mp (hnone e hce hed)
  have hdcounts' := (hleaves.counts_iff (c := d) (by simpa using hne) r).mpr hdcounts
  have howned : (takeInto c i r (countRequest c s)).owned d = s.owned d := by
    refine List.countP_congr fun k _ => ?_
    rw [hslot k]
    split_ifs with hk
    · rw [hk]
      simp [Slot.isOwned, openedSlot, hfree.1, Ne.symm hne]
    · rfl
  have hfreej : (takeInto c i r (countRequest c s)).freeSlot = some j := by
    rw [State.freeSlot_eq_some, hslot j, if_neg (ne_of_gt hij)]
    refine ⟨hj, fun k hk => ?_⟩
    rw [hslot k]
    split_ifs with hki
    · simp [openedSlot]
    · exact hbelow k hk hki
  generalize takeInto c i r (countRequest c s) = v at *
  have hdvisit := (visit_room hdcounts' (by rw [hdchan]; exact hdrun) (by rw [hdchan]; exact hdone)
    (by rw [howned, hdchan]; exact hdq) hfreej).2 i
  have hvisits : (visitChannels r s) =
      (above d).foldl (visitChannel r) (reserve d j (countRequest d v), some i) := by
    rw [visitChannels_from hlow, hvisit, above_split c d hcd, List.foldl_append, List.foldl_cons, hpass, hdvisit]
  have hrest := visits_leaves r (above d) (reserve d j (countRequest d v), some i)
  rw [← hvisits] at hrest
  have hres := (reserve_slot d j j (countRequest d v)).trans (if_pos rfl)
  refine ⟨(hrest.slot j ?_ ?_).trans hres, ?_, ?_⟩
  · rw [hres]
    simp
  · rw [hres]
    exact fun h => not_mem_above d h.2
  · rw [hrest.chan d (not_mem_above d), reserve_chan, if_pos rfl]
  · rw [hrest.chan d (not_mem_above d), reserve_chan, if_pos rfl]
    obtain ⟨-, hsel, -⟩ := countRequest_keeps d d v
    exact hsel.trans (by rw [hdchan])

/-- An ARMED channel takes the request into its reservation. -/
theorem armed_takes (hrun : (s.chan c).run = .armed) {i : SlotId} (hi : s.reservedSlot c = some i) :
    let u := (visitChannels r s).1
    let y := u.chan c
    let x := s.chan c
    (u.slot i = openedSlot c r s.tb.time ∧ y.stats.selected = x.stats.selected + 1) ∧
      (x.count ≠ 1 → y.run = .counting ∧ y.stats.collisions = x.stats.collisions) ∧
      (x.count = 1 → s.fullFor c → y.run = .counting ∧ y.stats.collisions = x.stats.collisions + 1) ∧
      (x.count = 1 → s.owned c < x.bank.quota.toNat → ∀ j, s.freeSlot = some j →
        u.slot j = { Slot.cleared with state := .reserved, channel := c } ∧ y.run = .armed ∧
          y.stats.collisions = x.stats.collisions) := by
  obtain ⟨⟨hres, hic⟩, -⟩ := (s.reservedSlot_eq_some c i).mp hi
  obtain ⟨hr, hsel, hcol, hbank⟩ := taken_chan c i r s
  rw [hrun, if_pos rfl] at hr
  obtain ⟨howned, hfree⟩ := taken_fullFor_iff r ⟨hres, hic⟩
  have hslot (j : SlotId) := taken_slot c i j r s
  have hvisit := visit_armed hcounts hrun hi
  generalize takeInto c i r (countRequest c s) = v at *
  have hopen : (visitChannel r (s, none) c).1.slot i = openedSlot c r s.tb.time ∧
      ((visitChannel r (s, none) c).1.chan c).stats.selected = (s.chan c).stats.selected + 1 := by
    rw [hvisit]
    split_ifs
    · obtain ⟨hh, -⟩ | ⟨-, -, h⟩ | ⟨-, -, -, j, hj, ⟨hk, -⟩ | ⟨m, -, h⟩⟩ := handleFiring_cases c r v (some i)
      · rw [hr] at hh
        cases hh
      · rw [h]
        refine ⟨(hslot i).trans (if_pos rfl), ?_⟩
        rw [collide_chan, if_pos rfl]
        exact hsel
      · cases hk
      · rw [h]
        have hji : i ≠ j := by
          rintro rfl
          rw [hfree] at hj
          rw [((s.freeSlot_eq_some i).mp hj).1] at hres
          cases hres
        rw [reserve_slot, if_neg hji, reserve_chan, if_pos rfl]
        exact ⟨(hslot i).trans (if_pos rfl), hsel⟩
    · exact ⟨(hslot i).trans (if_pos rfl), hsel⟩
  dsimp only
  rw [visitChannels_chan hlow]
  refine ⟨⟨visitChannels_slot hlow hopen.1 (by simp [openedSlot]) rfl, hopen.2⟩, fun hone => ?_, fun hone hfull => ?_,
    fun hone hq j hj => ?_⟩
  · rw [hvisit, if_neg hone]
    exact ⟨hr, hcol⟩
  · have hfull' : v.fullFor c := by
      rw [State.fullFor, howned, hfree, hbank]
      exact hfull
    rw [hvisit, if_pos hone, handleFiring_full r (some i) hr hfull', collide_chan, if_pos rfl]
    exact ⟨hr, congrArg (· + 1) hcol⟩
  · have hroom := (handleFiring_room r hr (by rwa [howned, hbank]) (hfree.trans hj)).2 i
    rw [if_pos hone, hroom] at hvisit
    refine ⟨visitChannels_slot hlow ?_ (by simp) rfl, ?_⟩
    · rw [hvisit, reserve_slot, if_pos rfl]
    · rw [hvisit, reserve_chan, if_pos rfl]
      exact ⟨rfl, hcol⟩

theorem firing_collides (hrun : (s.chan c).run = .counting) (hone : (s.chan c).count = 1) (hfull : s.fullFor c) :
    let y := (visitChannels r s).1.chan c
    y.stats.collisions = (s.chan c).stats.collisions + 1 ∧ y.stats.selected = (s.chan c).stats.selected ∧
      y.run = .counting := by
  obtain ⟨-, hsel, hcol, -⟩ := countRequest_keeps c c s
  dsimp only
  rw [visitChannels_chan hlow, visit_full hcounts hrun hone hfull, collide_chan, if_pos rfl]
  exact ⟨congrArg (· + 1) hcol, hsel, (countRequest_run c c s).trans hrun⟩

theorem held_holds_over (hrun : (s.chan c).run = .held) (hone : (s.chan c).count = 1) :
    let y := (visitChannels r s).1.chan c
    y.stats.heldover = (s.chan c).stats.heldover + 1 ∧ y.stats.selected = (s.chan c).stats.selected ∧
      y.stats.collisions = (s.chan c).stats.collisions ∧ y.run = .held := by
  obtain ⟨-, hsel, hcol, hheld⟩ := countRequest_keeps c c s
  dsimp only
  rw [visitChannels_chan hlow, visit_held hcounts hrun hone, holdover_chan, if_pos rfl]
  exact ⟨congrArg (· + 1) hheld, hsel, hcol, (countRequest_run c c s).trans hrun⟩

end Clauses

/-- The channel takes the request in its own visit, wherever `takesInto` says so. -/
theorem visit_takes (hcounts : s.counts c r) {i : SlotId} (h : s.takesInto c i) :
    (visitChannel r (s, none) c).2 = some i := by
  obtain ⟨hrun, hone, hq, hi⟩ | ⟨hrun, hi⟩ := h
  · rw [(visit_room hcounts hrun hone hq ((s.freeSlot_eq_some i).mpr hi)).1]
  · have hres : s.reservedSlot c = some i := (s.reservedSlot_eq_some c i).mpr hi
    have hr := (taken_chan c i r s).1
    rw [visit_armed hcounts hrun hres]
    split_ifs
    · obtain ⟨-, h⟩ | ⟨-, -, h⟩ | ⟨-, -, -, j, -, ⟨hk, -⟩ | ⟨m, -, h⟩⟩ :=
        handleFiring_cases c r (takeInto c i r (countRequest c s)) (some i)
      · rw [h]
      · rw [h]
      · cases hk
      · rw [h]
    · rfl

/-- What the visits leave where channel c takes the request. -/
theorem taken_request (hlow : ∀ d, d < c → ¬s.counts d r) (hcounts : s.counts c r) {i : SlotId} (h : s.takesInto c i) :
    let p := visitChannels r s
    p.2 = some i ∧ p.1.slot i = openedSlot c r s.tb.time ∧
      (p.1.chan c).stats.selected = (s.chan c).stats.selected + 1 ∧ (p.1.chan c).bank = (s.chan c).bank ∧
      p.1.tb.time = s.tb.time ∧ ∀ j, (s.slot j).isWatching = true → p.1.slot j = s.slot j := by
  have hleaves : Leaves chanIds (s, none) (visitChannels r s) := visits_leaves r chanIds (s, none)
  have hbank := (visits_visited r s chanIds (by decide)).bank c
  have htaken := (visitChannels_leaves hlow).taken i (visit_takes hcounts h)
  have hslot : (visitChannels r s).1.slot i = openedSlot c r s.tb.time ∧
      ((visitChannels r s).1.chan c).stats.selected = (s.chan c).stats.selected + 1 := by
    obtain ⟨hrun, hone, hq, hi⟩ | ⟨hrun, hi⟩ := h
    · obtain ⟨hs, -, hsel, -⟩ := firing_takes hlow hcounts hrun hone hq ((s.freeSlot_eq_some i).mpr hi)
      exact ⟨hs, hsel⟩
    · exact (armed_takes hlow hcounts hrun ((s.reservedSlot_eq_some c i).mpr hi)).1
  refine ⟨htaken, hslot.1, hslot.2, hbank, hleaves.time, fun j hj => hleaves.slot j ?_ ?_⟩
  · intro hf
    simp [Slot.isWatching, Slot.isLive, hf] at hj
  · intro hr
    simp [Slot.isWatching, Slot.isLive, hr.1] at hj

end FirstToCount

/-! ### The event -/

theorem fullFor_iff (s : State) (c : ChanId) :
    s.fullFor c ↔ (s.chan c).bank.quota.toNat ≤ s.owned c ∨ ∀ i : SlotId, (s.slot i).state ≠ .free := by
  rw [State.fullFor, State.freeSlot_eq_none]

theorem watchMatch_of_unwatched {r : Request} {s : State} (h : s.unwatched r.initiator r.tag) : watchMatch r s = s := by
  rw [watchMatch, (s.matchPair_eq_none _ _).mpr h]

/-- A request other than a POSTED or BROADCAST one closes nothing. -/
theorem closeUnreplied_of_replied {r : Request} (hp : r.kind ≠ .posted) (hb : r.kind ≠ .broadcast)
    (p : State × Option SlotId) : closeUnreplied r p = p.1 := by
  unfold closeUnreplied
  split
  · rfl
  · rw [if_neg (by simp [hp, hb])]

theorem closeUnreplied_of_taken {r : Request} (hk : r.kind = .posted ∨ r.kind = .broadcast) {p : State × Option SlotId}
    {i : SlotId} (hi : p.2 = some i) : closeUnreplied r p = closeSlot i .unreplied p.1 := by
  obtain ⟨s, k⟩ := p
  obtain rfl : k = some i := hi
  exact if_pos hk

/-- Settles O48: each clause is what the visits of the channels do, on the state with the initiator present. -/
theorem firingsTakeReserveOrCollide : Obligations.FiringsTakeReserveOrCollide := by
  unfold Obligations.FiringsTakeReserveOrCollide
  intro r c s hl hw hs hcounts hun hlow x taken reserved full
  have hexec : exec (.snoopedRequest r) s = afterEvent (closeUnreplied r (visitChannels r (s.arrived r.initiator))) := by
    refine (requestEvent_snooped r s hl hw hs).trans (congrArg afterEvent ?_)
    rw [snoopRequest, watchMatch_of_unwatched]
    exact hun
  have hfree (i : SlotId) (hi : s.lowestFree i) : (s.arrived r.initiator).freeSlot = some i :=
    (State.freeSlot_eq_some _ i).mpr hi
  have hres (i : SlotId) (hi : s.reservation c i) : (s.arrived r.initiator).reservedSlot c = some i :=
    (State.reservedSlot_eq_some _ c i).mpr hi
  have hfull (h : full) : (s.arrived r.initiator).fullFor c := (fullFor_iff _ c).mpr h
  refine ⟨fun hp hb => ?_, fun hk i hi => ?_⟩
  · rw [hexec, closeUnreplied_of_replied hp hb]
    refine ⟨_, rfl, ?_⟩
    have hchan (d : ChanId) : (alertCheck (visitChannels r (s.arrived r.initiator)).1).chan d =
        (visitChannels r (s.arrived r.initiator)).1.chan d := by simp [State.chan]
    have hslot (j : SlotId) : (alertCheck (visitChannels r (s.arrived r.initiator)).1).slot j =
        (visitChannels r (s.arrived r.initiator)).1.slot j := by simp [State.slot]
    simp only [hchan, hslot]
    refine ⟨fun i hrun hone hq hi => ⟨?_, fun d j hcd hdcounts hdone hdrun hdq hnone hij hj hbelow => ?_⟩,
      fun i hrun hi => ?_, fun i hi d hcd hdcounts hdrun => ?_, fun hrun hone h => ?_, fun hrun hone => ?_⟩
    · exact firing_takes (s := s.arrived r.initiator) hlow hcounts hrun hone hq (hfree i hi)
    · exact firing_reserves (s := s.arrived r.initiator) hlow hcounts hrun hone hq (hfree i hi) hcd hdcounts hdone hdrun
        hdq hnone hij hj hbelow
    · obtain ⟨htake, hkeep, hcollide, hreserve⟩ :=
        armed_takes (s := s.arrived r.initiator) hlow hcounts hrun (hres i hi)
      exact ⟨htake, hkeep, fun hone h => hcollide hone (hfull h), fun hone hq j hj => hreserve hone hq j (hfree j hj)⟩
    · have htaken := visit_takes (s := s.arrived r.initiator) hcounts hi
      exact armed_keeps (s := s.arrived r.initiator) hlow htaken hcd hdcounts hdrun
    · exact firing_collides (s := s.arrived r.initiator) hlow hcounts hrun hone (hfull h)
    · exact held_holds_over (s := s.arrived r.initiator) hlow hcounts hrun hone
  · have hrequest := taken_request (s := s.arrived r.initiator) hlow hcounts hi
    have hframe := visitChannels_frame r (s.arrived r.initiator)
    generalize visitChannels r (s.arrived r.initiator) = p at *
    obtain ⟨htaken, hslot, hsel, hbank, htime, hwatching⟩ := hrequest
    obtain ⟨-, -, -, -, -, -, hdev, hqueue, -, hpath, hring, -⟩ := hframe
    refine ⟨p.1, ?_, hslot, hsel, hbank, htime, hqueue, hpath, hring, hdev, hwatching⟩
    rw [hexec, closeUnreplied_of_taken hk htaken]

end Sys2Proof.Machine
end

