-- ==== Sys2Proof/Proofs/Runs.lean ====
section
/-! PROOF. The in-flight record writes of a ring as a run of positions that begins at PRODUCER (R126): what an issue, a commit, a
move of CONSUMER and a start make of it. -/

namespace Sys2Proof.Machine

/-! ### Sums and differences modulo 2N -/

section Modular

variable {a b m : Nat}

/-- A difference to the next position. -/
theorem subMod_succ_right (ha : a < m) (hb : b < m) (h : subMod a b m ≠ 0) :
    subMod a ((b + 1) % m) m + 1 = subMod a b m := by
  have hsucc : (b + 1) % m = if b + 1 < m then b + 1 else 0 := by
    split_ifs with hlt
    · exact Nat.mod_eq_of_lt hlt
    · rw [show b + 1 = m by omega, Nat.mod_self]
  rw [subMod_of_lt ha (Nat.mod_lt _ (by omega)), hsucc]
  rw [subMod_of_lt ha hb] at h ⊢
  split_ifs at h ⊢ <;> omega

theorem subMod_succ_left (ha : a < m) (hb : b < m) (h : subMod a b m + 1 < m) :
    subMod ((a + 1) % m) b m = subMod a b m + 1 := by
  have hsucc : (a + 1) % m = if a + 1 < m then a + 1 else 0 := by
    split_ifs with hlt
    · exact Nat.mod_eq_of_lt hlt
    · rw [show a + 1 = m by omega, Nat.mod_self]
  rw [subMod_of_lt (Nat.mod_lt _ (by omega)) hb, hsucc]
  rw [subMod_of_lt ha hb] at h ⊢
  split_ifs at h ⊢ <;> omega

theorem subMod_eq_zero_iff (ha : a < m) (hb : b < m) : subMod a b m = 0 ↔ a = b := by
  rw [subMod_of_lt ha hb]
  split_ifs <;> omega

end Modular

/-! ### Counting the record tags -/

theorem countP_recTags_at {p q : WTag → Bool} {u : WTag} (hu : u ∈ recTags) (h : ∀ v ∈ recTags, v ≠ u → p v = q v) :
    recTags.countP p + (q u).toNat = recTags.countP q + (p u).toNat := by
  have hperm : recTags.Perm (u :: recTags.erase u) := List.perm_cons_erase hu
  have hnodup : recTags.Nodup := by decide
  have hrest : (recTags.erase u).countP p = (recTags.erase u).countP q :=
    List.countP_congr fun v hv => by
      obtain ⟨hne, hmem⟩ := hnodup.mem_erase_iff.mp hv
      rw [h v hmem hne]
  rw [hperm.countP_eq p, hperm.countP_eq q, List.countP_cons, List.countP_cons, hrest]
  cases p u <;> cases q u <;> simp

theorem Ring.inFlight_setTag (g : Ring) {u : WTag} (hu : u ∈ recTags) (x : WriteTag) :
    (g.setTag u x).inFlight + (g.tag u).inFlight.toNat = g.inFlight + x.inFlight.toNat := by
  have hcount := countP_recTags_at (p := fun v => ((g.setTag u x).tag v).inFlight) (q := fun v => (g.tag v).inFlight) hu
    fun v _ hv => by rw [Ring.tag_setTag, if_neg hv]
  rwa [Ring.tag_setTag_self] at hcount

theorem Ring.inFlight_le (g : Ring) : g.inFlight ≤ 4 := List.countP_le_length

theorem Ring.inFlight_congr {g k : Ring} (h : ∀ u ∈ recTags, (k.tag u).inFlight = (g.tag u).inFlight) :
    k.inFlight = g.inFlight := List.countP_congr fun u hu => by rw [h u hu]

/-! ### RING_SIZE -/

theorem ringSize_bounds {n : Nat} (h : ringSizeOk n = true) : 16 ≤ n ∧ n ≤ 65536 := by
  obtain ⟨k, hk, hk', rfl⟩ := (ringSizeOk_iff n).mp h
  exact ⟨Nat.pow_le_pow_right (n := 2) (by decide) hk, Nat.pow_le_pow_right (n := 2) (i := k) (j := 16) (by decide) (by omega)⟩

/-- A position modulo 2N fits the register. -/
theorem position_toNat {n : Nat} (h : ringSizeOk n = true) (a : Nat) :
    (BitVec.ofNat 17 (a % (2 * n))).toNat = a % (2 * n) := by
  obtain ⟨hlo, hhi⟩ := ringSize_bounds h
  have hlt : a % (2 * n) < 2 * n := Nat.mod_lt _ (by omega)
  rw [BitVec.toNat_ofNat, Nat.mod_eq_of_lt (show _ < 131072 by omega)]

/-! ### The run -/

/-- The same indexes, size and record tags in flight, each at its position. -/
theorem Ring.runOk_congr {g k : Ring} (hp : k.producer = g.producer) (hc : k.consumer = g.consumer) (hn : k.n = g.n)
    (ht : ∀ u ∈ recTags, (k.tag u).inFlight = (g.tag u).inFlight ∧
      ((g.tag u).inFlight = true → (k.tag u).position = (g.tag u).position)) (h : g.runOk) : k.runOk := by
  obtain ⟨hprod, hcons, hfill, hpos, huniq⟩ := h
  have hk := Ring.inFlight_congr fun u hu => (ht u hu).1
  have hf : k.fill = g.fill := by unfold Ring.fill; rw [hp, hc, hn]
  refine ⟨by rwa [hp, hn], by rwa [hc, hn], by rwa [hf, hk, hn], fun u hu hfly => ?_, fun u hu v hv hfu hfv he => ?_⟩
  · obtain ⟨hin, hat⟩ := ht u hu
    rw [hin] at hfly
    rw [hat hfly, hp, hn, hk]
    exact hpos u hu hfly
  · obtain ⟨hin, hat⟩ := ht u hu
    obtain ⟨hin', hat'⟩ := ht v hv
    rw [hin] at hfu
    rw [hin'] at hfv
    rw [hat hfu, hat' hfv] at he
    exact huniq u hu v hv hfu hfv he

section Run

variable {g : Ring} (hrun : g.runOk)

include hrun

theorem Ring.producerTag_of_position {u : WTag} (hu : u ∈ recTags) (hfly : (g.tag u).inFlight = true)
    (hpos : (g.tag u).position = g.producer) : g.producerTag = some u := by
  obtain ⟨-, -, -, -, huniq⟩ := hrun
  cases h : g.producerTag with
  | none =>
    have := List.find?_eq_none.mp h u hu
    simp [hfly, hpos] at this
  | some v =>
    have hv := List.find?_some h
    simp only [Bool.and_eq_true, decide_eq_true_eq] at hv
    rw [huniq v (List.mem_of_find?_eq_some h) u hu hv.1 hfly (hv.2.trans hpos.symm)]

omit hrun in
theorem Ring.producerTag_spec {u : WTag} (h : g.producerTag = some u) :
    u ∈ recTags ∧ (g.tag u).inFlight = true ∧ (g.tag u).position = g.producer := by
  have hu := List.find?_some h
  simp only [Bool.and_eq_true, decide_eq_true_eq] at hu
  exact ⟨List.mem_of_find?_eq_some h, hu⟩

/-- A commit at PRODUCER (R133): the run is one shorter, and the fill one more. -/
theorem Ring.runOk_commit (hn : ringSizeOk g.n = true) {u : WTag} (hu : u ∈ recTags) (hfly : (g.tag u).inFlight = true)
    (hpos : (g.tag u).position = g.producer) :
    let k := (g.setTag u WriteTag.cleared).advanceProducer
    k.runOk ∧ k.fill = g.fill + 1 ∧ k.inFlight + 1 = g.inFlight ∧
      k.producer.toNat = (g.producer.toNat + 1) % (2 * g.n) := by
  obtain ⟨hprod, hcons, hfill, hrunpos, huniq⟩ := hrun
  have hbounds := ringSize_bounds hn
  have hk : ((g.setTag u WriteTag.cleared).advanceProducer).inFlight + 1 = g.inFlight := by
    have hset := g.inFlight_setTag hu WriteTag.cleared
    rw [hfly] at hset
    exact hset
  have hproducer : ((g.setTag u WriteTag.cleared).advanceProducer).producer.toNat = (g.producer.toNat + 1) % (2 * g.n) :=
    position_toNat hn _
  have hf : ((g.setTag u WriteTag.cleared).advanceProducer).fill = g.fill + 1 := by
    have hsucc : subMod ((g.producer.toNat + 1) % (2 * g.n)) g.consumer.toNat (2 * g.n) = g.fill + 1 :=
      subMod_succ_left hprod hcons (show g.fill + 1 < 2 * g.n by omega)
    rw [← hproducer] at hsucc
    exact hsucc
  have htag (v : WTag) : ((g.setTag u WriteTag.cleared).advanceProducer).tag v =
      if v = u then WriteTag.cleared else g.tag v := Ring.tag_setTag g u v _
  have hne {v : WTag} (hfv : (((g.setTag u WriteTag.cleared).advanceProducer).tag v).inFlight = true) :
      v ≠ u ∧ ((g.setTag u WriteTag.cleared).advanceProducer).tag v = g.tag v := by
    have hvu : v ≠ u := by
      rintro rfl
      rw [htag v, if_pos rfl] at hfv
      cases hfv
    exact ⟨hvu, (htag v).trans (if_neg hvu)⟩
  refine ⟨⟨?_, hcons, ?_, fun v hv hfv => ?_, fun v hv w hw hfv hfw he => ?_⟩, hf, hk, hproducer⟩
  · rw [hproducer]
    exact Nat.mod_lt _ (by omega)
  · show _ ≤ g.n
    omega
  · obtain ⟨hvu, hvt⟩ := hne hfv
    rw [hvt] at hfv ⊢
    obtain ⟨hlt, hsub⟩ := hrunpos v hv hfv
    have hzero : subMod (g.tag v).position.toNat g.producer.toNat (2 * g.n) ≠ 0 := fun h0 => by
      rw [subMod_eq_zero_iff hlt hprod] at h0
      exact hvu (huniq v hv u hu hfv hfly ((BitVec.eq_of_toNat_eq h0).trans hpos.symm))
    have hsucc := subMod_succ_right hlt hprod hzero
    refine ⟨hlt, ?_⟩
    rw [hproducer]
    show subMod _ _ (2 * g.n) < _
    omega
  · obtain ⟨-, hvt⟩ := hne hfv
    obtain ⟨-, hwt⟩ := hne hfw
    rw [hvt] at hfv he
    rw [hwt] at hfw he
    exact huniq v hv w hw hfv hfw he

/-- An issue to the position after the run (R130), where the ring has space. -/
theorem Ring.runOk_issue (hn : ringSizeOk g.n = true) (hspace : g.hasSpace = true) {u : WTag} (hu : u ∈ recTags)
    (hfree : (g.tag u).inFlight = false) (r : Record) : (g.setTag u (issuedTag g r)).runOk := by
  obtain ⟨hprod, hcons, hfill, hrunpos, huniq⟩ := hrun
  have hbounds := ringSize_bounds hn
  have hlt : g.fill + g.inFlight < g.n := of_decide_eq_true hspace
  have hk : (g.setTag u (issuedTag g r)).inFlight = g.inFlight + 1 := by
    have hset := g.inFlight_setTag hu (issuedTag g r)
    rw [hfree] at hset
    exact hset
  have hnext : g.nextPosition.toNat = (g.producer.toNat + g.inFlight) % (2 * g.n) := position_toNat hn _
  have hnextlt : g.nextPosition.toNat < 2 * g.n := by
    rw [hnext]
    exact Nat.mod_lt _ (by omega)
  have hsub : subMod g.nextPosition.toNat g.producer.toNat (2 * g.n) = g.inFlight :=
    (subMod_eq_iff hnextlt hprod (by omega)).mpr hnext
  have htag (v : WTag) : (g.setTag u (issuedTag g r)).tag v = if v = u then issuedTag g r else g.tag v :=
    Ring.tag_setTag g u v _
  have hother {v : WTag} (hv : v ∈ recTags) (hvu : v ≠ u) (hfv : ((g.setTag u (issuedTag g r)).tag v).inFlight = true) :
      (g.setTag u (issuedTag g r)).tag v = g.tag v ∧ (g.tag v).inFlight = true ∧
        (g.tag v).position ≠ g.nextPosition := by
    have hvt := (htag v).trans (if_neg hvu)
    rw [hvt] at hfv
    refine ⟨hvt, hfv, fun he => ?_⟩
    have := (hrunpos v hv hfv).2
    rw [he, hsub] at this
    exact lt_irrefl _ this
  refine ⟨hprod, hcons, ?_, fun v hv hfv => ?_, fun v hv w hw hfv hfw he => ?_⟩
  · rw [hk]
    exact hlt
  · show _ < 2 * g.n ∧ subMod _ g.producer.toNat (2 * g.n) < _
    by_cases hvu : v = u
    · rw [htag v, if_pos hvu, hk]
      exact ⟨hnextlt, (hsub.le).trans_lt (Nat.lt_succ_self _)⟩
    · obtain ⟨hvt, hfv', -⟩ := hother hv hvu hfv
      rw [hvt, hk]
      obtain ⟨h1, h2⟩ := hrunpos v hv hfv'
      exact ⟨h1, h2.trans (Nat.lt_succ_self _)⟩
  · by_cases hvu : v = u <;> by_cases hwu : w = u
    · exact hvu.trans hwu.symm
    · obtain ⟨hwt, -, hne⟩ := hother hw hwu hfw
      rw [hwt, htag v, if_pos hvu] at he
      exact absurd he.symm hne
    · obtain ⟨hvt, -, hne⟩ := hother hv hvu hfv
      rw [hvt, htag w, if_pos hwu] at he
      exact absurd he hne
    · obtain ⟨hvt, hfv', -⟩ := hother hv hvu hfv
      obtain ⟨hwt, hfw', -⟩ := hother hw hwu hfw
      rw [hvt, hwt] at he
      exact huniq v hv w hw hfv' hfw' he

/-- A move of CONSUMER within the fill (R127). -/
theorem Ring.runOk_consume {v : BitVec 17} (hv : g.consumerOk v = true) : ({ g with consumer := v } : Ring).runOk := by
  obtain ⟨hprod, hcons, hfill, hrunpos, huniq⟩ := hrun
  simp only [Ring.consumerOk, Bool.and_eq_true, decide_eq_true_eq] at hv
  obtain ⟨hlt, hby⟩ := hv
  refine ⟨hprod, hlt, ?_, hrunpos, huniq⟩
  have hle : ({ g with consumer := v } : Ring).fill ≤ g.fill := by
    have h1 : subMod v.toNat g.consumer.toNat (2 * g.n) ≤ subMod g.producer.toNat g.consumer.toNat (2 * g.n) := hby
    show subMod g.producer.toNat v.toNat (2 * g.n) ≤ subMod g.producer.toNat g.consumer.toNat (2 * g.n)
    rw [subMod_of_lt hlt hcons, subMod_of_lt hprod hcons] at h1
    rw [subMod_of_lt hprod hlt, subMod_of_lt hprod hcons]
    split_ifs at h1 ⊢ <;> omega
  exact (Nat.add_le_add_right hle _).trans hfill

end Run

end Sys2Proof.Machine
end

