-- ==== Sys2Proof/Proofs/Commits.lean ====
section
/-! PROOF. Commits (R133, R142): the run of DONE tags from PRODUCER on, and what a commit run does with it. -/

namespace Sys2Proof.Machine

/-! ### What the output advance leaves of the ring -/

/-- The same indexes, size and threshold. -/
structure SameIndexes (g k : Ring) : Prop where
  producer : k.producer = g.producer
  consumer : k.consumer = g.consumer
  size : k.size = g.size

namespace SameIndexes

variable {g k l : Ring}

theorem refl (g : Ring) : SameIndexes g g := ⟨rfl, rfl, rfl⟩

theorem of_eq (h : k = g) : SameIndexes g k := h ▸ refl g

theorem trans (h1 : SameIndexes g k) (h2 : SameIndexes k l) : SameIndexes g l :=
  ⟨h2.producer.trans h1.producer, h2.consumer.trans h1.consumer, h2.size.trans h1.size⟩

theorem n (h : SameIndexes g k) : k.n = g.n := congrArg BitVec.toNat h.size

end SameIndexes

theorem PathMove.sameIndexes {s t : State} (h : PathMove s t) : SameIndexes s.ring t.ring := by
  cases h with
  | toQueue x rest => exact .of_eq (by simp)
  | gap u => exact ⟨rfl, rfl, rfl⟩
  | head u x rest => exact ⟨rfl, rfl, rfl⟩
  | drop x rest =>
    rw [dropHead_ring]
    exact ⟨rfl, rfl, rfl⟩
  | enter i rest => exact .of_eq (by simp)

theorem advance_sameIndexes (s : State) : SameIndexes s.ring (advance s).ring :=
  (advance_pathMoves s).keeps (P := fun t => SameIndexes s.ring t.ring) (fun _ _ h hs => hs.trans h.sameIndexes)
    (.refl _)

theorem writebackIfDue_sameIndexes (s : State) : SameIndexes s.ring (writebackIfDue s).ring := by
  unfold writebackIfDue
  split_ifs
  · exact ⟨rfl, rfl, rfl⟩
  · exact .refl _

theorem stopTest_sameIndexes (s : State) : SameIndexes s.ring (stopTest s).ring := by
  unfold stopTest
  dsimp only
  split_ifs
  · exact ⟨by simp, by simp, by simp⟩
  · exact ⟨by simp, by simp, by simp⟩
  · exact .refl _

theorem afterCommit_sameIndexes (s : State) : SameIndexes s.ring (afterCommit s).ring := by
  have hdrain (t : State) : SameIndexes t.ring (drainTest t).ring := .of_eq (by simp)
  exact (((writebackIfDue_sameIndexes s).trans (stopTest_sameIndexes _)).trans (hdrain _)).trans (advance_sameIndexes _)

/-! ### The DONE tags of the run -/

/-- A DONE record tag stands j positions after PRODUCER. -/
def State.doneAt (s : State) (j : Nat) : Prop :=
  ∃ v ∈ recTags, (s.tag v).state = .done ∧ (s.tag v).position.toNat = (s.ring.producer.toNat + j) % (2 * s.ring.n)

theorem WriteTag.inFlight_of_done {x : WriteTag} (h : x.state = .done) : x.inFlight = true := by
  simp [WriteTag.inFlight, h]

section Run

variable {s : State} (hrun : s.ring.runOk)

include hrun

theorem producer_mod : s.ring.producer.toNat % (2 * s.ring.n) = s.ring.producer.toNat := Nat.mod_eq_of_lt hrun.1

/-- The commit that a DONE tag at PRODUCER brings (R133). -/
theorem commitOnce_of_done {u : WTag} (hu : u ∈ recTags) (hd : (s.tag u).state = .done)
    (hpos : (s.tag u).position = s.ring.producer) : commitOnce s = some (commitTag u s) :=
  (commitOnce_eq_some s _).mpr ⟨u, Ring.producerTag_of_position hrun hu (WriteTag.inFlight_of_done hd) hpos, hd, rfl⟩

theorem doneAt_zero_iff : s.doneAt 0 ↔ ∃ u ∈ recTags, (s.tag u).state = .done ∧ (s.tag u).position = s.ring.producer := by
  unfold State.doneAt
  rw [Nat.add_zero, producer_mod hrun]
  simp only [BitVec.toNat_inj]

theorem commitOnce_eq_none_iff : commitOnce s = none ↔ ¬s.doneAt 0 := by
  rw [doneAt_zero_iff hrun, ← not_iff_not, not_not, ← ne_eq, Option.ne_none_iff_exists']
  constructor
  · rintro ⟨t, ht⟩
    obtain ⟨u, hp, hd, -⟩ := (commitOnce_eq_some s t).mp ht
    obtain ⟨hu, -, hpos⟩ := Ring.producerTag_spec hp
    exact ⟨u, hu, hd, hpos⟩
  · rintro ⟨u, hu, hd, hpos⟩
    exact ⟨_, commitOnce_of_done hrun hu hd hpos⟩

/-- A DONE tag of the run stands within it. -/
theorem doneAt_lt {j : Nat} (hj : j < 2 * s.ring.n) (h : s.doneAt j) :
    j < s.ring.inFlight := by
  obtain ⟨v, hv, hd, hpos⟩ := h
  obtain ⟨hlt, hsub⟩ := hrun.2.2.2.1 v hv (WriteTag.inFlight_of_done hd)
  rw [← (subMod_eq_iff hlt hrun.1 hj).mpr hpos]
  exact hsub

/-- The commit of the tag at PRODUCER leaves the rest of the run, one position nearer. -/
theorem commitTag_run (hn : ringSizeOk s.ring.n = true) {u : WTag} (hu : u ∈ recTags) (hd : (s.tag u).state = .done)
    (hpos : (s.tag u).position = s.ring.producer) :
    (commitTag u s).ring.runOk ∧ (commitTag u s).ring.n = s.ring.n ∧
      (commitTag u s).ring.inFlight + 1 = s.ring.inFlight ∧
      (commitTag u s).ring.producer.toNat = (s.ring.producer.toNat + 1) % (2 * s.ring.n) ∧
      ∀ j, j + 1 < 2 * s.ring.n → ((commitTag u s).doneAt j ↔ s.doneAt (j + 1)) := by
  obtain ⟨hok, -, hk, hprod⟩ := Ring.runOk_commit hrun hn hu (WriteTag.inFlight_of_done hd) hpos
  rw [← commitTag_ring] at hok hk hprod
  have hsize : (commitTag u s).ring.n = s.ring.n := by
    rw [commitTag_ring]
    rfl
  refine ⟨hok, hsize, hk, hprod, fun j hj => ?_⟩
  have hmod : ((s.ring.producer.toNat + 1) % (2 * s.ring.n) + j) % (2 * s.ring.n) =
      (s.ring.producer.toNat + (j + 1)) % (2 * s.ring.n) := by
    rw [Nat.mod_add_mod]
    congr 1
    omega
  unfold State.doneAt
  rw [hprod, hsize, hmod]
  refine exists_congr fun v => and_congr_right fun hv => ?_
  rw [commitTag_tag]
  split_ifs with hvu
  · refine iff_of_false (fun h => by cases h.1) fun ⟨_, hat⟩ => ?_
    rw [hvu, hpos] at hat
    have hzero := (subMod_eq_iff hrun.1 hrun.1 hj).mpr hat
    rw [subMod_self _ _ (by omega)] at hzero
    omega
  · rfl

/-- A loop that commits all the DONE tags of the run leaves PRODUCER after them. -/
theorem commitLoop_producer (hn : ringSizeOk s.ring.n = true) {k j : Nat} (hk : k ≤ 4) (hj : j ≤ k)
    (hdone : ∀ m < j, s.doneAt m) (hend : ¬s.doneAt j) :
    (commitLoop k s).ring.producer.toNat = (s.ring.producer.toNat + j) % (2 * s.ring.n) ∧
      (commitLoop k s).ring.n = s.ring.n := by
  induction k generalizing s j with
  | zero =>
    obtain rfl : j = 0 := by omega
    exact ⟨(producer_mod hrun).symm, rfl⟩
  | succ k ih =>
    cases j with
    | zero =>
      have hnone := (commitOnce_eq_none_iff hrun).mpr hend
      unfold commitLoop
      rw [hnone]
      exact ⟨(producer_mod hrun).symm, rfl⟩
    | succ j =>
      obtain ⟨u, hu, hd, hpos⟩ := (doneAt_zero_iff hrun).mp (hdone 0 (by omega))
      obtain ⟨hok, hsize, -, hprod, hshift⟩ := commitTag_run hrun hn hu hd hpos
      have hbounds := ringSize_bounds hn
      have hloop := ih hok (by rwa [hsize]) (j := j) (by omega) (by omega)
        (fun m hm => (hshift m (by omega)).mpr (hdone (m + 1) (by omega))) (mt (hshift j (by omega)).mp hend)
      unfold commitLoop
      rw [commitOnce_of_done hrun hu hd hpos]
      dsimp only
      rw [hprod, hsize, Nat.mod_add_mod, Nat.add_assoc, Nat.add_comm 1 j] at hloop
      exact hloop

/-- No loop commits more tags than are in flight. -/
theorem commitLoop_of_le (hn : ringSizeOk s.ring.n = true) {k m : Nat} (hk : s.ring.inFlight ≤ k) (hm : k ≤ m) :
    commitLoop m s = commitLoop k s := by
  induction m generalizing s k with
  | zero =>
    obtain rfl : k = 0 := by omega
    rfl
  | succ m ih =>
    by_cases hdone : s.doneAt 0
    · obtain ⟨u, hu, hd, hpos⟩ := (doneAt_zero_iff hrun).mp hdone
      obtain ⟨hok, hsize, hfly, -⟩ := commitTag_run hrun hn hu hd hpos
      cases k with
      | zero => omega
      | succ k =>
        have hloop := ih hok (by rwa [hsize]) (k := k) (by omega) (by omega)
        unfold commitLoop
        rw [commitOnce_of_done hrun hu hd hpos]
        exact hloop
    · have hnone := (commitOnce_eq_none_iff hrun).mpr hdone
      have hloop (i : Nat) : commitLoop i s = s := by
        cases i with
        | zero => rfl
        | succ i =>
          unfold commitLoop
          rw [hnone]
      rw [hloop, hloop]

end Run

/-! ### The commit run -/

theorem commitRun_of_none {s : State} (h : commitOnce s = none) : commitRun s = s := by
  unfold commitRun
  rw [h]

theorem commitRun_of_some {s t : State} (h : commitOnce s = some t) : commitRun s = afterCommit (commitLoop 3 t) := by
  unfold commitRun
  rw [h]

section Run

variable {s : State} (hrun : s.ring.runOk) (hn : ringSizeOk s.ring.n = true)

include hrun hn

/-- A run of DONE tags from PRODUCER on is no longer than the four record tags. -/
theorem run_length_le {j : Nat} (hdone : ∀ m < j, s.doneAt m) : j ≤ 4 := by
  by_contra hj
  have hbounds := ringSize_bounds hn
  have := doneAt_lt hrun (j := 4) (by omega) (hdone 4 (by omega))
  have := s.ring.inFlight_le
  omega

theorem commitRun_producer {j : Nat} (hdone : ∀ m < j, s.doneAt m) (hend : ¬s.doneAt j) :
    (commitRun s).ring.producer = BitVec.ofNat 17 ((s.ring.producer.toNat + j) % (2 * s.ring.n)) := by
  refine BitVec.eq_of_toNat_eq ?_
  rw [position_toNat hn]
  cases j with
  | zero =>
    rw [commitRun_of_none ((commitOnce_eq_none_iff hrun).mpr hend), Nat.add_zero, producer_mod hrun]
  | succ j =>
    obtain ⟨u, hu, hd, hpos⟩ := (doneAt_zero_iff hrun).mp (hdone 0 (by omega))
    obtain ⟨hok, hsize, -, hprod, hshift⟩ := commitTag_run hrun hn hu hd hpos
    have hbounds := ringSize_bounds hn
    have hle := run_length_le hrun hn hdone
    have hloop := commitLoop_producer hok (by rwa [hsize]) (k := 3) (j := j) (by omega) (by omega)
      (fun m hm => (hshift m (by omega)).mpr (hdone (m + 1) (by omega))) (mt (hshift j (by omega)).mp hend)
    rw [commitRun_of_some (commitOnce_of_done hrun hu hd hpos), (afterCommit_sameIndexes _).producer, hloop.1, hprod,
      hsize, Nat.mod_add_mod, Nat.add_assoc, Nat.add_comm 1 j]

/-- After one commit the run goes on while the next tag is DONE. -/
theorem commitRun_next {u : WTag} (hu : u ∈ recTags) (hd : (s.tag u).state = .done)
    (hpos : (s.tag u).position = s.ring.producer) :
    (s.doneAt 1 → commitRun s = commitRun (commitTag u s)) ∧
      (¬s.doneAt 1 → commitRun s = afterCommit (commitTag u s)) := by
  obtain ⟨hok, hsize, hfly, -, hshift⟩ := commitTag_run hrun hn hu hd hpos
  have hbounds := ringSize_bounds hn
  have hone := hshift 0 (by omega)
  rw [commitRun_of_some (commitOnce_of_done hrun hu hd hpos)]
  refine ⟨fun h => ?_, fun h => ?_⟩
  · obtain ⟨v, hv, hvd, hvpos⟩ := (doneAt_zero_iff hok).mp (hone.mpr h)
    have hnext := commitOnce_of_done hok hv hvd hvpos
    obtain ⟨hok2, hsize2, hfly2, -⟩ := commitTag_run hok (by rwa [hsize]) hv hvd hvpos
    have hle := s.ring.inFlight_le
    rw [commitRun_of_some hnext]
    have hloop : commitLoop 3 (commitTag u s) = commitLoop 2 (commitTag v (commitTag u s)) := by
      show (match commitOnce (commitTag u s) with
        | none => commitTag u s
        | some s' => commitLoop 2 s') = _
      rw [hnext]
    rw [hloop, commitLoop_of_le hok2 (by rwa [hsize2, hsize]) (k := 2) (m := 3) (by omega) (by omega)]
  · have hnone := (commitOnce_eq_none_iff hok).mpr (mt hone.mp h)
    congr 1
    unfold commitLoop
    rw [hnone]

/-- One commit (R133, R142): the tag FREE, PRODUCER advanced, the record settled visible, LEVEL at an upward crossing. -/
theorem commitTag_eq {u : WTag} (hu : u ∈ recTags) (hd : (s.tag u).state = .done)
    (hpos : (s.tag u).position = s.ring.producer) :
    commitTag u s =
      if s.ring.fillInt < s.ring.threshold.toNat ∧ (s.ring.threshold.toNat : Int) ≤ s.ring.fillInt + 1 then
        (settle false (s.tag u).record
          { s with ring := (s.ring.setTag u WriteTag.cleared).advanceProducer }).raise 6
      else settle false (s.tag u).record { s with ring := (s.ring.setTag u WriteTag.cleared).advanceProducer } := by
  obtain ⟨-, hfill, -⟩ := Ring.runOk_commit hrun hn hu (WriteTag.inFlight_of_done hd) hpos
  have hint := s.ring.fill_eq (ringSize_pos hn)
  have hcross : crosses s.ring.fill ((s.ring.setTag u WriteTag.cleared).advanceProducer).fill s.ring.threshold.toNat = true ↔
      s.ring.fillInt < s.ring.threshold.toNat ∧ (s.ring.threshold.toNat : Int) ≤ s.ring.fillInt + 1 := by
    rw [crosses_iff, hfill, ← hint]
    omega
  unfold commitTag raiseIfCrossed
  dsimp only
  split_ifs with h1 h2 h2
  · rfl
  · exact absurd (hcross.mp h1) h2
  · exact absurd (hcross.mpr h2) h1
  · rfl

end Run

/-- Settles O57. -/
theorem commitAdvancesTheProducer : Obligations.CommitAdvancesTheProducer := by
  unfold Obligations.CommitAdvancesTheProducer
  intro responder u p s hl g n t doneAt
  have ht : t ∈ recTags := (mem_recTags t).mpr u.isLt
  have hwb : t ≠ wbTag := fun h => absurd (h ▸ ht) (by decide)
  refine ⟨fun hu => ⟨?_, ?_⟩, innerStep_of_live commitRun s hl, fun hrun hn => ?_⟩
  · refine (ownReplyEvent_issued responder t .done s hl rfl hu).trans (congrArg afterEvent ?_)
    exact if_neg hwb
  · refine (ownReplyEvent_issued responder t (.data p) s hl rfl hu).trans (congrArg afterEvent ?_)
    exact if_neg hwb
  · refine ⟨fun h0 => commitRun_of_none ((commitOnce_eq_none_iff hrun).mpr h0),
      fun j hdone hend => commitRun_producer hrun hn hdone hend, ?_⟩
    intro hd hpos g1 s1 s2
    have heq : commitTag t s = s2 := commitTag_eq hrun hn ht hd hpos
    rw [← heq]
    exact commitRun_next hrun hn ht hd hpos

end Sys2Proof.Machine
end

