-- ==== Sys2Proof/Proofs/Steady.lean ====
section
/-! PROOF. The ring engine's conditions (R125, R126, R128, R129, R136, R139), and that each change the engine makes to a ring
keeps them. -/

namespace Sys2Proof.Machine

/-- The conditions of the ring engine that hold throughout an event: the tags as the ring state allows them, an admitted size, a
cause exactly when FAULTED, and the run of positions of an active ring. -/
structure Ring.steady (g : Ring) : Prop where
  idle : g.state = .idle → ∀ u, (g.tag u).state = .free
  faulted : g.state = .faulted → ∀ u, (g.tag u).state = .free ∨ (g.tag u).state = .orphaned
  orphans : g.state ≠ .faulted → ∀ u, (g.tag u).state ≠ .orphaned
  writeback : (g.tag wbTag).state ≠ .done
  size : ringSizeOk g.n = true
  cause : g.state = .faulted ↔ g.fault.cause ≠ none
  run : g.active = true → g.runOk

namespace Ring.steady

variable {g k : Ring}

/-! ### Tags and the ring state -/

theorem active_of_flying (h : g.steady) {u : WTag} (hu : (g.tag u).inFlight = true) : g.active = true := by
  rw [Ring.active_iff]
  cases hs : g.state with
  | running => exact .inl rfl
  | stopping => exact .inr rfl
  | idle => simp [WriteTag.inFlight, h.idle hs u] at hu
  | faulted => obtain hf | ho := h.faulted hs u <;> simp_all [WriteTag.inFlight]

theorem not_idle_of_active (ha : g.active = true) : g.state ≠ .idle := by
  rw [Ring.active_iff] at ha
  rintro hs
  simp [hs] at ha

theorem not_faulted_of_active (ha : g.active = true) : g.state ≠ .faulted := by
  rw [Ring.active_iff] at ha
  rintro hs
  simp [hs] at ha

theorem faulted_of_orphan (h : g.steady) {u : WTag} (hu : (g.tag u).state = .orphaned) : g.state = .faulted :=
  by_contra fun hs => h.orphans hs u hu

/-- A ring that is neither active nor with a cause to differ in. -/
theorem congr (h : g.steady) (hstate : k.state = g.state) (htags : k.tags = g.tags)
    (hcause : k.fault.cause = g.fault.cause) (hsize : ringSizeOk k.n = true)
    (hrun : g.active = true → SameIndexes g k) : k.steady := by
  have htag (u : WTag) : k.tag u = g.tag u := congrArg (fun v => v[u.val]) htags
  refine ⟨fun hs u => ?_, fun hs u => ?_, fun hs u => ?_, ?_, hsize, ?_, fun ha => ?_⟩
  · rw [htag u]
    exact h.idle (hstate ▸ hs) u
  · rw [htag u]
    exact h.faulted (hstate ▸ hs) u
  · rw [htag u]
    exact h.orphans (hstate ▸ hs) u
  · rw [htag wbTag]
    exact h.writeback
  · rw [hstate, hcause]
    exact h.cause
  · have hag : g.active = true := by
      rw [Ring.active_iff] at ha ⊢
      rwa [hstate] at ha
    have hsame := hrun hag
    exact Ring.runOk_congr hsame.producer hsame.consumer hsame.n (fun u _ => by rw [htag u]; exact ⟨rfl, fun _ => rfl⟩)
      (h.run hag)

/-- One tag changes in an active ring, and the run stays in order. -/
theorem setTag_active (h : g.steady) (ha : g.active = true) {u : WTag} {x : WriteTag} (hk : k.tags = (g.setTag u x).tags)
    (hstate : k.state = g.state) (hcause : k.fault.cause = g.fault.cause) (hsize : k.size = g.size)
    (horphan : x.state ≠ .orphaned) (hwb : u = wbTag → x.state ≠ .done) (hrun : k.runOk) : k.steady := by
  have htag (v : WTag) : k.tag v = if v = u then x else g.tag v :=
    (congrArg (fun t => t[v.val]) hk).trans (Ring.tag_setTag g u v x)
  have hidle := not_idle_of_active ha
  have hfaulted := not_faulted_of_active ha
  refine ⟨fun hs => absurd (hstate.symm.trans hs) hidle, fun hs => absurd (hstate.symm.trans hs) hfaulted,
    fun _ v => ?_, ?_, ?_, ?_, fun _ => hrun⟩
  · rw [htag v]
    split_ifs
    · exact horphan
    · exact h.orphans hfaulted v
  · rw [htag wbTag]
    split_ifs with hu
    · exact hwb hu.symm
    · exact h.writeback
  · unfold Ring.n
    rw [hsize]
    exact h.size
  · rw [hstate, hcause]
    exact h.cause

theorem ne_wbTag {u : WTag} (hu : u ∈ recTags) : u ≠ wbTag := fun e => absurd (e ▸ hu) (by decide)

/-- A write in flight goes on: ISSUED, in BACKOFF or DONE, at its position (R133, R134). -/
theorem setTag_flying (h : g.steady) {u : WTag} (hu : (g.tag u).inFlight = true) {x : WriteTag} (hx : x.inFlight = true)
    (hpos : x.position = (g.tag u).position) (hwb : u = wbTag → x.state ≠ .done) : (g.setTag u x).steady := by
  have ha := h.active_of_flying hu
  refine h.setTag_active ha (u := u) (x := x) rfl rfl rfl rfl ?_ hwb ?_
  · intro ho
    simp [WriteTag.inFlight, ho] at hx
  · refine Ring.runOk_congr (g := g) rfl rfl rfl (fun v _ => ?_) (h.run ha)
    rw [Ring.tag_setTag]
    split_ifs with hv
    · rw [hv]
      exact ⟨hx.trans hu.symm, fun _ => hpos⟩
    · exact ⟨rfl, fun _ => rfl⟩

/-- The writeback tag becomes FREE or ISSUED (R140, R141). -/
theorem setTag_writeback (h : g.steady) (ha : g.active = true) {x : WriteTag} (hx : x.state = .free ∨ x.state = .issued) :
    (g.setTag wbTag x).steady := by
  refine h.setTag_active ha (u := wbTag) (x := x) rfl rfl rfl rfl ?_ (fun _ => ?_) ?_
  · obtain hx | hx := hx <;> simp [hx]
  · obtain hx | hx := hx <;> simp [hx]
  · refine Ring.runOk_congr (g := g) rfl rfl rfl (fun v hv => ?_) (h.run ha)
    rw [Ring.tag_setTag, if_neg (ne_wbTag hv)]
    exact ⟨rfl, fun _ => rfl⟩

/-- An issue (R130). -/
theorem issue (h : g.steady) (hstate : g.state = .running) (hspace : g.hasSpace = true) {u : WTag}
    (hu : g.freeRecTag = some u) (r : Record) : (g.setTag u (issuedTag g r)).steady := by
  obtain ⟨hu4, hfree, -⟩ := (g.freeRecTag_eq_some u).mp hu
  have hmem : u ∈ recTags := (mem_recTags u).mpr hu4
  have ha : g.active = true := g.active_iff.mpr (.inl hstate)
  refine h.setTag_active ha (u := u) (x := issuedTag g r) rfl rfl rfl rfl (by simp [issuedTag]) (by simp [issuedTag]) ?_
  exact Ring.runOk_issue (h.run ha) h.size hspace hmem (by simp [WriteTag.inFlight, hfree]) r

/-- A commit (R133). -/
theorem commit (h : g.steady) {u : WTag} (hu : g.producerTag = some u) :
    ((g.setTag u WriteTag.cleared).advanceProducer).steady := by
  obtain ⟨hmem, hfly, hpos⟩ := Ring.producerTag_spec hu
  have ha := h.active_of_flying hfly
  refine h.setTag_active ha (u := u) (x := WriteTag.cleared) rfl rfl rfl rfl nofun (fun _ => nofun) ?_
  exact (Ring.runOk_commit (h.run ha) h.size hmem hfly hpos).1

/-- In FAULTED a tag becomes FREE, or stays ORPHANED (R138). -/
theorem setTag_faulted (h : g.steady) (hs : g.state = .faulted) (u : WTag) {x : WriteTag}
    (hx : x.state = .free ∨ x.state = .orphaned) : (g.setTag u x).steady := by
  have hna : ¬(g.setTag u x).active = true := fun ha => not_faulted_of_active ha hs
  refine ⟨fun hi => ?_, fun _ v => ?_, fun hne => absurd hs hne, ?_, h.size, h.cause, fun ha => absurd ha hna⟩
  · rw [Ring.setTag_state, hs] at hi
    cases hi
  · rw [Ring.tag_setTag]
    split_ifs
    · exact hx
    · exact h.faulted hs v
  · rw [Ring.tag_setTag]
    split_ifs
    · obtain hx | hx := hx <;> simp [hx]
    · exact h.writeback

/-! ### The ring state -/

theorem countVoided_fields (g : Ring) (l : List Record) :
    (g.countVoided l).state = g.state ∧ (g.countVoided l).fault = g.fault ∧ (g.countVoided l).n = g.n := by
  cases l <;> exact ⟨rfl, rfl, rfl⟩

/-- A ring fault (R136). -/
theorem fault (hsize : ringSizeOk g.n = true) (cause : RingCause) (code : BitVec 4) (tag : Option WTag) (l : List Record) :
    ((g.toFaulted cause code tag).countVoided l).steady := by
  obtain ⟨hvstate, hvfault, hvn⟩ := countVoided_fields (g.toFaulted cause code tag) l
  obtain ⟨hfstate, hffault, -, -, hfsize, -⟩ := g.toFaulted_fields cause code tag
  have hstate : ((g.toFaulted cause code tag).countVoided l).state = .faulted := hvstate.trans hfstate
  have hdispose (u : WTag) : (((g.toFaulted cause code tag).countVoided l).tag u).state = .free ∨
      (((g.toFaulted cause code tag).countVoided l).tag u).state = .orphaned := by
    rw [Ring.countVoided_tag, Ring.toFaulted_tag, disposeTag_state]
    split_ifs <;> simp
  refine ⟨fun hi => ?_, fun _ => hdispose, fun hne => absurd hstate hne, ?_, ?_, ?_, fun ha => ?_⟩
  · rw [hstate] at hi
    cases hi
  · obtain hd | hd := hdispose wbTag <;> rw [hd] <;> simp
  · rw [hvn, Ring.n, hfsize]
    exact hsize
  · refine iff_of_true hstate ?_
    rw [hvfault, hffault]
    cases tag <;> simp [faultReg]
  · exact absurd hstate (not_faulted_of_active ha)

/-- A ring with every tag FREE is steady in any state but FAULTED, with no cause, and with the indexes of a run. -/
theorem of_free (hfree : ∀ u, (k.tag u).state = .free) (hs : k.state ≠ .faulted) (hcause : k.fault.cause = none)
    (hsize : ringSizeOk k.n = true)
    (hrun : k.active = true → k.producer.toNat < 2 * k.n ∧ k.consumer.toNat < 2 * k.n ∧ k.fill ≤ k.n) : k.steady := by
  refine ⟨fun _ => hfree, fun hf => absurd hf hs, fun _ u => by simp [hfree u], by simp [hfree wbTag], hsize,
    iff_of_false hs fun h => h hcause, fun ha => ?_⟩
  obtain ⟨hp, hc, hf⟩ := hrun ha
  have hfly (u : WTag) : (k.tag u).inFlight = false := by simp [WriteTag.inFlight, hfree u]
  have h0 : k.inFlight = 0 := by
    rw [Ring.inFlight, List.countP_eq_zero]
    intro u _
    simp [hfly u]
  exact ⟨hp, hc, by rwa [h0], fun u _ h => by simp [hfly u] at h, fun u _ v _ h => by simp [hfly u] at h⟩

/-- A STOPPING ring with every tag FREE stops (R145). -/
theorem stop (h : g.steady) (hs : g.state = .stopping) (hfree : ∀ u, (g.tag u).state = .free) :
    ({ g with state := .idle } : Ring).steady := by
  refine .of_free hfree (by simp) ?_ h.size fun ha => absurd rfl (not_idle_of_active ha)
  by_contra hc
  have := h.cause.mpr hc
  rw [hs] at this
  cases this

/-- RING_STOP (R145). -/
theorem stopping (h : g.steady) (hs : g.state = .running) : ({ g with state := .stopping } : Ring).steady := by
  have hf : g.state ≠ .faulted := by simp [hs]
  refine ⟨nofun, nofun, fun _ => h.orphans hf, h.writeback, h.size, iff_of_false nofun ?_, fun _ => ?_⟩
  · exact fun hc => hf (h.cause.mpr hc)
  · exact Ring.runOk_congr (g := g) rfl rfl rfl (fun _ _ => ⟨rfl, fun _ => rfl⟩) (h.run (g.active_iff.mpr (.inl hs)))

/-- A ring that is IDLE, or FAULTED without orphans, has every tag FREE. -/
theorem free_of_stopped (h : g.steady) (hs : g.state = .idle ∨ g.state = .faulted ∧ g.hasOrphan = false) (u : WTag) :
    (g.tag u).state = .free := by
  obtain hs | ⟨hs, horphan⟩ := hs
  · exact h.idle hs u
  · refine (h.faulted hs u).resolve_right fun ho => ?_
    rw [g.hasOrphan_iff.mpr ⟨u, ho⟩] at horphan
    cases horphan

end Ring.steady

end Sys2Proof.Machine
end

