-- ==== Sys2Proof/Proofs/Ready.lean ====
section
/-! PROOF. The output side between the parts of an event: the path, the ring, the command processor and an EXECUTING DRAIN. A part
of an event keeps the conditions here whatever the event is; the tests and the output advance restore the three that a part can
leave open for a moment. -/

namespace Sys2Proof.Machine

/-! ### The conditions -/

/-- The command processor (R26, R149, R151, R162), while command `run` runs, or none. -/
structure State.phased (run : Option Command) (s : State) : Prop where
  owner : s.owner = none → s.cmd.phase = .idle
  code : s.cmd.phase = .idle → s.cmd.code = 0
  params : s.cmd.phase = .params → ∃ c ∈ Command.all, c.takesParam = true ∧ s.cmd.code = c.code
  executing : s.cmd.phase = .executing → (s.cmd.code = Command.ringStop.code ∧ s.ring.state = .stopping) ∨
    s.cmd.code = Command.drain.code ∨ ∃ c, run = some c ∧ s.cmd.code = c.code
  words : if s.cmd.phase = .result then 1 ≤ s.cmd.results.length ∧ s.cmd.results.length ≤ 9 else s.cmd.results = []

/-- A DRAIN is EXECUTING that an earlier event began. -/
def State.draining (run : Option Command) (s : State) : Prop := run = none ∧ s.cmd.isExecuting .drain = true

/-- The conditions that every part of an event keeps. -/
structure State.sound (run : Option Command) (s : State) : Prop where
  ring : s.ring.steady
  staging : s.path.staging.length ≤ 8
  results : s.path.results.length ≤ 16
  ptr : s.path.results = [] → s.path.ptr = 0
  queue : s.path.mode = .queue → s.ring.state = .idle
  noResults : s.path.mode = .ring → s.path.results = []
  runs : s.draining run → s.path.mode = .ring → s.ring.state = .running
  phased : s.phased run

/-- A STOPPING ring has a busy tag (R145). -/
def State.stopsLater (s : State) : Prop := s.ring.state = .stopping → ∃ u, (s.tag u).state ≠ .free

/-- An EXECUTING DRAIN has something to wait for (R164). -/
def State.drainsLater (run : Option Command) (s : State) : Prop := s.draining run → s.drained = false

/-- The conditions that hold wherever the stop and drain tests are not due. -/
structure State.ready (run : Option Command) (s : State) : Prop where
  sound : s.sound run
  stops : s.stopsLater
  drains : s.drainsLater run

/-- And those that hold wherever the output advance is not due either. -/
structure State.full (run : Option Command) (s : State) : Prop where
  ready : s.ready run
  waits : s.pathWaits

variable {run : Option Command} {s t : State}

/-! ### What the conditions depend on -/

/-- The same path, ring and processor, and no slot leaves the watched ones. -/
structure Alike (s t : State) : Prop where
  path : t.path = s.path
  ring : t.ring = s.ring
  owner : t.owner = s.owner
  phase : t.cmd.phase = s.cmd.phase
  code : t.cmd.code = s.cmd.code
  words : t.cmd.results = s.cmd.results
  watching : ∀ i, (s.slot i).isWatching = true → (t.slot i).isWatching = true

theorem Alike.of_eq (hpath : t.path = s.path := by simp) (hring : t.ring = s.ring := by simp)
    (howner : t.owner = s.owner := by simp) (hcmd : t.cmd = s.cmd := by simp) (hslots : t.slots = s.slots := by simp) :
    Alike s t :=
  ⟨hpath, hring, howner, by rw [hcmd], by rw [hcmd], by rw [hcmd], fun i h => by unfold State.slot at h ⊢; rwa [hslots]⟩

theorem Alike.isExecuting (h : Alike s t) (c : Command) : t.cmd.isExecuting c = s.cmd.isExecuting c := by
  unfold Processor.isExecuting
  rw [h.phase, h.code]

theorem Alike.tag (h : Alike s t) (u : WTag) : t.tag u = s.tag u := congrArg (fun g => g.tag u) h.ring

/-- The processor's conditions with the same phase, code and words. -/
theorem State.phased.congr (h : s.phased run) (howner : t.owner = s.owner) (hphase : t.cmd.phase = s.cmd.phase)
    (hcode : t.cmd.code = s.cmd.code) (hwords : t.cmd.results = s.cmd.results)
    (hstop : s.cmd.isExecuting .ringStop = true → s.ring.state = .stopping → t.ring.state = .stopping) : t.phased run := by
  refine ⟨?_, ?_, ?_, ?_, ?_⟩
  · rw [howner, hphase]
    exact h.owner
  · rw [hphase, hcode]
    exact h.code
  · rw [hphase, hcode]
    exact h.params
  · rw [hphase, hcode]
    intro hx
    obtain ⟨hc, hs⟩ | hc := h.executing hx
    · exact .inl ⟨hc, hstop ((Processor.isExecuting_iff _ _).mpr ⟨hx, hc⟩) hs⟩
    · exact .inr hc
  · rw [hphase, hwords]
    exact h.words

theorem State.sound.alike (h : s.sound run) (hst : Alike s t) : t.sound run := by
  refine ⟨?_, ?_, ?_, ?_, ?_, ?_, ?_, ?_⟩
  · rw [hst.ring]
    exact h.ring
  · rw [hst.path]
    exact h.staging
  · rw [hst.path]
    exact h.results
  · rw [hst.path]
    exact h.ptr
  · rw [hst.path, hst.ring]
    exact h.queue
  · rw [hst.path]
    exact h.noResults
  · unfold State.draining
    rw [hst.isExecuting, hst.path, hst.ring]
    exact h.runs
  · exact h.phased.congr hst.owner hst.phase hst.code hst.words fun _ hs => by rw [hst.ring, hs]

theorem State.stopsLater.of_ring (h : s.stopsLater) (hr : t.ring = s.ring) : t.stopsLater := by
  unfold State.stopsLater State.tag
  rw [hr]
  exact h

theorem State.drained_eq_false (h : t.drained = true → s.drained = true) (hs : s.drained = false) : t.drained = false := by
  cases ht : t.drained with
  | false => rfl
  | true => exact absurd (h ht) (by simp [hs])

theorem Alike.drained (h : Alike s t) (ht : t.drained = true) : s.drained = true := by
  rw [State.drained_iff] at ht ⊢
  obtain ⟨hslots, hstaging, htags⟩ := ht
  rw [h.path] at hstaging htags
  refine ⟨fun i => ?_, hstaging, fun hmode u => by rw [← h.tag u]; exact htags hmode u⟩
  by_contra hi
  rw [not_or] at hi
  have hw := (Slot.isWatching_iff _).mp (h.watching i ((Slot.isWatching_iff _).mpr hi))
  obtain hf | hf := hslots i
  · exact hw.1 hf
  · exact hw.2 hf

theorem State.ready.alike (h : s.ready run) (hst : Alike s t) : t.ready run where
  sound := h.sound.alike hst
  stops := h.stops.of_ring hst.ring
  drains hd := by
    unfold State.draining at hd
    rw [hst.isExecuting] at hd
    exact State.drained_eq_false hst.drained (h.drains hd)

/-- The output path's wait, with the same of the ring as its issue step sees it. -/
theorem State.pathWaits.congr (h : s.pathWaits) (hstaging : t.path.staging = s.path.staging)
    (hresults : t.path.results = s.path.results) (hmode : t.path.mode = s.path.mode)
    (hqueue : t.closeQueue ≠ [] → s.closeQueue ≠ [])
    (hring : t.ring.state = .running → s.ring.state = .running ∧ t.ring.hasSpace = s.ring.hasSpace ∧
      t.ring.policy = s.ring.policy ∧ ∀ u ∈ recTags, (t.tag u).state = .free → (s.tag u).state = .free) : t.pathWaits := by
  obtain ⟨hclose, hq, hr⟩ := h
  refine ⟨fun hne => ?_, ?_, fun hm hs => ?_⟩
  · rw [hstaging]
    exact hclose (hqueue hne)
  · rw [hmode, hstaging, hresults]
    exact hq
  · obtain ⟨hs', hspace, hpolicy, hfree⟩ := hring hs
    rw [hmode] at hm
    unfold State.issueWaits
    rw [hstaging, hspace, hpolicy]
    obtain h0 | ⟨h1, h2⟩ | h3 := hr hm hs'
    · exact .inl h0
    · exact .inr (.inl ⟨h1, fun u hu hf => h2 u hu (hfree u hu hf)⟩)
    · exact .inr (.inr h3)

theorem State.full.alike (h : s.full run) (hst : Alike s t) (hqueue : t.closeQueue ≠ [] → s.closeQueue ≠ []) :
    t.full run where
  ready := h.ready.alike hst
  waits := by
    refine h.waits.congr (by rw [hst.path]) (by rw [hst.path]) (by rw [hst.path]) hqueue fun hs => ?_
    rw [hst.ring] at hs ⊢
    exact ⟨hs, rfl, rfl, fun u _ hf => by rwa [hst.tag u] at hf⟩

theorem State.full.of_eq (h : s.full run) (hst : Alike s t) (hqueue : t.closeQueue = s.closeQueue) : t.full run :=
  h.alike hst fun hne => by rwa [hqueue] at hne

/-! ### A command ends -/

section Ends

variable {st : Status} {d : BitVec 16} {l : List Word}

theorem endWith_not_executing (s : State) (c : Command) : (endWith st d l s).cmd.isExecuting c = false := by
  simp [endWith, Processor.isExecuting, Processor.finish]

/-- The conditions after a command's end, from those of the path and the ring alone (R153). -/
theorem sound_endWith {run' : Option Command} (h : s.sound run) (howner : s.owner ≠ none) (hl : l.length ≤ 8) :
    (endWith st d l s).sound run' := by
  have hnot : ¬(endWith st d l s).draining run' := fun hd => by
    have := hd.2
    rw [endWith_not_executing] at this
    cases this
  have hpath : (endWith st d l s).path = s.path := by simp
  have hring : (endWith st d l s).ring = s.ring := by simp
  refine ⟨by rw [hring]; exact h.ring, by rw [hpath]; exact h.staging, by rw [hpath]; exact h.results,
    by rw [hpath]; exact h.ptr, by rw [hpath, hring]; exact h.queue, by rw [hpath]; exact h.noResults,
    fun hd => absurd hd hnot, ?_⟩
  refine ⟨fun ho => ?_, nofun, nofun, nofun, ?_⟩
  · have : (endWith st d l s).owner = s.owner := by simp
    exact absurd (this.symm.trans ho) howner
  · show 1 ≤ (statusWord st s.cmd.code d :: if st = .ok then l else []).length ∧
      (statusWord st s.cmd.code d :: if st = .ok then l else []).length ≤ 9
    split_ifs
    · simp only [List.length_cons]
      omega
    · simp

theorem ready_endWith {run' : Option Command} (h : s.sound run) (hstops : s.stopsLater) (howner : s.owner ≠ none)
    (hl : l.length ≤ 8) : (endWith st d l s).ready run' where
  sound := sound_endWith h howner hl
  stops := hstops.of_ring (by simp)
  drains hd := by
    have := hd.2
    rw [endWith_not_executing] at this
    cases this

theorem pathWaits_endWith (h : s.pathWaits) : (endWith st d l s).pathWaits :=
  h.congr (by simp) (by simp) (by simp) (by simp) fun hs => ⟨hs, rfl, rfl, fun _ _ => id⟩

theorem full_endWith {run' : Option Command} (h : s.full run) (howner : s.owner ≠ none) (hl : l.length ≤ 8) :
    (endWith st d l s).full run' :=
  ⟨ready_endWith h.ready.sound h.ready.stops howner hl, pathWaits_endWith h.waits⟩

end Ends

theorem State.phased.owned (h : s.phased run) (hx : s.cmd.phase ≠ .idle) : s.owner ≠ none := fun ho => hx (h.owner ho)

theorem State.phased.owned_of_executing (h : s.phased run) {c : Command} (hx : s.cmd.isExecuting c = true) :
    s.owner ≠ none := by
  obtain ⟨hp, -⟩ := (Processor.isExecuting_iff _ _).mp hx
  exact h.owned (by simp [hp])

/-! ### The tests -/

/-- After the drain test no DRAIN is left behind. -/
theorem drainTest_drainsLater (run : Option Command) (s : State) : (drainTest s).drainsLater run := by
  intro ⟨_, hx⟩
  unfold drainTest at hx ⊢
  split_ifs at hx ⊢ with h
  · rw [show (endCommand .ok s).cmd.isExecuting .drain = false from endWith_not_executing s .drain] at hx
    cases hx
  · rw [hx, Bool.true_and, Bool.not_eq_true] at h
    exact h

theorem drainTest_sound (h : s.sound run) : (drainTest s).sound run := by
  unfold drainTest
  split_ifs with hd
  · rw [Bool.and_eq_true] at hd
    exact sound_endWith h (h.phased.owned_of_executing hd.1) (by simp)
  · exact h

theorem drainTest_ready (h : s.sound run) (hs : s.stopsLater) : (drainTest s).ready run :=
  ⟨drainTest_sound h, hs.of_ring (by simp), drainTest_drainsLater run s⟩

theorem drainTest_pathWaits (h : s.pathWaits) : (drainTest s).pathWaits := by
  unfold drainTest
  split_ifs
  · exact pathWaits_endWith h
  · exact h

theorem drainTest_full (h : s.sound run) (hs : s.stopsLater) (hw : s.pathWaits) : (drainTest s).full run :=
  ⟨drainTest_ready h hs, drainTest_pathWaits hw⟩

/-- A STOPPING ring with every tag FREE, IDLE. -/
theorem sound_idle (h : s.sound run) (hs : s.ring.state = .stopping) (hfree : ∀ u, (s.tag u).state = .free)
    (hx : s.cmd.isExecuting .ringStop = false) :
    ({ s with ring := { s.ring with state := .idle } } : State).sound run where
  ring := h.ring.stop hs hfree
  staging := h.staging
  results := h.results
  ptr := h.ptr
  queue _ := rfl
  noResults := h.noResults
  runs hd hm := by
    have hr := h.runs hd hm
    rw [hs] at hr
    cases hr
  phased := h.phased.congr rfl rfl rfl rfl fun hx' => by rw [hx] at hx'; cases hx'

theorem stopTest_sound (h : s.sound run) : (stopTest s).sound run := by
  by_cases hc : s.ring.state = .stopping ∧ ∀ u : WTag, (s.tag u).state = .free
  · rw [stopTest_of hc]
    by_cases hx : s.cmd.isExecuting .ringStop = true
    · have howner := h.phased.owned_of_executing hx
      have hend : ({ endWith .ok 0 [s.ring.producer.setWidth 32] s with ring := { s.ring with state := .idle } } : State).sound run :=
        sound_idle (s := endWith .ok 0 [s.ring.producer.setWidth 32] s) (sound_endWith h howner (by simp)) hc.1 hc.2
          (endWith_not_executing s .ringStop)
      rw [if_pos hx]
      exact hend
    · rw [if_neg hx]
      exact sound_idle h hc.1 hc.2 (by simpa using hx)
  · rw [stopTest_of_not hc]
    exact h

theorem stopTest_stopsLater (s : State) : (stopTest s).stopsLater := by
  by_cases hc : s.ring.state = .stopping ∧ ∀ u : WTag, (s.tag u).state = .free
  · rw [stopTest_of hc]
    intro hs
    split_ifs at hs
    cases hs
  · rw [stopTest_of_not hc]
    intro hs
    by_contra hall
    rw [not_exists] at hall
    exact hc ⟨hs, fun u => not_not.mp (hall u)⟩

theorem stopTest_pathWaits (h : s.pathWaits) : (stopTest s).pathWaits := by
  by_cases hc : s.ring.state = .stopping ∧ ∀ u : WTag, (s.tag u).state = .free
  · have hidle : (stopTest s).ring.state = .idle := by
      rw [stopTest_of hc]
      split_ifs
      · rfl
      · rfl
    refine h.congr (by simp) (by simp) (by simp) (by simp) fun hs => ?_
    rw [hidle] at hs
    cases hs
  · rw [stopTest_of_not hc]
    exact h

/-- After the stop test and the drain test nothing is due but the output advance. -/
theorem tests_ready (h : s.sound run) : (drainTest (stopTest s)).ready run :=
  drainTest_ready (stopTest_sound h) (stopTest_stopsLater s)

theorem tests_full (h : s.sound run) (hw : s.pathWaits) : (drainTest (stopTest s)).full run :=
  ⟨tests_ready h, drainTest_pathWaits (stopTest_pathWaits hw)⟩

theorem stopTest_ready (h : s.ready run) : (stopTest s).ready run where
  sound := stopTest_sound h.sound
  stops := stopTest_stopsLater s
  drains := by
    by_cases hc : s.ring.state = .stopping ∧ ∀ u : WTag, (s.tag u).state = .free
    · exact absurd hc.2 (by simpa using h.stops hc.1)
    · rw [stopTest_of_not hc]
      exact h.drains

end Sys2Proof.Machine
end

