-- ==== Sys2Proof/Proofs/Paths.lean ====
section
/-! PROOF. The output side through the output advance, the commits, the faults, and the replies for the observer's own writes. -/

namespace Sys2Proof.Machine

variable {run : Option Command} {s t : State}

/-! ### The output advance (R109, R110, R117, R130, R131) -/

/-- The path changes, in the same mode. -/
theorem sound_path (h : s.sound run) (hring : t.ring.steady) (hstate : t.ring.state = s.ring.state)
    (howner : t.owner = s.owner) (hcmd : t.cmd = s.cmd) (hmode : t.path.mode = s.path.mode)
    (hstaging : t.path.staging.length ≤ 8) (hresults : t.path.results.length ≤ 16)
    (hptr : t.path.results = [] → t.path.ptr = 0) (hnone : s.path.mode = .ring → t.path.results = []) : t.sound run where
  ring := hring
  staging := hstaging
  results := hresults
  ptr := hptr
  queue hm := hstate.trans (h.queue (hmode.symm.trans hm))
  noResults hm := hnone (hmode.symm.trans hm)
  runs hd hm := by
    unfold State.draining at hd
    rw [hcmd] at hd
    exact hstate.trans (h.runs hd (hmode.symm.trans hm))
  phased := h.phased.congr howner (by rw [hcmd]) (by rw [hcmd]) (by rw [hcmd]) fun _ hs => hstate.trans hs

/-- Neither a busy tag in ring mode nor a record in staging lets a DRAIN end. -/
theorem not_drained_of_busy {u : WTag} (hm : s.path.mode = .ring) (hu : (s.tag u).state ≠ .free) : s.drained = false := by
  cases h : s.drained with
  | false => rfl
  | true => exact absurd (((s.drained_iff).mp h).2.2 hm u) hu

theorem not_drained_of_staging (h : s.path.staging ≠ []) : s.drained = false := by
  cases hd : s.drained with
  | false => rfl
  | true => exact absurd (((s.drained_iff).mp hd).2.1) h

theorem toQueue_ready (h : s.ready run) {x : Record} {rest : List Record} (hx : s.path.staging = x :: rest)
    (hmode : s.path.mode = .queue) (hroom : s.path.results.length < 16) : (moveToQueue x rest s).ready run := by
  have hlen := h.sound.staging
  rw [hx, List.length_cons] at hlen
  have hpath : (s.setPath { s.path with staging := rest, results := s.path.results ++ [x] }).sound run := by
    refine sound_path h.sound h.sound.ring rfl rfl rfl rfl ?_ ?_ ?_ ?_
    · show rest.length ≤ 8
      omega
    · show (s.path.results ++ [x]).length ≤ 16
      rw [List.length_append, List.length_singleton]
      omega
    · exact fun hnil => absurd hnil (List.append_ne_nil_of_right_ne_nil _ (List.cons_ne_nil _ _))
    · intro hm
      rw [hmode] at hm
      cases hm
  unfold moveToQueue
  refine drainTest_ready (hpath.alike .of_eq) (h.stops.of_ring (by simp))

/-- An issue of a RUNNING ring: a tag is busy now, and staging is no longer. -/
theorem issue_ready (h : s.ready run) {u : WTag} (hmode : s.path.mode = .ring) (hrun : s.ring.state = .running)
    (hring : t.ring.steady) (htag : (t.tag u).state ≠ .free) (hstate : t.ring.state = s.ring.state)
    (howner : t.owner = s.owner) (hcmd : t.cmd = s.cmd) (hpath : t.path = { s.path with staging := t.path.staging })
    (hlen : t.path.staging.length ≤ s.path.staging.length) : t.ready run := by
  have hpmode : t.path.mode = s.path.mode := by rw [hpath]
  have hpresults : t.path.results = s.path.results := by rw [hpath]
  have hpptr : t.path.ptr = s.path.ptr := by rw [hpath]
  refine ⟨sound_path h.sound hring hstate howner hcmd hpmode (hlen.trans h.sound.staging) ?_ ?_ ?_, fun hs => ?_, fun _ => ?_⟩
  · rw [hpresults]
    exact h.sound.results
  · rw [hpresults, hpptr]
    exact h.sound.ptr
  · rw [hpresults]
    exact h.sound.noResults
  · rw [hstate, hrun] at hs
    cases hs
  · exact not_drained_of_busy (hpmode.trans hmode) htag

theorem drop_ready (h : s.ready run) {x : Record} {rest : List Record} (hx : s.path.staging = x :: rest) :
    (dropHead x rest s).ready run := by
  have hlen := h.sound.staging
  rw [hx, List.length_cons] at hlen
  have hring : (s.ring.countDrop x).steady :=
    h.sound.ring.congr rfl rfl rfl h.sound.ring.size fun _ => ⟨rfl, rfl, rfl⟩
  have hpath : ((s.setPath { s.path with staging := rest }).setRing (s.ring.countDrop x)).sound run := by
    refine sound_path h.sound hring rfl rfl rfl rfl ?_ h.sound.results h.sound.ptr h.sound.noResults
    show rest.length ≤ 8
    omega
  unfold dropHead
  refine drainTest_ready (hpath.alike .of_eq) (State.stopsLater.of_ring (s := s.setRing (s.ring.countDrop x)) ?_ (by simp))
  exact h.stops

theorem enter_ready (h : s.ready run) {i : SlotId} {rest : List SlotId} (hroom : s.path.staging.length < 8) :
    (enterStaging i rest s).ready run := by
  have hpath := enterStaging_path i rest s
  have hring : (enterStaging i rest s).ring = s.ring := by simp
  have hstaging : (enterStaging i rest s).path.staging ≠ [] := by
    rw [hpath]
    exact List.append_ne_nil_of_right_ne_nil _ (List.cons_ne_nil _ _)
  refine ⟨sound_path h.sound ?_ (by rw [hring]) (by simp) (by simp) (by rw [hpath]) ?_ ?_ ?_ ?_, h.stops.of_ring hring,
    fun _ => not_drained_of_staging hstaging⟩
  · rw [hring]
    exact h.sound.ring
  · rw [hpath]
    show (s.path.staging ++ [_]).length ≤ 8
    rw [List.length_append, List.length_singleton]
    omega
  · rw [hpath]
    exact h.sound.results
  · rw [hpath]
    exact h.sound.ptr
  · rw [hpath]
    exact h.sound.noResults

theorem pathMove_ready (h : PathMove s t) (hs : s.ready run) : t.ready run := by
  cases h with
  | toQueue x rest hx hmode hroom => exact toQueue_ready hs hx hmode hroom
  | gap u hne hmode hrun hspace hu hlost =>
    have hissue := hs.sound.ring.issue hrun hspace hu (composeGap s.ring.firstLost s.ring.lostPending s.tb.time)
    have hgap : (issueGap u s).ring.steady := hissue.congr rfl rfl rfl hissue.size fun _ => ⟨rfl, rfl, rfl⟩
    have htag : (issueGap u s).tag u = issuedTag s.ring (composeGap s.ring.firstLost s.ring.lostPending s.tb.time) :=
      Ring.tag_setTag_self s.ring u _
    exact issue_ready (u := u) hs hmode hrun hgap (by rw [htag]; simp [issuedTag]) rfl rfl rfl rfl le_rfl
  | head u x rest hx hmode hrun hspace hu hlost =>
    have hissue : (issueHead u x rest s).ring.steady := hs.sound.ring.issue hrun hspace hu x
    have htag : (issueHead u x rest s).tag u = issuedTag s.ring x := Ring.tag_setTag_self s.ring u _
    refine issue_ready (u := u) hs hmode hrun hissue (by rw [htag]; simp [issuedTag]) rfl rfl rfl rfl ?_
    rw [hx]
    exact Nat.le_succ _
  | drop x rest hx => exact drop_ready hs hx
  | enter i rest hi hroom => exact enter_ready hs hroom

/-- The output advance leaves nothing due. -/
theorem advance_full (h : s.ready run) : (advance s).full run :=
  ⟨(advance_pathMoves s).keeps (P := State.ready run) (fun _ _ => pathMove_ready) h, advance_waits s⟩

/-! ### Changes of one write tag -/

/-- The ring changes, not its state. -/
theorem sound_ring (h : s.sound run) (hring : t.ring.steady) (hstate : t.ring.state = s.ring.state)
    (hpath : t.path = s.path) (howner : t.owner = s.owner) (hcmd : t.cmd = s.cmd) : t.sound run :=
  sound_path h hring hstate howner hcmd (by rw [hpath]) (by rw [hpath]; exact h.staging) (by rw [hpath]; exact h.results)
    (by rw [hpath]; exact h.ptr) (by rw [hpath]; exact h.noResults)

theorem mode_of_not_idle (h : s.sound run) (hs : s.ring.state ≠ .idle) : s.path.mode = .ring := by
  cases hm : s.path.mode with
  | ring => rfl
  | queue => exact absurd (h.queue hm) hs

/-- A DRAIN does not wait for a ring that has stopped or failed. -/
theorem not_draining (h : s.sound run) (hidle : s.ring.state ≠ .idle) (hrun : s.ring.state ≠ .running) :
    ¬s.draining run := fun hd => hrun (h.runs hd (mode_of_not_idle h hidle))

/-- A write in flight goes on at its position. -/
theorem flying_full (h : s.full run) {u : WTag} (hu : (s.tag u).inFlight = true) {x : WriteTag} (hx : x.inFlight = true)
    (hpos : x.position = (s.tag u).position) (hwb : u = wbTag → x.state ≠ .done) : (s.setTag u x).full run := by
  have hsound := h.ready.sound
  have ha := hsound.ring.active_of_flying hu
  have hfree : x.state ≠ .free := by
    intro hf
    simp [WriteTag.inFlight, hf] at hx
  have htag : ((s.setTag u x).tag u).state ≠ .free := by rwa [State.tag_setTag_self]
  have hmode := mode_of_not_idle hsound (Ring.steady.not_idle_of_active ha)
  refine ⟨⟨sound_ring hsound (hsound.ring.setTag_flying hu hx hpos hwb) rfl rfl rfl rfl, fun _ => ⟨u, htag⟩,
    fun _ => not_drained_of_busy hmode htag⟩, h.waits.congr rfl rfl rfl id fun hs => ⟨hs, ?_, rfl, fun v hv hf => ?_⟩⟩
  · have hfly : (s.ring.setTag u x).inFlight = s.ring.inFlight := Ring.inFlight_congr fun v _ => by
      rw [Ring.tag_setTag]
      split_ifs with hvu
      · rw [hvu]
        exact hx.trans hu.symm
      · rfl
    show decide (s.ring.fill + (s.ring.setTag u x).inFlight < s.ring.n) = s.ring.hasSpace
    rw [hfly]
    rfl
  · rw [State.tag_setTag] at hf
    split_ifs at hf
    · exact absurd hf hfree
    · exact hf

/-- A tag of a FAULTED ring becomes FREE, or stays ORPHANED. -/
theorem orphan_full (h : s.full run) (hs : s.ring.state = .faulted) (u : WTag) {x : WriteTag}
    (hx : x.state = .free ∨ x.state = .orphaned) : (s.setTag u x).full run := by
  have hsound := h.ready.sound
  have hnew := sound_ring hsound (t := s.setTag u x) (hsound.ring.setTag_faulted hs u hx) rfl rfl rfl rfl
  have hfaulted : (s.setTag u x).ring.state = .faulted := hs
  refine ⟨⟨hnew, fun hst => ?_, fun hd => absurd hd (not_draining hnew ?_ ?_)⟩, h.waits.congr rfl rfl rfl id fun hr => ?_⟩
  · rw [hfaulted] at hst
    cases hst
  · rw [hfaulted]
    simp
  · rw [hfaulted]
    simp
  · rw [hfaulted] at hr
    cases hr

theorem freeOrphan_full (h : s.full run) {u : WTag} (hu : (s.tag u).state = .orphaned) : (freeOrphan u s).full run := by
  have hfree := orphan_full h (h.ready.sound.ring.faulted_of_orphan hu) u (x := WriteTag.cleared) (.inl rfl)
  exact tests_full hfree.ready.sound hfree.waits

/-- The writeback tag becomes FREE or ISSUED. -/
theorem writebackTag_sound (h : s.sound run) (ha : s.ring.active = true) {x : WriteTag}
    (hx : x.state = .free ∨ x.state = .issued) : (s.setTag wbTag x).sound run :=
  sound_ring h (h.ring.setTag_writeback ha hx) rfl rfl rfl rfl

theorem writebackTag_waits (h : s.pathWaits) (x : WriteTag) : (s.setTag wbTag x).pathWaits := by
  refine h.congr rfl rfl rfl id fun hs => ⟨hs, ?_, rfl, fun v hv hf => ?_⟩
  · have hfly : (s.ring.setTag wbTag x).inFlight = s.ring.inFlight := Ring.inFlight_congr fun v hv => by
      rw [Ring.tag_setTag, if_neg (Ring.steady.ne_wbTag hv)]
    show decide (s.ring.fill + (s.ring.setTag wbTag x).inFlight < s.ring.n) = s.ring.hasSpace
    rw [hfly]
    rfl
  · rwa [State.tag_setTag, if_neg (Ring.steady.ne_wbTag hv)] at hf

theorem writebackIfDue_sound (h : s.sound run) : (writebackIfDue s).sound run := by
  unfold writebackIfDue
  split_ifs with hd
  · obtain ⟨-, -, hactive⟩ := (writebackIfDue_iff s).mp hd
    have hw := writebackTag_sound h (s.ring.active_iff.mpr hactive) (.inr rfl)
      (x := { WriteTag.cleared with state := .issued, value := s.ring.producer, dest := s.ring.node })
    exact hw.alike (.of_eq rfl rfl rfl rfl rfl)
  · exact h

theorem writebackIfDue_waits (h : s.pathWaits) : (writebackIfDue s).pathWaits := by
  unfold writebackIfDue
  split_ifs
  · exact writebackTag_waits h _
  · exact h

theorem completeWriteback_full (h : s.full run) (hu : (s.tag wbTag).inFlight = true) :
    (completeWriteback s).full run := by
  have ha := h.ready.sound.ring.active_of_flying hu
  have hsound := writebackTag_sound h.ready.sound ha (x := WriteTag.cleared) (.inl rfl)
  have hwaits := writebackTag_waits h.waits WriteTag.cleared
  unfold completeWriteback afterTagFree
  dsimp only
  split_ifs
  · exact tests_full hsound hwaits
  · exact tests_full (writebackIfDue_sound hsound) (writebackIfDue_waits hwaits)

/-! ### Commits (R133) -/

theorem commitTag_sound (h : s.sound run) {u : WTag} (hu : s.ring.producerTag = some u) : (commitTag u s).sound run := by
  refine sound_ring h ?_ ?_ (by simp) (by simp) (by simp)
  · rw [commitTag_ring]
    exact h.ring.commit hu
  · rw [commitTag_ring]
    rfl

theorem afterCommit_full (h : s.sound run) : (afterCommit s).full run :=
  advance_full (tests_ready (writebackIfDue_sound h))

theorem commitRun_full (h : s.full run) : (commitRun s).full run := by
  cases hc : commitOnce s with
  | none =>
    rw [commitRun_of_none hc]
    exact h
  | some v =>
    obtain ⟨u, hu, -, rfl⟩ := (commitOnce_eq_some s v).mp hc
    rw [commitRun_of_some hc]
    exact afterCommit_full (commitLoop_keeps (P := State.sound run) (fun _ _ hp _ hs => commitTag_sound hs hp) 3 _
      (commitTag_sound h.ready.sound hu))

/-! ### Faults (R136) -/

/-- A fault of a ring while neither RING_STOP nor DRAIN is EXECUTING. -/
theorem full_of_fault (h : s.full run) (hs : s.ring.state ≠ .idle) (hstop : s.cmd.isExecuting .ringStop = false)
    (hdrain : s.cmd.isExecuting .drain = false) {cause : RingCause} {code : BitVec 4} {tag : Option WTag} {l : List Record}
    (hring : t.ring = (s.ring.toFaulted cause code tag).countVoided l) (hpath : t.path = s.path) (howner : t.owner = s.owner)
    (hcmd : t.cmd = s.cmd) (hqueue : t.closeQueue = s.closeQueue) : t.full run := by
  have hsound := h.ready.sound
  have hfaulted : t.ring.state = .faulted := by
    rw [hring, (Ring.steady.countVoided_fields _ l).1]
    exact (s.ring.toFaulted_fields cause code tag).1
  have hnot : ¬t.draining run := fun hd => by
    have hx := hd.2
    rw [hcmd, hdrain] at hx
    cases hx
  refine ⟨⟨⟨?_, by rw [hpath]; exact hsound.staging, by rw [hpath]; exact hsound.results, by rw [hpath]; exact hsound.ptr,
    fun hm => ?_, by rw [hpath]; exact hsound.noResults, fun hd => absurd hd hnot, ?_⟩, fun hst => ?_,
    fun hd => absurd hd hnot⟩, h.waits.congr (by rw [hpath]) (by rw [hpath]) (by rw [hpath]) (by rw [hqueue]; exact id)
      fun hr => ?_⟩
  · rw [hring]
    exact Ring.steady.fault hsound.ring.size cause code tag l
  · rw [hpath] at hm
    exact absurd (hsound.queue hm) hs
  · refine hsound.phased.congr howner (by rw [hcmd]) (by rw [hcmd]) (by rw [hcmd]) fun hx => ?_
    rw [hstop] at hx
    cases hx
  · rw [hfaulted] at hst
    cases hst
  · rw [hfaulted] at hr
    cases hr

theorem ringFault_full (h : s.full run) (hs : s.ring.state ≠ .idle) (cause : RingCause) (code : BitVec 4)
    (tag : Option WTag) : (ringFault cause code tag s).full run := by
  have hfault : ∃ v : State, ringFault cause code tag s = endOnFault v ∧ v.path = s.path ∧ v.owner = s.owner ∧
      v.cmd = s.cmd ∧ v.closeQueue = s.closeQueue ∧
      v.ring = (s.ring.toFaulted cause code tag).countVoided s.ring.voided :=
    ⟨_, rfl, by simp, by simp, by simp, by simp, by simp [voidRecords_ring]⟩
  obtain ⟨v, heq, hpath, howner, hcmd, hqueue, hring⟩ := hfault
  rw [heq]
  unfold endOnFault
  rw [hcmd]
  split_ifs with hx
  · have howned : s.owner ≠ none := by
      rw [Bool.or_eq_true] at hx
      exact hx.elim h.ready.sound.phased.owned_of_executing h.ready.sound.phased.owned_of_executing
    refine full_of_fault (s := endCommand .ringFaulted s) (full_endWith h howned (by simp)) hs
      (endWith_not_executing s .ringStop) (endWith_not_executing s .drain) hring hpath howner ?_ hqueue
    show v.cmd.finish _ _ _ = s.cmd.finish _ _ _
    rw [hcmd]
  · rw [Bool.not_eq_true, Bool.or_eq_false_iff] at hx
    exact full_of_fault h hs hx.1 hx.2 hring hpath howner hcmd hqueue

/-! ### Replies to the observer's own writes (R15, R133–R135, R141) -/

theorem inFlight_of_issued {x : WriteTag} (h : x.state = .issued) : x.inFlight = true := by
  simp [WriteTag.inFlight, h]

theorem not_idle_of_flying (h : s.full run) {u : WTag} (hu : (s.tag u).inFlight = true) : s.ring.state ≠ .idle :=
  Ring.steady.not_idle_of_active (h.ready.sound.ring.active_of_flying hu)

theorem completeTag_full (h : s.full run) {u : WTag} (hu : (s.tag u).state = .issued) : (completeTag u s).full run := by
  unfold completeTag
  split_ifs with hwb
  · rw [hwb] at hu
    exact completeWriteback_full h (inFlight_of_issued hu)
  · exact commitRun_full (flying_full h (inFlight_of_issued hu) (x := { s.tag u with state := .done }) rfl rfl
      fun e => absurd e hwb)

theorem bounceTag_full (h : s.full run) {u : WTag} (hu : (s.tag u).state = .issued) : (bounceTag u s).full run := by
  have hfly := inFlight_of_issued hu
  unfold bounceTag
  dsimp only
  split_ifs
  · have hcount := flying_full h hfly (x := { s.tag u with bounces := (s.tag u).bounces + 1 }) hfly rfl fun _ => by simp [hu]
    have hne : s.ring.state ≠ .idle := not_idle_of_flying h hfly
    exact ringFault_full hcount hne _ _ _
  · exact flying_full h hfly rfl rfl fun _ => by simp

theorem setDev_full (h : s.full run) (d : DevStats) : (s.setDev d).full run :=
  h.of_eq (.of_eq rfl rfl rfl rfl rfl) rfl

theorem replyToIssued_full (h : s.full run) {u : WTag} (hu : (s.tag u).state = .issued) (b : ReplyBody) :
    (replyToIssued u b s).full run := by
  cases b with
  | done => exact completeTag_full h hu
  | data p => exact completeTag_full (setDev_full h _) hu
  | bounce => exact bounceTag_full h hu
  | fault code => exact ringFault_full h (not_idle_of_flying h (inFlight_of_issued hu)) _ _ _

theorem ownReply_full (h : s.full run) (r : Reply) : (ownReply r s).full run := by
  unfold ownReply replyToTag
  split_ifs with h5
  · cases hu : (s.tag ⟨r.tag.val, h5⟩).state with
    | issued => exact replyToIssued_full h hu r.body
    | orphaned => exact freeOrphan_full h hu
    | free => exact setDev_full h _
    | backoff => exact setDev_full h _
    | done => exact setDev_full h _
  · exact setDev_full h _

/-! ### The ring's part of a tick and of a withdrawal (R40, R146) -/

theorem reissueTag_full (h : s.full run) (u : WTag) : (reissueTag s u).full run := by
  unfold reissueTag
  split_ifs with hc
  · have hfly : (s.tag u).inFlight = true := by simp [WriteTag.inFlight, hc.1]
    exact (flying_full h hfly (x := { s.tag u with state := .issued, age := 0 }) rfl rfl fun _ => by simp).of_eq (.of_eq rfl rfl rfl rfl rfl) rfl
  · exact h

theorem tickBackoff_full (h : s.full run) (u : WTag) : (tickBackoff s u).full run := by
  unfold tickBackoff
  split_ifs with hb
  · have hfly : (s.tag u).inFlight = true := by simp [WriteTag.inFlight, hb]
    exact reissueTag_full (flying_full h hfly (x := { s.tag u with backoff := BitVec.ofNat 8 ((s.tag u).backoff.toNat - 1) }) hfly rfl fun _ => by simp [hb]) u
  · exact h

theorem timeoutTag_full (h : s.full run) (u : WTag) : (timeoutTag u s).full run := by
  unfold timeoutTag
  split_ifs with hc
  · exact ringFault_full h (not_idle_of_flying h (inFlight_of_issued hc.1)) _ _ _
  · exact h

theorem expireOrphan_full (h : s.full run) (u : WTag) : (expireOrphan u s).full run := by
  unfold expireOrphan
  split_ifs with hc
  · exact freeOrphan_full h hc.1
  · exact h

theorem limitTest_full (h : s.full run) (u : WTag) : (limitTest u s).full run := by
  unfold limitTest
  cases (s.tag u).state with
  | issued => exact timeoutTag_full h u
  | orphaned => exact expireOrphan_full h u
  | free => exact h
  | backoff => exact h
  | done => exact h

theorem tickAge_full (h : s.full run) (g : Ring) (u : WTag) : (tickAge g s u).full run := by
  unfold tickAge
  split_ifs with hc
  · refine limitTest_full ?_ u
    have ho : (s.tag u).state = .issued ∨ (s.tag u).state = .orphaned := by
      simpa [WriteTag.outstanding] using hc.2
    obtain hi | ho := ho
    · exact flying_full h (inFlight_of_issued hi) (x := { s.tag u with age := satInc (s.tag u).age }) (inFlight_of_issued hi) rfl
        fun _ => by simp [hi]
    · exact orphan_full h (h.ready.sound.ring.faulted_of_orphan ho) u (.inr ho)
  · exact h

theorem foldl_full {α : Type} {f : State → α → State} (hf : ∀ s x, s.full run → (f s x).full run) (l : List α)
    (h : s.full run) : (l.foldl f s).full run := foldl_keeps f hf l s h

theorem tickRing_full (h : s.full run) (g : Ring) : (tickRing g s).full run :=
  foldl_full (fun _ u hs => tickAge_full hs g u) allTags (foldl_full (fun _ u hs => tickBackoff_full hs u) allTags h)

theorem ringWithdraw_full (h : s.full run) (n : Node) : (ringWithdraw n s).full run := by
  unfold ringWithdraw
  cases hs : s.ring.state with
  | idle => exact h
  | running =>
    dsimp only
    split_ifs
    · exact ringFault_full h (by simp [hs]) _ _ _
    · exact h
  | stopping =>
    dsimp only
    split_ifs
    · exact ringFault_full h (by simp [hs]) _ _ _
    · exact h
  | faulted =>
    refine foldl_full (fun v u hv => ?_) allTags h
    unfold freeOrphanOf
    split_ifs with hc
    · exact freeOrphan_full hv hc.1
    · exact hv

theorem ringBackplaneReset_full (h : s.full run) : (ringBackplaneReset s).full run := by
  unfold ringBackplaneReset
  split_ifs with hs
  · exact h
  · exact ringFault_full h hs _ _ _

theorem drainTimeoutTest_full (h : s.full run) : (drainTimeoutTest s).full run := by
  unfold drainTimeoutTest
  split_ifs with hc
  · rw [Bool.and_eq_true, Bool.and_eq_true] at hc
    exact full_endWith h (h.ready.sound.phased.owned_of_executing hc.1.1) (by simp)
  · exact h

theorem tickDrain_full (h : s.full run) : (tickDrain s).full run := by
  unfold tickDrain
  split_ifs
  · exact drainTimeoutTest_full (h.of_eq ⟨rfl, rfl, rfl, rfl, rfl, rfl, fun _ => id⟩ rfl)
  · exact h

end Sys2Proof.Machine
end

