-- ==== Sys2Proof/Proofs/Watches.lean ====
section
/-! PROOF. The output side through the closings, the replies, the requests, the tick, a withdrawal and backplane reset: each keeps
its conditions. -/

namespace Sys2Proof.Machine

variable {run : Option Command} {s t : State}

/-! ### Changes of a slot -/

/-- One slot changes, and is watched still if it was. -/
theorem Alike.of_slot {i : SlotId} (hpath : t.path = s.path) (hring : t.ring = s.ring) (howner : t.owner = s.owner)
    (hcmd : t.cmd = s.cmd) (hslot : ∀ j, j ≠ i → t.slot j = s.slot j)
    (hi : (s.slot i).isWatching = true → (t.slot i).isWatching = true) : Alike s t := by
  refine ⟨hpath, hring, howner, by rw [hcmd], by rw [hcmd], by rw [hcmd], fun j hj => ?_⟩
  by_cases hji : j = i
  · subst hji
    exact hi hj
  · rwa [hslot j hji]

theorem Alike.setSlot {i : SlotId} {x : Slot} (hx : (s.slot i).isWatching = true → x.isWatching = true) :
    Alike s (s.setSlot i x) := by
  refine .of_slot (i := i) rfl rfl rfl rfl (fun j hj => ?_) fun h => ?_
  · rw [State.slot_setSlot, if_neg hj]
  · rw [State.slot_setSlot_self]
    exact hx h

/-- The conditions on the path, the ring and the processor, whatever the slots show. -/
theorem State.sound.of_parts (h : s.sound run) (hpath : t.path = s.path) (hring : t.ring = s.ring)
    (howner : t.owner = s.owner) (hcmd : t.cmd = s.cmd) : t.sound run := by
  refine sound_path h (hring ▸ h.ring) (by rw [hring]) howner hcmd (by rw [hpath]) ?_ ?_ ?_ ?_
  · rw [hpath]
    exact h.staging
  · rw [hpath]
    exact h.results
  · rw [hpath]
    exact h.ptr
  · rw [hpath]
    exact h.noResults

/-- The path's wait, with a shorter close queue. -/
theorem pathWaits_of_parts (h : s.pathWaits) (hpath : t.path = s.path) (hring : t.ring = s.ring)
    (hqueue : t.closeQueue ≠ [] → s.closeQueue ≠ []) : t.pathWaits := by
  refine h.congr (by rw [hpath]) (by rw [hpath]) (by rw [hpath]) hqueue fun hs => ?_
  rw [hring] at hs
  exact ⟨hs, by rw [hring], by rw [hring], fun u _ hf => by unfold State.tag at hf ⊢; rwa [hring] at hf⟩

/-- Slots are freed while no DRAIN of an earlier event is EXECUTING. -/
theorem full_of_parts (h : s.full run) (hpath : t.path = s.path) (hring : t.ring = s.ring) (howner : t.owner = s.owner)
    (hcmd : t.cmd = s.cmd) (hqueue : t.closeQueue ≠ [] → s.closeQueue ≠ []) (hd : ¬s.draining run) : t.full run where
  ready :=
    ⟨h.ready.sound.of_parts hpath hring howner hcmd, h.ready.stops.of_ring hring, fun hd' => by
      unfold State.draining at hd'
      rw [hcmd] at hd'
      exact absurd hd' hd⟩
  waits := pathWaits_of_parts h.waits hpath hring hqueue

theorem EndsArmings.cmd {f : Channel → Channel} {l : List ChanId} (he : EndsArmings f l s t) : t.cmd = s.cmd := by
  rw [he.rest]

theorem EndsArmings.full {f : Channel → Channel} {l : List ChanId} (he : EndsArmings f l s t) (h : s.full run) :
    t.full run := by
  have hrest := he.rest
  refine h.of_eq ⟨by rw [hrest], by rw [hrest], by rw [hrest], by rw [hrest], by rw [hrest], by rw [hrest], fun i hi => ?_⟩
    (by rw [hrest])
  rw [he.slot i]
  split_ifs with hr
  · exact absurd hr.1 ((Slot.isWatching_iff _).mp hi).2
  · exact hi

theorem FreesSlots.full {scope : ChanId → Bool} {next : RunState} {l : List SlotId} (hf : FreesSlots scope next l s t)
    (h : s.full run) (hd : ¬s.draining run) : t.full run := by
  have hrest := hf.rest
  refine full_of_parts h (by rw [hrest]) (by rw [hrest]) (by rw [hrest]) (by rw [hrest]) (fun hne hnil => ?_) hd
  rw [hf.closeQueue, hnil] at hne
  exact hne rfl

/-! ### Closings (R88, R95) -/

/-- A closing queues the slot and advances the output, or frees it and tests. -/
theorem closeSlot_full (h : s.full run) {i : SlotId} (e : Ending) : (closeSlot i e s).full run := by
  unfold closeSlot
  dsimp only
  split_ifs
  · refine advance_full (h.ready.alike (Alike.of_slot (i := i) rfl rfl rfl rfl (fun j hj => ?_) fun _ => ?_))
    · exact (State.slot_setSlot s i j _).trans (if_neg hj)
    · refine (congrArg Slot.isWatching (State.slot_setSlot_self s i _)).trans ?_
      rfl
  · exact drainTest_full (h.ready.sound.of_parts rfl rfl rfl rfl) (h.ready.stops.of_ring rfl)
      (pathWaits_of_parts h.waits rfl rfl id)

theorem setSlot_full (h : s.full run) {i : SlotId} {x : Slot}
    (hx : (s.slot i).isWatching = true → x.isWatching = true) : (s.setSlot i x).full run := h.of_eq (.setSlot hx) rfl

theorem countAnomaly_full (h : s.full run) : (countAnomaly s).full run := setDev_full h _

/-- A watched slot notes something, and stays in its state. -/
theorem noted_full (h : s.full run) {i : SlotId} {x : Slot} (hx : x.state = (s.slot i).state) : (s.setSlot i x).full run := by
  refine setSlot_full h fun hw => ?_
  rw [Slot.isWatching_iff] at hw ⊢
  rwa [hx]

theorem noted_close_full (h : s.full run) (i : SlotId) (x : Slot) (hx : x.state = (s.slot i).state) (e : Ending) :
    (closeSlot i e (s.setSlot i x)).full run := closeSlot_full (noted_full h hx) e

theorem anomaly_close_full (h : s.full run) (i : SlotId) (x : Slot) (hx : x.state = (s.slot i).state) (e : Ending) :
    (closeSlot i e (countAnomaly (s.setSlot i x))).full run := closeSlot_full (countAnomaly_full (noted_full h hx)) e

theorem supersede_full (h : s.full run) (i : SlotId) : (supersede i s).full run := by
  unfold supersede
  split_ifs
  · exact anomaly_close_full h i { s.slot i with anomaly := true } rfl _
  · exact closeSlot_full h _

theorem watchMatch_full (h : s.full run) (r : Request) : (watchMatch r s).full run := by
  unfold watchMatch
  cases hm : s.matchPair r.initiator r.tag with
  | none => exact h
  | some i =>
    show State.full run (if r.reissue then (if (s.slot i).state = .bounced then reopen i s else s) else supersede i s)
    split_ifs
    · exact setSlot_full h fun _ => rfl
    · exact h
    · exact supersede_full h i

theorem replyToSlot_full (h : s.full run) (i : SlotId) (b : ReplyBody) : (replyToSlot i b s).full run := by
  have hcomplete (b : ReplyBody) : (completeSlot i b s).full run := by
    unfold completeSlot
    dsimp only
    split_ifs
    · exact noted_close_full h i (s.slot i).withFinal rfl _
    · exact anomaly_close_full h i { (s.slot i).withFinal with anomaly := true } rfl _
  unfold replyToSlot
  split_ifs
  · exact setDev_full h _
  · cases b with
    | bounce => exact setSlot_full h fun _ => rfl
    | fault code => exact noted_close_full h i { (s.slot i).withFinal with faultCode := some code } rfl _
    | data p => exact hcomplete _
    | done => exact hcomplete _

theorem replyBeat_full (h : s.full run) (r : Reply) : (replyBeat r s).full run := by
  unfold replyBeat
  split_ifs
  · exact ownReply_full h r
  · unfold snoopReply
    cases s.matchPair r.initiator r.tag with
    | none => exact setDev_full h _
    | some i => exact replyToSlot_full h i r.body

/-! ### Requests (R54, R57–R59, R84) -/

theorem countRequest_alike (c : ChanId) (s : State) : Alike s (countRequest c s) := by
  refine .of_eq ?_ ?_ ?_ ?_ ?_
  all_goals simp

theorem takeInto_alike (c : ChanId) (i : SlotId) (r : Request) (s : State) : Alike s (takeInto c i r s) := by
  refine .of_slot (i := i) ?_ ?_ ?_ ?_ (fun j hj => ?_) fun _ => ?_
  case refine_5 => rw [takeInto_slot, if_neg hj]
  case refine_6 =>
    rw [takeInto_slot, if_pos rfl]
    rfl
  all_goals simp

theorem reserve_alike (c : ChanId) {i : SlotId} (hi : (s.slot i).state = .free) : Alike s (reserve c i s) := by
  refine .of_slot (i := i) ?_ ?_ ?_ ?_ (fun m hm => ?_) fun hw => ?_
  case refine_5 => rw [reserve_slot, if_neg hm]
  case refine_6 => exact absurd hi ((Slot.isWatching_iff _).mp hw).1
  all_goals simp

theorem VisitMove.full {r : Request} {c : ChanId} {p q : State × Option SlotId} (hm : VisitMove r c p q)
    (h : p.1.full run) : q.1.full run := by
  cases hm with
  | count s k => exact h.of_eq (countRequest_alike c s) (by simp)
  | takeReserved s i => exact h.of_eq (takeInto_alike c i r s) (by simp)
  | takeFree s i => exact h.of_eq (takeInto_alike c i r s) (by simp)
  | reserve s i j _ _ hfree => exact h.of_eq (reserve_alike c ((s.freeSlot_eq_some i).mp hfree).1) (by simp)
  | collide s k => exact h.of_eq (.of_eq rfl rfl rfl rfl rfl) rfl
  | holdover s k => exact h.of_eq (.of_eq rfl rfl rfl rfl rfl) rfl

theorem snoopRequest_full (h : s.full run) (r : Request) : (snoopRequest r s).full run := by
  have hvisits : (visitChannels r (watchMatch r s)).1.full run :=
    visitChannels_keeps (P := fun p => p.1.full run) (fun _ _ _ hm hp => hm.full hp) (watchMatch_full h r)
  unfold snoopRequest closeUnreplied
  cases (visitChannels r (watchMatch r s)).2 with
  | none => exact hvisits
  | some i =>
    dsimp only
    split_ifs
    · exact closeSlot_full hvisits _
    · exact hvisits

/-! ### The tick (R40) -/

theorem ageSlot_full (h : s.full run) (i : SlotId) : (ageSlot s i).full run := by
  unfold ageSlot
  refine noted_full h ?_
  unfold Slot.aged
  split_ifs <;> rfl

theorem expireSlot_full (h : s.full run) (i : SlotId) : (expireSlot s i).full run := by
  unfold expireSlot
  split_ifs
  · exact closeSlot_full (setDev_full h _) _
  · exact h

theorem tickBeat_full (h : s.full run) : (tickBeat s).full run := by
  have htime : (tickTime s).full run := h.of_eq (.of_eq rfl rfl rfl rfl rfl) rfl
  unfold tickBeat tickSlots
  refine tickDrain_full (tickRing_full ?_ _)
  exact foldl_full (fun _ i h => expireSlot_full h i) _ (foldl_full (fun _ i h => ageSlot_full h i) _ htime)

/-! ### Ownership lost, withdrawal, backplane reset (R27, R29, R182, R184) -/

theorem abort_phase (p : Processor) : p.abort.phase = .idle := by
  unfold Processor.abort
  cases h : p.phase with
  | idle => exact h
  | params => rfl
  | executing => rfl
  | result => rfl

theorem loseOwner_not_executing (s : State) (c : Command) : (loseOwner s).cmd.isExecuting c = false := by
  show s.cmd.abort.isExecuting c = false
  simp [Processor.isExecuting, abort_phase]

/-- The processor's conditions in IDLE. -/
theorem State.phased.of_idle (hphase : s.cmd.phase = .idle) (hcode : s.cmd.code = 0) (hwords : s.cmd.results = []) :
    s.phased run := by
  refine ⟨fun _ => hphase, fun _ => hcode, ?_, ?_, ?_⟩
  · rw [hphase]
    nofun
  · rw [hphase]
    nofun
  · rw [hphase]
    simpa using hwords

/-- The processor changes, and no DRAIN is EXECUTING. -/
theorem full_of_processor {run' : Option Command} (h : s.full run) (hpath : t.path = s.path) (hring : t.ring = s.ring)
    (hqueue : t.closeQueue = s.closeQueue) (hphased : t.phased run') (hd : ¬t.draining run') : t.full run' where
  ready := by
    refine ⟨⟨by rw [hring]; exact h.ready.sound.ring, by rw [hpath]; exact h.ready.sound.staging,
      by rw [hpath]; exact h.ready.sound.results, by rw [hpath]; exact h.ready.sound.ptr,
      by rw [hpath, hring]; exact h.ready.sound.queue, by rw [hpath]; exact h.ready.sound.noResults,
      fun hd' => absurd hd' hd, hphased⟩, h.ready.stops.of_ring hring, fun hd' => absurd hd' hd⟩
  waits := pathWaits_of_parts h.waits hpath hring fun hne => by rwa [hqueue] at hne

theorem loseOwner_full (h : s.full run) : (loseOwner s).full run := by
  have hphased := h.ready.sound.phased
  refine full_of_processor h rfl rfl rfl (.of_idle (abort_phase _) ?_ ?_) fun hd => ?_
  · show s.cmd.abort.code = 0
    unfold Processor.abort
    cases hp : s.cmd.phase with
    | idle => exact hphased.code hp
    | params => rfl
    | executing => rfl
    | result => rfl
  · have hwords := hphased.words
    show s.cmd.abort.results = []
    unfold Processor.abort
    cases hp : s.cmd.phase with
    | idle => simpa [hp] using hwords
    | params => simpa [hp] using hwords
    | executing => rfl
    | result => rfl
  · have := hd.2
    rw [loseOwner_not_executing] at this
    cases this

theorem abandonNode_full (h : s.full run) (n : Node) : (abandonNode n s).full run :=
  abandonNode_keeps (P := fun s => s.full run) n (fun _ _ _ h => closeSlot_full h _) s h

theorem withdraw_full (h : s.full run) (n : Node) : (withdraw n s).full run := by
  have hpresent : (s.setPresent (withoutBit s.present n)).full run := h.of_eq (.of_eq rfl rfl rfl rfl rfl) rfl
  have habandon := abandonNode_full hpresent n
  unfold withdraw
  dsimp only
  generalize abandonNode n (s.setPresent (withoutBit s.present n)) = u at habandon
  split_ifs
  · exact ringWithdraw_full (loseOwner_full habandon) n
  · exact ringWithdraw_full habandon n

theorem backplaneResetBeat_full (h : s.full run) (hpool : s.poolOk) : (backplaneResetBeat s).full run := by
  have hpresent : (s.setPresent (s.pins.lines ||| lineOf s.ownId)).full run := h.of_eq (.of_eq rfl rfl rfl rfl rfl) rfl
  have hlost := loseOwner_full hpresent
  have hends := resetObserving_ends (s := loseOwner (s.setPresent (s.pins.lines ||| lineOf s.ownId))) hpool
  unfold backplaneResetBeat
  dsimp only
  have hnot (c : Command) := loseOwner_not_executing (s.setPresent (s.pins.lines ||| lineOf s.ownId)) c
  generalize loseOwner (s.setPresent (s.pins.lines ||| lineOf s.ownId)) = u at hlost hends hnot
  have hpaused : (resetObserving u).full run := hends.full (hlost.of_eq (.of_eq rfl rfl rfl rfl rfl) rfl)
  have hcmd : (resetObserving u).cmd = u.cmd := hends.cmd
  have hfrees := freeSlots_frees (fun _ => true) .counting (resetObserving u)
  generalize resetObserving u = v at hpaused hfrees hcmd
  have hfreed := hfrees.full hpaused fun hd => by
    have := hd.2
    rw [hcmd, hnot] at this
    cases this
  generalize freeSlots (fun _ => true) .counting v = w at hfreed
  have hservice : (w.setInts w.ints.clearService).full run := hfreed.of_eq (.of_eq rfl rfl rfl rfl rfl) rfl
  have hring := ringBackplaneReset_full hservice
  generalize ringBackplaneReset (w.setInts w.ints.clearService) = x at hring
  exact hring.of_eq (.of_eq rfl rfl rfl rfl rfl) rfl

end Sys2Proof.Machine
end

