-- ==== Sys2Proof/Proofs/Endings.lean ====
section
/-! PROOF. The output side through a command: it begins with the conditions of a running command, and each command ends, or stays
EXECUTING, with those of no command. -/

namespace Sys2Proof.Machine

variable {c : Command} {s t : State}

theorem not_draining_running (s : State) (c : Command) : ¬s.draining (some c) := fun h => nomatch h.1

theorem endCommand_full (h : s.full (some c)) (howner : s.owner ≠ none) (st : Status) : (endCommand st s).full none :=
  full_endWith h howner (Nat.zero_le _)

theorem armChannel_alike (d : ChanId) (s : State) : Alike s (armChannel d s) := by
  refine .of_eq ?_ ?_ ?_ ?_ ?_
  all_goals simp

theorem releaseChannel_alike (d : ChanId) (s : State) : Alike s (releaseChannel d s) := .of_eq rfl rfl rfl rfl rfl

/-! ### Observation, channels, slots (R45, R46, R61–R64, R89) -/

theorem pauseObserving_full {run : Option Command} (h : s.full run) (hpool : s.poolOk) : (pauseObserving s).full run := by
  have hpaused : (s.setTb { s.tb with obs := .paused }).full run := h.of_eq (.of_eq rfl rfl rfl rfl rfl) rfl
  have hends := cancelArmings_ends .counting (s.setTb { s.tb with obs := .paused }) hpool.armingOk
  exact hends.full hpaused

theorem freeSlots_full (h : s.full (some c)) (scope : ChanId → Bool) (next : RunState) :
    (freeSlots scope next s).full (some c) :=
  (freeSlots_frees scope next s).full h (not_draining_running s c)

theorem scopeSampling_full (h : s.full (some c)) (hpool : s.poolOk) : (scopeSampling s).full (some c) :=
  freeSlots_full ((EndsArmings.foldl resetChannel_ends s hpool.armingOk chanIds (by decide)).full h) _ _

/-! ### The ring and the path (R116, R144, R145, R165) -/

/-- A ring that RING_START starts: every tag FREE, and the indexes those of a run. -/
theorem started_steady (h : s.ring.steady) (hallowed : s.startAllowed = true) {resume : Bool}
    (hfit : s.ringConsistent resume = true) {g : Ring} (htags : g.tags = s.ring.tags) (hsize : g.size = s.ring.size)
    (hstate : g.state = .running) (hcause : g.fault.cause = none)
    (hindexes : if resume then g.producer = s.ring.producer ∧ g.consumer = s.ring.consumer else
      g.producer = 0 ∧ g.consumer = 0) : g.steady := by
  unfold State.startAllowed at hallowed
  simp only [Bool.and_eq_true, Bool.or_eq_true, decide_eq_true_eq, Bool.not_eq_true'] at hallowed
  obtain ⟨⟨-, hstopped⟩, horphan⟩ := hallowed
  have hfree (u : WTag) : (g.tag u).state = .free := by
    have htag : g.tag u = s.ring.tag u := congrArg (fun v => v[u.val]) htags
    rw [htag]
    exact h.free_of_stopped (hstopped.imp_right fun hf => ⟨hf, horphan⟩) u
  have hn : g.n = s.ring.n := congrArg BitVec.toNat hsize
  have hpos := (ringSize_bounds h.size).1
  refine .of_free hfree (by simp [hstate]) hcause (hn ▸ h.size) fun _ => ?_
  cases resume with
  | false =>
    obtain ⟨hp, hc⟩ := hindexes
    rw [hn]
    simp only [Ring.fill, hp, hc, hn]
    simp [subMod]
    omega
  | true =>
    obtain ⟨hp, hc⟩ := hindexes
    simp only [State.ringConsistent, Ring.indexesFit, Bool.and_eq_true, Bool.or_eq_true, decide_eq_true_eq,
      Bool.not_eq_true', Bool.true_eq_false, false_or] at hfit
    obtain ⟨-, ⟨hp', hc'⟩, hf'⟩ := hfit
    have hfill : g.fill = s.ring.fill := by
      unfold Ring.fill
      rw [hp, hc, hn]
    rw [hp, hc, hn, hfill]
    exact ⟨hp', hc', hf'⟩

/-- The ring begins to run, in ring mode. -/
theorem sound_started (h : s.sound (some c)) (hmode : s.path.mode = .ring) (hs : s.ring.state ≠ .stopping) {g : Ring}
    (hg : g.steady) : (s.setRing g).sound (some c) where
  ring := hg
  staging := h.staging
  results := h.results
  ptr := h.ptr
  queue hm := absurd (hmode.symm.trans hm) nofun
  noResults := h.noResults
  runs hd := absurd hd (not_draining_running _ c)
  phased := h.phased.congr rfl rfl rfl rfl fun _ hstop => absurd hstop hs

theorem startRing_full (h : s.full (some c)) (hallowed : s.startAllowed = true) {resume : Bool}
    (hfit : s.ringConsistent resume = true) : (startRing resume s).full (some c) := by
  have hallowed' := hallowed
  simp only [State.startAllowed, Bool.and_eq_true, Bool.or_eq_true, decide_eq_true_eq] at hallowed'
  obtain ⟨⟨hmode, hstopped⟩, -⟩ := hallowed'
  have hne : s.ring.state ≠ .stopping := by
    obtain hs | hs := hstopped <;> simp [hs]
  have hready {g : Ring} (hg : g.steady) (hrun : g.state = .running) :
      (writebackIfDue (s.setRing g)).ready (some c) := by
    refine ⟨writebackIfDue_sound (sound_started h.ready.sound hmode hne hg), fun hs => ?_,
      fun hd => absurd hd (not_draining_running _ c)⟩
    have hstate : (writebackIfDue (s.setRing g)).ring.state = g.state := by
      unfold writebackIfDue
      split_ifs <;> rfl
    rw [hstate, hrun] at hs
    cases hs
  unfold startRing
  refine advance_full (hready (started_steady h.ready.sound.ring hallowed hfit ?_ ?_ rfl rfl ?_) rfl)
  · cases resume <;> rfl
  · cases resume <;> rfl
  · cases resume <;> exact ⟨rfl, rfl⟩

/-- The stop test leaves nothing EXECUTING that was not. -/
theorem stopTest_executing {d : Command} (h : (stopTest s).cmd.isExecuting d = true) : s.cmd.isExecuting d = true := by
  by_cases hc : s.ring.state = .stopping ∧ ∀ u : WTag, (s.tag u).state = .free
  · rw [stopTest_of hc] at h
    split_ifs at h
    · rw [endWith_not_executing] at h
      cases h
    · exact h
  · rwa [stopTest_of_not hc] at h

/-- RING_STOP of a RUNNING ring: IDLE at once, or STOPPING and EXECUTING (R145). -/
theorem stopRing_full (h : s.full (some c)) (hcode : s.cmd.code = Command.ringStop.code)
    (hrun : s.ring.state = .running) : (stopRing s).full none := by
  have hsound := h.ready.sound
  have hdrain : s.cmd.isExecuting .drain = false := by
    simp [Processor.isExecuting, hcode, Command.code]
  have hstopping : (s.setRing { s.ring with state := .stopping }).sound none :=
    { ring := hsound.ring.stopping hrun
      staging := hsound.staging
      results := hsound.results
      ptr := hsound.ptr
      queue := fun hm => absurd (hrun.symm.trans (hsound.queue hm)) nofun
      noResults := hsound.noResults
      runs := fun hd => absurd (hdrain.symm.trans hd.2) nofun
      phased := ⟨hsound.phased.owner, hsound.phased.code, hsound.phased.params, fun _ => .inl ⟨hcode, rfl⟩,
        hsound.phased.words⟩ }
  have hwaits : (s.setRing { s.ring with state := .stopping }).pathWaits := h.waits.congr rfl rfl rfl id nofun
  refine ⟨⟨stopTest_sound hstopping, stopTest_stopsLater _, fun hd => ?_⟩, stopTest_pathWaits hwaits⟩
  exact absurd (hdrain.symm.trans (stopTest_executing (s := s.setRing { s.ring with state := .stopping }) hd.2)) nofun

/-- A DRAIN that stays EXECUTING (R163). -/
theorem drain_full (h : s.full (some c)) (hcode : s.cmd.code = Command.drain.code) (hdrained : s.drained = false)
    (hmode : s.path.mode = .queue ∨ s.ring.state = .running) (x : Processor) (hphase : x.phase = s.cmd.phase)
    (hxcode : x.code = s.cmd.code) (hwords : x.results = s.cmd.results) : (s.setCmd x).full none := by
  have hsound := h.ready.sound
  refine ⟨⟨⟨hsound.ring, hsound.staging, hsound.results, hsound.ptr, hsound.queue, hsound.noResults, fun _ hm => ?_, ?_⟩,
    h.ready.stops, fun _ => hdrained⟩, h.waits⟩
  · exact hmode.resolve_left fun hq => absurd (hm.symm.trans hq) nofun
  · have hphased := hsound.phased.congr (t := s.setCmd x) rfl hphase hxcode hwords fun _ hs => hs
    exact ⟨hphased.owner, hphased.code, hphased.params, fun _ => .inr (.inl (hxcode.trans hcode)), hphased.words⟩

/-- SELECT_OUTPUT with nothing on the path and the ring IDLE (R116). -/
theorem selectOutput_full (h : s.full (some c)) (hstaging : s.path.staging = []) (hresults : s.path.results = [])
    (hidle : s.ring.state = .idle) (m : OutMode) : (s.setPath { s.path with mode := m }).full (some c) := by
  have hsound := h.ready.sound
  obtain ⟨hclose, -, -⟩ := h.waits
  refine ⟨⟨⟨hsound.ring, hsound.staging, hsound.results, hsound.ptr, fun _ => hidle, fun _ => hresults,
    fun hd => absurd hd (not_draining_running _ c), hsound.phased.congr rfl rfl rfl rfl fun _ hs => hs⟩,
    h.ready.stops, fun hd => absurd hd (not_draining_running _ c)⟩, fun hne => hclose hne, fun _ hne => ?_, fun _ hs => ?_⟩
  · exact absurd hstaging hne
  · exact absurd (hidle.symm.trans hs) nofun

/-- The OUTPUT scope, where it is allowed (R123, R148). -/
theorem scopeOutput_full (h : s.full (some c)) (hallowed : s.ring.outputAllowed = true) : (scopeOutput s).full (some c) := by
  have hsound := h.ready.sound
  obtain ⟨hrest, -, -⟩ := outputCleared_eq s
  have hstopped : s.ring.state = .idle ∨ s.ring.state = .faulted ∧ s.ring.hasOrphan = false := by
    simpa [Ring.outputAllowed] using hallowed
  have hfree (u : WTag) : ((outputCleared s).ring.tag u).state = .free := by
    rw [hrest]
    exact hsound.ring.free_of_stopped hstopped u
  have hidle : (outputCleared s).ring.state = .idle := by rw [hrest]
  have hsize : (outputCleared s).ring.n = s.ring.n := by rw [hrest]; rfl
  have hpath : (outputCleared s).path = { s.path with staging := [], results := [], ptr := 0, seq := 0 } := by rw [hrest]
  have hcmd : (outputCleared s).cmd = s.cmd := by rw [hrest]
  rw [scopeOutput_eq]
  refine advance_full ⟨⟨.of_free hfree (by simp [hidle]) (by rw [hrest]; rfl) (hsize ▸ hsound.ring.size) fun ha => ?_,
    by simp [hpath], by simp [hpath], fun _ => by rw [hpath], fun _ => hidle, fun _ => by rw [hpath],
    fun hd => absurd hd (not_draining_running _ c), ?_⟩, fun hs => absurd (hidle.symm.trans hs) nofun,
    fun hd => absurd hd (not_draining_running _ c)⟩
  · exact absurd hidle (Ring.steady.not_idle_of_active ha)
  · refine hsound.phased.congr (by rw [hrest]) (by rw [hcmd]) (by rw [hcmd]) (by rw [hcmd]) fun _ hs => ?_
    simp [hs] at hstopped

theorem applyScopes_full (h : s.full (some c)) (hpool : s.poolOk) {m : Word}
    (hallowed : has m 1 = true → s.ring.outputAllowed = true) : (applyScopes m s).full (some c) := by
  have hsampling : (whenScope m 0 scopeSampling s).full (some c) ∧ (whenScope m 0 scopeSampling s).ring = s.ring := by
    unfold whenScope
    split_ifs
    · exact ⟨scopeSampling_full h hpool, by simp⟩
    · exact ⟨h, rfl⟩
  obtain ⟨hfull, hring⟩ := hsampling
  have houtput : (whenScope m 1 scopeOutput (whenScope m 0 scopeSampling s)).full (some c) := by
    rw [whenScope]
    split_ifs with h1
    · exact scopeOutput_full hfull (by rw [hring]; exact hallowed h1)
    · exact hfull
  have hstats : (whenScope m 2 scopeStatistics (whenScope m 1 scopeOutput (whenScope m 0 scopeSampling s))).full (some c) := by
    rw [whenScope]
    split_ifs
    · exact foldl_full (f := zeroStats) (fun _ _ h => h.of_eq (.of_eq rfl rfl rfl rfl rfl) rfl) _ (setDev_full houtput _)
    · exact houtput
  rw [applyScopes, whenScope]
  split_ifs
  · exact hstats.of_eq (.of_eq rfl rfl rfl rfl rfl) rfl
  · exact hstats

/-! ### Every command -/

theorem watchWords_length (x : Slot) : (watchWords x).length ≤ 8 := by
  unfold watchWords
  cases x.state <;> simp

theorem runCommand_full (h : s.full (some c)) (hpool : s.poolOk) (hx : s.cmd.phase = .executing) (hcode : s.cmd.code = c.code)
    (p : Word) : (runCommand c p s).full none := by
  have howner := h.ready.sound.phased.owned (by simp [hx])
  have hend := endCommand_full h howner
  cases c with
  | start =>
    show (cmdStart s).full none
    unfold cmdStart
    split_ifs
    · have hobserving : (s.setTb { s.tb with obs := .observing }).full (some .start) := h.of_eq (.of_eq rfl rfl rfl rfl rfl) rfl
      exact endCommand_full hobserving howner _
    · exact hend _
  | pause =>
    show (cmdPause s).full none
    unfold cmdPause
    split_ifs
    · exact endCommand_full (pauseObserving_full h hpool) (by simpa using howner) _
    · exact hend _
  | arm =>
    show (cmdArm p s).full none
    unfold cmdArm
    cases chanParam p with
    | none => exact hend _
    | some d =>
      have harm : (armChannel d s).full (some .arm) := h.of_eq (armChannel_alike d s) (by simp)
      dsimp only
      split_ifs
      · exact hend _
      · exact hend _
      · exact endCommand_full harm (by simpa using howner) _
  | disarm =>
    show (cmdDisarm p s).full none
    unfold cmdDisarm
    cases chanParam p with
    | none => exact hend _
    | some d =>
      exact endCommand_full ((disarmChannel_ends s d (hpool.armingOk d)).full h) (by simpa using howner) _
  | release =>
    show (cmdRelease p s).full none
    unfold cmdRelease
    cases chanParam p with
    | none => exact hend _
    | some d =>
      have hrelease : (releaseChannel d s).full (some .release) := h.of_eq (releaseChannel_alike d s) (by simp)
      dsimp only
      split_ifs
      · exact endCommand_full hrelease (by simpa using howner) _
      · exact hend _
  | purge =>
    show (cmdPurge p s).full none
    unfold cmdPurge
    cases purgeScope p with
    | none => exact hend _
    | some scope =>
      exact full_endWith (freeSlots_full h scope _) (by simpa using howner) (by simp)
  | snapshot =>
    show (cmdSnapshot p s).full none
    unfold cmdSnapshot
    cases chanParam p with
    | none => exact hend _
    | some d => exact full_endWith h howner (by simp [ChanStats.words])
  | readWatch =>
    show (cmdReadWatch p s).full none
    unfold cmdReadWatch
    cases slotParam p with
    | none => exact hend _
    | some i => exact full_endWith h howner (watchWords_length _)
  | setTime =>
    show (cmdSetTime p s).full none
    have htime : (s.setTb { s.tb with time := p }).full (some .setTime) := h.of_eq (.of_eq rfl rfl rfl rfl rfl) rfl
    exact endCommand_full htime howner _
  | ringStart =>
    show (cmdRingStart p s).full none
    unfold cmdRingStart
    cases flagParam p with
    | none => exact hend _
    | some resume =>
      dsimp only
      split_ifs with hallowed hfit
      · exact hend _
      · exact hend _
      · refine endCommand_full (startRing_full h ?_ ?_) ?_ _
        · simpa using hallowed
        · simpa using hfit
        · simpa using howner
  | ringStop =>
    show (cmdRingStop s).full none
    unfold cmdRingStop
    split_ifs with hrun
    · exact stopRing_full h hcode hrun
    · exact hend _
  | drain =>
    show (cmdDrain p s).full none
    unfold cmdDrain
    split_ifs with hdrained hmode
    · exact hend _
    · exact drain_full h hcode (by simpa using hdrained) hmode _ rfl rfl rfl
    · exact hend _
    · exact hend _
  | selectOutput =>
    show (cmdSelectOutput p s).full none
    unfold cmdSelectOutput
    cases flagParam p with
    | none => exact hend _
    | some b =>
      by_cases hok : (s.path.staging.isEmpty && s.path.results.isEmpty && decide (s.ring.state = .idle)) = true
      · refine (congrArg (State.full none) (if_pos hok)).mpr ?_
        simp only [Bool.and_eq_true, List.isEmpty_iff, decide_eq_true_eq] at hok
        obtain ⟨⟨hstaging, hresults⟩, hidle⟩ := hok
        exact endCommand_full (selectOutput_full h hstaging hresults hidle (if b then .ring else .queue)) howner _
      · exact (congrArg (State.full none) (if_neg hok)).mpr (hend _)
  | reset =>
    show (cmdReset p s).full none
    unfold cmdReset
    split_ifs with hmask hblocked
    · exact hend _
    · exact hend _
    · refine endCommand_full (applyScopes_full h hpool fun h1 => ?_) (by simpa using howner) _
      simpa [h1] using hblocked

/-! ### The command port (R151, R152, R155) -/

/-- A command that begins. -/
theorem full_running (h : s.full none) (howner : s.owner ≠ none) {x : Processor}
    (hx : x.phase = .executing) (hcode : x.code = c.code) (hwords : x.results = []) : (s.setCmd x).full (some c) := by
  refine full_of_processor h rfl rfl rfl ?_ (not_draining_running _ c)
  refine ⟨fun ho => absurd ho howner, fun hi => ?_, fun hp => ?_, fun _ => .inr (.inr ⟨c, rfl, hcode⟩), ?_⟩
  · exact absurd (hx.symm.trans hi) nofun
  · exact absurd (hx.symm.trans hp) nofun
  · show if x.phase = .result then _ else x.results = []
    rwa [if_neg (by simp [hx])]

theorem command_mem_all (c : Command) : c ∈ Command.all := by
  cases c <;> decide

/-- A command that awaits its parameter word. -/
theorem full_awaiting (h : s.full none) (howner : s.owner ≠ none) {x : Processor} (hx : x.phase = .params)
    (hcode : x.code = c.code) (hparam : c.takesParam = true) (hwords : x.results = []) : (s.setCmd x).full none := by
  have hphase : (s.setCmd x).cmd.phase = .params := hx
  refine full_of_processor h rfl rfl rfl ⟨fun ho => absurd ho howner, fun hi => ?_, fun _ => ?_, fun he => ?_, ?_⟩ ?_
  · exact absurd (hphase.symm.trans hi) nofun
  · exact ⟨c, command_mem_all c, hparam, hcode⟩
  · exact absurd (hphase.symm.trans he) nofun
  · rwa [if_neg (by rw [hphase]; nofun)]
  · intro hd
    have := ((Processor.isExecuting_iff _ _).mp hd.2).1
    exact absurd (hphase.symm.trans this) nofun

/-- The processor in RESULT with one to nine words. -/
theorem full_result {run run' : Option Command} (h : s.full run) (howner : s.owner ≠ none) {x : Processor}
    (hx : x.phase = .result) (hwords : 1 ≤ x.results.length ∧ x.results.length ≤ 9) : (s.setCmd x).full run' := by
  have hphase : (s.setCmd x).cmd.phase = .result := hx
  refine full_of_processor h rfl rfl rfl ⟨fun ho => absurd ho howner, fun hi => ?_, fun hp => ?_, fun he => ?_, ?_⟩ ?_
  · exact absurd (hphase.symm.trans hi) nofun
  · exact absurd (hphase.symm.trans hp) nofun
  · exact absurd (hphase.symm.trans he) nofun
  · rwa [if_pos hphase]
  · intro hd
    have := ((Processor.isExecuting_iff _ _).mp hd.2).1
    exact absurd (hphase.symm.trans this) nofun

theorem openInvalid_full (h : s.full none) (howner : s.owner ≠ none) (code : BitVec 8) : (openInvalid code s).full none := by
  have hended : (s.setCmd ({ s.cmd with code := code, discarded := false }.finish .invalidCommand 0 [])).full none :=
    full_result h howner rfl (by simp [Processor.finish])
  exact hended.of_eq (.of_eq rfl rfl rfl rfl rfl) rfl

theorem writeCmdPort_full (h : s.full none) (hpool : s.poolOk) (howner : s.owner ≠ none) (v : Word) :
    (writeCmdPort v s).full none := by
  have hphased := h.ready.sound.phased
  have hwords (hr : s.cmd.phase ≠ .result) : s.cmd.results = [] := by
    have := hphased.words
    rwa [if_neg hr] at this
  unfold writeCmdPort
  cases hp : s.cmd.phase with
  | idle =>
    show (openCommand v s).full none
    have hnone := hwords (by simp [hp])
    unfold openCommand
    cases Command.ofCode (v.extractLsb' 0 8) with
    | none =>
      exact openInvalid_full h howner _
    | some c =>
      dsimp only
      split_ifs with hparam
      · exact full_awaiting h howner (x := s.cmd.opened c) (by simp [Processor.opened, hparam]) rfl hparam hnone
      · have hrun := full_running (c := c) h howner (x := s.cmd.opened c) (by simp [Processor.opened, hparam]) rfl hnone
        exact runCommand_full hrun hpool (by simp [Processor.opened, hparam]) rfl 0
  | params =>
    show (paramWord v s).full none
    have hnone := hwords (by simp [hp])
    unfold paramWord
    cases hc : Command.ofCode s.cmd.code with
    | none => exact h
    | some c =>
      have hcode := Command.eq_of_ofCode hc
      have hrun := full_running (c := c) h howner (x := { s.cmd with phase := .executing }) rfl hcode hnone
      exact runCommand_full hrun hpool rfl hcode v
  | executing => exact h
  | result => exact h

theorem cancelCommand_full (h : s.full none) (howner : s.owner ≠ none) : (cancelCommand s).full none := by
  have hphased := h.ready.sound.phased
  have hidle {x : Processor} (hx : x.phase = .idle) (hcode : x.code = 0) (hwords : x.results = []) :
      (s.setCmd x).full none := by
    refine full_of_processor h rfl rfl rfl (.of_idle hx hcode hwords) fun hd => ?_
    have := ((Processor.isExecuting_iff _ _).mp hd.2).1
    exact absurd (hx.symm.trans this) nofun
  unfold cancelCommand
  cases hp : s.cmd.phase with
  | idle => exact h
  | params =>
    refine hidle rfl rfl ?_
    have := hphased.words
    rwa [if_neg (by simp [hp])] at this
  | executing => exact full_endWith h howner (Nat.zero_le _)
  | result => exact hidle rfl rfl rfl

theorem takeWord_full (h : s.full none) (hp : s.cmd.phase = .result) : (s.setCmd s.cmd.takeWord).full none := by
  have hphased := h.ready.sound.phased
  have hwords := hphased.words
  rw [if_pos hp] at hwords
  unfold Processor.takeWord
  split_ifs with hlen
  · refine full_of_processor h rfl rfl rfl (.of_idle rfl rfl rfl) fun hd => ?_
    exact absurd ((Processor.isExecuting_iff _ _).mp hd.2).1 nofun
  · refine full_result h (hphased.owned (by simp [hp])) hp ?_
    rw [List.length_tail]
    omega

end Sys2Proof.Machine
end

