-- ==== Sys2Proof/Proofs/Quiescence.lean ====
section
/-! PROOF. The output side through the window and through every step, and the invariants that its conditions are: the command
processor, the output path, the write tags with the ring, and an EXECUTING DRAIN. -/

namespace Sys2Proof.Machine

variable {s t : State}

/-! ### The invariants and the conditions -/

/-- Between events the conditions are those four invariants. -/
theorem State.good.full (h : s.good) : s.full none := by
  obtain ⟨-, -, hproc, -, -, -, hpath, htags, hring, hdrain⟩ := h
  obtain ⟨howner, hcode, hparams, hexec, hwords⟩ := hproc
  obtain ⟨hstaging, hresults, hclose, hqueue, hmode, hptr⟩ := hpath
  obtain ⟨hidle, hfaulted, horphans, hstop, hwb⟩ := htags
  obtain ⟨hsize, hcause, hrun⟩ := hring
  refine ⟨⟨⟨⟨hidle, hfaulted, horphans, hwb, hsize, hcause, hrun⟩, hstaging, hresults, hptr, fun hm => (hqueue hm).1,
    fun hm => (hmode hm).1, fun hd => (hdrain hd.2).2, ⟨howner, hcode, hparams, fun hx => ?_, hwords⟩⟩, hstop,
    fun hd => (hdrain hd.2).1⟩, fun hne => (hclose hne).ge, fun hm hne => ((hqueue hm).2 hne).ge, fun hm => (hmode hm).2⟩
  exact (hexec hx).imp_right .inl

theorem State.full.processorOk (h : s.full none) : s.processorOk := by
  obtain ⟨howner, hcode, hparams, hexec, hwords⟩ := h.ready.sound.phased
  refine ⟨howner, hcode, hparams, fun hx => ?_, hwords⟩
  obtain hstop | hdrain | ⟨c, hc, -⟩ := hexec hx
  · exact .inl hstop
  · exact .inr hdrain
  · cases hc

theorem State.full.pathOk (h : s.full none) : s.pathOk := by
  obtain ⟨⟨hsound, -, -⟩, hclose, hqueue, hissue⟩ := h
  refine ⟨hsound.staging, hsound.results, fun hne => ?_, fun hm => ⟨hsound.queue hm, fun hne => ?_⟩,
    fun hm => ⟨hsound.noResults hm, hissue hm⟩, hsound.ptr⟩
  · exact Nat.le_antisymm hsound.staging (hclose hne)
  · exact Nat.le_antisymm hsound.results (hqueue hm hne)

theorem State.full.ringsOk (h : s.full none) : s.tagsOk ∧ s.ringOk := by
  obtain ⟨⟨hsound, hstop, -⟩, -⟩ := h
  obtain ⟨hidle, hfaulted, horphans, hwb, hsize, hcause, hrun⟩ := hsound.ring
  exact ⟨⟨hidle, hfaulted, horphans, hstop, hwb⟩, hsize, hcause, hrun⟩

theorem State.full.drainOk (h : s.full none) : s.drainOk := fun hx =>
  ⟨h.ready.drains ⟨rfl, hx⟩, h.ready.sound.runs ⟨rfl, hx⟩⟩

/-! ### The result queue, markers and CONSUMER (R111, R118, R127) -/

variable {run : Option Command}

/-- A read of the result queue's word; the eighth removes the record and advances the output. -/
theorem readQueue_full (h : s.full run) : (readQueue s).full run := by
  have hsound := h.ready.sound
  unfold readQueue
  cases hres : s.path.results with
  | nil => exact h
  | cons r rest =>
    have hring (hm : s.path.mode = .ring) : False := by
      have := hsound.noResults hm
      rw [hres] at this
      cases this
    have hlen := hsound.results
    rw [hres, List.length_cons] at hlen
    dsimp only
    split_ifs
    · have hremoved : (s.setPath { s.path with results := rest, ptr := 0 }).sound run :=
        sound_path hsound hsound.ring rfl rfl rfl rfl hsound.staging (by show rest.length ≤ 16; omega) (fun _ => rfl)
          fun hm => (hring hm).elim
      exact advance_full ⟨hremoved, h.ready.stops, h.ready.drains⟩
    · refine ⟨⟨sound_path hsound hsound.ring rfl rfl rfl rfl hsound.staging hsound.results (fun hnil => ?_)
        fun hm => (hring hm).elim, h.ready.stops, h.ready.drains⟩, h.waits⟩
      exact absurd (hres.symm.trans hnil) nofun

/-- A MARKER record joins staging where there is room. -/
theorem acceptMarker_full (h : s.full run) (hroom : s.markerBlocked = false) (n : Node) (v : Word) :
    (acceptMarker n v s).full run := by
  have hsound := h.ready.sound
  have hlen : ¬8 ≤ s.path.staging.length := of_decide_eq_false (Bool.or_eq_false_iff.mp hroom).2
  unfold acceptMarker
  dsimp only
  refine advance_full ⟨sound_path hsound hsound.ring rfl rfl rfl rfl ?_ hsound.results hsound.ptr hsound.noResults,
    h.ready.stops, fun _ => not_drained_of_staging ?_⟩
  · show (s.path.staging ++ [_]).length ≤ 8
    rw [List.length_append, List.length_singleton]
    omega
  · exact List.append_ne_nil_of_right_ne_nil _ (List.cons_ne_nil _ _)

/-- An admitted CONSUMER that does not advance is the one it replaces. -/
theorem consumer_eq_of_consumeBy {g : Ring} {v : BitVec 17} (hrun : g.runOk) (hv : g.consumerOk v = true)
    (h0 : g.consumeBy v = 0) : v = g.consumer := by
  obtain ⟨-, hcons, -⟩ := hrun
  simp only [Ring.consumerOk, Bool.and_eq_true, decide_eq_true_eq] at hv
  exact BitVec.eq_of_toNat_eq ((subMod_eq_zero_iff hv.1 hcons).mp h0)

/-- The ring's registers change that the other parts do not see. -/
theorem ring_ready (h : s.ready run) {g : Ring} (hg : g.steady) (hstate : g.state = s.ring.state)
    (htags : g.tags = s.ring.tags) : (s.setRing g).ready run := by
  have htag (u : WTag) : (s.setRing g).tag u = s.tag u := congrArg (fun v => v[u.val]) htags
  refine ⟨sound_ring h.sound hg hstate rfl rfl rfl, fun hs => ?_, fun hd => ?_⟩
  · obtain ⟨u, hu⟩ := h.stops (hstate.symm.trans hs)
    exact ⟨u, by rwa [htag u]⟩
  · refine State.drained_eq_false (fun ht => ?_) (h.drains hd)
    rw [State.drained_iff] at ht ⊢
    exact ⟨ht.1, ht.2.1, fun hm u => by rw [← htag u]; exact ht.2.2 hm u⟩

theorem writeConsumer_full (h : s.full run) {v : BitVec 17} (hv : s.ring.consumerOk v = true) :
    (writeConsumer v s).full run := by
  have hsteady := h.ready.sound.ring
  have hg : ({ s.ring with consumer := v } : Ring).steady :=
    ⟨hsteady.idle, hsteady.faulted, hsteady.orphans, hsteady.writeback, hsteady.size, hsteady.cause,
      fun ha => Ring.runOk_consume (hsteady.run ha) hv⟩
  have hready : (s.setRing { s.ring with consumer := v }).ready run := ring_ready h.ready hg rfl rfl
  unfold writeConsumer
  dsimp only
  split_ifs with hadv
  · exact advance_full hready
  · refine ⟨hready, h.waits.congr rfl rfl rfl id fun hs => ⟨hs, ?_, rfl, fun _ _ => id⟩⟩
    have hs' : s.ring.state = .running := hs
    have h0 : s.ring.consumeBy v = 0 := by
      by_contra hne
      exact hadv ⟨hs', hne⟩
    rw [consumer_eq_of_consumeBy (hsteady.run (s.ring.active_iff.mpr (.inl hs'))) hv h0]
    rfl

/-! ### The ring's configuration (R125) -/

theorem writeConfig_fields (x : Ring) (g : Reg) (v : Word) :
    (x.writeConfig g v).state = x.state ∧ (x.writeConfig g v).tags = x.tags ∧ (x.writeConfig g v).fault = x.fault := by
  cases g <;> exact ⟨rfl, rfl, rfl⟩

theorem writeConfig_size {x : Ring} {g : Reg} {v : Word} (hv : valueOk s g v = true) (hx : ringSizeOk x.n = true) :
    ringSizeOk (x.writeConfig g v).n = true := by
  by_cases hg : g = .ringSize
  · subst hg
    exact hv
  · have hsize : (x.writeConfig g v).size = x.size := by
      cases g
      case ringSize => exact absurd rfl hg
      all_goals rfl
    unfold Ring.n
    rw [hsize]
    exact hx

theorem writeConfig_full (h : s.full run) {g : Reg} {v : Word} (hv : valueOk s g v = true)
    (hinactive : s.ring.active = false) : (s.setRing (s.ring.writeConfig g v)).full run := by
  obtain ⟨hstate, htags, hfault⟩ := writeConfig_fields s.ring g v
  have hsteady := h.ready.sound.ring
  have hna : ¬s.ring.active = true := by simp [hinactive]
  refine ⟨ring_ready h.ready (hsteady.congr hstate htags (by rw [hfault]) (writeConfig_size hv hsteady.size)
    fun ha => absurd ha hna) hstate htags, h.waits.congr rfl rfl rfl id fun hs => ?_⟩
  exact absurd (s.ring.active_iff.mpr (.inl (hstate.symm.trans hs))) hna

/-! ### Accesses to the window (R22–R25) -/

theorem Performs.full {n : Node} (hp : Performs s n t) (h : s.full none) (hpool : s.poolOk) : t.full none := by
  have hphased := h.ready.sound.phased
  have howned {n : Node} (ho : s.owner = some n) : s.owner ≠ none := by simp [ho]
  have hsame {u : State} (hpath : u.path = s.path) (hring : u.ring = s.ring) (howner : u.owner = s.owner)
      (hcmd : u.cmd = s.cmd) (hslots : u.slots = s.slots) (hqueue : u.closeQueue = s.closeQueue) : u.full none :=
    h.of_eq (.of_eq hpath hring howner hcmd hslots) hqueue
  cases hp with
  | nothing => exact h
  | refusal d => exact setDev_full h d
  | resultPort _ hr => exact takeWord_full h hr
  | queueData => exact readQueue_full h
  | ack => exact hsame rfl rfl rfl rfl rfl rfl
  | marker v hroom => exact acceptMarker_full h hroom n v
  | markerRefused => exact hsame rfl rfl rfl rfl rfl rfl
  | claim ho =>
    obtain ho | ho := ho
    · have hidle := hphased.owner ho
      refine full_of_processor h rfl rfl rfl ⟨nofun, hphased.code, hphased.params, hphased.executing, hphased.words⟩ fun hd => ?_
      exact absurd (hidle.symm.trans ((Processor.isExecuting_iff _ _).mp hd.2).1) nofun
    · exact hsame rfl rfl ho.symm rfl rfl rfl
  | relinquish => exact loseOwner_full h
  | prescale v => exact hsame rfl rfl rfl rfl rfl rfl
  | watchLimit v => exact hsame rfl rfl rfl rfl rfl rfl
  | lfsr v => exact hsame rfl rfl rfl rfl rfl rfl
  | cmdPort v ho => exact writeCmdPort_full h hpool (howned ho) v
  | cmdCancel ho => exact cancelCommand_full h (howned ho)
  | bank c => exact hsame rfl rfl rfl rfl rfl rfl
  | bankReg g v => exact hsame rfl rfl rfl rfl rfl rfl
  | ringReg g v hv hinactive => exact writeConfig_full h hv hinactive
  | consumer v hv => exact writeConsumer_full h hv
  | queuePtr =>
    have hsound := h.ready.sound
    exact ⟨⟨sound_path hsound hsound.ring rfl rfl rfl rfl hsound.staging hsound.results (fun _ => rfl) hsound.noResults,
      h.ready.stops, h.ready.drains⟩, h.waits⟩
  | queueThreshold v =>
    have hsound := h.ready.sound
    exact ⟨⟨sound_path hsound hsound.ring rfl rfl rfl rfl hsound.staging hsound.results hsound.ptr hsound.noResults,
      h.ready.stops, h.ready.drains⟩, h.waits⟩
  | intCtrl k a => exact hsame rfl rfl rfl rfl rfl rfl
  | endSvc => exact hsame rfl rfl rfl rfl rfl rfl
  | mie b => exact hsame rfl rfl rfl rfl rfl rfl
  | alertNode m b => exact hsame rfl rfl rfl rfl rfl rfl
  | alertAddr v => exact hsame rfl rfl rfl rfl rfl rfl

/-! ### Every step -/

theorem requestBeat_full (h : s.full none) (hpool : s.poolOk) (r : Request) : (requestBeat r s).full none := by
  have harrive : (implicitArrival r.initiator s).full none := h.of_eq (.of_eq rfl rfl rfl rfl rfl) rfl
  have hpool' : (implicitArrival r.initiator s).poolOk := hpool
  unfold requestBeat
  dsimp only
  split_ifs
  · obtain ⟨u, hu, hp⟩ := targetAccess_performs r (implicitArrival r.initiator s)
    obtain rfl | ⟨b, rfl⟩ := hu
    · exact hp.full harrive hpool'
    · exact hp.full (harrive.of_eq (.of_eq rfl rfl rfl rfl rfl) rfl) hpool'
  · exact snoopRequest_full harrive r

theorem alertCheck_full (h : s.full run) : (alertCheck s).full run := by
  refine h.of_eq (.of_eq ?_ ?_ ?_ ?_ ?_) ?_
  all_goals simp

theorem setLine_full (h : s.full run) (n : Node) (b : Bool) : (setLine n b s).full run := by
  unfold setLine
  split_ifs
  · exact h
  · exact h.of_eq (.of_eq rfl rfl rfl rfl rfl) rfl
  · exact h.of_eq (.of_eq rfl rfl rfl rfl rfl) rfl

theorem pins_full (h : s.full run) (p : Pins) (l : List Beat) : ((s.setPins p).setOutbox l).full run :=
  h.of_eq (.of_eq rfl rfl rfl rfl rfl) rfl

theorem writebackIfDue_full (h : s.full run) : (writebackIfDue s).full run := by
  have hsound := writebackIfDue_sound h.ready.sound
  have hwaits := writebackIfDue_waits h.waits
  unfold writebackIfDue at hsound hwaits ⊢
  split_ifs at hsound hwaits ⊢ with hdue
  · have hbusy : ((issueWriteback s).tag wbTag).state ≠ .free := by
      have htag : (issueWriteback s).tag wbTag =
          { WriteTag.cleared with state := .issued, value := s.ring.producer, dest := s.ring.node } :=
        State.tag_setTag_self s wbTag _
      rw [htag]
      nofun
    have hne : (issueWriteback s).ring.state ≠ .idle := fun hi => hbusy (hsound.ring.idle hi wbTag)
    exact ⟨⟨hsound, fun _ => ⟨wbTag, hbusy⟩, fun _ => not_drained_of_busy (mode_of_not_idle hsound hne) hbusy⟩, hwaits⟩
  · exact h

/-- Every effect keeps the conditions; a row that moves along the path finds nothing to move. -/
theorem Effect.full {i : Instr} (he : Effect s i t) (h : s.full none) (hpool : s.poolOk) : t.full none := by
  obtain ⟨hclose, hqueue, hissue⟩ := h.waits
  cases he with
  | ignored => exact h
  | powerOn straps lines => exact State.good.full (State.powerOn_good straps lines _ _)
  | pins _ p l => exact pins_full h p l
  | backplaneReset p => exact alertCheck_full (backplaneResetBeat_full (pins_full h p []) hpool)
  | arrival n => exact alertCheck_full ((setLine_full h n true).of_eq (.of_eq rfl rfl rfl rfl rfl) rfl)
  | withdrawal n => exact alertCheck_full (withdraw_full (setLine_full h n false) n)
  | tick => exact alertCheck_full (tickBeat_full h)
  | request _ r => exact alertCheck_full (requestBeat_full h hpool r)
  | reply _ r => exact alertCheck_full (replyBeat_full h r)
  | slotExpiry k => exact expireSlot_full h k
  | backoffReissue u => exact reissueTag_full h u
  | timeout u => exact timeoutTag_full h u
  | orphanFree u => exact expireOrphan_full h u
  | drainTimedOut => exact drainTimeoutTest_full h
  | entry t ht =>
    rw [(entryOnce_eq_none s).mpr hclose] at ht
    cases ht
  | move t ht =>
    rw [(queueOnce_eq_none s).mpr hqueue] at ht
    cases ht
  | issue _ t hruns ht =>
    simp only [State.engineRuns, Bool.and_eq_true, decide_eq_true_eq] at hruns
    rw [(issueOnce_eq_none s).mpr (hissue hruns.1 hruns.2)] at ht
    cases ht
  | commit => exact commitRun_full h
  | writeback => exact writebackIfDue_full h
  | stopComplete => exact ⟨stopTest_ready h.ready, stopTest_pathWaits h.waits⟩
  | drainComplete => exact drainTest_full h.ready.sound h.ready.stops h.waits
  | alert => exact alertCheck_full h

theorem clock_full (h : s.full none) : (clock s).full none := by
  have hcount (d : BitVec 13) : ((s.setOutbox s.outbox.tail).setTb { s.tb with divider := d }).full none :=
    h.of_eq (.of_eq rfl rfl rfl rfl rfl) rfl
  obtain he | ⟨d, he | he⟩ := clock_cases s
  · rwa [he]
  · rw [he]
    exact hcount d
  · rw [he]
    exact alertCheck_full (tickBeat_full (hcount d))

theorem step_full (hs : s.good) (h : step s = .next t) : t.full none := by
  have hpool : s.poolOk := hs.2.2.2.1
  obtain rfl | ⟨i, rest, he⟩ := step_cases h
  · exact clock_full hs.full
  · have hfull : ({ s with pending := rest } : State).full none := hs.full.of_eq (.of_eq rfl rfl rfl rfl rfl) rfl
    exact he.full hfull hpool

/-! ### The obligations -/

/-- Settles O10: the processor's part of the conditions. -/
theorem processorPhasesStayLegal : Obligations.ProcessorPhasesStayLegal := fun _ _ hs h => (step_full hs h).processorOk

/-- Settles O13: nothing on the output path could move. -/
theorem outputPathStaysQuiescent : Obligations.OutputPathStaysQuiescent := fun _ _ hs h => (step_full hs h).pathOk

/-- Settles O14: the tags and the run of positions. -/
theorem ringWritesStayConsistent : Obligations.RingWritesStayConsistent := fun _ _ hs h => (step_full hs h).ringsOk

/-- Settles O15: an EXECUTING DRAIN still has something to wait for. -/
theorem drainConditionIsNeverMissed : Obligations.DrainConditionIsNeverMissed := fun _ _ hs h => (step_full hs h).drainOk

end Sys2Proof.Machine
end

