-- ==== Sys2Proof/Proofs/Closing.lean ====
section
/-! PROOF. A run of closings: what it leaves of the slots it closes and of the others, of the channels' FILTERED counts, of the
ring and of the command processor. A withdrawal and a tick begin with such a run (R85, R86, R88). -/

namespace Sys2Proof.Machine

/-! ### The ring and the processor during closings -/

/-- The processor goes on as it was, or an EXECUTING command has ended. -/
def Processor.endsTo (p q : Processor) : Prop := q = p ∨ p.phase = .executing ∧ q.phase ≠ .executing

theorem Processor.endsTo.trans {p q r : Processor} (h1 : p.endsTo q) (h2 : q.endsTo r) : p.endsTo r := by
  obtain rfl | ⟨hp, hq⟩ := h1
  · exact h2
  · obtain rfl | ⟨hq', -⟩ := h2
    · exact .inr ⟨hp, hq⟩
    · exact absurd hq' hq

/-- What an output advance leaves of the ring and the processor: it issues records on FREE tags of a RUNNING ring, counts losses,
and may end a DRAIN. -/
structure Engine (s t : State) : Prop where
  ring : t.ring = { s.ring with tags := t.ring.tags, lostPending := t.ring.lostPending, firstLost := t.ring.firstLost }
  tag : ∀ u, (s.tag u).state ≠ .free ∨ s.ring.state ≠ .running → t.tag u = s.tag u
  cmd : s.cmd.endsTo t.cmd

section Engines

variable {s t u : State}

theorem Engine.of_eq (hring : t.ring = s.ring) (hcmd : s.cmd.endsTo t.cmd) : Engine s t := by
  refine ⟨?_, fun v _ => congrArg (fun g => g.tag v) hring, hcmd⟩
  rw [hring]

theorem Engine.trans (h1 : Engine s t) (h2 : Engine t u) : Engine s u where
  ring := by rw [h2.ring, h1.ring]
  tag v hv := by
    have ht := h1.tag v hv
    have hstate : t.ring.state = s.ring.state := by rw [h1.ring]
    rw [h2.tag v (by rwa [ht, hstate]), ht]
  cmd := h1.cmd.trans h2.cmd

theorem drainTest_endsTo (s : State) : s.cmd.endsTo (drainTest s).cmd := by
  unfold drainTest
  split_ifs with h
  · rw [Bool.and_eq_true] at h
    exact .inr ⟨((Processor.isExecuting_iff _ _).mp h.1).1, nofun⟩
  · exact .inl rfl

theorem drainTest_engine (s : State) : Engine s (drainTest s) := .of_eq (by simp) (drainTest_endsTo s)

/-- An issue on a FREE tag. -/
theorem issue_engine {v : WTag} {x : WriteTag} (hrun : s.ring.state = .running) (hv : s.ring.freeRecTag = some v)
    (hring : t.ring = { s.ring with
      tags := (s.ring.setTag v x).tags, lostPending := t.ring.lostPending, firstLost := t.ring.firstLost })
    (hcmd : t.cmd = s.cmd) : Engine s t := by
  have htags : t.ring.tags = (s.ring.setTag v x).tags := by rw [hring]
  refine ⟨by rw [htags]; exact hring, fun w hw => ?_, .inl hcmd⟩
  have hne : w ≠ v := by
    rintro rfl
    obtain hw | hw := hw
    · exact hw ((s.ring.freeRecTag_eq_some w).mp hv).2.1
    · exact hw hrun
  refine (congrArg (fun l => l[w.val]) htags).trans ((Ring.tag_setTag s.ring v w x).trans (if_neg hne))

theorem PathMove.engine (h : PathMove s t) : Engine s t := by
  cases h with
  | toQueue x rest =>
    unfold moveToQueue
    refine Engine.trans ?_ (drainTest_engine _)
    exact .of_eq (by simp) (.inl (by simp))
  | gap v _ _ hrun _ hv => exact issue_engine (v := v) hrun hv rfl rfl
  | head v x rest _ _ hrun _ hv => exact issue_engine (v := v) hrun hv rfl rfl
  | drop x rest =>
    unfold dropHead
    refine Engine.trans ?_ (drainTest_engine _)
    refine ⟨by simp [Ring.countDrop], fun v _ => ?_, .inl (by simp)⟩
    simp [State.tag, Ring.tag, Ring.countDrop]
  | enter i rest => exact .of_eq (by simp) (.inl (by simp))

end Engines

/-! ### Runs of closings -/

/-- Slot i as ending e leaves it, but for its state. -/
def State.ended (s : State) (e : Ending) (i : SlotId) : Slot :=
  { s.slot i with outcome := some e, closeTime := some s.tb.time }

/-- The slots of l have closed with ending e: each is CLOSING, or FREE once it was filtered or delivered. The output advances of
the run have freed slots that were not watched for a reply, and no other. -/
structure Closes (e : Ending) (l : List SlotId) (s t : State) : Prop where
  engine : Engine s t
  tb : t.tb = s.tb
  watchLimit : t.watchLimit = s.watchLimit
  bank : ∀ c, (t.chan c).bank = (s.chan c).bank
  filtered : ∀ c, (t.chan c).stats.filtered = (s.chan c).stats.filtered + BitVec.ofNat 32
    (l.countP fun i => decide ((s.slot i).channel = c) && !qualifiesRecord (s.chan c).bank (s.ended e i))
  closed : ∀ i ∈ l, t.slot i = { s.ended e i with state := .closing } ∨ t.slot i = Slot.cleared
  other : ∀ i ∉ l, t.slot i = s.slot i ∨ (s.slot i).isLive = false ∧ t.slot i = Slot.cleared

namespace Closes

variable {e : Ending} {l m : List SlotId} {s t u : State}

/-- Where the channels' banks and FILTERED counts, and the slots, are as they were. -/
theorem of_same (hengine : Engine s t) (htb : t.tb = s.tb) (hlimit : t.watchLimit = s.watchLimit)
    (hchan : ∀ c, (t.chan c).bank = (s.chan c).bank ∧ (t.chan c).stats.filtered = (s.chan c).stats.filtered)
    (hslot : ∀ i, t.slot i = s.slot i ∨ (s.slot i).isLive = false ∧ t.slot i = Slot.cleared) : Closes e [] s t :=
  ⟨hengine, htb, hlimit, fun c => (hchan c).1, fun c => by rw [(hchan c).2]; simp, nofun, fun i _ => hslot i⟩

theorem refl (s : State) : Closes e [] s s :=
  .of_same (.of_eq rfl (.inl rfl)) rfl rfl (fun _ => ⟨rfl, rfl⟩) fun _ => .inl rfl

theorem of_unsampled (h : Unsampled s t) (hengine : Engine s t) (htb : t.tb = s.tb) (hlimit : t.watchLimit = s.watchLimit) :
    Closes e [] s t := by
  refine .of_same hengine htb hlimit (fun c => ?_) fun i => .inl (h.slot i)
  rw [h.chan c]
  exact ⟨rfl, rfl⟩

/-- A slot that is live after the run was as it is before it. -/
theorem slot_of_live (h : Closes e l s t) {i : SlotId} (hi : (t.slot i).isLive = true) : i ∉ l ∧ t.slot i = s.slot i := by
  by_cases hl : i ∈ l
  · obtain hc | hc := h.closed i hl <;> rw [hc] at hi <;> cases hi
  · refine ⟨hl, (h.other i hl).resolve_right fun hf => ?_⟩
    rw [hf.2] at hi
    cases hi

/-- One run after another, over slots that are live in between. -/
theorem append (h1 : Closes e l s t) (h2 : Closes e m t u) (hm : ∀ i ∈ m, (t.slot i).isLive = true) :
    Closes e (l ++ m) s u where
  engine := h1.engine.trans h2.engine
  tb := h2.tb.trans h1.tb
  watchLimit := h2.watchLimit.trans h1.watchLimit
  bank c := (h2.bank c).trans (h1.bank c)
  filtered c := by
    have hcount : (m.countP fun i => decide ((t.slot i).channel = c) && !qualifiesRecord (t.chan c).bank (t.ended e i)) =
        m.countP fun i => decide ((s.slot i).channel = c) && !qualifiesRecord (s.chan c).bank (s.ended e i) := by
      refine List.countP_congr fun i hi => ?_
      rw [State.ended, State.ended, (h1.slot_of_live (hm i hi)).2, h1.bank c, h1.tb]
    rw [h2.filtered c, h1.filtered c, hcount, List.countP_append, BitVec.ofNat_add, BitVec.add_assoc]
  closed i hi := by
    by_cases him : i ∈ m
    · have hc := h2.closed i him
      rwa [State.ended, (h1.slot_of_live (hm i him)).2, h1.tb] at hc
    · have hil := (List.mem_append.mp hi).resolve_right him
      obtain ho | ⟨-, ho⟩ := h2.other i him
      · rw [ho]
        exact h1.closed i hil
      · exact .inr ho
  other i hi := by
    rw [List.mem_append, not_or] at hi
    obtain ho1 | ⟨hlive, ho1⟩ := h1.other i hi.1
    · have ho2 := h2.other i hi.2
      rwa [ho1] at ho2
    · obtain ho2 | ⟨-, ho2⟩ := h2.other i hi.2
      · exact .inr ⟨hlive, ho2.trans ho1⟩
      · exact .inr ⟨hlive, ho2⟩

theorem tail (h1 : Closes e l s t) (h2 : Closes e [] t u) : Closes e l s u := by
  simpa using h1.append h2 nofun

end Closes

/-! ### The output advance -/

section Advances

variable {e : Ending} {s t : State}

theorem heldEntry_slot (c : ChanId) (s : State) (i : SlotId) :
    (heldEntry c s).slot i = s.slot i ∨ (s.slot i).isLive = false ∧ (heldEntry c s).slot i = Slot.cleared := by
  unfold heldEntry
  split_ifs
  · cases (s.chan c).run with
    | armed =>
      show (cancelArming c .held s).slot i = s.slot i ∨ _ ∧ (cancelArming c .held s).slot i = _
      unfold cancelArming
      cases hj : s.reservedSlot c with
      | none => exact .inl rfl
      | some j =>
        obtain ⟨⟨hres, -⟩, -⟩ := (s.reservedSlot_eq_some c j).mp hj
        have hslot : (cancelAt c j .held s).slot i = if i = j then Slot.cleared else s.slot i := by
          simp [cancelAt, collide, State.slot_setSlot]
        dsimp only
        rw [hslot]
        split_ifs with hij
        · rw [hij]
          exact .inr ⟨by simp [Slot.isLive, hres], rfl⟩
        · exact .inl rfl
    | disarmed => exact .inl rfl
    | counting => exact .inl rfl
    | held => exact .inl rfl
  · exact .inl rfl

theorem heldEntry_filtered (c d : ChanId) (s : State) :
    ((heldEntry c s).chan d).stats.filtered = (s.chan d).stats.filtered := by
  unfold heldEntry
  split_ifs
  · cases (s.chan c).run with
    | armed =>
      show ((cancelArming c .held s).chan d).stats.filtered = _
      unfold cancelArming
      cases s.reservedSlot c with
      | none => by_cases hd : d = c <;> simp [collide, State.chan_setRun, State.chan_modStats, hd]
      | some j => by_cases hd : d = c <;> simp [cancelAt, collide, State.chan_setRun, State.chan_modStats, hd]
    | counting => by_cases hd : d = c <;> simp [State.chan_setRun, hd]
    | disarmed => rfl
    | held => rfl
  · rfl

theorem enterStaging_slot {i : SlotId} (hi : (s.slot i).isLive = false) (rest : List SlotId) (j : SlotId) :
    (enterStaging i rest s).slot j = s.slot j ∨ (s.slot j).isLive = false ∧ (enterStaging i rest s).slot j = Slot.cleared := by
  have hentered (p : Path) (f : ChanStats → ChanStats) :
      ((((s.setCloseQueue rest).setPath p).setSlot i Slot.cleared).modStats (s.slot i).channel f).slot j =
        if j = i then Slot.cleared else s.slot j := State.slot_setSlot s i j Slot.cleared
  unfold enterStaging
  dsimp only
  obtain hh | ⟨hlive, hh⟩ := heldEntry_slot (s.slot i).channel _ j
  · rw [hh, hentered]
    split_ifs with hj
    · rw [hj]
      exact .inr ⟨hi, rfl⟩
    · exact .inl rfl
  · rw [hh]
    rw [hentered] at hlive
    split_ifs at hlive with hj
    · rw [hj]
      exact .inr ⟨hi, rfl⟩
    · exact .inr ⟨hlive, rfl⟩

theorem PathMove.closes (h : PathMove s t) (hs : s.poolOk) : Closes e [] s t := by
  have hengine := h.engine
  cases h with
  | toQueue x rest => exact .of_unsampled (unsampled_moveToQueue x rest s) hengine (by simp) (by simp)
  | gap v => exact .of_unsampled (unsampled_issueGap v s) hengine rfl rfl
  | head v x rest => exact .of_unsampled (unsampled_issueHead v x rest s) hengine rfl rfl
  | drop x rest => exact .of_unsampled (unsampled_dropHead x rest s) hengine (by simp) (by simp)
  | enter i rest hq =>
    have hclosing : (s.slot i).state = .closing := (hs.2.1 i).mp (by simp [hq])
    refine .of_same hengine (by simp) (by simp) (fun c => ⟨(enterStaging_sameCounting i rest s).bank c, ?_⟩) fun j =>
      enterStaging_slot (by simp [Slot.isLive, hclosing]) rest j
    unfold enterStaging
    dsimp only
    rw [heldEntry_filtered, State.chan_modStats]
    split_ifs with hc
    · rw [hc]
      rfl
    · rfl

theorem advance_closes (hs : s.poolOk) : Closes e [] s (advance s) :=
  ((advance_pathMoves s).keeps (P := fun t => Closes e [] s t ∧ t.poolOk)
    (fun _ _ hmove hp => ⟨hp.1.tail (hmove.closes hp.2), ((pathMove_moves (z := True) hmove).pool hp.2).1⟩)
    ⟨.refl s, hs⟩).1

/-- The slot itself closes, before the output advances or the drain test is made. -/
theorem closes_one {i : SlotId} {x : Slot} (hslot : ∀ j, t.slot j = if j = i then x else s.slot j)
    (hx : x = { s.ended e i with state := .closing } ∨ x = Slot.cleared) (hengine : Engine s t) (htb : t.tb = s.tb)
    (hlimit : t.watchLimit = s.watchLimit) (hbank : ∀ c, (t.chan c).bank = (s.chan c).bank)
    (hfiltered : ∀ c, (t.chan c).stats.filtered = (s.chan c).stats.filtered +
      if (s.slot i).channel = c ∧ qualifiesRecord (s.chan c).bank (s.ended e i) = false then 1 else 0) :
    Closes e [i] s t where
  engine := hengine
  tb := htb
  watchLimit := hlimit
  bank := hbank
  filtered c := by
    rw [hfiltered c, List.countP_singleton]
    congr 1
    by_cases h1 : (s.slot i).channel = c
    · cases h2 : qualifiesRecord (s.chan c).bank (s.ended e i) <;> simp [h1]
    · simp [h1]
  closed j hj := by
    obtain rfl := List.mem_singleton.mp hj
    rw [hslot j, if_pos rfl]
    exact hx
  other j hj := by
    rw [hslot j, if_neg fun h => hj (List.mem_singleton.mpr h)]
    exact .inl rfl

/-- The closing of one live slot. -/
theorem closeSlot_closes (hs : s.poolOk) {i : SlotId} (hi : (s.slot i).isLive = true) (e : Ending) :
    Closes e [i] s (closeSlot i e s) := by
  unfold closeSlot
  dsimp only
  split_ifs with hq
  · have hqualify : Closes e [i] s
        ((s.setSlot i { s.ended e i with state := .closing }).setCloseQueue (s.closeQueue ++ [i])) := by
      refine closes_one (fun j => State.slot_setSlot s i j _) (.inl rfl) (.of_eq rfl (.inl rfl)) rfl rfl (fun _ => rfl) fun c => ?_
      rw [if_neg]
      · simp
      · rintro ⟨rfl, hf⟩
        exact absurd (hq.symm.trans hf) nofun
    have hpool := (Move.qualify (z := True) i { s.ended e i with state := .closing } hi rfl rfl).poolOk hs
    exact hqualify.tail (advance_closes hpool)
  · refine Closes.tail ?_ (Closes.of_unsampled (unsampled_drainTest _) (drainTest_engine _) (by simp) (by simp))
    refine closes_one (fun j => State.slot_setSlot s i j _) (.inr rfl) (.of_eq rfl (.inl rfl)) rfl rfl (fun c => ?_) fun c => ?_
    · rw [State.chan_modStats]
      split_ifs with hc
      · rw [hc]
        rfl
      · rfl
    · rw [State.chan_modStats]
      by_cases hc : c = (s.slot i).channel
      · subst hc
        rw [if_pos rfl, if_pos ⟨rfl, Bool.eq_false_iff.mpr hq⟩]
        rfl
      · rw [if_neg hc, if_neg fun h => hc h.1.symm]
        exact (BitVec.add_zero _).symm

theorem closeSlot_poolOk (hs : s.poolOk) {i : SlotId} (hi : (s.slot i).isLive = true) (e : Ending) : (closeSlot i e s).poolOk :=
  ((closeSlot_moves (z := True) hi e).pool hs).1

end Advances

/-! ### The visits -/

/-- Slots visited in turn, each acted on where it is due; whether one is due shows in the slot and the watch limit. -/
def visitDue (P : BitVec 16 → Slot → Bool) (close : State → SlotId → State) (s : State) (i : SlotId) : State :=
  if P s.watchLimit (s.slot i) then close s i else s

/-- The visits are the closings of the slots due at the start, in their order. -/
theorem foldl_visitDue {P : BitVec 16 → Slot → Bool} {close : State → SlotId → State} {e : Ending}
    (hlive : ∀ w x, P w x = true → x.isLive = true)
    (hclose : ∀ u i, u.poolOk → (u.slot i).isLive = true → Closes e [i] u (close u i) ∧ (close u i).poolOk)
    {s : State} (hs : s.poolOk) {l : List SlotId} (hl : l.Nodup) :
    l.foldl (visitDue P close) s = (l.filter fun i => P s.watchLimit (s.slot i)).foldl close s ∧
      Closes e (l.filter fun i => P s.watchLimit (s.slot i)) s (l.foldl (visitDue P close) s) ∧
      (l.foldl (visitDue P close) s).poolOk := by
  induction l using List.reverseRecOn with
  | nil => exact ⟨rfl, .refl s, hs⟩
  | append_singleton l i ih =>
    obtain ⟨hnodup, -, hdisj⟩ := List.nodup_append.mp hl
    have hi : i ∉ l := fun hm => hdisj i hm i (List.mem_singleton_self i) rfl
    obtain ⟨heq, hcloses, hpool⟩ := ih hnodup
    rw [List.foldl_append, List.filter_append, List.foldl_append, ← heq]
    generalize l.foldl (visitDue P close) s = u at heq hcloses hpool
    have hnot : i ∉ l.filter fun i => P s.watchLimit (s.slot i) := fun hm => hi (List.mem_of_mem_filter hm)
    have hdue : P u.watchLimit (u.slot i) = P s.watchLimit (s.slot i) := by
      rw [hcloses.watchLimit]
      obtain ho | ⟨hns, ho⟩ := hcloses.other i hnot
      · rw [ho]
      · have hnone (x : Slot) (hx : x.isLive = false) : P s.watchLimit x = false := by
          by_contra hp
          exact absurd (hx.symm.trans (hlive _ _ (Bool.eq_true_of_not_eq_false hp))) nofun
        rw [ho, hnone _ hns, hnone _ rfl]
    show visitDue P close u i = _ ∧ Closes e _ s (visitDue P close u i) ∧ (visitDue P close u i).poolOk
    unfold visitDue
    rw [hdue]
    by_cases hp : P s.watchLimit (s.slot i) = true
    · have hlivei : (u.slot i).isLive = true := hlive u.watchLimit _ (hdue.trans hp)
      obtain ⟨h1, h2⟩ := hclose u i hpool hlivei
      rw [if_pos hp, List.filter_singleton, hp]
      exact ⟨rfl, hcloses.append h1 fun j hj => List.mem_singleton.mp hj ▸ hlivei, h2⟩
    · rw [if_neg hp, List.filter_singleton, Bool.eq_false_iff.mpr hp]
      exact ⟨rfl, by simpa using hcloses, hpool⟩

end Sys2Proof.Machine
end

