-- ==== Sys2Proof/Proofs/Withdrawal.lean ====
section
/-! PROOF. The withdrawal of a node (R9, R86, R138, R146, R184): the closings, the owner's loss, and the ring's part. -/

namespace Sys2Proof.Machine

/-! ### Ends of commands -/

section Ends

variable {s t : State}

theorem stopTest_endsTo (s : State) : s.cmd.endsTo (stopTest s).cmd := by
  by_cases h : s.ring.state = .stopping ∧ ∀ u : WTag, (s.tag u).state = .free
  · rw [stopTest_of h]
    split_ifs with hx
    · exact .inr ⟨((Processor.isExecuting_iff _ _).mp hx).1, nofun⟩
    · exact .inl rfl
  · rw [stopTest_of_not h]
    exact .inl rfl

theorem afterTagFree_endsTo (s : State) : s.cmd.endsTo (afterTagFree s).cmd :=
  (stopTest_endsTo s).trans (drainTest_endsTo _)

theorem endOnFault_endsTo (s : State) : s.cmd.endsTo (endOnFault s).cmd := by
  by_cases h : s.endsOnFault
  · rw [endOnFault_of h]
    exact .inr ⟨h.1, nofun⟩
  · rw [endOnFault_of_not h]
    exact .inl rfl

theorem ringFault_endsTo (cause : RingCause) (code : BitVec 4) (tag : Option WTag) (s : State) :
    s.cmd.endsTo (ringFault cause code tag s).cmd := by
  obtain ⟨u, hu, heq⟩ := ringFault_eq cause code tag s
  have hcmd : u.cmd = s.cmd := by
    rw [hu.rest]
    rfl
  rw [heq, ← hcmd]
  exact endOnFault_endsTo u

theorem freeOrphan_endsTo (u : WTag) (s : State) : s.cmd.endsTo (freeOrphan u s).cmd :=
  afterTagFree_endsTo (s.setTag u WriteTag.cleared)

/-- What every visit lets end, all of them do. -/
theorem foldl_endsTo {α : Type} {f : State → α → State} (h : ∀ (s : State) (x : α), s.cmd.endsTo (f s x).cmd) (l : List α) (s : State) :
    s.cmd.endsTo (l.foldl f s).cmd :=
  foldl_keeps (P := fun t => s.cmd.endsTo t.cmd) f (fun t x ht => ht.trans (h t x)) l s (.inl rfl)

theorem ringWithdraw_endsTo (n : Node) (s : State) : s.cmd.endsTo (ringWithdraw n s).cmd := by
  have hfault : s.cmd.endsTo (if n = s.ring.node then ringFault .targetGone 0 none s else s).cmd := by
    split_ifs
    · exact ringFault_endsTo _ _ _ s
    · exact .inl rfl
  have hfree (s : State) (u : WTag) : s.cmd.endsTo (freeOrphanOf n s u).cmd := by
    unfold freeOrphanOf
    split_ifs
    · exact freeOrphan_endsTo u s
    · exact .inl rfl
  unfold ringWithdraw
  cases s.ring.state with
  | idle => exact .inl rfl
  | running => exact hfault
  | stopping => exact hfault
  | faulted => exact foldl_endsTo hfree _ s

end Ends

/-! ### Tags that become FREE -/

section Frees

variable {s : State}

theorem stopTest_ring (s : State) : (stopTest s).ring = { s.ring with state := (stopTest s).ring.state } := by
  by_cases h : s.ring.state = .stopping ∧ ∀ u : WTag, (s.tag u).state = .free
  · rw [stopTest_of h]
    split_ifs <;> rfl
  · rw [stopTest_of_not h]

theorem afterTagFree_ring (s : State) : (afterTagFree s).ring = { s.ring with state := (afterTagFree s).ring.state } := by
  have hdrain : (afterTagFree s).ring = (stopTest s).ring := by simp [afterTagFree]
  rw [hdrain]
  exact stopTest_ring s

theorem freeOrphan_tag (u v : WTag) (s : State) :
    (freeOrphan u s).tag v = if v = u then WriteTag.cleared else s.tag v := by
  have hring := afterTagFree_ring (s.setTag u WriteTag.cleared)
  have htag : (freeOrphan u s).tag v = (s.setTag u WriteTag.cleared).tag v := congrArg (fun g => g.tag v) hring
  rw [htag, State.tag_setTag]

theorem freeOrphan_config (u : WTag) (s : State) :
    (freeOrphan u s).ring = { s.ring with state := (freeOrphan u s).ring.state, tags := (freeOrphan u s).ring.tags } := by
  have hring := afterTagFree_ring (s.setTag u WriteTag.cleared)
  exact hring.trans (by rw [freeOrphan, hring]; rfl)

/-- A FAULTED ring stays FAULTED. -/
theorem freeOrphan_faulted (u : WTag) (h : s.ring.state = .faulted) : (freeOrphan u s).ring.state = .faulted := by
  have hne : ¬((s.setTag u WriteTag.cleared).ring.state = .stopping ∧ ∀ v, ((s.setTag u WriteTag.cleared).tag v).state = .free) := by
    rintro ⟨hs, -⟩
    exact absurd (h.symm.trans hs) nofun
  unfold freeOrphan afterTagFree
  rw [stopTest_of_not hne]
  simpa using h

/-- The orphans that the node owes become FREE, one after another (R138). -/
theorem freeOrphansOf_faulted (n : Node) (l : List WTag) (h : s.ring.state = .faulted) :
    (l.foldl (freeOrphanOf n) s).ring.state = .faulted ∧ (l.foldl (freeOrphanOf n) s).ring.fault = s.ring.fault ∧
      ∀ v, (l.foldl (freeOrphanOf n) s).tag v =
        if v ∈ l ∧ (s.tag v).state = .orphaned ∧ (s.tag v).dest = n then WriteTag.cleared else s.tag v := by
  induction l generalizing s with
  | nil => exact ⟨h, rfl, fun v => (if_neg fun hv => absurd hv.1 (List.not_mem_nil)).symm⟩
  | cons u l ih =>
    rw [List.foldl_cons]
    by_cases hu : (s.tag u).state = .orphaned ∧ (s.tag u).dest = n
    · have hstep : freeOrphanOf n s u = freeOrphan u s := if_pos hu
      rw [hstep]
      obtain ⟨h1, h2, h3⟩ := ih (freeOrphan_faulted u h)
      refine ⟨h1, h2.trans (by rw [freeOrphan_config]), fun v => ?_⟩
      rw [h3 v, freeOrphan_tag]
      by_cases hv : v = u
      · subst hv
        simp [hu, WriteTag.cleared]
      · simp [hv]
    · have hstep : freeOrphanOf n s u = s := if_neg hu
      rw [hstep]
      obtain ⟨h1, h2, h3⟩ := ih h
      refine ⟨h1, h2, fun v => ?_⟩
      rw [h3 v]
      by_cases hv : v = u
      · subst hv
        simp [hu]
      · simp [hv]

end Frees

/-! ### The parts of a withdrawal -/

section Parts

variable {n : Node} {s : State}

/-- The closings of a withdrawal, in slot order (R86). -/
def abandoned (n : Node) (s : State) : State :=
  (slotIds.filter fun i => (s.slot i).involves n).foldl (fun u i => closeSlot i .abandoned u) s

theorem involves_live {x : Slot} (h : x.involves n = true) : x.isLive = true := by
  unfold Slot.involves at h
  rw [Bool.and_eq_true] at h
  exact h.1

/-- The slots are visited in order; the ones that close are those that involved the node at the start. -/
theorem abandonNode_eq (hs : s.poolOk) :
    abandonNode n s = abandoned n s ∧
      Closes .abandoned (slotIds.filter fun i => (s.slot i).involves n) s (abandoned n s) := by
  obtain ⟨heq, hcloses, -⟩ := foldl_visitDue (P := fun _ x => x.involves n) (close := fun u i => closeSlot i .abandoned u)
    (fun _ _ hx => involves_live hx)
    (fun _ _ hu hi => ⟨closeSlot_closes hu hi .abandoned, closeSlot_poolOk hu hi .abandoned⟩) hs (l := slotIds) (by decide)
  refine ⟨heq, ?_⟩
  rw [heq] at hcloses
  exact hcloses

/-- The ring faults when its memory node leaves (R146). -/
theorem ringWithdraw_active (hactive : s.ring.active = true) (hnode : s.ring.node = n) :
    ringWithdraw n s = ringFault .targetGone 0 none s := by
  unfold ringWithdraw
  rw [Ring.active_iff] at hactive
  obtain h | h := hactive <;> rw [h] <;> exact if_pos hnode.symm

theorem ringWithdraw_faulted (h : s.ring.state = .faulted) : ringWithdraw n s = allTags.foldl (freeOrphanOf n) s := by
  unfold ringWithdraw
  rw [h]

/-- The node is no longer present, and its line shows so. -/
def State.without (n : Node) (s : State) : State :=
  { s with present := withoutBit s.present n, pins := { s.pins with lines := withoutBit s.pins.lines n } }

@[simp] theorem State.without_slot (n : Node) (s : State) (i : SlotId) : (s.without n).slot i = s.slot i := rfl

/-- An owner that leaves loses ownership (R27, R29). -/
def disowned (n : Node) (s : State) : State := if s.owner = some n then loseOwner s else s

theorem disowned_rest (n : Node) (s : State) :
    (disowned n s).slots = s.slots ∧ (disowned n s).chans = s.chans ∧ (disowned n s).ring = s.ring := by
  unfold disowned
  split_ifs <;> exact ⟨rfl, rfl, rfl⟩

theorem disowned_owner (n : Node) (s : State) : (disowned n s).owner = if s.owner = some n then none else s.owner := by
  unfold disowned
  split_ifs <;> rfl

theorem disowned_phase (h : s.owner = some n) : (disowned n s).cmd.phase = .idle := by
  unfold disowned
  rw [if_pos h]
  exact abort_phase s.cmd

/-- Row WITHDRAWAL for a node that is present. -/
theorem exec_withdrawal (hl : s.live = true) (hn : n ≠ s.ownId) (hp : has s.present n = true) :
    exec (.withdrawal n) s = .next (alertCheck (withdraw n (setLine n false s))) := by
  have hlive : (setLine n false s).live = true := (setLine_live n false s).trans hl
  show withdrawalEvent n s = _
  rw [withdrawalEvent, if_neg (by simp [hn, hp]), event_of_live _ _ hlive]
  rfl

/-- The state in which the ring's part of a withdrawal is made. -/
def withdrawing (n : Node) (s : State) : State := disowned n (abandoned n (s.without n))

theorem withdraw_eq (hn : n ≠ s.ownId) (hpool : s.poolOk) :
    withdraw n (setLine n false s) = ringWithdraw n (withdrawing n s) := by
  have hpool' : (s.without n).poolOk := hpool
  rw [withdrawing, ← (abandonNode_eq hpool').1, setLine_of_ne hn false]
  rfl

theorem abandoned_owner (hpool : s.poolOk) : (abandoned n (s.without n)).owner = s.owner := by
  rw [← (abandonNode_eq (n := n) (s := s.without n) hpool).1]
  simp [State.without]

/-- What a withdrawal leaves of the slots and the channels is what its closings leave. -/
theorem withdraw_sampling (n : Node) (s : State) :
    (∀ i, (alertCheck (ringWithdraw n (withdrawing n s))).slot i = (abandoned n (s.without n)).slot i) ∧
      ∀ c, ((alertCheck (ringWithdraw n (withdrawing n s))).chan c).stats = ((abandoned n (s.without n)).chan c).stats := by
  obtain ⟨hslots, hchans, -⟩ := disowned_rest n (abandoned n (s.without n))
  have h := (unsampled_ringWithdraw n (withdrawing n s)).trans (unsampled_alertCheck _)
  refine ⟨fun i => (h.slot i).trans (congrArg (fun x => x[i.val]) hslots), fun c => ?_⟩
  rw [h.chan c]
  exact congrArg (fun x => x[c.val].stats) hchans

/-- The closings and the owner's loss leave the ring's state, node and fault, and its busy tags. -/
theorem withdrawing_ring (n : Node) (hpool : s.poolOk) :
    ((withdrawing n s).ring.state = s.ring.state ∧ (withdrawing n s).ring.node = s.ring.node ∧
        (withdrawing n s).ring.fault = s.ring.fault) ∧
      ∀ u, (s.tag u).state ≠ .free → (withdrawing n s).tag u = s.tag u := by
  obtain ⟨-, -, hring⟩ := disowned_rest n (abandoned n (s.without n))
  have hengine := (abandonNode_eq (n := n) (s := s.without n) hpool).2.engine
  refine ⟨?_, fun u hu => (congrArg (fun g => g.tag u) hring).trans (hengine.tag u (.inl hu))⟩
  rw [withdrawing, hring, hengine.ring]
  exact ⟨rfl, rfl, rfl⟩

/-- The memory node leaves an active ring (R146). -/
theorem withdrawn_active (hpool : s.poolOk) (hactive : s.ring.active = true) (hnode : s.ring.node = n) :
    (ringWithdraw n (withdrawing n s)).ring.state = .faulted ∧
      (ringWithdraw n (withdrawing n s)).ring.fault = { RingFaultReg.cleared with cause := some .targetGone } ∧
        ∀ u : WTag, ((ringWithdraw n (withdrawing n s)).tag u).state = .free := by
  obtain ⟨⟨hstate, hringnode, -⟩, -⟩ := withdrawing_ring n hpool
  have ha : (withdrawing n s).ring.active = true := by
    rw [Ring.active_iff] at hactive ⊢
    rwa [hstate]
  obtain ⟨hrest, hreg, htags, -⟩ := ringFaultDisposesOfTheWrites .targetGone 0 none (withdrawing n s)
  rw [ringWithdraw_active ha (hringnode.trans hnode)]
  exact ⟨by rw [hrest], hreg, fun u => (htags u).trans (if_pos (.inl rfl))⟩

/-- A node leaves while the ring is FAULTED (R138). -/
theorem withdrawn_faulted (hpool : s.poolOk) (hf : s.ring.state = .faulted) :
    (ringWithdraw n (withdrawing n s)).ring.fault = s.ring.fault ∧
      (ringWithdraw n (withdrawing n s)).ring.state = .faulted ∧
      ∀ u : WTag, (s.tag u).state = .orphaned → (s.tag u).dest = n →
        ((ringWithdraw n (withdrawing n s)).tag u).state = .free := by
  obtain ⟨⟨hstate, -, hfault⟩, hbusy⟩ := withdrawing_ring n hpool
  obtain ⟨h1, h2, h3⟩ := freeOrphansOf_faulted n allTags (hstate.trans hf)
  rw [ringWithdraw_faulted (hstate.trans hf)]
  refine ⟨h2.trans hfault, h1, fun u ho hd => congrArg WriteTag.state ((h3 u).trans (if_pos ?_))⟩
  rw [hbusy u (by simp [ho])]
  exact ⟨mem_allTags u, ho, hd⟩

/-- An owner that leaves leaves the processor IDLE. -/
theorem withdrawn_phase (hpool : s.poolOk) (ho : s.owner = some n) :
    (ringWithdraw n (withdrawing n s)).cmd.phase = .idle := by
  have hidle : (withdrawing n s).cmd.phase = .idle := disowned_phase ((abandoned_owner hpool).trans ho)
  obtain hc | ⟨hx, -⟩ := ringWithdraw_endsTo n (withdrawing n s)
  · rwa [hc]
  · exact absurd (hidle.symm.trans hx) nofun

/-- The events of a withdrawal leave MIE. -/
theorem withdrawn_mie (hn : n ≠ s.ownId) : (alertCheck (withdraw n (setLine n false s))).ints.mie = s.ints.mie := by
  have hframe : (setLine n false s).ints.mie = s.ints.mie ∧ (setLine n false s).ownId = s.ownId := by
    rw [setLine_of_ne hn false]
    exact ⟨rfl, rfl⟩
  refine (unsampled_alertCheck _).mie.trans ?_
  exact (withdraw_moves (z := True) (by rwa [hframe.2])).keeps (P := fun t => t.ints.mie = s.ints.mie)
    (fun _ _ hm hp => hm.alertKeep.mie.trans hp) hframe.1

end Parts

/-- Settles O20: the closings first, then the owner's loss, then the ring's part. -/
theorem withdrawalRemovesTheNode : Obligations.WithdrawalRemovesTheNode := by
  unfold Obligations.WithdrawalRemovesTheNode
  intro n s hl hn hp hpool
  obtain ⟨-, hcloses⟩ := abandonNode_eq (n := n) (s := s.without n) hpool
  have hparts := withdraw_eq hn hpool
  obtain ⟨hslot, hstats⟩ := withdraw_sampling n s
  have howner := abandoned_owner (n := n) hpool
  have hring (u : State) : (alertCheck u).ring = u.ring := by simp
  have htag (u : State) (v : WTag) : (alertCheck u).tag v = u.tag v := congrArg (fun g => g.tag v) (hring u)
  refine ⟨_, exec_withdrawal hl hn hp, ⟨?_, ?_⟩, ?_, fun ho => ?_, fun i => ?_, fun i hi hno => ?_, fun hactive hnode => ?_,
    fun hf => ?_, ?_, ?_, ?_, withdrawn_mie hn, ⟨fun i hi => ?_, fun c => ?_⟩, ?_⟩
  · simp
  · simp [setLine_of_ne hn false]
  · rw [hparts, ← howner, ← disowned_owner]
    simp [withdrawing]
  · rw [hparts]
    have hcmd : (alertCheck (ringWithdraw n (withdrawing n s))).cmd = (ringWithdraw n (withdrawing n s)).cmd := by simp
    rw [hcmd]
    exact withdrawn_phase hpool ho
  · rw [hparts, hslot i]
    by_cases hi : (s.slot i).involves n = true
    · obtain hc | hc := hcloses.closed i (by simpa using hi) <;> rw [hc] <;> rfl
    · obtain hc | ⟨-, hc⟩ := hcloses.other i (by simpa using hi) <;> rw [hc]
      · simpa using hi
      · rfl
  · rw [hparts, hslot i]
    refine (hcloses.other i (by simpa using hno)).resolve_right ?_
    rintro ⟨hns, -⟩
    exact absurd (hi.symm.trans hns) nofun
  · obtain ⟨hstate, hfault, hfree⟩ := withdrawn_active hpool hactive hnode
    rw [hparts, hring]
    exact ⟨hstate, hfault, fun u => (congrArg WriteTag.state (htag _ u)).trans (hfree u)⟩
  · obtain ⟨hfault, hstate, hfree⟩ := withdrawn_faulted (n := n) hpool hf
    rw [hparts, hring]
    exact ⟨hfault, hstate, fun u ho hd => (congrArg WriteTag.state (htag _ u)).trans (hfree u ho hd)⟩
  · simp
  · simp
  · simp
  · rw [hparts, hslot i]
    exact hcloses.closed i (by simpa using hi)
  · have hcount : (slotIds.countP fun i => (decide ((s.slot i).channel = c) &&
          !qualifiesRecord (s.chan c).bank (s.ended .abandoned i)) && (s.slot i).involves n) =
        slotIds.countP fun i => (s.slot i).involves n && decide ((s.slot i).channel = c) &&
          !qualifiesRecord (s.chan c).bank (s.ended .abandoned i) :=
      List.countP_congr fun i _ => by rw [Bool.and_comm, Bool.and_assoc]
    rw [hparts, hstats c, hcloses.filtered c, List.countP_filter]
    exact congrArg (fun k => (s.chan c).stats.filtered + BitVec.ofNat 32 k) hcount
  · rw [hparts, withdrawing, disowned, howner]
    rfl

end Sys2Proof.Machine
end

