-- ==== Sys2Proof/Proofs/Expiry.lean ====
section
/-! PROOF. The slots at a tick (R40, R76, R85): each watched transaction ages, and those at the limit close as EXPIRED in slot
order. -/

namespace Sys2Proof.Machine

section Slots

variable {s t : State}

/-! ### Ageing (R76) -/

/-- The slots visited have aged, and nothing else has changed. -/
theorem foldl_ageSlot (l : List SlotId) (hl : l.Nodup) (s : State) :
    l.foldl ageSlot s = { s with slots := (l.foldl ageSlot s).slots } ∧
      ∀ i, (l.foldl ageSlot s).slot i = if i ∈ l then (s.slot i).aged else s.slot i := by
  induction l generalizing s with
  | nil => exact ⟨rfl, fun i => (if_neg List.not_mem_nil).symm⟩
  | cons j l ih =>
    obtain ⟨hj, hnodup⟩ := List.nodup_cons.mp hl
    obtain ⟨hrest, hslot⟩ := ih hnodup (ageSlot s j)
    rw [List.foldl_cons]
    refine ⟨hrest, fun i => ?_⟩
    rw [hslot i, ageSlot, State.slot_setSlot]
    by_cases hij : i = j
    · subst hij
      simp [hj]
    · simp [hij]

/-- The state in which the expiry tests of a tick are made. -/
def ageSlots (s : State) : State := slotIds.foldl ageSlot s

theorem ageSlots_rest (s : State) : ageSlots s = { s with slots := (ageSlots s).slots } :=
  (foldl_ageSlot slotIds (by decide) s).1

theorem ageSlots_slot (s : State) (i : SlotId) : (ageSlots s).slot i = (s.slot i).aged := by
  rw [ageSlots, (foldl_ageSlot slotIds (by decide) s).2 i, if_pos (mem_slotIds i)]

theorem ageSlots_poolOk (hs : s.poolOk) : (ageSlots s).poolOk :=
  ((foldl_moves (z := True) ageSlot_moves slotIds s).pool hs).1

theorem Slot.aged_live {x : Slot} (h : x.isLive = true) : x.aged = { x with age := satInc x.age } := if_pos h

theorem Slot.aged_of_not_live {x : Slot} (h : x.isLive = false) : x.aged = x := if_neg (by simp [h])

theorem Slot.aged_isLive (x : Slot) : x.aged.isLive = x.isLive := by
  unfold Slot.aged
  split_ifs <;> rfl

theorem satInc_eq (a : BitVec 16) : satInc a = agedBy1 a := by
  have hall : BitVec.allOnes 16 = 65535 := rfl
  unfold satInc agedBy1
  rw [hall]
  by_cases h : a = 65535
  · rw [if_pos h, if_pos h, h]
  · rw [if_neg h, if_neg h]

/-! ### Expiry (R85) -/

/-- A slot closes as EXPIRED, and is counted. -/
def expireClose (s : State) (i : SlotId) : State :=
  closeSlot i .expired (s.setDev { s.dev with slotsExpired := s.dev.slotsExpired + 1 })

/-- Whether a slot is due to expire under a watch limit. -/
def expires (w : BitVec 16) (x : Slot) : Bool := x.isLive && decide (w ≠ 0) && decide (w.toNat ≤ x.age.toNat)

theorem tickSlots_eq (s : State) : tickSlots s = slotIds.foldl (visitDue expires expireClose) (ageSlots s) := rfl

theorem PathMove.slotsExpired (h : PathMove s t) : t.dev.slotsExpired = s.dev.slotsExpired := by
  cases h with
  | toQueue x rest => simp
  | gap u => rfl
  | head u x rest => rfl
  | drop x rest => simp [dropHead]
  | enter i rest => simp

theorem closeSlot_slotsExpired (i : SlotId) (e : Ending) (s : State) :
    (closeSlot i e s).dev.slotsExpired = s.dev.slotsExpired := by
  have hadvance (u : State) : (advance u).dev.slotsExpired = u.dev.slotsExpired :=
    (advance_pathMoves u).keeps (P := fun t => t.dev.slotsExpired = u.dev.slotsExpired)
      (fun _ _ hmove hp => hmove.slotsExpired.trans hp) rfl
  unfold closeSlot
  dsimp only
  split_ifs
  · exact hadvance _
  · simp

theorem foldl_expireClose_slotsExpired (l : List SlotId) (s : State) :
    (l.foldl expireClose s).dev.slotsExpired = s.dev.slotsExpired + BitVec.ofNat 32 l.length := by
  induction l generalizing s with
  | nil => simp
  | cons i l ih =>
    have hone : (expireClose s i).dev.slotsExpired = s.dev.slotsExpired + 1 := closeSlot_slotsExpired i .expired _
    rw [List.foldl_cons, ih, hone, List.length_cons, BitVec.add_assoc, Nat.add_comm, BitVec.ofNat_add]
    rfl

theorem closeSlot_engine (i : SlotId) (e : Ending) (s : State) : Engine s (closeSlot i e s) := by
  have hadvance (u : State) : Engine u (advance u) :=
    (advance_pathMoves u).keeps (P := Engine u) (fun _ _ hmove hp => hp.trans hmove.engine) (.of_eq rfl (.inl rfl))
  unfold closeSlot
  dsimp only
  split_ifs
  · refine Engine.trans ?_ (hadvance _)
    exact .of_eq rfl (.inl rfl)
  · refine Engine.trans ?_ (drainTest_engine _)
    exact .of_eq rfl (.inl rfl)

theorem expireClose_engine (s : State) (i : SlotId) : Engine s (expireClose s i) :=
  have hcount : Engine s (s.setDev { s.dev with slotsExpired := s.dev.slotsExpired + 1 }) := .of_eq rfl (.inl rfl)
  hcount.trans (closeSlot_engine i .expired _)

theorem expireClose_sameCounting (s : State) (i : SlotId) : SameCounting s (expireClose s i) :=
  have hcount : SameCounting s (s.setDev { s.dev with slotsExpired := s.dev.slotsExpired + 1 }) := .of_chans rfl rfl rfl
  hcount.trans (closeSlot_sameCounting i .expired _)

/-- A property that every closing of an expired slot extends holds of the expiry tests of a tick. -/
theorem tickSlots_extends {R : State → State → Prop} (htrans : ∀ {a b c}, R a b → R b c → R a c)
    (hexpire : ∀ u i, R u (expireClose u i)) (hage : R s (ageSlots s)) : R s (tickSlots s) := by
  rw [tickSlots_eq]
  refine foldl_keeps (P := R s) _ (fun u i hu => ?_) slotIds _ hage
  unfold visitDue
  split_ifs
  · exact htrans hu (hexpire u i)
  · exact hu

theorem tickSlots_engine (s : State) : Engine s (tickSlots s) := by
  refine tickSlots_extends (fun h1 h2 => h1.trans h2) expireClose_engine (.of_eq ?_ (.inl ?_))
  · rw [ageSlots_rest]
  · rw [ageSlots_rest]

theorem tickSlots_sameCounting (s : State) : SameCounting s (tickSlots s) := by
  refine tickSlots_extends (fun h1 h2 => h1.trans h2) expireClose_sameCounting (.of_chans ?_ ?_ ?_)
  · rw [ageSlots_rest]
  · rw [ageSlots_rest]
  · rw [ageSlots_rest]

/-- With no slot at the limit the expiry tests do nothing. -/
theorem tickSlots_of_none (h : ∀ i, expires s.watchLimit (s.slot i).aged = false) : tickSlots s = ageSlots s := by
  have hlimit : (ageSlots s).watchLimit = s.watchLimit := by rw [ageSlots_rest]
  have hnone (l : List SlotId) : l.foldl (visitDue expires expireClose) (ageSlots s) = ageSlots s := by
    induction l with
    | nil => rfl
    | cons i l ih =>
      have hi : visitDue expires expireClose (ageSlots s) i = ageSlots s := if_neg (by rw [hlimit, ageSlots_slot, h i]; nofun)
      rw [List.foldl_cons, hi]
      exact ih
  rw [tickSlots_eq, hnone]

/-- The expiry tests of a tick close the slots that are at the limit once aged. -/
theorem tickSlots_closes (hs : s.poolOk) :
    Closes .expired (slotIds.filter fun i => expires s.watchLimit (s.slot i).aged) (ageSlots s) (tickSlots s) ∧
      (tickSlots s).dev.slotsExpired = s.dev.slotsExpired +
        BitVec.ofNat 32 (slotIds.countP fun i => expires s.watchLimit (s.slot i).aged) := by
  have hlimit : (ageSlots s).watchLimit = s.watchLimit := by rw [ageSlots_rest]
  have hdev : (ageSlots s).dev = s.dev := by rw [ageSlots_rest]
  obtain ⟨heq, hcloses, -⟩ := foldl_visitDue (P := expires) (close := expireClose) (e := .expired)
    (fun _ _ hx => (Bool.and_eq_true_iff.mp (Bool.and_eq_true_iff.mp hx).1).1)
    (fun u i hu hi => by
      have hcount : Closes .expired [] u (u.setDev { u.dev with slotsExpired := u.dev.slotsExpired + 1 }) :=
        .of_unsampled (unsampled_setDev u _) (.of_eq rfl (.inl rfl)) rfl rfl
      have hpool : (u.setDev { u.dev with slotsExpired := u.dev.slotsExpired + 1 }).poolOk := hu
      refine ⟨hcount.append (closeSlot_closes hpool hi .expired) fun j hj => ?_, closeSlot_poolOk hpool hi .expired⟩
      rw [List.mem_singleton.mp hj]
      exact hi)
    (ageSlots_poolOk hs) (l := slotIds) (by decide)
  have hdue : (slotIds.filter fun i => expires (ageSlots s).watchLimit ((ageSlots s).slot i)) =
      slotIds.filter fun i => expires s.watchLimit (s.slot i).aged :=
    List.filter_congr fun i _ => by rw [hlimit, ageSlots_slot]
  rw [hdue] at heq hcloses
  refine ⟨hcloses, ?_⟩
  rw [tickSlots_eq, heq, foldl_expireClose_slotsExpired, hdev, List.countP_eq_length_filter]

end Slots

end Sys2Proof.Machine
end

