-- ==== Sys2Proof/Proofs/Ageing.lean ====
section
/-! PROOF. The write tags at a tick (R40, R134, R135, R138): the backoffs count down, the outstanding tags age, and the ones at the
write limit fault the ring or become FREE. -/

namespace Sys2Proof.Machine

section Tags

variable {s t u : State} {l : List WTag} {g : Ring}

/-! ### Backoffs (R134) -/

/-- A tag whose backoff has counted down, and ended at 0. -/
def backedOff (x : WriteTag) : WriteTag :=
  if x.state = .backoff then
    if BitVec.ofNat 8 (x.backoff.toNat - 1) = 0 then { x with state := .issued, backoff := 0, age := 0 }
    else { x with backoff := BitVec.ofNat 8 (x.backoff.toNat - 1) }
  else x

theorem backedOff_of_not {x : WriteTag} (h : x.state ≠ .backoff) : backedOff x = x := if_neg h

theorem backoff_ends {b : BitVec 8} (h : b.toNat ≤ 1) : BitVec.ofNat 8 (b.toNat - 1) = 0 := by
  rw [Nat.sub_eq_zero_of_le h]
  rfl

theorem backoff_goes_on {b : BitVec 8} (h : 2 ≤ b.toNat) :
    BitVec.ofNat 8 (b.toNat - 1) = b - 1 ∧ BitVec.ofNat 8 (b.toNat - 1) ≠ 0 := by
  have heq : BitVec.ofNat 8 (b.toNat - 1) = b - 1 := by bv_omega
  refine ⟨heq, ?_⟩
  rw [heq]
  bv_omega

/-- The tags of l have counted down, and those that ended repeat their writes. -/
structure BacksOff (l : List WTag) (s t : State) : Prop where
  ring : t.ring = { s.ring with tags := t.ring.tags }
  tag : ∀ v, t.tag v = if v ∈ l then backedOff (s.tag v) else s.tag v
  cmd : t.cmd = s.cmd
  ownId : t.ownId = s.ownId
  outbox : ∀ b ∈ s.outbox, b ∈ t.outbox
  beats : ∀ v ∈ l, (s.tag v).state = .backoff → (s.tag v).backoff.toNat ≤ 1 →
    tagBeat s.ownId s.ring v { s.tag v with state := .issued, backoff := 0, age := 0 } true ∈ t.outbox

theorem tickBackoff_backsOff (s : State) (v : WTag) : BacksOff [v] s (tickBackoff s v) := by
  have hone {x : WriteTag} (hx : x = backedOff (s.tag v)) (w : WTag) :
      (if w = v then x else s.tag w) = if w ∈ [v] then backedOff (s.tag w) else s.tag w := by
    by_cases hw : w = v
    · rw [hw, if_pos rfl, if_pos (List.mem_singleton_self v), hx]
    · rw [if_neg hw, if_neg fun h => hw (List.mem_singleton.mp h)]
  unfold tickBackoff reissueTag
  rw [State.tag_setTag_self]
  dsimp only
  by_cases hb : (s.tag v).state = .backoff
  · rw [if_pos hb]
    by_cases h0 : BitVec.ofNat 8 ((s.tag v).backoff.toNat - 1) = 0
    · rw [if_pos ⟨hb, h0⟩, h0]
      refine ⟨rfl, fun w => ?_, rfl, rfl, fun b hb => List.mem_append_left _ hb, fun w hw _ _ => ?_⟩
      · refine Eq.trans ?_ (hone (x := { s.tag v with state := .issued, backoff := 0, age := 0 }) ?_ w)
        · show ((s.setTag v _).setTag v _).tag w = _
          rw [State.tag_setTag, State.tag_setTag]
          split_ifs <;> rfl
        · rw [backedOff, if_pos hb, if_pos h0]
      · rw [List.mem_singleton.mp hw]
        exact List.mem_append_right _ (List.mem_singleton_self _)
    · rw [if_neg fun h => h0 h.2]
      refine ⟨rfl, fun w => ?_, rfl, rfl, fun _ => id, fun w hw _ h1 => ?_⟩
      · rw [State.tag_setTag]
        exact hone (by rw [backedOff, if_pos hb, if_neg h0]) w
      · rw [List.mem_singleton.mp hw] at h1
        exact absurd (backoff_ends h1) h0
  · rw [if_neg hb]
    refine ⟨rfl, fun w => ?_, rfl, rfl, fun _ => id, fun w hw hwb => ?_⟩
    · rw [← hone (backedOff_of_not hb).symm w]
      split_ifs with hw
      · rw [hw]
      · rfl
    · rw [List.mem_singleton.mp hw] at hwb
      exact absurd hwb hb

theorem BacksOff.snoc (h1 : BacksOff l s t) {v : WTag} (h2 : BacksOff [v] t u) (hv : v ∉ l) : BacksOff (l ++ [v]) s u := by
  have htv : t.tag v = s.tag v := (h1.tag v).trans (if_neg hv)
  refine ⟨by rw [h2.ring, h1.ring], fun w => ?_, h2.cmd.trans h1.cmd, h2.ownId.trans h1.ownId,
    fun b hb => h2.outbox b (h1.outbox b hb), fun w hw hb h0 => ?_⟩
  · rw [h2.tag w, h1.tag w]
    by_cases hw : w = v
    · subst hw
      simp [hv]
    · simp [hw]
  · obtain hw | hw := List.mem_append.mp hw
    · exact h2.outbox _ (h1.beats w hw hb h0)
    · obtain rfl := List.mem_singleton.mp hw
      have := h2.beats w (List.mem_singleton_self w) (by rwa [htv]) (by rwa [htv])
      rw [htv, h1.ownId, h1.ring] at this
      exact this

theorem foldl_tickBackoff (s : State) (hl : l.Nodup) : BacksOff l s (l.foldl tickBackoff s) := by
  induction l using List.reverseRecOn with
  | nil => exact ⟨rfl, fun v => (if_neg List.not_mem_nil).symm, rfl, rfl, fun _ => id, nofun⟩
  | append_singleton l v ih =>
    obtain ⟨hnodup, -, hdisj⟩ := List.nodup_append.mp hl
    rw [List.foldl_append]
    exact (ih hnodup).snoc (tickBackoff_backsOff _ v) fun hm => hdisj v hm v (List.mem_singleton_self v) rfl

/-! ### Ages (R135, R138) -/

/-- An outstanding tag at a tick: older by 1, and FREE where it is ORPHANED and at the write limit. -/
def Ring.agedTag (g : Ring) (x : WriteTag) : WriteTag :=
  if x.state = .orphaned ∧ g.writeLimit.toNat ≤ (satInc x.age).toNat then WriteTag.cleared else { x with age := satInc x.age }

theorem limitTest_of_issued {v : WTag} (h : (s.tag v).state = .issued) :
    limitTest v s = if s.ring.writeLimit.toNat ≤ (s.tag v).age.toNat then ringFault .timeout 0 (some v) s else s := by
  have htest : limitTest v s = timeoutTag v s := by rw [limitTest, h]
  rw [htest, timeoutTag]
  simp [h, Ring.limitReached]

theorem limitTest_of_orphaned {v : WTag} (h : (s.tag v).state = .orphaned) :
    limitTest v s = if s.ring.writeLimit.toNat ≤ (s.tag v).age.toNat then freeOrphan v s else s := by
  have htest : limitTest v s = expireOrphan v s := by rw [limitTest, h]
  rw [htest, expireOrphan]
  simp [h, Ring.limitReached]

theorem WriteTag.outstanding_iff (x : WriteTag) : x.outstanding = true ↔ x.state = .issued ∨ x.state = .orphaned := by
  simp [WriteTag.outstanding]

/-- The outstanding tags of l have aged, those that were outstanding in g, and none has faulted the ring. -/
structure Ages (g : Ring) (l : List WTag) (s t : State) : Prop where
  ring : t.ring = { s.ring with state := t.ring.state, tags := t.ring.tags }
  faulted : s.ring.state = .faulted → t.ring.state = .faulted
  tag : ∀ v, t.tag v = if v ∈ l ∧ (g.tag v).outstanding = true ∧ (s.tag v).outstanding = true then s.ring.agedTag (s.tag v)
    else s.tag v
  outbox : t.outbox = s.outbox
  cmd : (∀ v ∈ l, (g.tag v).outstanding = true → ¬s.ring.writeLimit.toNat ≤ (satInc (s.tag v).age).toNat) → t.cmd = s.cmd

theorem tickAge_ages (g : Ring) (s : State) (v : WTag)
    (h : (g.tag v).outstanding = true → (s.tag v).state = .issued → ¬s.ring.writeLimit.toNat ≤ (satInc (s.tag v).age).toNat) :
    Ages g [v] s (tickAge g s v) := by
  have hone {x : WriteTag} (hx : x = s.ring.agedTag (s.tag v)) (hout : (g.tag v).outstanding = true ∧ (s.tag v).outstanding = true)
      (w : WTag) : (if w = v then x else s.tag w) =
        if w ∈ [v] ∧ (g.tag w).outstanding = true ∧ (s.tag w).outstanding = true then s.ring.agedTag (s.tag w) else s.tag w := by
    by_cases hw : w = v
    · rw [hw, if_pos rfl, if_pos ⟨List.mem_singleton_self v, hout⟩, hx]
    · rw [if_neg hw, if_neg fun hm => hw (List.mem_singleton.mp hm.1)]
  unfold tickAge
  by_cases hout : (g.tag v).outstanding = true ∧ (s.tag v).outstanding = true
  · have haged (hno : ¬((s.tag v).state = .orphaned ∧ s.ring.writeLimit.toNat ≤ (satInc (s.tag v).age).toNat)) :
        Ages g [v] s (s.setTag v { s.tag v with age := satInc (s.tag v).age }) := by
      refine ⟨rfl, id, fun w => ?_, rfl, fun _ => rfl⟩
      rw [State.tag_setTag]
      exact hone (by rw [Ring.agedTag, if_neg hno]) hout w
    have hself := State.tag_setTag_self s v { s.tag v with age := satInc (s.tag v).age }
    rw [if_pos hout]
    obtain hx | hx := (s.tag v).outstanding_iff.mp hout.2
    · rw [limitTest_of_issued (by rw [hself]; exact hx), hself]
      refine (congrArg (Ages g [v] s) (if_neg (h hout.1 hx))).mpr (haged fun ho => ?_)
      exact absurd (hx.symm.trans ho.1) nofun
    · rw [limitTest_of_orphaned (by rw [hself]; exact hx), hself]
      by_cases hlim : s.ring.writeLimit.toNat ≤ (satInc (s.tag v).age).toNat
      · refine (congrArg (Ages g [v] s) (if_pos hlim)).mpr ⟨?_, fun hf => freeOrphan_faulted v hf, fun w => ?_, by simp, fun hq => ?_⟩
        · rw [freeOrphan_config]
          rfl
        · rw [freeOrphan_tag, State.tag_setTag, ← hone (x := WriteTag.cleared) (by rw [Ring.agedTag, if_pos ⟨hx, hlim⟩]) hout w]
          split_ifs <;> rfl
        · exact absurd hlim (hq v (List.mem_singleton_self v) hout.1)
      · exact (congrArg (Ages g [v] s) (if_neg hlim)).mpr (haged fun ho => hlim ho.2)
  · rw [if_neg hout]
    refine ⟨rfl, id, fun w => ?_, rfl, fun _ => rfl⟩
    rw [if_neg]
    rintro ⟨hw, h1, h2⟩
    rw [List.mem_singleton.mp hw] at h1 h2
    exact hout ⟨h1, h2⟩

theorem Ages.writeLimit (h : Ages g l s t) : t.ring.writeLimit = s.ring.writeLimit := by rw [h.ring]

theorem Ages.snoc (h1 : Ages g l s t) {v : WTag} (h2 : Ages g [v] t u) (hv : v ∉ l) : Ages g (l ++ [v]) s u := by
  have htv : t.tag v = s.tag v := (h1.tag v).trans (if_neg fun h => hv h.1)
  have hlimit := h1.writeLimit
  refine ⟨by rw [h2.ring, h1.ring], fun hf => h2.faulted (h1.faulted hf), fun w => ?_, h2.outbox.trans h1.outbox, fun hq => ?_⟩
  · rw [h2.tag w, h1.tag w]
    by_cases hw : w = v
    · subst hw
      simp [hv, Ring.agedTag, hlimit]
    · simp [hw]
  · rw [h2.cmd fun w hw hout => ?_, h1.cmd fun w hw => hq w (List.mem_append_left _ hw)]
    obtain rfl := List.mem_singleton.mp hw
    rw [hlimit, htv]
    exact hq w (List.mem_append_right _ (List.mem_singleton_self _)) hout

theorem foldl_tickAge (g : Ring) (s : State) (hl : l.Nodup)
    (h : ∀ v ∈ l, (g.tag v).outstanding = true → (s.tag v).state = .issued →
      ¬s.ring.writeLimit.toNat ≤ (satInc (s.tag v).age).toNat) : Ages g l s (l.foldl (tickAge g) s) := by
  induction l using List.reverseRecOn with
  | nil => exact ⟨rfl, id, fun v => (if_neg fun hv => List.not_mem_nil hv.1).symm, rfl, fun _ => rfl⟩
  | append_singleton l v ih =>
    obtain ⟨hnodup, -, hdisj⟩ := List.nodup_append.mp hl
    have hv : v ∉ l := fun hm => hdisj v hm v (List.mem_singleton_self v) rfl
    have h1 := ih hnodup fun w hw => h w (List.mem_append_left _ hw)
    rw [List.foldl_append]
    refine h1.snoc (tickAge_ages g _ v fun hout hi => ?_) hv
    have htv : (l.foldl (tickAge g) s).tag v = s.tag v := (h1.tag v).trans (if_neg fun h => hv h.1)
    rw [htv] at hi ⊢
    rw [h1.writeLimit]
    exact h v (List.mem_append_right _ (List.mem_singleton_self v)) hout hi

/-- The tag that reaches the write limit ISSUED faults the ring (R135). -/
theorem tickAge_timesOut {g : Ring} {v : WTag} (hout : (g.tag v).outstanding = true) (hi : (s.tag v).state = .issued)
    (hlim : s.ring.writeLimit.toNat ≤ (satInc (s.tag v).age).toNat) :
    tickAge g s v = ringFault .timeout 0 (some v) (s.setTag v { s.tag v with age := satInc (s.tag v).age }) := by
  have hself := State.tag_setTag_self s v { s.tag v with age := satInc (s.tag v).age }
  unfold tickAge
  rw [if_pos ⟨hout, (s.tag v).outstanding_iff.mpr (.inl hi)⟩, limitTest_of_issued (by rw [hself]; exact hi), hself]
  exact if_pos hlim

theorem tickAge_endsTo (g : Ring) (s : State) (v : WTag) : s.cmd.endsTo (tickAge g s v).cmd := by
  have hset : s.cmd.endsTo (s.setTag v { s.tag v with age := satInc (s.tag v).age }).cmd := .inl rfl
  unfold tickAge
  split_ifs
  · refine hset.trans ?_
    generalize s.setTag v { s.tag v with age := satInc (s.tag v).age } = u
    unfold limitTest timeoutTag expireOrphan
    cases (u.tag v).state with
    | issued =>
      dsimp only
      split_ifs
      · exact ringFault_endsTo _ _ _ u
      · exact .inl rfl
    | orphaned =>
      dsimp only
      split_ifs
      · exact freeOrphan_endsTo v u
      · exact .inl rfl
    | free => exact .inl rfl
    | backoff => exact .inl rfl
    | done => exact .inl rfl
  · exact .inl rfl

theorem tickRing_endsTo (g : Ring) (s : State) : s.cmd.endsTo (tickRing g s).cmd := by
  have hback : (allTags.foldl tickBackoff s).cmd = s.cmd := (foldl_tickBackoff s (by decide)).cmd
  unfold tickRing
  rw [← hback]
  exact foldl_endsTo (tickAge_endsTo g) _ _

theorem tickAge_slotsExpired (g : Ring) (s : State) (v : WTag) : (tickAge g s v).dev.slotsExpired = s.dev.slotsExpired := by
  have hfault (u : State) : (ringFault .timeout 0 (some v) u).dev.slotsExpired = u.dev.slotsExpired := by
    obtain ⟨-, -, -, -, -, -, hdev, -⟩ := ringFaultDisposesOfTheWrites .timeout 0 (some v) u
    rw [hdev]
  unfold tickAge
  split_ifs
  · generalize hu : s.setTag v { s.tag v with age := satInc (s.tag v).age } = u
    have hdev : u.dev = s.dev := by rw [← hu]; rfl
    rw [← hdev]
    unfold limitTest timeoutTag expireOrphan
    cases (u.tag v).state with
    | issued =>
      dsimp only
      split_ifs
      · exact hfault u
      · rfl
    | orphaned =>
      dsimp only
      split_ifs
      · simp
      · rfl
    | free => rfl
    | backoff => rfl
    | done => rfl
  · rfl

theorem tickRing_slotsExpired (g : Ring) (s : State) : (tickRing g s).dev.slotsExpired = s.dev.slotsExpired := by
  have hback : (allTags.foldl tickBackoff s).dev.slotsExpired = s.dev.slotsExpired :=
    foldl_keeps (P := fun t => t.dev.slotsExpired = s.dev.slotsExpired) tickBackoff
      (fun t v ht => by rw [← ht]; simp) allTags s rfl
  unfold tickRing
  exact foldl_keeps (P := fun t => t.dev.slotsExpired = s.dev.slotsExpired) (tickAge g)
    (fun t v ht => (tickAge_slotsExpired g t v).trans ht) allTags _ hback

end Tags

end Sys2Proof.Machine
end

