-- ==== Sys2Proof/Proofs/Ticks.lean ====
section
/-! PROOF. Row TICK (R35, R37, R40): its parts put together. -/

namespace Sys2Proof.Machine

section Ticks

variable {s : State}

/-! ### The parts of a tick -/

/-- The state after the slots' part of a tick. -/
def tickedSlots (s : State) : State := tickSlots (tickTime s)

/-- The state after the ring's part. -/
def tickedRing (s : State) : State := tickRing s.ring (tickedSlots s)

theorem exec_tick (hl : s.live = true) : exec .tick s = .next (alertCheck (tickDrain (tickedRing s))) :=
  event_of_live tickBeat s hl

theorem unsampled_ticked (s : State) : Unsampled (tickedSlots s) (alertCheck (tickDrain (tickedRing s))) :=
  ((unsampled_tickRing s.ring _).trans (unsampled_tickDrain _)).trans (unsampled_alertCheck _)

theorem tickedSlots_sameCounting (s : State) : SameCounting (tickTime s) (tickedSlots s) := by
  rw [tickedSlots]
  exact tickSlots_sameCounting (tickTime s)

theorem ticked_chan (s : State) (c : ChanId) :
    ((alertCheck (tickDrain (tickedRing s))).chan c).bank = (s.chan c).bank ∧
      ((alertCheck (tickDrain (tickedRing s))).chan c).count = (s.chan c).count ∧
      ((alertCheck (tickDrain (tickedRing s))).chan c).stats.counted = (s.chan c).stats.counted ∧
      ((alertCheck (tickDrain (tickedRing s))).chan c).stats.fires = (s.chan c).stats.fires := by
  have hcounting := tickedSlots_sameCounting s
  have hafter := (unsampled_ticked s).chan c
  generalize tickedSlots s = u at hcounting hafter
  rw [hafter]
  exact ⟨hcounting.bank c, hcounting.count c, hcounting.counted c, hcounting.fires c⟩

theorem ticked_tag (s : State) (u : WTag) : (alertCheck (tickDrain (tickedRing s))).tag u = (tickedRing s).tag u := by
  simp [State.tag]

theorem mem_alertCheck_outbox {b : Beat} {u : State} (h : b ∈ u.outbox) : b ∈ (alertCheck u).outbox := by
  unfold alertCheck
  cases u.alertDue with
  | none => exact h
  | some k => exact List.mem_append_left _ h

/-! ### The slots (R76, R85) -/

theorem expires_aged_iff {x : Slot} (h : x.isLive = true) (w : BitVec 16) :
    expires w x.aged = true ↔ w ≠ 0 ∧ w.toNat ≤ (agedBy1 x.age).toNat := by
  rw [expires, Slot.aged_isLive, h, Slot.aged_live h, satInc_eq]
  simp

theorem expires_aged_of_not_live {x : Slot} (h : x.isLive = false) (w : BitVec 16) : expires w x.aged = false := by
  rw [expires, Slot.aged_isLive, h]
  rfl

/-- The saturated age reaches a limit exactly when the age and one does. -/
theorem le_agedBy1_iff (w a : BitVec 16) : w.toNat ≤ (agedBy1 a).toNat ↔ w.toNat ≤ a.toNat + 1 := by
  have hw := w.isLt
  unfold agedBy1
  split_ifs with h
  · subst h
    show w.toNat ≤ 65535 ↔ w.toNat ≤ 65535 + 1
    omega
  · have ha : a.toNat ≠ 65535 := fun e => h (BitVec.eq_of_toNat_eq e)
    have := a.isLt
    rw [BitVec.toNat_add, show (1 : BitVec 16).toNat = 1 from rfl, Nat.mod_eq_of_lt (by omega)]

theorem tickedSlots_closes (hs : s.poolOk) :
    Closes .expired (slotIds.filter fun i => expires s.watchLimit (s.slot i).aged) (ageSlots (tickTime s)) (tickedSlots s) ∧
      (tickedSlots s).dev.slotsExpired = s.dev.slotsExpired +
        BitVec.ofNat 32 (slotIds.countP fun i => expires s.watchLimit (s.slot i).aged) := by
  have hpool : (tickTime s).poolOk := hs
  have hslot (i : SlotId) : (tickTime s).slot i = s.slot i := rfl
  have hlimit : (tickTime s).watchLimit = s.watchLimit := rfl
  have hdev : (tickTime s).dev = s.dev := rfl
  obtain ⟨hcloses, hcount⟩ := tickSlots_closes hpool
  simp only [hslot, hlimit, hdev] at hcloses hcount
  rw [tickedSlots, hcount]
  exact ⟨hcloses, rfl⟩

theorem ticked_slots (hs : s.poolOk) :
    (∀ i : SlotId, (s.slot i).isLive = true →
        if s.watchLimit ≠ 0 ∧ s.watchLimit.toNat ≤ (agedBy1 (s.slot i).age).toNat then ((tickedSlots s).slot i).isLive = false
        else (tickedSlots s).slot i = { s.slot i with age := agedBy1 (s.slot i).age }) ∧
      ∀ i : SlotId, (s.slot i).state = .closing → (tickedSlots s).slot i = s.slot i ∨ (tickedSlots s).slot i = Slot.cleared := by
  obtain ⟨hcloses, -⟩ := tickedSlots_closes hs
  have haged (i : SlotId) : (ageSlots (tickTime s)).slot i = (s.slot i).aged := ageSlots_slot (tickTime s) i
  refine ⟨fun i hi => ?_, fun i hi => ?_⟩
  · have hiff := expires_aged_iff hi s.watchLimit
    split_ifs with hdue
    · obtain hc | hc := hcloses.closed i (List.mem_filter.mpr ⟨mem_slotIds i, hiff.mpr hdue⟩) <;> rw [hc] <;> rfl
    · have hnot : i ∉ slotIds.filter fun i => expires s.watchLimit (s.slot i).aged := fun hm =>
        hdue (hiff.mp (List.mem_filter.mp hm).2)
      have hsame := (hcloses.other i hnot).resolve_right fun hf => by
        rw [haged i, Slot.aged_isLive, hi] at hf
        cases hf.1
      rw [hsame, haged i, Slot.aged_live hi, satInc_eq]
  · have hlive : (s.slot i).isLive = false := by simp [Slot.isLive, hi]
    have hnot : i ∉ slotIds.filter fun i => expires s.watchLimit (s.slot i).aged := fun hm => by
      have := (List.mem_filter.mp hm).2
      rw [expires_aged_of_not_live hlive] at this
      cases this
    have ho := hcloses.other i hnot
    rw [haged i, Slot.aged_of_not_live hlive] at ho
    exact ho.imp_right fun hf => hf.2

theorem ticked_slotsExpired (hs : s.poolOk) :
    (alertCheck (tickDrain (tickedRing s))).dev.slotsExpired = s.dev.slotsExpired + BitVec.ofNat 32
      (slotIds.countP fun i => (s.slot i).isLive &&
        decide (s.watchLimit ≠ 0 ∧ s.watchLimit.toNat ≤ (s.slot i).age.toNat + 1)) := by
  have hcount : (slotIds.countP fun i => expires s.watchLimit (s.slot i).aged) = slotIds.countP fun i => (s.slot i).isLive &&
      decide (s.watchLimit ≠ 0 ∧ s.watchLimit.toNat ≤ (s.slot i).age.toNat + 1) := by
    refine List.countP_congr fun i _ => ?_
    cases hi : (s.slot i).isLive with
    | false => rw [expires_aged_of_not_live hi, Bool.false_and]
    | true => rw [expires_aged_iff hi, le_agedBy1_iff, Bool.true_and, decide_eq_true_iff]
  have hdev : (alertCheck (tickDrain (tickedRing s))).dev = (tickedRing s).dev := by simp
  rw [hdev, tickedRing, tickRing_slotsExpired, (tickedSlots_closes hs).2, hcount]

/-! ### The tags (R134, R135, R138) -/

theorem tickedSlots_engine (s : State) : Engine s (tickedSlots s) := by
  have htime : Engine s (tickTime s) := .of_eq rfl (.inl rfl)
  exact htime.trans (tickSlots_engine (tickTime s))

/-- The state between the backoffs and the ages. -/
def backedTags (s : State) : State := allTags.foldl tickBackoff (tickedSlots s)

theorem backedTags_backsOff (s : State) : BacksOff allTags (tickedSlots s) (backedTags s) := foldl_tickBackoff _ (by decide)

theorem tickedRing_eq (s : State) : tickedRing s = allTags.foldl (tickAge s.ring) (backedTags s) := rfl

theorem backedTags_config (s : State) :
    (backedTags s).ring = { s.ring with
      tags := (backedTags s).ring.tags, lostPending := (backedTags s).ring.lostPending
      firstLost := (backedTags s).ring.firstLost } := by
  rw [(backedTags_backsOff s).ring, (tickedSlots_engine s).ring]

theorem backedTags_limit (s : State) : (backedTags s).ring.writeLimit = s.ring.writeLimit := by rw [backedTags_config]

theorem agedTag_congr {g k : Ring} (h : k.writeLimit = g.writeLimit) (x : WriteTag) : k.agedTag x = g.agedTag x := by
  rw [Ring.agedTag, Ring.agedTag, h]

theorem backedTags_tag {u : WTag} (h : (s.tag u).state ≠ .free) : (backedTags s).tag u = backedOff (s.tag u) := by
  rw [(backedTags_backsOff s).tag u, if_pos (mem_allTags u), (tickedSlots_engine s).tag u (.inl h)]

theorem backedTags_outstanding {u : WTag} (h : (s.tag u).outstanding = true) : (backedTags s).tag u = s.tag u := by
  obtain hs | hs := (s.tag u).outstanding_iff.mp h
  · rw [backedTags_tag (by simp [hs]), backedOff_of_not (by simp [hs])]
  · rw [backedTags_tag (by simp [hs]), backedOff_of_not (by simp [hs])]

theorem timesOut_iff (u : WTag) :
    s.timesOut u ↔ (s.tag u).state = .issued ∧ s.ring.writeLimit.toNat ≤ (satInc (s.tag u).age).toNat := by
  rw [satInc_eq]

/-- The tags of l age, where none of them times out. -/
theorem backedTags_ages {l : List WTag} (hl : l.Nodup) (hno : ∀ u ∈ l, ¬s.timesOut u) :
    Ages s.ring l (backedTags s) (l.foldl (tickAge s.ring) (backedTags s)) := by
  refine foldl_tickAge s.ring (backedTags s) hl fun u hu hout hi hlim => ?_
  rw [backedTags_outstanding hout] at hi hlim
  rw [backedTags_limit] at hlim
  exact hno u hu ((timesOut_iff u).mpr ⟨hi, hlim⟩)

/-- A tag after the ages of l. -/
theorem aged_tag {l : List WTag} {t : State} (h : Ages s.ring l (backedTags s) t) {u : WTag} (hu : u ∈ l)
    (hbusy : (s.tag u).state ≠ .free) :
    t.tag u = if (s.tag u).outstanding = true then s.ring.agedTag (s.tag u) else backedOff (s.tag u) := by
  rw [h.tag u]
  by_cases hout : (s.tag u).outstanding = true
  · have hsame := backedTags_outstanding hout
    rw [if_pos ⟨hu, hout, (congrArg WriteTag.outstanding hsame).trans hout⟩, if_pos hout, hsame, agedTag_congr (backedTags_limit s)]
  · rw [if_neg fun hh => hout hh.2.1, if_neg hout, backedTags_tag hbusy]

theorem agedTag_of_issued (g : Ring) {x : WriteTag} (h : x.state = .issued) : g.agedTag x = { x with age := agedBy1 x.age } := by
  have hno : ¬(x.state = .orphaned ∧ g.writeLimit.toNat ≤ (satInc x.age).toNat) := fun ho => by simp [h] at ho
  rw [Ring.agedTag, if_neg hno, satInc_eq]

theorem agedTag_of_orphaned (g : Ring) {x : WriteTag} (h : x.state = .orphaned) :
    g.agedTag x = if g.writeLimit.toNat ≤ (agedBy1 x.age).toNat then WriteTag.cleared else { x with age := agedBy1 x.age } := by
  rw [Ring.agedTag, satInc_eq]
  simp only [h, true_and]

/-- Where no tag times out, the tags change by their states. -/
theorem ticked_tags (hno : ∀ u : WTag, ¬s.timesOut u) (u : WTag) (hbusy : (s.tag u).state ≠ .free) :
    (tickedRing s).tag u = if (s.tag u).outstanding = true then s.ring.agedTag (s.tag u) else backedOff (s.tag u) := by
  rw [tickedRing_eq]
  have hages := backedTags_ages (l := allTags) (by decide) fun u _ => hno u
  exact aged_tag hages (mem_allTags u) hbusy

theorem tagBeat_congr {g k : Ring} (hbase : k.base = g.base) (hsize : k.size = g.size) (hwb : k.wbAddr = g.wbAddr)
    (own : Node) (u : WTag) (x : WriteTag) (b : Bool) : tagBeat own k u x b = tagBeat own g u x b := by
  rw [tagBeat_eq, tagBeat_eq, hbase, hsize, hwb]

/-- A write whose backoff ends goes out again. -/
theorem ticked_beat (hno : ∀ u : WTag, ¬s.timesOut u) (u : WTag) (hb : (s.tag u).state = .backoff)
    (h1 : (s.tag u).backoff.toNat ≤ 1) :
    tagBeat s.ownId s.ring u { s.tag u with state := .issued, backoff := 0, age := 0 } true ∈
      (alertCheck (tickDrain (tickedRing s))).outbox := by
  have hsame := (tickedSlots_engine s).tag u (.inl (by simp [hb]))
  have hown : (tickedSlots s).ownId = s.ownId := by simp [tickedSlots, tickTime]
  have hbeat := (backedTags_backsOff s).beats u (mem_allTags u) ((congrArg WriteTag.state hsame).trans hb)
    ((congrArg (fun x => x.backoff.toNat) hsame).trans_le h1)
  have hring := (tickedSlots_engine s).ring
  rw [hsame, hown, tagBeat_congr (g := s.ring) (by rw [hring]) (by rw [hring]) (by rw [hring])] at hbeat
  refine mem_alertCheck_outbox ?_
  have hdrain : (tickDrain (tickedRing s)).outbox = (tickedRing s).outbox := by simp
  have hages := backedTags_ages (l := allTags) (by decide) fun u _ => hno u
  rw [hdrain, tickedRing_eq, hages.outbox]
  exact hbeat

/-- The tags before and after a tag, in the order of their visits. -/
theorem allTags_split : ∀ v : WTag, allTags = allTags.filter (fun u => decide (u < v)) ++ v :: allTags.filter (fun u => decide (v < u)) := by
  decide

/-- A timeout leaves no tag ISSUED. -/
theorem disposeTag_timeout_ne_issued (b : Bool) (x : WriteTag) : (disposeTag .timeout b x).state ≠ .issued := by
  rw [disposeTag_state]
  cases b <;> split_ifs <;> nofun

/-- The lowest tag that times out faults the ring, and the later tags age as orphans. -/
theorem ticked_fault {v : WTag} (hv : s.timesOut v) (hlow : ∀ u : WTag, u < v → ¬s.timesOut u) :
    ∃ p q : State, Ages s.ring (allTags.filter fun u => decide (u < v)) (backedTags s) p ∧
      q = ringFault .timeout 0 (some v) (p.setTag v { s.tag v with age := agedBy1 (s.tag v).age }) ∧
      Ages s.ring (allTags.filter fun u => decide (v < u)) q (tickedRing s) := by
  have hbefore := backedTags_ages (l := allTags.filter fun u => decide (u < v)) (List.Nodup.filter _ (by decide))
    fun u hu => hlow u (of_decide_eq_true (List.mem_filter.mp hu).2)
  have hout : (s.ring.tag v).outstanding = true := (s.tag v).outstanding_iff.mpr (.inl hv.1)
  have hpv : ((allTags.filter fun u => decide (u < v)).foldl (tickAge s.ring) (backedTags s)).tag v = s.tag v := by
    refine ((hbefore.tag v).trans (if_neg fun h => ?_)).trans (backedTags_outstanding hout)
    exact absurd (of_decide_eq_true (List.mem_filter.mp h.1).2) (lt_irrefl v)
  have hlimit : ((allTags.filter fun u => decide (u < v)).foldl (tickAge s.ring) (backedTags s)).ring.writeLimit =
      s.ring.writeLimit :=
    hbefore.writeLimit.trans (backedTags_limit s)
  have hall : tickedRing s = (allTags.filter fun u => decide (v < u)).foldl (tickAge s.ring) (tickAge s.ring
      ((allTags.filter fun u => decide (u < v)).foldl (tickAge s.ring) (backedTags s)) v) := by
    rw [tickedRing_eq, ← List.foldl_cons, ← List.foldl_append, ← allTags_split v]
  generalize (allTags.filter fun u => decide (u < v)).foldl (tickAge s.ring) (backedTags s) = p at hbefore hpv hlimit hall
  have hfault : tickAge s.ring p v = ringFault .timeout 0 (some v) (p.setTag v { s.tag v with age := agedBy1 (s.tag v).age }) := by
    have htimes := (timesOut_iff v).mp hv
    rw [tickAge_timesOut hout (by rw [hpv]; exact htimes.1) (by rw [hpv, hlimit]; exact htimes.2), hpv, satInc_eq]
  refine ⟨p, _, hbefore, rfl, ?_⟩
  rw [hall, hfault]
  refine foldl_tickAge s.ring _ (List.Nodup.filter _ (by decide)) fun u _ _ hi => ?_
  rw [ringFault_tag] at hi
  exact absurd hi (disposeTag_timeout_ne_issued _ _)

/-- Where a tag times out: the fault, its cause, and the other ISSUED tags as orphans. -/
theorem ticked_timeout {v : WTag} (hv : s.timesOut v) (hlow : ∀ u : WTag, u < v → ¬s.timesOut u) :
    (tickedRing s).ring.state = .faulted ∧
      (tickedRing s).ring.fault =
        { cause := some .timeout, isWriteback := decide (v = 4), remoteCode := 0, tag := v
          position := if v = 4 then 0 else (s.tag v).position } ∧
      (tickedRing s).tag v = { s.tag v with state := .orphaned, age := 0 } ∧
      ∀ u : WTag, u ≠ v → (s.tag u).state = .issued →
        (tickedRing s).tag u = if s.limitAtTick u then WriteTag.cleared
          else { s.tag u with state := .orphaned, age := agedBy1 (s.tag u).age } := by
  obtain ⟨p, q, hp, hq, hr⟩ := ticked_fault hv hlow
  generalize tickedRing s = t at hr
  obtain ⟨hrest, hreg, -⟩ := ringFaultDisposesOfTheWrites .timeout 0 (some v)
    (p.setTag v { s.tag v with age := agedBy1 (s.tag v).age })
  have hqtag (u : WTag) : q.tag u = disposeTag .timeout (decide (v = u))
      (if u = v then { s.tag v with age := agedBy1 (s.tag v).age } else p.tag u) := by
    rw [hq, ringFault_tag, State.tag_setTag]
    simp
  rw [← hq] at hrest hreg
  have hqstate : q.ring.state = .faulted := by rw [hrest]
  have hqp : q.ring.writeLimit = p.ring.writeLimit := by
    rw [hrest]
    rfl
  have hqlimit : q.ring.writeLimit = s.ring.writeLimit := hqp.trans (hp.writeLimit.trans (backedTags_limit s))
  refine ⟨hr.faulted hqstate, ?_, ?_, fun u hu hi => ?_⟩
  · have hfault : t.ring.fault = q.ring.fault := by rw [hr.ring]
    rw [hfault, hreg]
    simp only [Option.some.injEq, Option.getD_some, State.tag_setTag_self]
  · rw [hr.tag v, if_neg fun h => ?_, hqtag v, if_pos rfl]
    · simp [disposeTag, RingCause.freesAll]
    · exact absurd (of_decide_eq_true (List.mem_filter.mp h.1).2) (lt_irrefl v)
  · have hout : (s.ring.tag u).outstanding = true := (s.tag u).outstanding_iff.mpr (.inl hi)
    have hdisposed {x : WriteTag} (hx : p.tag u = x) (hxi : x.state = .issued) : q.tag u = { x with state := .orphaned } := by
      rw [hqtag u, if_neg hu, hx, decide_eq_false fun e => hu e.symm]
      simp [disposeTag, RingCause.freesAll, hxi]
    obtain hlt | hgt := lt_or_gt_of_ne hu
    · have hpu : p.tag u = { s.tag u with age := agedBy1 (s.tag u).age } := by
        rw [aged_tag hp (List.mem_filter.mpr ⟨mem_allTags u, decide_eq_true hlt⟩) (by simp [hi]),
          if_pos ((s.tag u).outstanding_iff.mpr (.inl hi)), agedTag_of_issued _ hi]
      rw [hr.tag u, if_neg fun h => ?_, hdisposed hpu hi, if_neg fun hlim => hlow u hlt ⟨hi, hlim⟩]
      exact absurd (of_decide_eq_true (List.mem_filter.mp h.1).2) (lt_asymm hlt)
    · have hpu : p.tag u = s.tag u := by
        refine ((hp.tag u).trans (if_neg fun h => ?_)).trans (backedTags_outstanding hout)
        exact absurd (of_decide_eq_true (List.mem_filter.mp h.1).2) (lt_asymm hgt)
      have hqu := hdisposed hpu hi
      have hqo : (q.tag u).state = .orphaned := by rw [hqu]
      rw [hr.tag u, if_pos ⟨List.mem_filter.mpr ⟨mem_allTags u, decide_eq_true hgt⟩, hout, (q.tag u).outstanding_iff.mpr (.inr hqo)⟩,
        agedTag_of_orphaned _ hqo, hqlimit, hqu]

/-! ### The processor (R164) -/

/-- The count of a DRAIN that is EXECUTING, and its end at the timeout. -/
theorem tickDrain_cmd (u : State) :
    (tickDrain u).cmd =
      if u.cmd.phase = .executing ∧ u.cmd.code = Command.drain.code then
        (if u.cmd.drainTimeout ≠ 0 ∧ u.cmd.drainTimeout.toNat ≤ (u.cmd.drainTicks + 1).toNat then
          { u.cmd with
            drainTicks := u.cmd.drainTicks + 1, results := [statusWord .timedOut u.cmd.code 0], lastStatus := 6
            lastCode := u.cmd.code, phase := .result }
         else { u.cmd with drainTicks := u.cmd.drainTicks + 1 })
      else u.cmd := by
  by_cases hd : u.cmd.phase = .executing ∧ u.cmd.code = Command.drain.code
  · have hx := (Processor.isExecuting_iff u.cmd .drain).mpr hd
    have hiff := drainTimeoutTest_iff (u.setCmd { u.cmd with drainTicks := u.cmd.drainTicks + 1 })
    rw [if_pos hd, tickDrain, if_pos hx, drainTimeoutTest]
    by_cases hdue : u.cmd.drainTimeout ≠ 0 ∧ u.cmd.drainTimeout.toNat ≤ (u.cmd.drainTicks + 1).toNat
    · rw [if_pos (hiff.mpr ⟨hd.1, hd.2, hdue⟩), if_pos hdue]
      rfl
    · rw [if_neg (mt hiff.mp fun h => hdue h.2.2), if_neg hdue]
      rfl
  · rw [if_neg hd, tickDrain, if_neg (mt (Processor.isExecuting_iff u.cmd .drain).mp hd)]

/-- With no slot and no tag at its limit the processor goes on. -/
theorem ticked_cmd (hslots : ∀ i : SlotId, expires s.watchLimit (s.slot i).aged = false)
    (htags : ∀ u : WTag, (s.tag u).outstanding = true → ¬s.limitAtTick u) : (tickedRing s).cmd = s.cmd := by
  have hslots' : tickedSlots s = ageSlots (tickTime s) := by
    rw [tickedSlots]
    exact tickSlots_of_none hslots
  have hcmd : (tickedSlots s).cmd = s.cmd := by
    rw [hslots', ageSlots_rest]
    rfl
  have hages := backedTags_ages (s := s) (l := allTags) (by decide) fun u _ ht =>
    htags u ((s.tag u).outstanding_iff.mpr (.inl ht.1)) ht.2
  rw [tickedRing_eq, hages.cmd fun u _ hout => ?_, (backedTags_backsOff s).cmd, hcmd]
  rw [backedTags_outstanding hout, backedTags_limit, satInc_eq]
  exact htags u hout

theorem tickedRing_endsTo (s : State) : s.cmd.endsTo (tickedRing s).cmd :=
  (tickedSlots_engine s).cmd.trans (tickRing_endsTo s.ring _)

end Ticks

/-- Settles O21: the slots, the tags and the processor, part by part. -/
theorem tickAdvancesTimeAndAgesSlots : Obligations.TickAdvancesTimeAndAgesSlots := by
  unfold Obligations.TickAdvancesTimeAndAgesSlots
  refine ⟨fun s hl => ⟨_, exec_tick hl, ?_, ?_, fun c => ?_⟩, fun s hl hs => ⟨_, exec_tick hl, fun i hi => ?_, fun i hi => ?_, ?_⟩,
    fun s hl => ⟨_, exec_tick hl, fun hno u => ?_, fun v hv hlow => ?_⟩, fun s hl => ⟨_, exec_tick hl, ?_⟩⟩
  · simp [tickedRing, tickedSlots, tickTime, Timebase.restart]
  · simp [tickedRing, tickedSlots, tickTime]
  · exact ticked_chan s c
  · intro aged
    rw [(unsampled_ticked s).slot i]
    exact (ticked_slots hs).1 i hi
  · rw [(unsampled_ticked s).slot i]
    exact (ticked_slots hs).2 i hi
  · exact ticked_slotsExpired hs
  · intro x
    rw [ticked_tag]
    have hbusy : x.state ≠ .free → (tickedRing s).tag u =
        if x.outstanding = true then s.ring.agedTag x else backedOff x := ticked_tags hno u
    refine ⟨fun hb h1 => ⟨?_, ?_⟩, fun hb h2 => ?_, fun hi => ?_, fun ho => ?_, fun hd => ?_⟩
    · rw [hbusy (by simp [hb]), if_neg (by simp [WriteTag.outstanding, hb]), backedOff, if_pos hb, if_pos (backoff_ends h1)]
    · have hbeat := ticked_beat hno u hb h1
      rwa [tagBeat_eq] at hbeat
    · obtain ⟨heq, hne⟩ := backoff_goes_on h2
      rw [hbusy (by simp [hb]), if_neg (by simp [WriteTag.outstanding, hb]), backedOff, if_pos hb, if_neg hne, heq]
    · rw [hbusy (by simp [hi]), if_pos (x.outstanding_iff.mpr (.inl hi)), agedTag_of_issued _ hi]
    · rw [hbusy (by simp [ho]), if_pos (x.outstanding_iff.mpr (.inr ho)), agedTag_of_orphaned _ ho]
    · rw [hbusy (by simp [hd]), if_neg (by simp [WriteTag.outstanding, hd]), backedOff_of_not (by simp [hd])]
  · rw [ticked_tag, show (alertCheck (tickDrain (tickedRing s))).ring = (tickedRing s).ring by simp]
    obtain ⟨hstate, hfault, htag, hothers⟩ := ticked_timeout hv hlow
    exact ⟨hstate, hfault, htag, fun u hu hi => (ticked_tag s u).trans (hothers u hu hi)⟩
  · beta_reduce
    intro drain counted due
    have hcmd : (alertCheck (tickDrain (tickedRing s))).cmd = (tickDrain (tickedRing s)).cmd := by simp
    rw [hcmd, tickDrain_cmd]
    refine ⟨fun hslots htags => ?_, fun hd hx => ?_⟩
    · have hsame : (tickedRing s).cmd = s.cmd := by
        refine ticked_cmd (fun i => ?_) fun u hout => htags u ((s.tag u).outstanding_iff.mp hout)
        cases hi : (s.slot i).isLive with
        | false => exact expires_aged_of_not_live hi _
        | true =>
          rw [← Bool.not_eq_true, expires_aged_iff hi]
          exact fun h => hslots i ⟨hi, h⟩
      rw [hsame]
    · obtain hsame | ⟨-, hended⟩ := tickedRing_endsTo s
      · rw [hsame] at hx ⊢
        rw [if_pos hd] at hx ⊢
        by_cases hdue : due
        · rw [if_pos hdue] at hx
          cases hx
        · rw [if_neg hdue]
          exact ⟨rfl, hdue⟩
      · rw [if_neg fun h => hended h.1] at hx
        exact absurd hx hended

end Sys2Proof.Machine
end
